-- ==== Sys2Proof/Word.lean ====
section
/-! DEFINITION. The word types of the machine (spec/00_scope.md R6, R10, R11). -/

namespace Sys2Proof

/-- A 32-bit register, address or instruction word (R6). -/
abbrev Word := BitVec 32

/-- A half-word, 16 bits (R10). -/
abbrev Half := BitVec 16

/-- A byte, 8 bits (R10). -/
abbrev Byte := BitVec 8

/-- The number of a general-purpose register, as the 5-bit fields of an instruction hold it (R18, R30). -/
abbrev Reg := BitVec 5

/-- The 5-bit index of a control and status register (R43). -/
abbrev CsrIndex := BitVec 5

end Sys2Proof
end

