-- ==== Sys2Proof/Syntax.lean ====
section
/-! DEFINITION. The instructions: one constructor for each row of spec/opcode_table.json (30_encoding.md R156, R160, R176).
The arguments stand in the order of the row's syntax and carry its operand names; an immediate is the raw field. In the six
conditional branches rX is the field 20:16 and rY the field 25:21, as the figures print them (R330). The last six
constructors are the pseudo-instructions of R176: spellings of a machine instruction, which the decoder never gives. -/

namespace Sys2Proof

/-- An instruction of the LatticeMico32 (R160), or a pseudo-instruction of its assembler (R176). -/
inductive Instr where
  -- arithmetic (40_arithmetic.md)
  | add (rX rY rZ : Reg)
  | addi (rX rY : Reg) (imm : BitVec 16)
  | sub (rX rY rZ : Reg)
  | mul (rX rY rZ : Reg)
  | muli (rX rY : Reg) (imm : BitVec 16)
  | divu (rX rY rZ : Reg)
  | modu (rX rY rZ : Reg)
  | sextb (rX rY : Reg)
  | sexth (rX rY : Reg)
  -- logic (41_logic.md)
  | and (rX rY rZ : Reg)
  | andi (rX rY : Reg) (imm : BitVec 16)
  | andhi (rX rY : Reg) (imm : BitVec 16)
  | or (rX rY rZ : Reg)
  | ori (rX rY : Reg) (imm : BitVec 16)
  | orhi (rX rY : Reg) (imm : BitVec 16)
  | xor (rX rY rZ : Reg)
  | xori (rX rY : Reg) (imm : BitVec 16)
  | nor (rX rY rZ : Reg)
  | nori (rX rY : Reg) (imm : BitVec 16)
  | xnor (rX rY rZ : Reg)
  | xnori (rX rY : Reg) (imm : BitVec 16)
  -- comparison (42_comparison.md)
  | cmpe (rX rY rZ : Reg)
  | cmpei (rX rY : Reg) (imm : BitVec 16)
  | cmpne (rX rY rZ : Reg)
  | cmpnei (rX rY : Reg) (imm : BitVec 16)
  | cmpg (rX rY rZ : Reg)
  | cmpgi (rX rY : Reg) (imm : BitVec 16)
  | cmpgu (rX rY rZ : Reg)
  | cmpgui (rX rY : Reg) (imm : BitVec 16)
  | cmpge (rX rY rZ : Reg)
  | cmpgei (rX rY : Reg) (imm : BitVec 16)
  | cmpgeu (rX rY rZ : Reg)
  | cmpgeui (rX rY : Reg) (imm : BitVec 16)
  -- shift (43_shift.md)
  | sl (rX rY rZ : Reg)
  | sli (rX rY : Reg) (imm : BitVec 5)
  | sr (rX rY rZ : Reg)
  | sri (rX rY : Reg) (imm : BitVec 5)
  | sru (rX rY rZ : Reg)
  | srui (rX rY : Reg) (imm : BitVec 5)
  -- data transfer (44_data_transfer.md): loads `op rX, (rY+imm)`, stores `op (rX+imm), rY`
  | lb (rX rY : Reg) (imm : BitVec 16)
  | lbu (rX rY : Reg) (imm : BitVec 16)
  | lh (rX rY : Reg) (imm : BitVec 16)
  | lhu (rX rY : Reg) (imm : BitVec 16)
  | lw (rX rY : Reg) (imm : BitVec 16)
  | sb (rX : Reg) (imm : BitVec 16) (rY : Reg)
  | sh (rX : Reg) (imm : BitVec 16) (rY : Reg)
  | sw (rX : Reg) (imm : BitVec 16) (rY : Reg)
  | rcsr (rX : Reg) (csr : CsrIndex)
  | wcsr (csr : CsrIndex) (rX : Reg)
  -- program flow (45_program_flow.md)
  | b (rX : Reg)
  | bi (imm : BitVec 26)
  | be (rX rY : Reg) (imm : BitVec 16)
  | bne (rX rY : Reg) (imm : BitVec 16)
  | bg (rX rY : Reg) (imm : BitVec 16)
  | bgu (rX rY : Reg) (imm : BitVec 16)
  | bge (rX rY : Reg) (imm : BitVec 16)
  | bgeu (rX rY : Reg) (imm : BitVec 16)
  | call (rX : Reg)
  | calli (imm : BitVec 26)
  | scall
  | eret
  | brk
  | bret
  -- pseudo-instructions (R176)
  | ret
  | mv (rX rY : Reg)
  | mvhi (rX : Reg) (imm : BitVec 16)
  | not (rX rY : Reg)
  | mvi (rX : Reg) (imm : BitVec 16)
  | nop
  deriving DecidableEq, Repr

/-- Why a word has no defined meaning (30_encoding.md R164). -/
inductive DecodeError where
  /-- Opcodes 0x27, 0x2A, 0x33 and 0x35 (R164 a). -/
  | reservedOpcode (op : BitVec 6)
  /-- Opcode 0x2B with a word that is neither `scall` nor `break` (R164 b). -/
  | undefinedSystemWord
  /-- A bit is 1 where the instruction's figure prints a literal zero (R163, R164 c). -/
  | nonzeroReservedField
  deriving DecidableEq, Repr

/-- What the decoder answers: an instruction, or the reason why there is none (R166). -/
inductive Decoded where
  | instr (i : Instr)
  | undefined (e : DecodeError)
  deriving DecidableEq, Repr

end Sys2Proof
end

