-- ==== Sys2Proof/WellFormed.lean ====
section
/-! DEFINITION. Which terms of `Instr` are instructions. The operand types already bound every register number, CSR index and
immediate, so the one check left is the restriction of `b` (45_program_flow.md R321, 30_encoding.md R162). -/

namespace Sys2Proof

/-- "rX cannot be r30 (ea) or r31 (ba)" for `b`: those words are `eret` and `bret` (R321). -/
def Instr.wellFormed : Instr → Bool
  | .b rX => rX != 30#5 && rX != 31#5
  | _ => true

/-- `i` is an instruction that a word can hold. -/
abbrev Instr.WellFormed (i : Instr) : Prop := i.wellFormed = true

end Sys2Proof
end

