-- ==== Sys2Proof/Decode.lean ====
section
/-! DEFINITION. The decoder (30_encoding.md R150 to R166), and after it the encoder. -/

namespace Sys2Proof

/-! ### Fields of an instruction word (00_scope.md R18) -/

/-- `op = w[31:26]`. -/
def opcode (w : Word) : BitVec 6 := w.extractLsb' 26 6
/-- `f0 = w[25:21]`. -/
def field0 (w : Word) : Reg := w.extractLsb' 21 5
/-- `f1 = w[20:16]`. -/
def field1 (w : Word) : Reg := w.extractLsb' 16 5
/-- `f2 = w[15:11]`. -/
def field2 (w : Word) : Reg := w.extractLsb' 11 5
/-- `imm16 = w[15:0]`. -/
def fieldImm16 (w : Word) : BitVec 16 := w.extractLsb' 0 16
/-- `imm5 = w[4:0]`. -/
def fieldImm5 (w : Word) : BitVec 5 := w.extractLsb' 0 5
/-- `imm26 = w[25:0]`. -/
def fieldImm26 (w : Word) : BitVec 26 := w.extractLsb' 0 26

/-- The instruction `i` if the must-be-zero bits are zero (R163), else no meaning (R164 c). -/
def requireZero {n : Nat} (field : BitVec n) (i : Instr) : Decoded :=
  if field = 0#n then .instr i else .undefined .nonzeroReservedField

/-! ### Operand layouts (R156) -/

/-- RI: rX = `f1`, rY = `f0`, `imm16`. Also the loads and the conditional branches (R156, R330). -/
def decodeRI (mk : Reg → Reg → BitVec 16 → Instr) (w : Word) : Decoded :=
  .instr (mk (field1 w) (field0 w) (fieldImm16 w))

/-- RI shift: rX = `f1`, rY = `f0`, `imm5`, with w[15:5] zero. -/
def decodeShiftImm (mk : Reg → Reg → BitVec 5 → Instr) (w : Word) : Decoded :=
  requireZero (w.extractLsb' 5 11) (mk (field1 w) (field0 w) (fieldImm5 w))

/-- Store: base rX = `f0`, data rY = `f1`, `imm16`. -/
def decodeStore (mk : Reg → BitVec 16 → Reg → Instr) (w : Word) : Decoded :=
  .instr (mk (field0 w) (fieldImm16 w) (field1 w))

/-- RR: rX = `f2`, rY = `f0`, rZ = `f1`, with w[10:0] zero. -/
def decodeRR (mk : Reg → Reg → Reg → Instr) (w : Word) : Decoded :=
  requireZero (w.extractLsb' 0 11) (mk (field2 w) (field0 w) (field1 w))

/-- Sign extension: rX = `f2`, rY = `f0`, with w[20:16] and w[10:0] zero. -/
def decodeExtend (mk : Reg → Reg → Instr) (w : Word) : Decoded :=
  requireZero (field1 w ++ w.extractLsb' 0 11) (mk (field2 w) (field0 w))

/-- `rcsr`: the CSR index in `f0`, rX = `f2`, with w[20:16] and w[10:0] zero (R153). -/
def decodeReadCsr (w : Word) : Decoded :=
  requireZero (field1 w ++ w.extractLsb' 0 11) (.rcsr (field2 w) (field0 w))

/-- `wcsr`: the CSR index in `f0`, rX = `f1`, with w[15:0] zero. -/
def decodeWriteCsr (w : Word) : Decoded :=
  requireZero (fieldImm16 w) (.wcsr (field0 w) (field1 w))

/-- Opcode 0x30 with w[20:0] zero: `f0` = 30 is `eret`, 31 is `bret`, any other is `b` (R162, R166). -/
def decodeBranchReg (w : Word) : Decoded :=
  requireZero (w.extractLsb' 0 21)
    (if field0 w = 30#5 then .eret else if field0 w = 31#5 then .bret else .b (field0 w))

/-- Opcode 0x2B: two whole words have a meaning (R162). The word of `break` is PRESUMED (93_implementation_defined.md G2). -/
def decodeSystem (w : Word) : Decoded :=
  if w = 0xAC000007#32 then .instr .scall
  else if w = 0xAC000002#32 then .instr .brk
  else .undefined .undefinedSystemWord

/-- The decode procedure (R166) over the opcode map (R160). The opcode of `divu` is PRESUMED (93_implementation_defined.md G1;
notes/assumptions/21.md, 22.md). -/
def decode (w : Word) : Decoded :=
  match (opcode w).toNat with
  | 0x00 => decodeShiftImm .srui w
  | 0x01 => decodeRI .nori w
  | 0x02 => decodeRI .muli w
  | 0x03 => decodeStore .sh w
  | 0x04 => decodeRI .lb w
  | 0x05 => decodeShiftImm .sri w
  | 0x06 => decodeRI .xori w
  | 0x07 => decodeRI .lh w
  | 0x08 => decodeRI .andi w
  | 0x09 => decodeRI .xnori w
  | 0x0A => decodeRI .lw w
  | 0x0B => decodeRI .lhu w
  | 0x0C => decodeStore .sb w
  | 0x0D => decodeRI .addi w
  | 0x0E => decodeRI .ori w
  | 0x0F => decodeShiftImm .sli w
  | 0x10 => decodeRI .lbu w
  | 0x11 => decodeRI .be w
  | 0x12 => decodeRI .bg w
  | 0x13 => decodeRI .bge w
  | 0x14 => decodeRI .bgeu w
  | 0x15 => decodeRI .bgu w
  | 0x16 => decodeStore .sw w
  | 0x17 => decodeRI .bne w
  | 0x18 => decodeRI .andhi w
  | 0x19 => decodeRI .cmpei w
  | 0x1A => decodeRI .cmpgi w
  | 0x1B => decodeRI .cmpgei w
  | 0x1C => decodeRI .cmpgeui w
  | 0x1D => decodeRI .cmpgui w
  | 0x1E => decodeRI .orhi w
  | 0x1F => decodeRI .cmpnei w
  | 0x20 => decodeRR .sru w
  | 0x21 => decodeRR .nor w
  | 0x22 => decodeRR .mul w
  | 0x23 => decodeRR .divu w
  | 0x24 => decodeReadCsr w
  | 0x25 => decodeRR .sr w
  | 0x26 => decodeRR .xor w
  | 0x28 => decodeRR .and w
  | 0x29 => decodeRR .xnor w
  | 0x2B => decodeSystem w
  | 0x2C => decodeExtend .sextb w
  | 0x2D => decodeRR .add w
  | 0x2E => decodeRR .or w
  | 0x2F => decodeRR .sl w
  | 0x30 => decodeBranchReg w
  | 0x31 => decodeRR .modu w
  | 0x32 => decodeRR .sub w
  | 0x34 => decodeWriteCsr w
  | 0x36 => requireZero (w.extractLsb' 0 21) (.call (field0 w))
  | 0x37 => decodeExtend .sexth w
  | 0x38 => .instr (.bi (fieldImm26 w))
  | 0x39 => decodeRR .cmpe w
  | 0x3A => decodeRR .cmpg w
  | 0x3B => decodeRR .cmpge w
  | 0x3C => decodeRR .cmpgeu w
  | 0x3D => decodeRR .cmpgu w
  | 0x3E => .instr (.calli (fieldImm26 w))
  | 0x3F => decodeRR .cmpne w
  | _ => .undefined (.reservedOpcode (opcode w))

/-! ### Byte order (20_memory.md R110, R111) -/

/-- The word whose four bytes, lowest address first, are `b0` to `b3`: most significant byte first (R110, R111). -/
def wordOfBytes (b0 b1 b2 b3 : Byte) : Word := b0 ++ b1 ++ b2 ++ b3

/-- The byte of `w` at offset `k` (0 to 3) from the word's address, big-endian (R110). -/
def byteOfWord (w : Word) (k : Nat) : Byte := w.extractLsb' (24 - 8 * k) 8

/-- Decoding from the four bytes in memory, lowest address first (R111, R150). -/
def decodeBytes (b0 b1 b2 b3 : Byte) : Decoded := decode (wordOfBytes b0 b1 b2 b3)

/-- The instruction the decoder reads from `w`, whose bits above `nbits` are taken as zero, laid out in bytes as the machine stores
it. -/
def decodeTableWord (nbits w : Nat) : Option Instr :=
  let v : Word := BitVec.ofNat 32 (w % 2 ^ nbits)
  match decodeBytes (byteOfWord v 0) (byteOfWord v 1) (byteOfWord v 2) (byteOfWord v 3) with
  | .instr i => some i
  | .undefined _ => none

/-! ### The encoder (R151 to R162, opcode_table.json) -/

/-- RI word (R151). -/
def wordRI (op : BitVec 6) (f0 f1 : Reg) (imm : BitVec 16) : Word := op ++ f0 ++ f1 ++ imm
/-- RR word (R152). -/
def wordRR (op : BitVec 6) (f0 f1 f2 : Reg) : Word := op ++ f0 ++ f1 ++ f2 ++ 0#11
/-- RI shift word: w[15:5] zero (R156). -/
def wordShiftImm (op : BitVec 6) (f0 f1 : Reg) (imm : BitVec 5) : Word := op ++ f0 ++ f1 ++ 0#11 ++ imm
/-- I word (R154). -/
def wordI (op : BitVec 6) (imm : BitVec 26) : Word := op ++ imm

/-- What a pseudo-instruction stands for (R176); a machine instruction stands for itself. -/
def Instr.expand : Instr → Instr
  | .ret => .b 29#5
  | .mv rX rY => .or rX rY 0#5
  | .mvhi rX imm => .orhi rX 0#5 imm
  | .not rX rY => .xnor rX rY 0#5
  | .mvi rX imm => .addi rX 0#5 imm
  | .nop => .addi 0#5 0#5 0#16
  | i => i

/-- The word of a well-formed instruction, from the opcode map (R160), the operand layouts (R156) and the whole words of R162; a
pseudo-instruction has the word R176 gives its spelling, which is its expansion's. -/
def encode : Instr → Word
  | .add rX rY rZ => wordRR 0x2D#6 rY rZ rX
  | .addi rX rY imm => wordRI 0x0D#6 rY rX imm
  | .sub rX rY rZ => wordRR 0x32#6 rY rZ rX
  | .mul rX rY rZ => wordRR 0x22#6 rY rZ rX
  | .muli rX rY imm => wordRI 0x02#6 rY rX imm
  | .divu rX rY rZ => wordRR 0x23#6 rY rZ rX
  | .modu rX rY rZ => wordRR 0x31#6 rY rZ rX
  | .sextb rX rY => wordRR 0x2C#6 rY 0#5 rX
  | .sexth rX rY => wordRR 0x37#6 rY 0#5 rX
  | .and rX rY rZ => wordRR 0x28#6 rY rZ rX
  | .andi rX rY imm => wordRI 0x08#6 rY rX imm
  | .andhi rX rY imm => wordRI 0x18#6 rY rX imm
  | .or rX rY rZ => wordRR 0x2E#6 rY rZ rX
  | .ori rX rY imm => wordRI 0x0E#6 rY rX imm
  | .orhi rX rY imm => wordRI 0x1E#6 rY rX imm
  | .xor rX rY rZ => wordRR 0x26#6 rY rZ rX
  | .xori rX rY imm => wordRI 0x06#6 rY rX imm
  | .nor rX rY rZ => wordRR 0x21#6 rY rZ rX
  | .nori rX rY imm => wordRI 0x01#6 rY rX imm
  | .xnor rX rY rZ => wordRR 0x29#6 rY rZ rX
  | .xnori rX rY imm => wordRI 0x09#6 rY rX imm
  | .cmpe rX rY rZ => wordRR 0x39#6 rY rZ rX
  | .cmpei rX rY imm => wordRI 0x19#6 rY rX imm
  | .cmpne rX rY rZ => wordRR 0x3F#6 rY rZ rX
  | .cmpnei rX rY imm => wordRI 0x1F#6 rY rX imm
  | .cmpg rX rY rZ => wordRR 0x3A#6 rY rZ rX
  | .cmpgi rX rY imm => wordRI 0x1A#6 rY rX imm
  | .cmpgu rX rY rZ => wordRR 0x3D#6 rY rZ rX
  | .cmpgui rX rY imm => wordRI 0x1D#6 rY rX imm
  | .cmpge rX rY rZ => wordRR 0x3B#6 rY rZ rX
  | .cmpgei rX rY imm => wordRI 0x1B#6 rY rX imm
  | .cmpgeu rX rY rZ => wordRR 0x3C#6 rY rZ rX
  | .cmpgeui rX rY imm => wordRI 0x1C#6 rY rX imm
  | .sl rX rY rZ => wordRR 0x2F#6 rY rZ rX
  | .sli rX rY imm => wordShiftImm 0x0F#6 rY rX imm
  | .sr rX rY rZ => wordRR 0x25#6 rY rZ rX
  | .sri rX rY imm => wordShiftImm 0x05#6 rY rX imm
  | .sru rX rY rZ => wordRR 0x20#6 rY rZ rX
  | .srui rX rY imm => wordShiftImm 0x00#6 rY rX imm
  | .lb rX rY imm => wordRI 0x04#6 rY rX imm
  | .lbu rX rY imm => wordRI 0x10#6 rY rX imm
  | .lh rX rY imm => wordRI 0x07#6 rY rX imm
  | .lhu rX rY imm => wordRI 0x0B#6 rY rX imm
  | .lw rX rY imm => wordRI 0x0A#6 rY rX imm
  | .sb rX imm rY => wordRI 0x0C#6 rX rY imm
  | .sh rX imm rY => wordRI 0x03#6 rX rY imm
  | .sw rX imm rY => wordRI 0x16#6 rX rY imm
  | .rcsr rX csr => wordRR 0x24#6 csr 0#5 rX
  | .wcsr csr rX => wordRI 0x34#6 csr rX 0#16
  | .b rX => wordRR 0x30#6 rX 0#5 0#5
  | .bi imm => wordI 0x38#6 imm
  | .be rX rY imm => wordRI 0x11#6 rY rX imm
  | .bne rX rY imm => wordRI 0x17#6 rY rX imm
  | .bg rX rY imm => wordRI 0x12#6 rY rX imm
  | .bgu rX rY imm => wordRI 0x15#6 rY rX imm
  | .bge rX rY imm => wordRI 0x13#6 rY rX imm
  | .bgeu rX rY imm => wordRI 0x14#6 rY rX imm
  | .call rX => wordRR 0x36#6 rX 0#5 0#5
  | .calli imm => wordI 0x3E#6 imm
  | .scall => 0xAC000007#32
  | .eret => 0xC3C00000#32
  | .brk => 0xAC000002#32
  | .bret => 0xC3E00000#32
  | .ret => wordRR 0x30#6 29#5 0#5 0#5
  | .mv rX rY => wordRR 0x2E#6 rY 0#5 rX
  | .mvhi rX imm => wordRI 0x1E#6 0#5 rX imm
  | .not rX rY => wordRR 0x29#6 rY 0#5 rX
  | .mvi rX imm => wordRI 0x0D#6 0#5 rX imm
  | .nop => 0x34000000#32

end Sys2Proof
end

