-- ==== Sys2Proof/Config.lean ====
section
/-! DEFINITION. What an implementation fixes (`Cfg`, 00_scope.md R6 to R9) and the values the spec leaves free. `Cfg` is plain
data and one field of the state, so that a statement about every state is a statement about every instance of the core. -/

namespace Sys2Proof

/-! ### The platform's memory map (20_memory.md R104) -/

/-- The kind of an access to memory (R104). -/
inductive AccessKind where
  | fetch
  | read
  | write
  deriving DecidableEq, Repr

/-- The width of a data access (R117). -/
inductive AccessSize where
  | byte
  | half
  | word
  deriving DecidableEq, Repr

/-- Bytes moved by an access of this width (R117). -/
def AccessSize.bytes : AccessSize → Nat
  | .byte => 1
  | .half => 2
  | .word => 4

/-- How the platform answers an access (R104 a to d). -/
inductive Response where
  | memory
  | device
  | busError
  | noResponse
  deriving DecidableEq, Repr

/-- The answer for each width of a data access. -/
structure BySize where
  byte : Response
  half : Response
  word : Response
  deriving DecidableEq, Repr

def BySize.get (r : BySize) : AccessSize → Response
  | .byte => r.byte
  | .half => r.half
  | .word => r.word

/-- How a range of addresses answers: a fetch (always a word), reads and writes. -/
structure Answers where
  fetch : Response
  read  : BySize
  write : BySize
  deriving DecidableEq, Repr

def Answers.get (a : Answers) : AccessKind → AccessSize → Response
  | .fetch, _ => a.fetch
  | .read, n => a.read.get n
  | .write, n => a.write.get n

/-- Addresses `first` to `last`, both included. -/
structure Range where
  first : Word
  last  : Word
  deriving DecidableEq, Repr

/-- `a` lies in the range, as unsigned numbers. -/
def Range.contains (r : Range) (a : Word) : Bool :=
  decide (r.first.toNat ≤ a.toNat) && decide (a.toNat ≤ r.last.toNat)

/-- A range of addresses and how it answers. -/
structure Region where
  range   : Range
  answers : Answers
  deriving DecidableEq, Repr

/-- `MemMap` (R104): the answer to an access is that of the first region that holds its address, else `other`. -/
structure MemMap where
  regions : List Region
  other   : Answers
  deriving DecidableEq, Repr

/-! ### The configuration record (00_scope.md R7, R9) -/

/-- The parameters of one cache (R7, R121). -/
structure CacheCfg where
  enabled      : Bool
  base         : Word
  limit        : Word
  sets         : Nat
  ways         : Nat
  bytesPerLine : Nat
  deriving DecidableEq, Repr

/-- BRANCH_OPERAND_FIELDS (R330): which field of a conditional branch is the left side of the comparison. -/
inductive BranchFields where
  | asFigure
  | asToolchain
  deriving DecidableEq, Repr

/-- DC_LAYOUT (R62): the lowest bit of each field of the DC CSR. -/
structure DcLayout where
  ss : Nat
  re : Nat
  c0 : Nat
  c1 : Nat
  c2 : Nat
  c3 : Nat
  deriving DecidableEq, Repr

/-- Everything that differs between instances of the core (R6): the parameters of Table 17 in its order (R7), then those of R9 and
the values that R52, R54 and N13 leave to the instance. -/
structure Cfg where
  mcMultiply      : Bool
  plMultiply      : Bool
  divide          : Bool
  mcBarrelShift   : Bool
  plBarrelShift   : Bool
  signExtend      : Bool
  debug           : Bool
  hwDebug         : Bool
  romDebug        : Bool
  breakpoints     : Nat
  watchpoints     : Nat
  jtag            : Bool
  jtagUart        : Bool
  cycleCounter    : Bool
  icache          : CacheCfg
  dcache          : CacheCfg
  interrupts      : Nat
  ebaReset        : Word
  debaReset       : Word
  ebrPosedgeRegisterFile : Bool
  alternateEba    : Bool
  fastDownload    : Bool
  /-- CFG.REV (R1). -/
  rev             : BitVec 6
  /-- CFG bit 3, "Reserved." (R52, U9). -/
  reservedU       : Bool
  /-- CFG2 bits 31:2 (R54, U9). -/
  cfg2Reserved    : BitVec 30
  /-- Whether the cache limits are the last address or the first one past it (91_not_in_source.md N13). -/
  limitInclusive  : Bool
  /-- The instruction inline memory, if there is one (R9, R102). The spec gives its presence and no address: that it is one range of
  addresses with both ends included is a DESIGN CHOICE (notes/assumptions/47.md). -/
  iim             : Option Range
  /-- The data inline memory, if there is one (R9, R102), in the same form (DESIGN CHOICE, notes/assumptions/47.md). -/
  dim             : Option Range
  branchFields    : BranchFields
  dcLayout        : DcLayout
  memMap          : MemMap
  deriving DecidableEq, Repr

/-! ### Capability predicates (00_scope.md R8) -/

def Cfg.hasMul (c : Cfg) : Bool := c.mcMultiply || c.plMultiply
def Cfg.hasDiv (c : Cfg) : Bool := c.divide
def Cfg.hasShift (c : Cfg) : Bool := c.mcBarrelShift || c.plBarrelShift
def Cfg.hasSext (c : Cfg) : Bool := c.signExtend
def Cfg.hasDebug (c : Cfg) : Bool := c.debug
def Cfg.hasCC (c : Cfg) : Bool := c.cycleCounter
def Cfg.hasJuart (c : Cfg) : Bool := c.jtagUart
def Cfg.hasICache (c : Cfg) : Bool := c.icache.enabled
def Cfg.hasDCache (c : Cfg) : Bool := c.dcache.enabled

/-! ### Free values

Nothing in Lean gives these a value: what is proved holds whatever they are. The argument is the state's counter `free`. -/

/-- A word that the spec leaves arbitrary (D7, D20, D21, R104, R35). DESIGN CHOICE of form, safe (notes/assumptions/39.md). -/
opaque Config.freeWord : Nat → Word

/-- A choice that the spec leaves open: among the values an access may return (U15, U17), whether a line is still held after an
invalidation next to a load or store (D19), when in its four slots `wcsr ICC` takes effect (D19), or a way number after a reset. -/
opaque Config.freeChoice : Nat → Nat

/-- The registers after a reset during a run (R35, R500): counter, then register number. -/
opaque Config.freeReg : Nat → Nat → Word

/-- CFG.REV of the reference instance: D0 prints no value (R1, U19). -/
opaque Config.rev : BitVec 6

/-- CFG bit 3 of the reference instance (R52, U9). -/
opaque Config.reservedU : Bool

/-- CFG2 bits 31:2 of the reference instance (R54, U9). -/
opaque Config.cfg2Reserved : BitVec 30

/-! ### The reference instance -/

/-- The default `DC_LAYOUT` (R62). PRESUMED from the family's RTL, unsafe (notes/assumptions/20.md). -/
def DcLayout.standard : DcLayout := { ss := 0, re := 1, c0 := 2, c1 := 4, c2 := 6, c3 := 8 }

/-- Every access is answered by ordinary memory. -/
def Answers.allMemory : Answers :=
  { fetch := .memory, read := ⟨.memory, .memory, .memory⟩, write := ⟨.memory, .memory, .memory⟩ }

/-- The instance that `State.reset` describes: the defaults of Table 17 (R7) with every optional unit present and four breakpoints
and watchpoints, and a memory that answers every address, as 95_test_vectors.md supposes. DESIGN CHOICE, safe: a statement about
every state covers every instance (notes/assumptions/1.md). -/
def Cfg.reference : Cfg where
  mcMultiply := false
  plMultiply := true
  divide := true
  mcBarrelShift := false
  plBarrelShift := true
  signExtend := true
  debug := true
  hwDebug := true
  romDebug := true
  breakpoints := 4
  watchpoints := 4
  jtag := true
  jtagUart := true
  cycleCounter := true
  icache := { enabled := true, base := 0#32, limit := 0x7FFFFFFF#32, sets := 512, ways := 1, bytesPerLine := 4 }
  dcache := { enabled := true, base := 0#32, limit := 0x00FFFFFF#32, sets := 512, ways := 1, bytesPerLine := 4 }
  interrupts := 32
  ebaReset := 0#32
  debaReset := 0#32
  ebrPosedgeRegisterFile := false
  alternateEba := false
  fastDownload := false
  rev := Config.rev
  reservedU := Config.reservedU
  cfg2Reserved := Config.cfg2Reserved
  limitInclusive := true
  iim := none
  dim := none
  branchFields := .asFigure
  dcLayout := DcLayout.standard
  memMap := { regions := [], other := Answers.allMemory }

end Sys2Proof
end

