-- ==== Sys2Proof/Machine/State.lean ====
section
/-! DEFINITION. The machine's state as plain data (10_state.md R30 to R72), the reasons a step can stop, and reset. -/

namespace Sys2Proof.Machine

/-- Memory: (address, byte) pairs in rising order of address, none equal to what an unlisted address reads as (`Memory.wf`).
Addresses are bytes of the flat 32-bit space (20_memory.md R100). -/
abbrev Memory := List Host.Cell

/-- The eight exceptions (60_exceptions.md R400). -/
inductive Exc where
  | reset
  | breakpoint
  | instructionBusError
  | watchpoint
  | dataBusError
  | divideByZero
  | interrupt
  | systemCall
  deriving DecidableEq, Repr

/-- The fields of the DC CSR (R59, R61). -/
structure DebugControl where
  ss : Bool
  re : Bool
  c  : Vector (BitVec 2) 4
  deriving DecidableEq, Repr

/-- A BPn CSR (R66): bits 31:2 of the address, and the enable bit. -/
structure Breakpoint where
  a : BitVec 30
  e : Bool
  deriving DecidableEq, Repr

/-- An earlier word that a fetch from `addr` may still return (20_memory.md R125; 70_reset_and_hazards.md R511, R513): for the next
`n` executed instructions with life `some n`, until the cache is invalidated with life `none`. -/
structure StaleWord where
  addr : Word
  word : Word
  life : Option Nat
  deriving DecidableEq, Repr

/-- An earlier byte that a load from `addr` may still return (20_memory.md R124). `masked`: the core itself has stored to the byte
since another master last did (R132). `dropping`: `wcsr DCC` was executed just before, and the entry goes unless the next
instruction is a load or store (70_reset_and_hazards.md R512). -/
structure StaleByte where
  addr     : Word
  byte     : Byte
  masked   : Bool
  dropping : Bool
  deriving DecidableEq, Repr

/-- A line that a cache holds (20_memory.md R121, R123 to R125): its first address, the way it is in, and its copy of the bytes.
`dropping` as in `StaleByte`; it is false in the lines of the instruction cache. -/
structure CacheLine where
  addr     : Word
  way      : Nat
  bytes    : List Byte
  dropping : Bool
  deriving DecidableEq, Repr

/-- A write by another bus master: one transfer to the aligned word at `word ++ 00`, with the bytes it carries, lowest address first
(20_memory.md R131, R137). -/
structure BusWrite where
  word : BitVec 30
  b0   : Option Byte
  b1   : Option Byte
  b2   : Option Byte
  b3   : Option Byte
  deriving DecidableEq, Repr

/-- What the environment does before one step (00_scope.md R19): the asserted interrupt lines, the two pins, and the writes of other
masters. -/
structure Input where
  lines   : Word
  reset   : Bool
  atDebug : Bool
  writes  : List BusWrite
  deriving DecidableEq, Repr

/-- What the core sends out (20_memory.md R104 b; 10_state.md R64, R65). -/
inductive Event where
  | deviceFetch (addr : Word)
  | deviceRead (size : AccessSize) (addr : Word)
  | deviceWrite (size : AccessSize) (addr value : Word)
  | jtagTransmit (byte : Byte)
  | jtagReceiveWrite (value : Word)
  deriving DecidableEq, Repr

/-- The machine stops where the spec's treatment is `fault`: the run's guarantees end (93_implementation_defined.md). -/
inductive Fault where
  /-- Raised by lh, lhu, lw, sh and sw at an address that is no multiple of the access's size: "All unaligned accesses result in
  undefined behavior" (20_memory.md R116, U1). Safe. -/
  | misalignedData
  /-- Raised by a step with an instruction cache whose `pc` is outside the cacheable region and outside instruction inline memory
  (20_memory.md R130, U2). Safe. -/
  | fetchOutsideCacheable
  /-- Raised by a step whose `pc` is no multiple of 4, which no run reaches (10_state.md R37, 20_memory.md R114). Safe. -/
  | misalignedFetch
  deriving DecidableEq, Repr

/-- The machine gives no meaning where the spec's treatment is `refuse` (93_implementation_defined.md). -/
inductive Refusal where
  /-- Raised by `exec` for an instruction that has no meaning yet. Safe. -/
  | notModelled (mnemonic : String)
  /-- Raised by a step that fetches a word with no defined meaning (30_encoding.md R164, U3). Safe. -/
  | undefinedEncoding (e : DecodeError)
  /-- Raised by an instruction whose unit the instance lacks (30_encoding.md R165, U5). Safe. -/
  | absentUnit
  /-- Raised by b, call, eret and bret when the register has bit 1 or bit 0 set (10_state.md R40, U4). Safe. -/
  | misalignedTarget
  /-- Raised by `wcsr` to a read-only, absent or unassigned CSR (10_state.md R69, U7). Safe. -/
  | csrNotWritable (csr : CsrIndex)
  /-- Raised by a step taken with DC.SS = 1 (60_exceptions.md R443, U13). Safe. -/
  | singleStep
  /-- Raised by `break` on an instance without HasDebug (60_exceptions.md R460, U14). Safe. -/
  | breakWithoutDebug
  /-- Raised by a step of an instance whose `Cfg` violates a constraint of Table 17 (00_scope.md R8, U18). Safe. -/
  | illegalConfiguration
  deriving DecidableEq, Repr

/-- The state of the machine. The fields follow INVENTORY.md, '## State'; `inputs`, `events` and `free` are the model's own. -/
structure State where
  /-- The instance's configuration, constant in every run (R6). -/
  cfg       : Cfg
  /-- x[0] to x[31] (R30). -/
  regs      : Vector Word 32
  /-- Program counter (R37). -/
  pc        : Word
  /-- IE.IE (R44). -/
  ieIE      : Bool
  /-- IE.EIE (R44). -/
  ieEIE     : Bool
  /-- IE.BIE (R44). -/
  ieBIE     : Bool
  /-- IM (R46). -/
  im        : Word
  /-- IP (R47). -/
  ip        : Word
  /-- CC (R51). -/
  cc        : Word
  /-- EBA[31:8] (R56). -/
  eba       : BitVec 24
  /-- DC (R59). -/
  dc        : DebugControl
  /-- DEBA[31:8] (R63). -/
  deba      : BitVec 24
  /-- JTX: F in bit 8, TXD in bits 7:0 (R64). -/
  jtx       : BitVec 9
  /-- JRX: F in bit 8, RXD in bits 7:0 (R65). -/
  jrx       : BitVec 9
  /-- BP0 to BP3 (R66). -/
  bp        : Vector Breakpoint 4
  /-- WP0 to WP3 (R67). -/
  wp        : Vector Word 4
  /-- Memory (20_memory.md R100). -/
  mem       : Memory
  /-- The earlier words that the instruction cache or the prefetch may still return (R71; 20_memory.md R125). -/
  staleCode : List StaleWord
  /-- The lines that the instruction cache holds (R71; 20_memory.md R121). -/
  codeLines : List CacheLine
  /-- The way number of the instruction cache: the way that its next line goes to (R71; 20_memory.md R121). -/
  codeWay   : Nat
  /-- The invalidations of the instruction cache that are yet to take effect: of each `wcsr ICC`, how many of the next instructions
  may still have been fetched before it (20_memory.md R126; 70_reset_and_hazards.md R511). -/
  icc       : List Nat
  /-- The earlier bytes that the data cache may still return (R71; 20_memory.md R124). -/
  staleData : List StaleByte
  /-- The lines that the data cache holds (R71; 20_memory.md R121). -/
  dataLines : List CacheLine
  /-- The way number of the data cache: the way that its next line goes to (R71; 20_memory.md R121). -/
  dataWay   : Nat
  /-- The instruction executed just before was a load or store (70_reset_and_hazards.md R512). -/
  lastMem   : Bool
  /-- A bus access is outstanding that no slave will answer: the core is stuck (20_memory.md R145). -/
  waiting   : Bool
  /-- The asserted interrupt request lines (60_exceptions.md R430). -/
  intLines  : Word
  /-- The reset pin is asserted (70_reset_and_hazards.md R500). -/
  resetPin  : Bool
  /-- The level of the `at_debug` pin (60_exceptions.md R412). -/
  atDebug   : Bool
  /-- The inputs still to come, the next first (00_scope.md R19). -/
  inputs    : List Input
  /-- The output events so far, the newest first. -/
  events    : List Event
  /-- How many free values were drawn. -/
  free      : Nat
  deriving DecidableEq, Repr

/-- The state right after power-up reset of the instance `cfg`, with `at_debug` not asserted (10_state.md R41, R72;
70_reset_and_hazards.md R500). The registers, `cc`, `jtx`, `jrx` and the way numbers have no reset value in the spec: 0 is a DESIGN
CHOICE, unsafe (notes/assumptions/3.md, 5.md, 6.md, 48.md, 49.md). -/
def State.powerUp (cfg : Cfg) : State where
  cfg := cfg
  regs := Vector.replicate 32 0#32
  pc := cfg.ebaReset
  ieIE := false
  ieEIE := false
  ieBIE := false
  im := 0#32
  ip := 0#32
  cc := 0#32
  eba := cfg.ebaReset.extractLsb' 8 24
  dc := { ss := false, re := false, c := Vector.replicate 4 0#2 }
  deba := cfg.debaReset.extractLsb' 8 24
  jtx := 0#9
  jrx := 0#9
  bp := Vector.replicate 4 { a := 0#30, e := false }
  wp := Vector.replicate 4 0#32
  mem := []
  staleCode := []
  codeLines := []
  codeWay := 0
  icc := []
  staleData := []
  dataLines := []
  dataWay := 0
  lastMem := false
  waiting := false
  intLines := 0#32
  resetPin := false
  atDebug := false
  inputs := []
  events := []
  free := 0

/-- The machine right after reset: the reference instance at power-up. -/
def State.reset : State := State.powerUp Cfg.reference

end Sys2Proof.Machine
end

