-- ==== Sys2Proof/Machine/Operands.lean ====
section
/-! DEFINITION. Operand forms: immediates (30_encoding.md R157), registers, effective addresses and branch targets. -/

namespace Sys2Proof.Machine

/-- x[r] (00_scope.md R14). Register 0 is read like any other (10_state.md R31). -/
def State.reg (s : State) (r : Reg) : Word := s.regs[r.toNat]'(r.isLt)

/-- `sext_32(imm16)`. -/
def sextImm (imm : BitVec 16) : Word := imm.signExtend 32
/-- `zext_32(imm16)`. -/
def zextImm (imm : BitVec 16) : Word := imm.setWidth 32
/-- `imm16 ++ 0x0000`, the "hi" forms. -/
def highImm (imm : BitVec 16) : Word := imm ++ 0#16

/-- The shift count of the register forms: the low five bits of rZ (43_shift.md R276). -/
def shiftCount (v : Word) : Nat := (v.extractLsb' 0 5).toNat

/-- `sext_32(v[7:0])` (40_arithmetic.md R207). -/
def sextByte (v : Word) : Word := (v.extractLsb' 0 8).signExtend 32
/-- `sext_32(v[15:0])` (40_arithmetic.md R208). -/
def sextHalf (v : Word) : Word := (v.extractLsb' 0 16).signExtend 32

/-- The one addressing mode: base plus displacement, modulo 2^32 (44_data_transfer.md R285). -/
def State.effAddr (s : State) (base : Reg) (imm : BitVec 16) : Word := s.reg base + sextImm imm

/-- Target of a conditional branch: `pc + sext_32(imm16 ++ 00)`, from the branch's own address (R157, R323). -/
def State.target16 (s : State) (imm : BitVec 16) : Word := s.pc + (imm ++ 0#2).signExtend 32
/-- Target of `bi` and `calli`: `pc + sext_32(imm26 ++ 00)` (R157, R322). -/
def State.target26 (s : State) (imm : BitVec 26) : Word := s.pc + (imm ++ 0#2).signExtend 32

/-- The left and the right side of a conditional branch's comparison, from the fields rX = w[20:16] and rY = w[25:21] as the figures
print them: under `as_toolchain` the roles of the two fields are exchanged (45_program_flow.md R330). -/
def State.branchOperands (s : State) (rX rY : Reg) : Word × Word :=
  match s.cfg.branchFields with
  | .asFigure => (s.reg rX, s.reg rY)
  | .asToolchain => (s.reg rY, s.reg rX)

end Sys2Proof.Machine
end

