-- ==== Sys2Proof/Machine/Platform.lean ====
section
/-! DEFINITION. What the configuration says: which `Cfg` is legal, how the platform answers an access, what is cacheable
(00_scope.md R7, R8; 20_memory.md R102, R104, R122, R130). -/

namespace Sys2Proof.Machine

/-- The first address past the cacheable region, as a number; whether LIMIT is itself cacheable is open (N13;
notes/assumptions/18.md). -/
def cacheEnd (limitInclusive : Bool) (c : CacheCfg) : Nat :=
  if limitInclusive then c.limit.toNat + 1 else c.limit.toNat

/-- `a` lies in the cacheable region `c.base` .. `c.limit` (R102). -/
def cacheCovers (limitInclusive : Bool) (c : CacheCfg) (a : Word) : Bool :=
  c.enabled && decide (c.base.toNat ≤ a.toNat) && decide (a.toNat < cacheEnd limitInclusive c)

/-- The legal geometries of a cache (R7, R122: sets, associativity, bytes per line and size), and the two constraints of Table 17 on
its region: the base is aligned to the region's size, which is a multiple of the capacity. The values of a cache that the instance
does not have are not looked at: DESIGN CHOICE (notes/assumptions/2.md). -/
def cacheLegal (limitInclusive : Bool) (c : CacheCfg) : Bool :=
  let capacity := c.sets * c.bytesPerLine * c.ways
  let size := cacheEnd limitInclusive c - c.base.toNat
  !c.enabled ||
    ([128, 256, 512, 1024].contains c.sets && [1, 2].contains c.ways && [4, 8, 16].contains c.bytesPerLine &&
      [1024, 2048, 4096, 8192, 16384, 32768].contains capacity &&
      decide (0 < size) && size % capacity == 0 && c.base.toNat % size == 0)

/-- The constraints a legal `Cfg` satisfies (R7, R8; DEDUCED, notes/assumptions/2.md). -/
def cfgLegal (c : Cfg) : Bool :=
  (c.hasShift || c.hasSext) &&
  (!c.hwDebug || (c.debug && c.jtag)) &&
  (!c.romDebug || c.debug) &&
  (c.breakpoints == 0 || c.romDebug) &&
  (c.watchpoints == 0 || c.debug) &&
  (!c.jtagUart || c.jtag) &&
  decide (c.breakpoints ≤ 4) && decide (c.watchpoints ≤ 4) && decide (c.interrupts ≤ 32) &&
  c.ebaReset.extractLsb' 0 8 == 0#8 && c.debaReset.extractLsb' 0 8 == 0#8 &&
  cacheLegal c.limitInclusive c.icache && cacheLegal c.limitInclusive c.dcache

/-- `MemMap` (R104): how the platform answers an access of kind `k` and width `n` at `a`. -/
def respond (c : Cfg) (k : AccessKind) (n : AccessSize) (a : Word) : Response :=
  match c.memMap.regions.find? (fun r => r.range.contains a) with
  | some r => r.answers.get k n
  | none => c.memMap.other.get k n

/-- `a` lies in the inline memory that `r` describes, if there is one (R102; DESIGN CHOICE of form: notes/assumptions/47.md). -/
def inlineHolds (r : Option Range) (a : Word) : Bool :=
  match r with
  | some r => r.contains a
  | none => false

/-- Fetches from `a` go through the instruction cache: inline memory is never cached (R102, R129). -/
def codeCached (c : Cfg) (a : Word) : Bool :=
  cacheCovers c.limitInclusive c.icache a && !inlineHolds c.iim a && !inlineHolds c.dim a

/-- Loads and stores at `a` go through the data cache (R102, R129). -/
def dataCached (c : Cfg) (a : Word) : Bool :=
  cacheCovers c.limitInclusive c.dcache a && !inlineHolds c.iim a && !inlineHolds c.dim a

/-- A fetch from `a` is defined: without an instruction cache always, with one in the cacheable region or in instruction inline
memory (R130; notes/assumptions/26.md). -/
def fetchDefined (c : Cfg) (a : Word) : Bool :=
  !c.hasICache || cacheCovers c.limitInclusive c.icache a || inlineHolds c.iim a

/-- The bits of IM and IP that have an interrupt line (R46, D26; notes/assumptions/33.md). -/
def lineMask (c : Cfg) : Word := BitVec.ofNat 32 (2 ^ c.interrupts - 1)

end Sys2Proof.Machine
end

