-- ==== Sys2Proof/Machine/Ops.lean ====
section
/-! DEFINITION. The named operations over registers, memory, the caches, stale copies, exceptions and inputs. -/

namespace Sys2Proof.Machine

/-! ### Registers and the program counter -/

/-- `x[r] <- v` (00_scope.md R14), register 0 included (10_state.md R31). -/
def State.setReg (s : State) (r : Reg) (v : Word) : State := { s with regs := s.regs.set r.toNat v r.isLt }

/-- ra, the register `call` and `calli` write (R33). -/
def ra : Reg := 29#5
/-- ea, the register non-debug exception entry writes (R34). -/
def ea : Reg := 30#5
/-- ba, the register debug exception entry writes (R34). -/
def ba : Reg := 31#5

/-- `pc <- pc + 4`, modulo 2^32 (R39; DESIGN CHOICE: notes/assumptions/35.md). -/
def State.advance (s : State) : State := { s with pc := s.pc + 4#32 }

/-- The low two bits of an instruction address are zero (R37, R40). -/
def wordAligned (a : Word) : Bool := a.extractLsb' 0 2 == 0#2

/-- What a taken transfer and an exception entry do to the instructions fetched ahead: without an instruction cache the next fetch
sees memory (70_reset_and_hazards.md R513). The instruction cache's contents stay. -/
def State.refetch (s : State) : State := { s with staleCode := if s.cfg.hasICache then s.staleCode else [] }

/-- A taken transfer of control to `t`. -/
def State.jump (s : State) (t : Word) : State := { s.refetch with pc := t }

/-! ### Memory (20_memory.md R100, R110, R112, R113) -/

/-- What a byte reads as that nothing has written. DESIGN CHOICE, unsafe (notes/assumptions/7.md). -/
def Memory.unlisted : Byte := 0#8

/-- The byte at address `a`. -/
def Memory.readByte : Memory → Nat → Byte
  | [], _ => Memory.unlisted
  | (k, v) :: m, a => if a = k then v else Memory.readByte m a

/-- Memory with byte `b` at address `a`, in canonical form again. -/
def Memory.writeByte : Memory → Nat → Byte → Memory
  | [], a, b => if b = Memory.unlisted then [] else [(a, b)]
  | (k, v) :: m, a, b =>
    if a < k then (if b = Memory.unlisted then (k, v) :: m else (a, b) :: (k, v) :: m)
    else if a = k then (if b = Memory.unlisted then m else (a, b) :: m)
    else (k, v) :: Memory.writeByte m a b

/-- Addresses strictly rising from `low` and below 2^32, no entry equal to an unlisted byte. -/
def Memory.wfFrom : Nat → Memory → Bool
  | _, [] => true
  | low, (k, v) :: m => decide (low ≤ k) && decide (k < 2 ^ 32) && v != Memory.unlisted && Memory.wfFrom (k + 1) m

/-- The canonical form of memory. -/
def Memory.wf (m : Memory) : Bool := Memory.wfFrom 0 m

/-- The byte memory holds at address `a`. -/
def State.byteAt (s : State) (a : Word) : Byte := s.mem.readByte a.toNat

/-- The word whose lowest address is `a` (R110; notes/assumptions/46.md). -/
def Memory.readWord (m : Memory) (a : Word) : Word :=
  wordOfBytes (m.readByte a.toNat) (m.readByte (a + 1#32).toNat) (m.readByte (a + 2#32).toNat) (m.readByte (a + 3#32).toNat)

/-- The word memory holds at `a`. -/
def State.wordAt (s : State) (a : Word) : Word := s.mem.readWord a

/-- Memory with the bytes `bs` at `a`, `a + 1`, … -/
def Memory.writeBytes : Memory → Word → List Byte → Memory
  | m, _, [] => m
  | m, a, b :: bs => Memory.writeBytes (m.writeByte a.toNat b) (a + 1#32) bs

/-- The bytes a store of width `n` moves, from the lowest order part of the register, most significant first (R110, R285). -/
def storeBytes : AccessSize → Word → List Byte
  | .byte, v => [byteOfWord v 3]
  | .half, v => [byteOfWord v 2, byteOfWord v 3]
  | .word, v => [byteOfWord v 0, byteOfWord v 1, byteOfWord v 2, byteOfWord v 3]

/-- `a` is a multiple of the access's size (R115). -/
def aligned : AccessSize → Word → Bool
  | .byte, _ => true
  | .half, a => a.extractLsb' 0 1 == 0#1
  | .word, a => wordAligned a

/-- The address of the aligned word that holds byte `a`. -/
def wordAddress (a : Word) : Word := a &&& 0xFFFFFFFC#32

/-- `b` is one of the `n` bytes from `a` on. -/
def covers (a : Word) (n : Nat) (b : Word) : Bool := (List.range n).any (fun k => b == a + BitVec.ofNat 32 k)

/-! ### The caches: lines, sets and ways (20_memory.md R121 to R125; notes/assumptions/15.md, 48.md, 49.md) -/

/-- The first address of the cache line that holds `a` (R121, R122). That a line starts at a multiple of its length is a DESIGN
CHOICE, unsafe: the spec gives no line alignment (notes/assumptions/48.md). -/
def lineAddress (c : CacheCfg) (a : Word) : Word := BitVec.ofNat 32 (a.toNat - a.toNat % c.bytesPerLine)

/-- The set of the cache that the line of `a` goes to (R121, R122): the number of the line, modulo the number of sets. DESIGN
CHOICE, unsafe: the spec gives no index function (notes/assumptions/48.md). -/
def lineSet (c : CacheCfg) (a : Word) : Nat := a.toNat / c.bytesPerLine % c.sets

/-- The words of the line of `a`. -/
def lineWords (c : CacheCfg) (a : Word) : List Word :=
  (List.range (c.bytesPerLine / 4)).map (fun k => lineAddress c a + BitVec.ofNat 32 (4 * k))

/-- The line's byte at address `a`. -/
def CacheLine.byte (l : CacheLine) (a : Word) : Option Byte := l.bytes[(a - l.addr).toNat]?

/-- The line's value at `a`, of an access's width, in the low bits of a word (R110). -/
def CacheLine.value (l : CacheLine) (n : AccessSize) (a : Word) : Word :=
  let b := fun (k : Word) => (l.byte (a + k)).getD 0#8
  match n with
  | .byte => (b 0#32).setWidth 32
  | .half => (b 0#32 ++ b 1#32).setWidth 32
  | .word => wordOfBytes (b 0#32) (b 1#32) (b 2#32) (b 3#32)

/-- The line with `b` at address `a`. -/
def CacheLine.setByte (l : CacheLine) (a : Word) (b : Byte) : CacheLine := { l with bytes := l.bytes.set (a - l.addr).toNat b }

/-- The line of `a` among `ls`. -/
def lineOf (c : CacheCfg) (ls : List CacheLine) (a : Word) : Option CacheLine := ls.find? (fun l => l.addr == lineAddress c a)

/-- The way number after a miss: "Each time a cache miss occurs the way number is switched" (R121). -/
def nextWay (c : CacheCfg) (w : Nat) : Nat := (w + 1) % c.ways

/-- The line `l` takes the place of `l'`: it goes to the same way of the same set (R121). -/
def CacheLine.displaces (c : CacheCfg) (l l' : CacheLine) : Bool := l'.way == l.way && lineSet c l'.addr == lineSet c l.addr

/-- The lines `ls` once `l` is put in its place. -/
def putLine (c : CacheCfg) (l : CacheLine) (ls : List CacheLine) : List CacheLine := l :: ls.filter (fun l' => !l.displaces c l')

/-- The word `w` of a line that is filled, its read being answered by `r`: what memory holds, or the free value number `n` where a
device answers or nothing does (R104, R124). -/
def State.filledWord (s : State) (r : Response) (n : Nat) (w : Word) : Word :=
  if r = .memory then s.wordAt w else Config.freeWord n

/-- The line of `a` as a miss fetches it for the way `way`, word by word, `answer` being how the platform answers each. -/
def State.newLine (s : State) (c : CacheCfg) (answer : Word → Response) (way : Nat) (a : Word) : CacheLine :=
  { addr := lineAddress c a
    way := way
    bytes := (List.range (c.bytesPerLine / 4)).flatMap (fun k =>
      let w := lineAddress c a + BitVec.ofNat 32 (4 * k)
      storeBytes .word (s.filledWord (answer w) (s.free + k) w))
    dropping := false }

/-- The events of a miss at `a`, the newest first: each word of the line that a device answers (R104 b). -/
def fillEvents (c : CacheCfg) (answer : Word → Response) (event : Word → Event) (a : Word) : List Event :=
  (((lineWords c a).filter (fun w => answer w == .device)).map event).reverse

/-! ### The data cache (R119, R123, R124) -/

/-- The line in which the data cache holds `a`: a hit (R124). -/
def State.heldLine (s : State) (a : Word) : Option CacheLine :=
  if dataCached s.cfg a then lineOf s.cfg.dcache s.dataLines a else none

/-- The byte that the data port sees at `a`: the data cache's copy on a hit, else what memory holds (R112, R124). -/
def State.portByte (s : State) (a : Word) : Byte := ((s.heldLine a).bind (fun l => l.byte a)).getD (s.byteAt a)

/-- How the platform answers the read of the word `w` for the line of a load of width `n` at `a`: the word that is loaded from as it
answers the load, every other as it answers a read of that word (DESIGN CHOICE: notes/assumptions/48.md). -/
def fillAnswer (c : Cfg) (n : AccessSize) (a w : Word) : Response :=
  if w = wordAddress a then respond c .read n a else respond c .read .word w

/-- The line that a load of width `n` at `a` fills. -/
def State.fillLine (s : State) (n : AccessSize) (a : Word) : CacheLine :=
  s.newLine s.cfg.dcache (fillAnswer s.cfg n a) s.dataWay a

/-- A miss of a load of width `n` at `a`: the line is fetched and kept, in place of the one that stood there (R121, R123, R124). -/
def State.fill (s : State) (n : AccessSize) (a : Word) : State :=
  { s with
    dataLines := putLine s.cfg.dcache (s.fillLine n a) s.dataLines
    dataWay := nextWay s.cfg.dcache s.dataWay
    events := fillEvents s.cfg.dcache (fillAnswer s.cfg n a) (.deviceRead .word) a ++ s.events
    free := s.free + s.cfg.dcache.bytesPerLine / 4 }

/-- What a load of width `n` at `a` does to the data cache: a miss fills a line, and nothing happens on a hit or where `a` is not
cached. -/
def State.cacheLoad (s : State) (n : AccessSize) (a : Word) : State :=
  if dataCached s.cfg a && (s.heldLine a).isNone then s.fill n a else s

/-- The line after a store of `bs` at `a`: the bytes that the cache covers are written in the line that holds them (R123). -/
def CacheLine.write (c : Cfg) : CacheLine → Word → List Byte → CacheLine
  | l, _, [] => l
  | l, a, b :: bs =>
    CacheLine.write c (if dataCached c a && l.addr == lineAddress c.dcache a then l.setByte a b else l) (a + 1#32) bs

/-- The way number after a store at `a`: a store that misses fills no line (R123), but is a miss (R121; DEDUCED:
notes/assumptions/48.md). -/
def State.storeWay (s : State) (a : Word) : Nat :=
  if dataCached s.cfg a && (s.heldLine a).isNone then nextWay s.cfg.dcache s.dataWay else s.dataWay

/-- What an invalidation next to a load or store leaves: each line that was to be dropped is held or not, which is free, the counter
of free values being `n` (70_reset_and_hazards.md R512, D19; notes/assumptions/14.md). -/
def settleLines : Nat → List CacheLine → List CacheLine
  | _, [] => []
  | n, l :: ls =>
    if l.dropping && Config.freeChoice n % 2 != 0 then settleLines (n + 1) ls
    else { l with dropping := false } :: settleLines (n + 1) ls

/-! ### The instruction cache (R121, R125, R126; notes/assumptions/13.md, 15.md, 44.md, 49.md) -/

/-- How the platform answers the fetch of the word `w`. -/
def fetchAnswer (c : Cfg) (w : Word) : Response := respond c .fetch .word w

/-- The line in which the instruction cache holds `a`: a hit (R125). -/
def State.heldCode (s : State) (a : Word) : Option CacheLine :=
  if codeCached s.cfg a then lineOf s.cfg.icache s.codeLines a else none

/-- The word that the instruction port sees at `a`: the instruction cache's copy on a hit, else what memory holds (R114, R125). -/
def State.portWord (s : State) (a : Word) : Word :=
  match s.heldCode a with
  | some l => l.value .word a
  | none => s.wordAt a

/-- The line that a fetch from `a` fills. -/
def State.codeLine (s : State) (a : Word) : CacheLine := s.newLine s.cfg.icache (fetchAnswer s.cfg) s.codeWay a

/-- A miss of a fetch from `a`: the line is fetched and kept, in place of the one that stood there (R121; DEDUCED:
notes/assumptions/49.md). -/
def State.fillCode (s : State) (a : Word) : State :=
  { s with
    codeLines := putLine s.cfg.icache (s.codeLine a) s.codeLines
    codeWay := nextWay s.cfg.icache s.codeWay
    events := fillEvents s.cfg.icache (fetchAnswer s.cfg) .deviceFetch a ++ s.events
    free := s.free + s.cfg.icache.bytesPerLine / 4 }

/-- What a fetch from `a` does to the instruction cache: a miss fills a line, and nothing happens on a hit or where `a` is not
cached. That only the fetch of a step does so is a DESIGN CHOICE, unsafe (notes/assumptions/15.md). -/
def State.cacheFetch (s : State) (a : Word) : State :=
  if codeCached s.cfg a && (s.heldCode a).isNone then s.fillCode a else s

/-- Up to how many slots left an invalidation takes effect now: those with one left do, and more, which is free (D19; DESIGN CHOICE:
notes/assumptions/13.md). -/
def slotsDue (n : Nat) : Nat := max 1 (Config.freeChoice n % 5)

/-- The lines that are left one executed instruction later, when the invalidations `icc` are pending (R126, R511). -/
def settleCode (n : Nat) (icc : List Nat) (ls : List CacheLine) : List CacheLine :=
  if icc.any (fun d => decide (d ≤ slotsDue n)) then [] else ls

/-- The invalidations that are still pending one executed instruction later. -/
def pendingCode (n : Nat) (icc : List Nat) : List Nat := (icc.filter (fun d => decide (slotsDue n < d))).map (· - 1)

/-! ### What the caches and the prefetch may still hold (20_memory.md R124 to R127; 70_reset_and_hazards.md R511 to R513) -/

/-- How long the old contents of the word at `a` may still be fetched after a store of the core: with an instruction cache until it
is invalidated, if the word is cacheable (R125); without one for the next five executed instructions (R513). -/
def storeLife (c : Cfg) (a : Word) : Option (Option Nat) :=
  if c.hasICache then (if codeCached c a then some none else none) else some (some 5)

/-- The same after a write of another master: only the instruction cache keeps old words (R125). -/
def masterLife (c : Cfg) (a : Word) : Option (Option Nat) :=
  if codeCached c a then some none else none

/-- The words that a fetch may still return once memory becomes `m`, which differs from `s.mem` in the word at `a` alone. -/
def State.recordCode (s : State) (a : Word) (life : Option (Option Nat)) (m : Memory) : List StaleWord :=
  match life with
  | none => s.staleCode
  | some l => if m.readWord a = s.wordAt a then s.staleCode else { addr := a, word := s.wordAt a, life := l } :: s.staleCode

/-- The core stores `bs` at `a` in ordinary memory (R113, R123): memory and a line that is held hold them, and the core's own loads
see them (R132; notes/assumptions/13.md, 14.md, 45.md). -/
def State.storeMemory (s : State) (a : Word) (bs : List Byte) : State :=
  let m := s.mem.writeBytes a bs
  { s with
    mem := m
    staleCode := s.recordCode (wordAddress a) (storeLife s.cfg (wordAddress a)) m
    staleData := s.staleData.map (fun e => if covers a bs.length e.addr then { e with masked := true } else e)
    dataLines := s.dataLines.map (fun l => l.write s.cfg a bs)
    dataWay := s.storeWay a }

/-- Another master writes byte `b`, if there is one, at `a`; the data cache may keep the old byte (R124). -/
def State.masterByte (s : State) (a : Word) : Option Byte → State
  | none => s
  | some b =>
    { s with
      mem := s.mem.writeByte a.toNat b
      staleData :=
        if dataCached s.cfg a then
          { addr := a, byte := s.byteAt a, masked := false, dropping := false } ::
            s.staleData.map (fun e => if e.addr = a then { e with masked := false } else e)
        else s.staleData }

/-- Another master's transfer to one aligned word (R131, R137; notes/assumptions/12.md). -/
def State.masterWrite (s : State) (w : BusWrite) : State :=
  let a : Word := w.word ++ 0#2
  let t := (((s.masterByte a w.b0).masterByte (a + 1#32) w.b1).masterByte (a + 2#32) w.b2).masterByte (a + 3#32) w.b3
  { t with staleCode := s.recordCode a (masterLife s.cfg a) t.mem }

/-- The earlier bytes that `staleData` holds for `a` (R124). -/
def State.staleBytes (s : State) (a : Word) : List Byte :=
  if dataCached s.cfg a then (s.staleData.filter (fun e => e.addr == a && !e.masked)).map (·.byte) else []

/-- What the data cache may return at `a` beside the byte that memory holds: the earlier bytes, and its own copy if that differs
(R124). -/
def State.oldBytes (s : State) (a : Word) : List Byte :=
  s.staleBytes a ++ (if s.portByte a = s.byteAt a then [] else [s.portByte a])

/-- The byte that a load sees at `a`: the cache's copy or what memory holds; where another master has overwritten the byte, one of
these and the earlier bytes, the choice `n` being free (R112, R124, U17; DESIGN CHOICE: notes/assumptions/14.md). -/
def State.loadByte (s : State) (n : Nat) (a : Word) : Byte :=
  match s.staleBytes a with
  | [] => s.portByte a
  | olds => (s.portByte a :: s.byteAt a :: olds).getD (Config.freeChoice n % (olds.length + 2)) (s.portByte a)

/-- `MemRead(a, n)` of ordinary memory, in the low bits of a word (R110, R112). -/
def State.loadMemory (s : State) (n : AccessSize) (a : Word) : Word :=
  match n with
  | .byte => (s.loadByte s.free a).setWidth 32
  | .half => (s.loadByte s.free a ++ s.loadByte (s.free + 1) (a + 1#32)).setWidth 32
  | .word =>
    wordOfBytes (s.loadByte s.free a) (s.loadByte (s.free + 1) (a + 1#32)) (s.loadByte (s.free + 2) (a + 2#32))
      (s.loadByte (s.free + 3) (a + 3#32))

/-- Every byte of the access has one value only: no earlier byte may be returned. -/
def State.loadFresh (s : State) (n : AccessSize) (a : Word) : Bool :=
  (List.range n.bytes).all (fun k => (s.oldBytes (a + BitVec.ofNat 32 k)).isEmpty)

/-- The counter of free values after a load: four are drawn if the load had a choice. -/
def State.loadDraw (s : State) (n : AccessSize) (a : Word) : State :=
  { s with free := if s.loadFresh n a then s.free else s.free + 4 }

/-- The earlier words that `staleCode` holds for `a`: without an instruction cache the prefetched ones, with one those of a
cacheable address (R125, R129, R513). -/
def State.staleWords (s : State) (a : Word) : List Word :=
  if !s.cfg.hasICache || codeCached s.cfg a then (s.staleCode.filter (fun e => e.addr == a)).map (·.word) else []

/-- What a fetch from `a` may return beside the word that memory holds: the earlier words, and the instruction cache's own copy if
that differs (R125). -/
def State.oldWords (s : State) (a : Word) : List Word :=
  s.staleWords a ++ (if s.portWord a = s.wordAt a then [] else [s.portWord a])

/-- The word that a fetch from `a` returns: the cache's copy or what memory holds; where the word was overwritten, one of these and
the earlier words, the choice being free (R114, R125, U15; DESIGN CHOICE: notes/assumptions/13.md). -/
def State.fetchMemory (s : State) (a : Word) : Word :=
  match s.staleWords a with
  | [] => s.portWord a
  | olds => (s.portWord a :: s.wordAt a :: olds).getD (Config.freeChoice s.free % (olds.length + 2)) (s.portWord a)

/-- The counter of free values after a fetch: one is drawn if the fetch had a choice. -/
def State.fetchDraw (s : State) (a : Word) : State :=
  { s with free := if (s.staleWords a).isEmpty then s.free else s.free + 1 }

/-- The word that a fetch returns which a device answers: from the line that the instruction cache holds or fills, or from the
device itself where the address is not cached (notes/assumptions/44.md). -/
def State.deviceWord (s : State) (a : Word) : Word :=
  if codeCached s.cfg a then ((s.heldCode a).getD (s.codeLine a)).value .word a else Config.freeWord s.free

/-- What such a fetch does: where the address is cached what every fetch does to the cache, and else an event. -/
def State.deviceFetch (s : State) (a : Word) : State :=
  if codeCached s.cfg a then s.cacheFetch a else { s with events := .deviceFetch a :: s.events, free := s.free + 1 }

/-- `wcsr ICC`: the whole instruction cache is invalidated, but the next four instructions may still be fetched as they were before
(20_memory.md R126; 70_reset_and_hazards.md R511): the invalidation takes effect now or later in these slots, which is free (DESIGN
CHOICE: notes/assumptions/13.md). -/
def State.invalidateCode (s : State) : State :=
  let now := Config.freeChoice s.free % 2 == 0
  { s with
    staleCode := s.staleCode.map (fun e => { e with life := some (e.life.getD 4) })
    codeLines := if now then [] else s.codeLines
    icc := if now then [] else s.icc ++ [4]
    free := s.free + 1 }

/-- `wcsr DCC`: the whole data cache is invalidated, unless the instruction just before was a load or store or the next one is
(20_memory.md R127; 70_reset_and_hazards.md R512). What counts as just before and as the next one is a DESIGN CHOICE
(notes/assumptions/14.md). -/
def State.invalidateData (s : State) : State :=
  { s with
    staleData := if s.lastMem then s.staleData else s.staleData.map (fun e => { e with dropping := true })
    dataLines :=
      let marked := s.dataLines.map (fun l => { l with dropping := true })
      if s.lastMem then settleLines s.free marked else marked
    free := if s.lastMem then s.free + s.dataLines.length else s.free }

/-- One executed instruction later: a word with no slot left is no longer fetched. -/
def StaleWord.age (e : StaleWord) : Option StaleWord :=
  match e.life with
  | none => some e
  | some n => if n ≤ 1 then none else some { e with life := some (n - 1) }

/-- What passes before an instruction is executed: the slots counted since `wcsr ICC` or a store go down by one (R511, R513), and a
`wcsr DCC` just before takes effect unless this instruction is a load or store, be it one that traps (R512; DESIGN CHOICE:
notes/assumptions/14.md). -/
def State.prepare (s : State) (isMem : Bool) : State :=
  let n := if isMem then s.free + s.dataLines.length else s.free
  { s with
    codeLines := settleCode n s.icc s.codeLines
    icc := pendingCode n s.icc
    staleCode := s.staleCode.filterMap StaleWord.age
    staleData :=
      if isMem then s.staleData.map (fun e => { e with dropping := false }) else s.staleData.filter (fun e => !e.dropping)
    dataLines := if isMem then settleLines s.free s.dataLines else s.dataLines.filter (fun l => !l.dropping)
    free := if s.icc.isEmpty then n else n + 1 }

/-! ### Exceptions (60_exceptions.md R400 to R415) -/

/-- The exception's ID (R400). -/
def excId : Exc → Nat
  | .reset => 0
  | .breakpoint => 1
  | .instructionBusError => 2
  | .watchpoint => 3
  | .dataBusError => 4
  | .divideByZero => 5
  | .interrupt => 6
  | .systemCall => 7

/-- Breakpoint and Watchpoint are the debug exceptions (R401). -/
def isDebugExc : Exc → Bool
  | .breakpoint => true
  | .watchpoint => true
  | .reset => false
  | .instructionBusError => false
  | .dataBusError => false
  | .divideByZero => false
  | .interrupt => false
  | .systemCall => false

/-- EBA as software reads it (R57). -/
def State.ebaWord (s : State) : Word := s.eba ++ 0#8
/-- DEBA as software reads it (R63). -/
def State.debaWord (s : State) : Word := s.deba ++ 0#8

/-- The base address of the exception's vector (R412; DESIGN CHOICE: notes/assumptions/32.md). -/
def State.vectorBase (s : State) (e : Exc) : Word :=
  if isDebugExc e then s.debaWord
  else if s.cfg.hasDebug && s.dc.re then s.debaWord
  else if s.cfg.alternateEba && s.cfg.hasDebug && s.atDebug then s.debaWord
  else s.ebaWord

/-- The address of the exception's handler: base + ID * 32 (R412, R413). -/
def State.vector (s : State) (e : Exc) : Word := s.vectorBase e + BitVec.ofNat 32 (excId e * 32)

/-- TAKING AN EXCEPTION: debug entry (R411) saves the pc in ba and IE.IE in BIE, non-debug entry (R410) saves them in ea and EIE;
both clear IE.IE and go to the vector. Nothing else changes (R410, R414) but what was fetched ahead (R513). -/
def State.enter (s : State) (e : Exc) : State :=
  if isDebugExc e then
    { (s.refetch).setReg ba s.pc with ieBIE := s.ieIE, ieIE := false, pc := s.vector e }
  else
    { (s.refetch).setReg ea s.pc with ieEIE := s.ieIE, ieIE := false, pc := s.vector e }

/-- A transfer to the address in a register: no meaning if it is no multiple of 4 (10_state.md R40, U4; DESIGN CHOICE, safe:
notes/assumptions/25.md). -/
def State.jumpTo (s : State) (t : Word) : Host.Outcome State Fault Refusal :=
  if wordAligned t then .next (s.jump t) else .refused .misalignedTarget

/-- RETURN FROM AN EXCEPTION: `pc <- t; IE.IE <- enable` (R446), where `eret` gives ea and EIE, `bret` gives ba and BIE. -/
def State.returnTo (s : State) (t : Word) (enable : Bool) : Host.Outcome State Fault Refusal :=
  if wordAligned t then .next { s.jump t with ieIE := enable } else .refused .misalignedTarget

/-- Where Reset sends the pc: EBA_RESET, or DEBA_RESET with dynamic mapping and `at_debug` asserted (10_state.md R41,
70_reset_and_hazards.md R500). -/
def State.resetPc (s : State) : Word :=
  if s.cfg.alternateEba && s.cfg.hasDebug && s.atDebug then s.cfg.debaReset else s.cfg.ebaReset

/-- RESET during a run (70_reset_and_hazards.md R500): the CSRs take their reset values, the caches are emptied, the registers are
to be treated as arbitrary (10_state.md R35), and so are the way numbers (notes/assumptions/48.md, 49.md). Memory, pins and
configuration stay; CC, JTX and JRX hold free values already (notes/assumptions/4.md). -/
def State.takeReset (s : State) : State :=
  { s with
    regs := Vector.ofFn (fun i : Fin 32 => Config.freeReg s.free i.val)
    pc := s.resetPc
    ieIE := false
    ieEIE := false
    ieBIE := false
    im := 0#32
    ip := s.intLines &&& lineMask s.cfg
    eba := s.cfg.ebaReset.extractLsb' 8 24
    dc := { ss := false, re := false, c := Vector.replicate 4 0#2 }
    deba := s.cfg.debaReset.extractLsb' 8 24
    bp := Vector.replicate 4 { a := 0#30, e := false }
    wp := Vector.replicate 4 0#32
    staleCode := []
    codeLines := []
    codeWay := Config.freeChoice (s.free + 1) % s.cfg.icache.ways
    icc := []
    staleData := []
    dataLines := []
    dataWay := Config.freeChoice s.free % s.cfg.dcache.ways
    lastMem := false
    waiting := false
    free := s.free + 2 }

/-! ### Interrupts (60_exceptions.md R430, R431) -/

/-- IM as software reads it: bits without a line read 0 (10_state.md R46, D26). -/
def State.imWord (s : State) : Word := s.im &&& lineMask s.cfg
/-- IP as software reads it (10_state.md R47, D26). -/
def State.ipWord (s : State) : Word := s.ip &&& lineMask s.cfg

/-- `IE.IE = 1 and (IP & IM) != 0` (R431; DESIGN CHOICE: notes/assumptions/33.md). -/
def State.interruptPending (s : State) : Bool := s.ieIE && (s.ipWord &&& s.imWord) != 0#32

/-! ### Debug (60_exceptions.md R440, R442) -/

/-- A hardware breakpoint matches the pc (R440). -/
def State.breakpointHit (s : State) : Bool :=
  s.cfg.hasDebug &&
    [0, 1, 2, 3].any (fun n : Fin 4 => decide (n.val < s.cfg.breakpoints) && s.bp[n].e && s.bp[n].a == s.pc.extractLsb' 2 30)

/-- The bit of DC.Cn that enables a watchpoint for the kind of access (R61, R442). Fetches never match. -/
def watchEnabled (c : BitVec 2) : AccessKind → Bool
  | .fetch => false
  | .read => c.getLsbD 0
  | .write => c.getLsbD 1

/-- A watchpoint matches a data access at `a`: all 32 bits equal (R442, D17). -/
def State.watchpointHit (s : State) (k : AccessKind) (a : Word) : Bool :=
  s.cfg.hasDebug &&
    [0, 1, 2, 3].any (fun n : Fin 4 => decide (n.val < s.cfg.watchpoints) && s.wp[n] == a && watchEnabled s.dc.c[n] k)

/-! ### Data accesses (44_data_transfer.md R294) -/

/-- What becomes of a data access. -/
inductive DataAccess where
  | trap (e : Exc)
  | misaligned
  | stuck
  | device
  | memory
  deriving DecidableEq, Repr

/-- Steps 2 to 4 of R294, in order: watchpoint, alignment, the platform's answer (notes/assumptions/24.md, 31.md). -/
def State.dataAccess (s : State) (k : AccessKind) (n : AccessSize) (a : Word) : DataAccess :=
  if s.watchpointHit k a then .trap .watchpoint
  else if !aligned n a then .misaligned
  else match respond s.cfg k n a with
    | .busError => .trap .dataBusError
    | .noResponse => .stuck
    | .device => .device
    | .memory => .memory

/-- A value read from a device: the device's own choice (20_memory.md R104 b), of the access's width. -/
def deviceValue (n : AccessSize) (v : Word) : Word :=
  match n with
  | .byte => (v.extractLsb' 0 8).setWidth 32
  | .half => (v.extractLsb' 0 16).setWidth 32
  | .word => v

/-- The value that a load of a device takes: from the line that the data cache holds or fills, or from the device itself where the
address is not cached (R119, R124). -/
def State.deviceData (s : State) (n : AccessSize) (a : Word) : Word :=
  if dataCached s.cfg a then ((s.heldLine a).getD (s.fillLine n a)).value n a else deviceValue n (Config.freeWord s.free)

/-- What else a load of a device does: where the address is cached what every load does to the cache, and else an event. -/
def State.deviceRead (s : State) (n : AccessSize) (a : Word) : State :=
  if dataCached s.cfg a then s.cacheLoad n a else { s with events := .deviceRead n a :: s.events, free := s.free + 1 }

/-- The value that the access's width leaves of a register, for a device. -/
def storeValue (n : AccessSize) (v : Word) : Word := deviceValue n v

/-- The core writes a device: an output event (20_memory.md R104 b), and a line that is held is written too (R123). -/
def State.deviceWrite (s : State) (n : AccessSize) (a v : Word) : State :=
  { s with
    events := .deviceWrite n a (storeValue n v) :: s.events
    dataLines := s.dataLines.map (fun l => l.write s.cfg a (storeBytes n v))
    dataWay := s.storeWay a }

/-- The access never terminates: the core is stuck (20_memory.md R145, U12; notes/assumptions/10.md). -/
def State.stall (s : State) : State := { s with waiting := true }

/-- A load of width `n` (R294): `extend` widens what `MemRead` gives. -/
def State.load (s : State) (n : AccessSize) (extend : Word → Word) (dest base : Reg) (imm : BitVec 16) :
    Host.Outcome State Fault Refusal :=
  let a := s.effAddr base imm
  match s.dataAccess .read n a with
  | .trap e => .next (s.enter e)
  | .misaligned => .fault .misalignedData
  | .stuck => .next s.stall
  | .device => .next (((s.deviceRead n a).setReg dest (extend (s.deviceData n a))).advance)
  | .memory => .next ((((s.loadDraw n a).cacheLoad n a).setReg dest (extend (s.loadMemory n a))).advance)

/-- A store of width `n` (R294). -/
def State.store (s : State) (n : AccessSize) (base : Reg) (imm : BitVec 16) (data : Reg) :
    Host.Outcome State Fault Refusal :=
  let a := s.effAddr base imm
  match s.dataAccess .write n a with
  | .trap e => .next (s.enter e)
  | .misaligned => .fault .misalignedData
  | .stuck => .next s.stall
  | .device => .next (s.deviceWrite n a (s.reg data)).advance
  | .memory => .next (s.storeMemory a (storeBytes n (s.reg data))).advance

/-! ### Results in a register -/

/-- `x[rX] <- v`, then the implicit `pc <- pc + 4` (00_scope.md R14). -/
def State.result (s : State) (rX : Reg) (v : Word) : State := (s.setReg rX v).advance

/-- An instruction that needs a unit: no meaning on an instance without it (30_encoding.md R165; DESIGN CHOICE, safe:
notes/assumptions/23.md). -/
def needs (present : Bool) (o : Host.Outcome State Fault Refusal) : Host.Outcome State Fault Refusal :=
  if present then o else .refused .absentUnit

/-- A conditional branch (45_program_flow.md R323). -/
def State.branchIf (s : State) (taken : Bool) (imm : BitVec 16) : State :=
  if taken then s.jump (s.target16 imm) else s.advance

/-! ### Inputs (00_scope.md R19; 60_exceptions.md R430) -/

/-- The next input, if there is one: pins and lines take their new levels, other masters' writes reach memory. With no input left
the levels stay (notes/assumptions/11.md). -/
def State.takeInput (s : State) : State :=
  match s.inputs with
  | [] => s
  | i :: rest =>
    i.writes.foldl State.masterWrite
      { s with inputs := rest, intLines := i.lines, resetPin := i.reset, atDebug := i.atDebug }

/-- The start of a step: the input is taken; asserted lines set their IP bits (10_state.md R47, R430); CC has gone on by an unknown
number of cycles (R51, D20); the JTAG host has put what it likes in JTX and JRX (R64, R65, D21; notes/assumptions/5.md, 6.md,
11.md). -/
def State.sample (s : State) : State :=
  let t := s.takeInput
  { t with
    ip := t.ip ||| (t.intLines &&& lineMask t.cfg)
    cc := if t.cfg.hasCC then t.cc + Config.freeWord t.free else t.cc
    jtx := if t.cfg.hasJuart then (Config.freeWord (t.free + 1)).extractLsb' 0 9 else t.jtx
    jrx := if t.cfg.hasJuart then (Config.freeWord (t.free + 2)).extractLsb' 0 9 else t.jrx
    free := t.free + 3 }

end Sys2Proof.Machine
end

