-- ==== Sys2Proof/Machine/Arithmetic.lean ====
section
/-! DEFINITION. Arithmetic instructions (40_arithmetic.md R200 to R209): 32-bit wrap-around, no flags. -/

namespace Sys2Proof.Machine

/-- `add`: x[rY] + x[rZ] (R200). -/
def execAdd (rX rY rZ : Reg) (s : State) : Host.Outcome State Fault Refusal :=
  .next (s.result rX (s.reg rY + s.reg rZ))

/-- `addi`: x[rY] + sext_32(imm16) (R201). -/
def execAddi (rX rY : Reg) (imm : BitVec 16) (s : State) : Host.Outcome State Fault Refusal :=
  .next (s.result rX (s.reg rY + sextImm imm))

/-- `sub`: x[rY] - x[rZ] (R202). -/
def execSub (rX rY rZ : Reg) (s : State) : Host.Outcome State Fault Refusal :=
  .next (s.result rX (s.reg rY - s.reg rZ))

/-- `mul`: low 32 bits of the product (R203). -/
def execMul (rX rY rZ : Reg) (s : State) : Host.Outcome State Fault Refusal :=
  needs s.cfg.hasMul (.next (s.result rX (s.reg rY * s.reg rZ)))

/-- `muli`: low 32 bits of x[rY] * sext_32(imm16) (R204). -/
def execMuli (rX rY : Reg) (imm : BitVec 16) (s : State) : Host.Outcome State Fault Refusal :=
  needs s.cfg.hasMul (.next (s.result rX (s.reg rY * sextImm imm)))

/-- `divu`: unsigned quotient, or DivideByZero (R205, R423). -/
def execDivu (rX rY rZ : Reg) (s : State) : Host.Outcome State Fault Refusal :=
  needs s.cfg.hasDiv
    (if s.reg rZ = 0#32 then .next (s.enter .divideByZero) else .next (s.result rX (s.reg rY / s.reg rZ)))

/-- `modu`: unsigned remainder, or DivideByZero (R206, R423). -/
def execModu (rX rY rZ : Reg) (s : State) : Host.Outcome State Fault Refusal :=
  needs s.cfg.hasDiv
    (if s.reg rZ = 0#32 then .next (s.enter .divideByZero) else .next (s.result rX (s.reg rY % s.reg rZ)))

/-- `sextb` (R207). -/
def execSextb (rX rY : Reg) (s : State) : Host.Outcome State Fault Refusal :=
  needs s.cfg.hasSext (.next (s.result rX (sextByte (s.reg rY))))

/-- `sexth` (R208). -/
def execSexth (rX rY : Reg) (s : State) : Host.Outcome State Fault Refusal :=
  needs s.cfg.hasSext (.next (s.result rX (sextHalf (s.reg rY))))

end Sys2Proof.Machine
end

