-- ==== Sys2Proof/Machine/Flags.lean ====
section
/-! DEFINITION. The machine has no flags (10_state.md R42): a comparison gives 1 or 0 in a register (42_comparison.md R262), and a
conditional branch tests the same relations (45_program_flow.md R323). These are the relations (00_scope.md R12). -/

namespace Sys2Proof.Machine

/-- `a >s b`. -/
def gtSigned (a b : Word) : Bool := decide (b.toInt < a.toInt)
/-- `a >=s b`. -/
def geSigned (a b : Word) : Bool := decide (b.toInt ≤ a.toInt)
/-- `a >u b`. -/
def gtUnsigned (a b : Word) : Bool := decide (b.toNat < a.toNat)
/-- `a >=u b`. -/
def geUnsigned (a b : Word) : Bool := decide (b.toNat ≤ a.toNat)

/-- "The instructions return 1 if true and 0 if false" (R262). -/
def boolWord (c : Bool) : Word := if c then 1#32 else 0#32

end Sys2Proof.Machine
end

