-- ==== Sys2Proof/Machine/Comparison.lean ====
section
/-! DEFINITION. Comparison instructions (42_comparison.md R250 to R262): 1 if true, 0 if false. -/

namespace Sys2Proof.Machine

/-- `cmpe` (R250). -/
def execCmpe (rX rY rZ : Reg) (s : State) : Host.Outcome State Fault Refusal :=
  .next (s.result rX (boolWord (decide (s.reg rY = s.reg rZ))))

/-- `cmpei` (R251). -/
def execCmpei (rX rY : Reg) (imm : BitVec 16) (s : State) : Host.Outcome State Fault Refusal :=
  .next (s.result rX (boolWord (decide (s.reg rY = sextImm imm))))

/-- `cmpne` (R252). -/
def execCmpne (rX rY rZ : Reg) (s : State) : Host.Outcome State Fault Refusal :=
  .next (s.result rX (boolWord (decide (s.reg rY ≠ s.reg rZ))))

/-- `cmpnei` (R253). -/
def execCmpnei (rX rY : Reg) (imm : BitVec 16) (s : State) : Host.Outcome State Fault Refusal :=
  .next (s.result rX (boolWord (decide (s.reg rY ≠ sextImm imm))))

/-- `cmpg` (R254). -/
def execCmpg (rX rY rZ : Reg) (s : State) : Host.Outcome State Fault Refusal :=
  .next (s.result rX (boolWord (gtSigned (s.reg rY) (s.reg rZ))))

/-- `cmpgi` (R255). -/
def execCmpgi (rX rY : Reg) (imm : BitVec 16) (s : State) : Host.Outcome State Fault Refusal :=
  .next (s.result rX (boolWord (gtSigned (s.reg rY) (sextImm imm))))

/-- `cmpgu` (R256). -/
def execCmpgu (rX rY rZ : Reg) (s : State) : Host.Outcome State Fault Refusal :=
  .next (s.result rX (boolWord (gtUnsigned (s.reg rY) (s.reg rZ))))

/-- `cmpgui` (R257). -/
def execCmpgui (rX rY : Reg) (imm : BitVec 16) (s : State) : Host.Outcome State Fault Refusal :=
  .next (s.result rX (boolWord (gtUnsigned (s.reg rY) (zextImm imm))))

/-- `cmpge` (R258). -/
def execCmpge (rX rY rZ : Reg) (s : State) : Host.Outcome State Fault Refusal :=
  .next (s.result rX (boolWord (geSigned (s.reg rY) (s.reg rZ))))

/-- `cmpgei` (R259). -/
def execCmpgei (rX rY : Reg) (imm : BitVec 16) (s : State) : Host.Outcome State Fault Refusal :=
  .next (s.result rX (boolWord (geSigned (s.reg rY) (sextImm imm))))

/-- `cmpgeu` (R260). -/
def execCmpgeu (rX rY rZ : Reg) (s : State) : Host.Outcome State Fault Refusal :=
  .next (s.result rX (boolWord (geUnsigned (s.reg rY) (s.reg rZ))))

/-- `cmpgeui` (R261). -/
def execCmpgeui (rX rY : Reg) (imm : BitVec 16) (s : State) : Host.Outcome State Fault Refusal :=
  .next (s.result rX (boolWord (geUnsigned (s.reg rY) (zextImm imm))))

end Sys2Proof.Machine
end

