-- ==== Sys2Proof/Machine/Csr.lean ====
section
/-! DEFINITION. The control and status registers: `csr_read` and `csr_write` (10_state.md R43 to R69), and the two instructions that
use them (44_data_transfer.md R295, R296). -/

namespace Sys2Proof.Machine

/-- One configuration bit as a field of CFG. -/
def cfgBit (b : Bool) : BitVec 1 := BitVec.ofBool b

/-- IE as software reads it: `zext_32(BIE ++ EIE ++ IE)` (R45). -/
def State.ieWord (s : State) : Word := 0#29 ++ cfgBit s.ieBIE ++ cfgBit s.ieEIE ++ cfgBit s.ieIE

/-- CFG: `REV ++ WP ++ BP ++ INT ++ J ++ R ++ H ++ G ++ IC ++ DC ++ CC ++ X ++ U ++ S ++ D ++ M` (R52; DEDUCED,
notes/assumptions/41.md). -/
def cfgValue (c : Cfg) : Word :=
  c.rev ++ BitVec.ofNat 4 c.watchpoints ++ BitVec.ofNat 4 c.breakpoints ++ BitVec.ofNat 6 c.interrupts ++
    cfgBit c.hasJuart ++ cfgBit c.romDebug ++ cfgBit c.hwDebug ++ cfgBit c.debug ++ cfgBit c.hasICache ++ cfgBit c.hasDCache ++
    cfgBit c.hasCC ++ cfgBit c.hasSext ++ cfgBit c.reservedU ++ cfgBit c.hasShift ++ cfgBit c.hasDiv ++ cfgBit c.hasMul

/-- CFG2: bit 1 IIM, bit 0 DIM (R54). -/
def cfg2Value (c : Cfg) : Word := c.cfg2Reserved ++ cfgBit c.iim.isSome ++ cfgBit c.dim.isSome

/-- `csr_read(k)` where the spec defines the value (R68); none for a write-only, absent or unassigned register, whose value is
arbitrary (U6; notes/assumptions/27.md, 34.md). -/
def State.csrRead (s : State) (k : CsrIndex) : Option Word :=
  match k.toNat with
  | 0x00 => some s.ieWord
  | 0x01 => some s.imWord
  | 0x02 => some s.ipWord
  | 0x05 => if s.cfg.hasCC then some s.cc else none
  | 0x06 => some (cfgValue s.cfg)
  | 0x07 => some s.ebaWord
  | 0x09 => if s.cfg.hasDebug then some s.debaWord else none
  | 0x0A => some (cfg2Value s.cfg)
  | 0x0E => if s.cfg.hasJuart then some (0#23 ++ s.jtx) else none
  | 0x0F => if s.cfg.hasJuart then some (0#23 ++ s.jrx) else none
  | _ => none

/-- DC's fields from the word written, by `DC_LAYOUT` (R59, R62). -/
def dcOfWord (l : DcLayout) (v : Word) : DebugControl :=
  { ss := v.getLsbD l.ss
    re := v.getLsbD l.re
    c := #v[v.extractLsb' l.c0 2, v.extractLsb' l.c1 2, v.extractLsb' l.c2 2, v.extractLsb' l.c3 2] }

/-- BPn's fields from the word written; bit 1 is ignored (R66, D8). -/
def bpOfWord (v : Word) : Breakpoint := { a := v.extractLsb' 2 30, e := v.getLsbD 0 }

/-- The write of BPn, if the instance has it (R69). -/
def State.writeBp (s : State) (n : Fin 4) (v : Word) : Option State :=
  if s.cfg.hasDebug && decide (n.val < s.cfg.breakpoints) then some { s with bp := s.bp.set n (bpOfWord v) } else none

/-- The write of WPn, if the instance has it (R69). -/
def State.writeWp (s : State) (n : Fin 4) (v : Word) : Option State :=
  if s.cfg.hasDebug && decide (n.val < s.cfg.watchpoints) then some { s with wp := s.wp.set n v } else none

/-- `csr_write(k, v)` where the spec defines it (R69); none for a read-only, absent or unassigned register (U7;
notes/assumptions/27.md, 34.md). -/
def State.csrWrite (s : State) (k : CsrIndex) (v : Word) : Option State :=
  match k.toNat with
  | 0x00 => some { s with ieIE := v.getLsbD 0, ieEIE := v.getLsbD 1, ieBIE := v.getLsbD 2 }
  | 0x01 => some { s with im := v &&& lineMask s.cfg }
  | 0x02 => some { s with ip := (s.ip &&& ~~~v) ||| (s.intLines &&& lineMask s.cfg) }
  | 0x03 => if s.cfg.hasICache then some s.invalidateCode else none
  | 0x04 => if s.cfg.hasDCache then some s.invalidateData else none
  | 0x07 => some { s with eba := v.extractLsb' 8 24 }
  | 0x08 => if s.cfg.hasDebug then some { s with dc := dcOfWord s.cfg.dcLayout v } else none
  | 0x09 => if s.cfg.hasDebug then some { s with deba := v.extractLsb' 8 24 } else none
  | 0x0E => if s.cfg.hasJuart then some { s with events := .jtagTransmit (v.extractLsb' 0 8) :: s.events } else none
  | 0x0F => if s.cfg.hasJuart then some { s with events := .jtagReceiveWrite v :: s.events } else none
  | 0x10 => s.writeBp 0 v
  | 0x11 => s.writeBp 1 v
  | 0x12 => s.writeBp 2 v
  | 0x13 => s.writeBp 3 v
  | 0x18 => s.writeWp 0 v
  | 0x19 => s.writeWp 1 v
  | 0x1A => s.writeWp 2 v
  | 0x1B => s.writeWp 3 v
  | _ => none

/-- `rcsr rX, csr` (R295): a register that cannot be read gives a free value (U6). -/
def execRcsr (rX : Reg) (k : CsrIndex) (s : State) : Host.Outcome State Fault Refusal :=
  match s.csrRead k with
  | some v => .next (s.result rX v)
  | none => .next (({ s with free := s.free + 1 } : State).result rX (Config.freeWord s.free))

/-- `wcsr csr, rX` (R296). -/
def execWcsr (k : CsrIndex) (rX : Reg) (s : State) : Host.Outcome State Fault Refusal :=
  match s.csrWrite k (s.reg rX) with
  | some t => .next t.advance
  | none => .refused (.csrNotWritable k)

end Sys2Proof.Machine
end

