-- ==== Sys2Proof/Machine/Flow.lean ====
section
/-! DEFINITION. Program flow instructions (45_program_flow.md R320 to R345). -/

namespace Sys2Proof.Machine

/-- `b rX` (R321). -/
def execB (rX : Reg) (s : State) : Host.Outcome State Fault Refusal :=
  s.jumpTo (s.reg rX)

/-- `bi imm26` (R322). -/
def execBi (imm : BitVec 26) (s : State) : Host.Outcome State Fault Refusal :=
  .next (s.jump (s.target26 imm))

/-- `be rX, rY, imm16` (R324, operand placement R330). -/
def execBe (rX rY : Reg) (imm : BitVec 16) (s : State) : Host.Outcome State Fault Refusal :=
  let p := s.branchOperands rX rY
  .next (s.branchIf (decide (p.1 = p.2)) imm)

/-- `bne rX, rY, imm16` (R325, operand placement R330). -/
def execBne (rX rY : Reg) (imm : BitVec 16) (s : State) : Host.Outcome State Fault Refusal :=
  let p := s.branchOperands rX rY
  .next (s.branchIf (decide (p.1 ≠ p.2)) imm)

/-- `bg rX, rY, imm16` (R326, operand placement R330). -/
def execBg (rX rY : Reg) (imm : BitVec 16) (s : State) : Host.Outcome State Fault Refusal :=
  let p := s.branchOperands rX rY
  .next (s.branchIf (gtSigned p.1 p.2) imm)

/-- `bgu rX, rY, imm16` (R327, operand placement R330). -/
def execBgu (rX rY : Reg) (imm : BitVec 16) (s : State) : Host.Outcome State Fault Refusal :=
  let p := s.branchOperands rX rY
  .next (s.branchIf (gtUnsigned p.1 p.2) imm)

/-- `bge rX, rY, imm16` (R328, operand placement R330). -/
def execBge (rX rY : Reg) (imm : BitVec 16) (s : State) : Host.Outcome State Fault Refusal :=
  let p := s.branchOperands rX rY
  .next (s.branchIf (geSigned p.1 p.2) imm)

/-- `bgeu rX, rY, imm16` (R329, operand placement R330). -/
def execBgeu (rX rY : Reg) (imm : BitVec 16) (s : State) : Host.Outcome State Fault Refusal :=
  let p := s.branchOperands rX rY
  .next (s.branchIf (geUnsigned p.1 p.2) imm)

/-- `call rX`: the target is read before ra is written (R335, D35; DESIGN CHOICE: notes/assumptions/36.md). -/
def execCall (rX : Reg) (s : State) : Host.Outcome State Fault Refusal :=
  (s.setReg ra (s.pc + 4#32)).jumpTo (s.reg rX)

/-- `calli imm26` (R336). -/
def execCalli (imm : BitVec 26) (s : State) : Host.Outcome State Fault Refusal :=
  .next ((s.setReg ra (s.pc + 4#32)).jump (s.target26 imm))

/-- `scall`: raises SystemCall (R340, R424). -/
def execScall (s : State) : Host.Outcome State Fault Refusal :=
  .next (s.enter .systemCall)

/-- `eret`: returns to ea with IE.IE from EIE (R343, R446). -/
def execEret (s : State) : Host.Outcome State Fault Refusal :=
  s.returnTo (s.reg ea) s.ieEIE

/-- `break`: raises Breakpoint (R344, R424); without HasDebug there is no base to go to (R460, U14; DESIGN CHOICE, safe:
notes/assumptions/30.md). -/
def execBreak (s : State) : Host.Outcome State Fault Refusal :=
  if s.cfg.hasDebug then .next (s.enter .breakpoint) else .refused .breakWithoutDebug

/-- `bret`: returns to ba with IE.IE from BIE (R345, R446). -/
def execBret (s : State) : Host.Outcome State Fault Refusal :=
  s.returnTo (s.reg ba) s.ieBIE

end Sys2Proof.Machine
end

