-- ==== Sys2Proof/Machine/Logic.lean ====
section
/-! DEFINITION. Logic instructions (41_logic.md R220 to R232). -/

namespace Sys2Proof.Machine

/-- `and` (R220). -/
def execAnd (rX rY rZ : Reg) (s : State) : Host.Outcome State Fault Refusal :=
  .next (s.result rX (s.reg rY &&& s.reg rZ))

/-- `andi` (R221). -/
def execAndi (rX rY : Reg) (imm : BitVec 16) (s : State) : Host.Outcome State Fault Refusal :=
  .next (s.result rX (s.reg rY &&& zextImm imm))

/-- `andhi` (R222). -/
def execAndhi (rX rY : Reg) (imm : BitVec 16) (s : State) : Host.Outcome State Fault Refusal :=
  .next (s.result rX (s.reg rY &&& highImm imm))

/-- `or` (R223). -/
def execOr (rX rY rZ : Reg) (s : State) : Host.Outcome State Fault Refusal :=
  .next (s.result rX (s.reg rY ||| s.reg rZ))

/-- `ori` (R224). -/
def execOri (rX rY : Reg) (imm : BitVec 16) (s : State) : Host.Outcome State Fault Refusal :=
  .next (s.result rX (s.reg rY ||| zextImm imm))

/-- `orhi` (R225). -/
def execOrhi (rX rY : Reg) (imm : BitVec 16) (s : State) : Host.Outcome State Fault Refusal :=
  .next (s.result rX (s.reg rY ||| highImm imm))

/-- `xor` (R227). -/
def execXor (rX rY rZ : Reg) (s : State) : Host.Outcome State Fault Refusal :=
  .next (s.result rX (s.reg rY ^^^ s.reg rZ))

/-- `xori` (R228). -/
def execXori (rX rY : Reg) (imm : BitVec 16) (s : State) : Host.Outcome State Fault Refusal :=
  .next (s.result rX (s.reg rY ^^^ zextImm imm))

/-- `nor` (R229). -/
def execNor (rX rY rZ : Reg) (s : State) : Host.Outcome State Fault Refusal :=
  .next (s.result rX (~~~(s.reg rY ||| s.reg rZ)))

/-- `nori` (R230). -/
def execNori (rX rY : Reg) (imm : BitVec 16) (s : State) : Host.Outcome State Fault Refusal :=
  .next (s.result rX (~~~(s.reg rY ||| zextImm imm)))

/-- `xnor` (R231). -/
def execXnor (rX rY rZ : Reg) (s : State) : Host.Outcome State Fault Refusal :=
  .next (s.result rX (~~~(s.reg rY ^^^ s.reg rZ)))

/-- `xnori` (R232). -/
def execXnori (rX rY : Reg) (imm : BitVec 16) (s : State) : Host.Outcome State Fault Refusal :=
  .next (s.result rX (~~~(s.reg rY ^^^ zextImm imm)))

end Sys2Proof.Machine
end

