-- ==== Sys2Proof/Machine/Pseudo.lean ====
section
/-! DEFINITION. The pseudo-instructions (30_encoding.md R176; 41_logic.md R233 to R237; 45_program_flow.md R337): each has exactly the
semantics of its expansion under the real value of x[0]. The decoder never gives them; `exec` answers for them as for the
expansion (notes/assumptions/37.md). -/

namespace Sys2Proof.Machine

/-- `ret` is `b ra` (R337). -/
def execRet (s : State) : Host.Outcome State Fault Refusal :=
  s.jumpTo (s.reg ra)

/-- `mv rX, rY` is `or rX, rY, r0` (R234). -/
def execMv (rX rY : Reg) (s : State) : Host.Outcome State Fault Refusal :=
  .next (s.result rX (s.reg rY ||| s.reg 0#5))

/-- `mvhi rX, imm16` is `orhi rX, r0, imm16` (R235). -/
def execMvhi (rX : Reg) (imm : BitVec 16) (s : State) : Host.Outcome State Fault Refusal :=
  .next (s.result rX (s.reg 0#5 ||| highImm imm))

/-- `not rX, rY` is `xnor rX, rY, r0` (R233). -/
def execNot (rX rY : Reg) (s : State) : Host.Outcome State Fault Refusal :=
  .next (s.result rX (~~~(s.reg rY ^^^ s.reg 0#5)))

/-- `mvi rX, imm16` is `addi rX, r0, imm16` (R236). -/
def execMvi (rX : Reg) (imm : BitVec 16) (s : State) : Host.Outcome State Fault Refusal :=
  .next (s.result rX (s.reg 0#5 + sextImm imm))

/-- `nop` is `addi r0, r0, 0` (R237). -/
def execNop (s : State) : Host.Outcome State Fault Refusal :=
  .next (s.result 0#5 (s.reg 0#5 + sextImm 0#16))

end Sys2Proof.Machine
end

