-- ==== Sys2Proof/Machine/Shift.lean ====
section
/-! DEFINITION. Shift instructions (43_shift.md R270 to R276): the count is 0 to 31. -/

namespace Sys2Proof.Machine

/-- `sl` (R270). -/
def execSl (rX rY rZ : Reg) (s : State) : Host.Outcome State Fault Refusal :=
  needs s.cfg.hasShift (.next (s.result rX (s.reg rY <<< shiftCount (s.reg rZ))))

/-- `sli` (R271). -/
def execSli (rX rY : Reg) (imm : BitVec 5) (s : State) : Host.Outcome State Fault Refusal :=
  needs s.cfg.hasShift (.next (s.result rX (s.reg rY <<< imm.toNat)))

/-- `sr` (R272). -/
def execSr (rX rY rZ : Reg) (s : State) : Host.Outcome State Fault Refusal :=
  needs s.cfg.hasShift (.next (s.result rX ((s.reg rY).sshiftRight (shiftCount (s.reg rZ)))))

/-- `sri` (R273). -/
def execSri (rX rY : Reg) (imm : BitVec 5) (s : State) : Host.Outcome State Fault Refusal :=
  needs s.cfg.hasShift (.next (s.result rX ((s.reg rY).sshiftRight imm.toNat)))

/-- `sru` (R274). -/
def execSru (rX rY rZ : Reg) (s : State) : Host.Outcome State Fault Refusal :=
  needs s.cfg.hasShift (.next (s.result rX (s.reg rY >>> shiftCount (s.reg rZ))))

/-- `srui` (R275). -/
def execSrui (rX rY : Reg) (imm : BitVec 5) (s : State) : Host.Outcome State Fault Refusal :=
  needs s.cfg.hasShift (.next (s.result rX (s.reg rY >>> imm.toNat)))

end Sys2Proof.Machine
end

