-- ==== Sys2Proof/Machine/Transfer.lean ====
section
/-! DEFINITION. Loads and stores (44_data_transfer.md R285 to R294). -/

namespace Sys2Proof.Machine

/-- `lb rX, (rY+imm16)` (R286). -/
def execLb (rX rY : Reg) (imm : BitVec 16) (s : State) : Host.Outcome State Fault Refusal :=
  s.load .byte sextByte rX rY imm

/-- `lbu rX, (rY+imm16)` (R287). -/
def execLbu (rX rY : Reg) (imm : BitVec 16) (s : State) : Host.Outcome State Fault Refusal :=
  s.load .byte id rX rY imm

/-- `lh rX, (rY+imm16)` (R288). -/
def execLh (rX rY : Reg) (imm : BitVec 16) (s : State) : Host.Outcome State Fault Refusal :=
  s.load .half sextHalf rX rY imm

/-- `lhu rX, (rY+imm16)` (R289). -/
def execLhu (rX rY : Reg) (imm : BitVec 16) (s : State) : Host.Outcome State Fault Refusal :=
  s.load .half id rX rY imm

/-- `lw rX, (rY+imm16)` (R290). -/
def execLw (rX rY : Reg) (imm : BitVec 16) (s : State) : Host.Outcome State Fault Refusal :=
  s.load .word id rX rY imm

/-- `sb (rX+imm16), rY` (R291). -/
def execSb (rX : Reg) (imm : BitVec 16) (rY : Reg) (s : State) : Host.Outcome State Fault Refusal :=
  s.store .byte rX imm rY

/-- `sh (rX+imm16), rY` (R292). -/
def execSh (rX : Reg) (imm : BitVec 16) (rY : Reg) (s : State) : Host.Outcome State Fault Refusal :=
  s.store .half rX imm rY

/-- `sw (rX+imm16), rY` (R293). -/
def execSw (rX : Reg) (imm : BitVec 16) (rY : Reg) (s : State) : Host.Outcome State Fault Refusal :=
  s.store .word rX imm rY

end Sys2Proof.Machine
end

