-- ==== Sys2Proof/Machine/Dispatch.lean ====
section
/-! DEFINITION. `exec`: the meaning of each instruction, one arm per constructor of `Instr`. -/

namespace Sys2Proof.Machine

def exec (i : Instr) (s : State) : Host.Outcome State Fault Refusal :=
  match i with
  | .add rX rY rZ => Sys2Proof.Machine.execAdd rX rY rZ s
  | .addi rX rY imm => Sys2Proof.Machine.execAddi rX rY imm s
  | .sub rX rY rZ => Sys2Proof.Machine.execSub rX rY rZ s
  | .mul rX rY rZ => Sys2Proof.Machine.execMul rX rY rZ s
  | .muli rX rY imm => Sys2Proof.Machine.execMuli rX rY imm s
  | .divu rX rY rZ => Sys2Proof.Machine.execDivu rX rY rZ s
  | .modu rX rY rZ => Sys2Proof.Machine.execModu rX rY rZ s
  | .sextb rX rY => Sys2Proof.Machine.execSextb rX rY s
  | .sexth rX rY => Sys2Proof.Machine.execSexth rX rY s
  | .and rX rY rZ => Sys2Proof.Machine.execAnd rX rY rZ s
  | .andi rX rY imm => Sys2Proof.Machine.execAndi rX rY imm s
  | .andhi rX rY imm => Sys2Proof.Machine.execAndhi rX rY imm s
  | .or rX rY rZ => Sys2Proof.Machine.execOr rX rY rZ s
  | .ori rX rY imm => Sys2Proof.Machine.execOri rX rY imm s
  | .orhi rX rY imm => Sys2Proof.Machine.execOrhi rX rY imm s
  | .xor rX rY rZ => Sys2Proof.Machine.execXor rX rY rZ s
  | .xori rX rY imm => Sys2Proof.Machine.execXori rX rY imm s
  | .nor rX rY rZ => Sys2Proof.Machine.execNor rX rY rZ s
  | .nori rX rY imm => Sys2Proof.Machine.execNori rX rY imm s
  | .xnor rX rY rZ => Sys2Proof.Machine.execXnor rX rY rZ s
  | .xnori rX rY imm => Sys2Proof.Machine.execXnori rX rY imm s
  | .cmpe rX rY rZ => Sys2Proof.Machine.execCmpe rX rY rZ s
  | .cmpei rX rY imm => Sys2Proof.Machine.execCmpei rX rY imm s
  | .cmpne rX rY rZ => Sys2Proof.Machine.execCmpne rX rY rZ s
  | .cmpnei rX rY imm => Sys2Proof.Machine.execCmpnei rX rY imm s
  | .cmpg rX rY rZ => Sys2Proof.Machine.execCmpg rX rY rZ s
  | .cmpgi rX rY imm => Sys2Proof.Machine.execCmpgi rX rY imm s
  | .cmpgu rX rY rZ => Sys2Proof.Machine.execCmpgu rX rY rZ s
  | .cmpgui rX rY imm => Sys2Proof.Machine.execCmpgui rX rY imm s
  | .cmpge rX rY rZ => Sys2Proof.Machine.execCmpge rX rY rZ s
  | .cmpgei rX rY imm => Sys2Proof.Machine.execCmpgei rX rY imm s
  | .cmpgeu rX rY rZ => Sys2Proof.Machine.execCmpgeu rX rY rZ s
  | .cmpgeui rX rY imm => Sys2Proof.Machine.execCmpgeui rX rY imm s
  | .sl rX rY rZ => Sys2Proof.Machine.execSl rX rY rZ s
  | .sli rX rY imm => Sys2Proof.Machine.execSli rX rY imm s
  | .sr rX rY rZ => Sys2Proof.Machine.execSr rX rY rZ s
  | .sri rX rY imm => Sys2Proof.Machine.execSri rX rY imm s
  | .sru rX rY rZ => Sys2Proof.Machine.execSru rX rY rZ s
  | .srui rX rY imm => Sys2Proof.Machine.execSrui rX rY imm s
  | .lb rX rY imm => Sys2Proof.Machine.execLb rX rY imm s
  | .lbu rX rY imm => Sys2Proof.Machine.execLbu rX rY imm s
  | .lh rX rY imm => Sys2Proof.Machine.execLh rX rY imm s
  | .lhu rX rY imm => Sys2Proof.Machine.execLhu rX rY imm s
  | .lw rX rY imm => Sys2Proof.Machine.execLw rX rY imm s
  | .sb rX imm rY => Sys2Proof.Machine.execSb rX imm rY s
  | .sh rX imm rY => Sys2Proof.Machine.execSh rX imm rY s
  | .sw rX imm rY => Sys2Proof.Machine.execSw rX imm rY s
  | .rcsr rX csr => Sys2Proof.Machine.execRcsr rX csr s
  | .wcsr csr rX => Sys2Proof.Machine.execWcsr csr rX s
  | .b rX => Sys2Proof.Machine.execB rX s
  | .bi imm => Sys2Proof.Machine.execBi imm s
  | .be rX rY imm => Sys2Proof.Machine.execBe rX rY imm s
  | .bne rX rY imm => Sys2Proof.Machine.execBne rX rY imm s
  | .bg rX rY imm => Sys2Proof.Machine.execBg rX rY imm s
  | .bgu rX rY imm => Sys2Proof.Machine.execBgu rX rY imm s
  | .bge rX rY imm => Sys2Proof.Machine.execBge rX rY imm s
  | .bgeu rX rY imm => Sys2Proof.Machine.execBgeu rX rY imm s
  | .call rX => Sys2Proof.Machine.execCall rX s
  | .calli imm => Sys2Proof.Machine.execCalli imm s
  | .scall => Sys2Proof.Machine.execScall s
  | .eret => Sys2Proof.Machine.execEret s
  | .brk => Sys2Proof.Machine.execBreak s
  | .bret => Sys2Proof.Machine.execBret s
  | .ret => Sys2Proof.Machine.execRet s
  | .mv rX rY => Sys2Proof.Machine.execMv rX rY s
  | .mvhi rX imm => Sys2Proof.Machine.execMvhi rX imm s
  | .not rX rY => Sys2Proof.Machine.execNot rX rY s
  | .mvi rX imm => Sys2Proof.Machine.execMvi rX imm s
  | .nop => Sys2Proof.Machine.execNop s

end Sys2Proof.Machine
end

