-- ==== Sys2Proof/Machine/Exceptions.lean ====
section
/-! DEFINITION. What a step must know of an instruction before it executes it: the unit it needs, whether it accesses memory, and the
exception it would raise that comes before an interrupt (60_exceptions.md R403). -/

namespace Sys2Proof.Machine

/-- The data access of a load or store: kind, width, base register and displacement (R285). -/
def dataOperand : Instr → Option (AccessKind × AccessSize × Reg × BitVec 16)
  | .lb _ rY imm => some (.read, .byte, rY, imm)
  | .lbu _ rY imm => some (.read, .byte, rY, imm)
  | .lh _ rY imm => some (.read, .half, rY, imm)
  | .lhu _ rY imm => some (.read, .half, rY, imm)
  | .lw _ rY imm => some (.read, .word, rY, imm)
  | .sb rX imm _ => some (.write, .byte, rX, imm)
  | .sh rX imm _ => some (.write, .half, rX, imm)
  | .sw rX imm _ => some (.write, .word, rX, imm)
  | _ => none

/-- The instruction is a load or a store. -/
def isDataAccess (i : Instr) : Bool := (dataOperand i).isSome

/-- The capability predicate of the instruction holds (00_scope.md R8; 30_encoding.md R160, R165). -/
def unitPresent (c : Cfg) : Instr → Bool
  | .mul _ _ _ => c.hasMul
  | .muli _ _ _ => c.hasMul
  | .divu _ _ _ => c.hasDiv
  | .modu _ _ _ => c.hasDiv
  | .sl _ _ _ => c.hasShift
  | .sli _ _ _ => c.hasShift
  | .sr _ _ _ => c.hasShift
  | .sri _ _ _ => c.hasShift
  | .sru _ _ _ => c.hasShift
  | .srui _ _ _ => c.hasShift
  | .sextb _ _ => c.hasSext
  | .sexth _ _ => c.hasSext
  | _ => true

/-- The divisor register of `divu` and `modu`. -/
def divisor : Instr → Option Reg
  | .divu _ _ rZ => some rZ
  | .modu _ _ rZ => some rZ
  | _ => none

/-- The instruction raises one of the exceptions 1 to 5 itself: items 4 to 7 of R403. -/
def State.raisesFirst (s : State) (i : Instr) : Bool :=
  i == .brk ||
  (match dataOperand i with
    | some (k, n, base, imm) =>
      (match s.dataAccess k n (s.effAddr base imm) with
        | .trap _ => true
        | _ => false)
    | none => false) ||
  (match divisor i with
    | some rZ => s.reg rZ == 0#32
    | none => false)

end Sys2Proof.Machine
end

