-- ==== Sys2Proof/Machine/Fetch.lean ====
section
/-! DEFINITION. Fetching an instruction (20_memory.md R114, R130), and laying one where the next step fetches it. -/

namespace Sys2Proof.Machine

/-- What becomes of the fetch at `pc`. -/
inductive FetchResult where
  | busError
  | outside
  | misaligned
  | stuck
  | word (w : Word) (s : State)
  deriving DecidableEq, Repr

/-- `Fetch(pc)` (R114): outside the cacheable region nothing is defined (R130), then comes the platform's error, then the word as
the instruction port sees it, with the state that the fetch leaves: the instruction cache's lines, the events and the free values
drawn (R121, R125; DEDUCED, notes/assumptions/17.md, and 26.md, 44.md, 49.md). -/
def State.fetch (s : State) : FetchResult :=
  if !wordAligned s.pc then .misaligned
  else
    let r := respond s.cfg .fetch .word s.pc
    if !fetchDefined s.cfg s.pc then .outside
    else if r = .busError then .busError
    else if r = .noResponse then .stuck
    else if r = .device then .word (s.deviceWord s.pc) (s.deviceFetch s.pc)
    else .word (s.fetchMemory s.pc) ((s.fetchDraw s.pc).cacheFetch s.pc)

/-- The word `w` in memory at `pc`, and no copy or earlier word that the fetch could return instead. -/
def State.placeAtPc (s : State) (w : Word) : State :=
  { s with
    mem := s.mem.writeBytes s.pc (storeBytes .word w)
    staleCode := s.staleCode.filter (fun e => e.addr != s.pc)
    codeLines := s.codeLines.filter (fun l => l.addr != lineAddress s.cfg.icache s.pc) }

/-- The instruction is executed: `wcsr DCC` sees whether the one just before was a load or store, be it one that trapped
(70_reset_and_hazards.md R512; DESIGN CHOICE: notes/assumptions/14.md). -/
def State.executed (s : State) (i : Instr) : State := { s with lastMem := isDataAccess i }

end Sys2Proof.Machine
end

