-- ==== Sys2Proof/Machine/Step.lean ====
section
/-! DEFINITION. One step of the core (00_scope.md R19; 60_exceptions.md R403). -/

namespace Sys2Proof.Machine

/-- `f` of the next state, if there is one. -/
def mapNext (f : State → State) : Host.Outcome State Fault Refusal → Host.Outcome State Fault Refusal
  | .next s => .next (f s)
  | .fault r => .fault r
  | .refused r => .refused r

/-- The instruction `i`, fetched at `s.pc`, is executed: `exec` of the state in which the slots since `wcsr ICC`, `wcsr DCC` and the
last stores are counted (`State.prepare`), and then `lastMem` remembers it. An entry of an exception that executes no instruction
does neither, so that it does not part `wcsr DCC` from a load or store (70_reset_and_hazards.md R512; DESIGN CHOICE:
notes/assumptions/14.md). -/
def execute (i : Instr) (s : State) : Host.Outcome State Fault Refusal :=
  mapNext (fun t => t.executed i) (exec i (s.prepare (isDataAccess i)))

/-- Items 4 to 10 of R403: the exceptions of the instruction itself, an interrupt, or its execution. An instruction of an absent
unit is no instruction (30_encoding.md R166) and raises no exception, so that an interrupt goes first (notes/assumptions/16.md). -/
def issue (i : Instr) (s : State) : Host.Outcome State Fault Refusal :=
  if s.interruptPending && !(unitPresent s.cfg i && s.raisesFirst i) then .next (s.enter .interrupt)
  else if !unitPresent s.cfg i then .refused .absentUnit
  else execute i s

/-- Items 4 to 10 of R403 for the fetched word `w`: a word without a meaning raises no exception, so that an interrupt goes first
(30_encoding.md R164; notes/assumptions/16.md). -/
def runWord (w : Word) (s : State) : Host.Outcome State Fault Refusal :=
  match decode w with
  | .undefined e => if s.interruptPending then .next (s.enter .interrupt) else .refused (.undefinedEncoding e)
  | .instr i => issue i s

/-- Items 1 to 3 of R403, once the inputs are sampled: reset, a core that waits for an answer that never comes, single step,
hardware breakpoint and fetch. -/
def stepSampled (s : State) : Host.Outcome State Fault Refusal :=
  if s.resetPin then .next s.takeReset
  else if s.waiting then .next s
  else if s.cfg.hasDebug && s.dc.ss then .refused .singleStep
  else if s.breakpointHit then .next (s.enter .breakpoint)
  else match s.fetch with
    | .busError => .next (s.enter .instructionBusError)
    | .outside => .fault .fetchOutsideCacheable
    | .misaligned => .fault .misalignedFetch
    | .stuck => .next s.stall
    | .word w t => runWord w t

/-- One step of the core. -/
def step (s : State) : Host.Outcome State Fault Refusal :=
  if cfgLegal s.cfg then stepSampled s.sample else .refused .illegalConfiguration

/-- `s` with the instruction whose bits are `w` where `step` fetches its next instruction (notes/assumptions/38.md). -/
def State.withFetchWord (s : State) (nbits w : Nat) : State := s.placeAtPc (BitVec.ofNat 32 (w % 2 ^ nbits))

end Sys2Proof.Machine
end

