-- ==== Sys2Proof/Safety.lean ====
section
/-! DEFINITION. The terms the statements use: what an instruction leaves unchanged, what an exception entry does, the invariant of
the machine, and what counts as a safe run. Each is written from the rule it cites, not from the model's operations. -/

namespace Sys2Proof.Safety

open Sys2Proof.Machine

/-! ### Words as the rules print them -/

/-- A register number in a 32-bit word at bit `n`: `X<<n`. -/
def fieldAt (r : BitVec 5) (n : Nat) : Word := r.setWidth 32 <<< n

/-- `base | Y<<21 | Z<<16 | X<<11` (40_arithmetic.md R200). -/
def printedRR (base : Word) (rX rY rZ : Reg) : Word := base ||| fieldAt rY 21 ||| fieldAt rZ 16 ||| fieldAt rX 11

/-- `base | Y<<21 | X<<16 | imm16` (40_arithmetic.md R201). -/
def printedRI (base : Word) (rX rY : Reg) (imm : BitVec 16) : Word :=
  base ||| fieldAt rY 21 ||| fieldAt rX 16 ||| imm.setWidth 32

/-- `base | Y<<21 | X<<16 | imm5` (43_shift.md R271). -/
def printedShift (base : Word) (rX rY : Reg) (imm : BitVec 5) : Word :=
  base ||| fieldAt rY 21 ||| fieldAt rX 16 ||| imm.setWidth 32

/-- The bits that must be zero in a word of this opcode (30_encoding.md R163). -/
def mustBeZero (op : BitVec 6) : Word :=
  if op ∈ [0x00#6, 0x05#6, 0x0F#6] then 0x0000FFE0#32
  else if op ∈ [0x24#6, 0x2C#6, 0x37#6] then 0x001F07FF#32
  else if op ∈ [0x30#6, 0x36#6] then 0x001FFFFF#32
  else if op = 0x34#6 then 0x0000FFFF#32
  else if op ∈ [0x20#6, 0x21#6, 0x22#6, 0x23#6, 0x25#6, 0x26#6, 0x28#6, 0x29#6, 0x2D#6, 0x2E#6, 0x2F#6, 0x31#6, 0x32#6, 0x39#6,
      0x3A#6, 0x3B#6, 0x3C#6, 0x3D#6, 0x3F#6] then 0x000007FF#32
  else 0#32

/-- The words with no defined meaning (30_encoding.md R164 a to c). -/
def Undefined (w : Word) : Prop :=
  opcode w ∈ [0x27#6, 0x2A#6, 0x33#6, 0x35#6] ∨
    (opcode w = 0x2B#6 ∧ w ≠ 0xAC000007#32 ∧ w ≠ 0xAC000002#32) ∨ w &&& mustBeZero (opcode w) ≠ 0#32

/-! ### Frames -/

/-- `t` is `s` but for one register, which holds `v`, and the pc, which is `p`: every other register, every byte of memory and all
other state are unchanged. -/
def Writes (s t : State) (r : Reg) (v p : Word) : Prop :=
  t.reg r = v ∧ t.pc = p ∧ (∀ q, q ≠ r → t.reg q = s.reg q) ∧ (∀ a, t.byteAt a = s.byteAt a) ∧
    t = { s with regs := t.regs, pc := t.pc }

/-- The word `w` is the instruction `i`, and executing `i` in `s` completes, writing `v` to register `r` and nothing else; the pc
moves to the next instruction (00_scope.md R14). That pc + 4 wraps at the top of the address space is a DESIGN CHOICE of the spec
(10_state.md R39, D1, notes/assumptions/35.md). -/
def Computes (w : Word) (i : Instr) (s : State) (r : Reg) (v : Word) : Prop :=
  decode w = .instr i ∧ ∃ t, exec i s = .next t ∧ Writes s t r v (s.pc + 4#32)

/-- The register that the instruction names as its destination (30_encoding.md R156, R176). -/
def destination : Instr → Option Reg
  | .add rX _ _ => some rX
  | .addi rX _ _ => some rX
  | .sub rX _ _ => some rX
  | .mul rX _ _ => some rX
  | .muli rX _ _ => some rX
  | .divu rX _ _ => some rX
  | .modu rX _ _ => some rX
  | .sextb rX _ => some rX
  | .sexth rX _ => some rX
  | .and rX _ _ => some rX
  | .andi rX _ _ => some rX
  | .andhi rX _ _ => some rX
  | .or rX _ _ => some rX
  | .ori rX _ _ => some rX
  | .orhi rX _ _ => some rX
  | .xor rX _ _ => some rX
  | .xori rX _ _ => some rX
  | .nor rX _ _ => some rX
  | .nori rX _ _ => some rX
  | .xnor rX _ _ => some rX
  | .xnori rX _ _ => some rX
  | .cmpe rX _ _ => some rX
  | .cmpei rX _ _ => some rX
  | .cmpne rX _ _ => some rX
  | .cmpnei rX _ _ => some rX
  | .cmpg rX _ _ => some rX
  | .cmpgi rX _ _ => some rX
  | .cmpgu rX _ _ => some rX
  | .cmpgui rX _ _ => some rX
  | .cmpge rX _ _ => some rX
  | .cmpgei rX _ _ => some rX
  | .cmpgeu rX _ _ => some rX
  | .cmpgeui rX _ _ => some rX
  | .sl rX _ _ => some rX
  | .sli rX _ _ => some rX
  | .sr rX _ _ => some rX
  | .sri rX _ _ => some rX
  | .sru rX _ _ => some rX
  | .srui rX _ _ => some rX
  | .lb rX _ _ => some rX
  | .lbu rX _ _ => some rX
  | .lh rX _ _ => some rX
  | .lhu rX _ _ => some rX
  | .lw rX _ _ => some rX
  | .sb _ _ _ => none
  | .sh _ _ _ => none
  | .sw _ _ _ => none
  | .rcsr rX _ => some rX
  | .wcsr _ _ => none
  | .b _ => none
  | .bi _ => none
  | .be _ _ _ => none
  | .bne _ _ _ => none
  | .bg _ _ _ => none
  | .bgu _ _ _ => none
  | .bge _ _ _ => none
  | .bgeu _ _ _ => none
  | .call _ => none
  | .calli _ => none
  | .scall => none
  | .eret => none
  | .brk => none
  | .bret => none
  | .ret => none
  | .mv rX _ => some rX
  | .mvhi rX _ => some rX
  | .not rX _ => some rX
  | .mvi rX _ => some rX
  | .nop => some 0#5

/-- The instruction writes memory: a store (R285). -/
def isStore (i : Instr) : Bool :=
  match i with
  | .sb _ _ _ => true
  | .sh _ _ _ => true
  | .sw _ _ _ => true
  | _ => false

/-- The instruction is `call` or `calli`, which write ra (10_state.md R33). -/
def isCall (i : Instr) : Bool :=
  match i with
  | .call _ => true
  | .calli _ => true
  | _ => false

/-- The instruction writes IE by itself: `wcsr`, `eret` or `bret` (10_state.md R45; 60_exceptions.md R446). -/
def writesIe (i : Instr) : Bool :=
  match i with
  | .wcsr _ _ => true
  | .eret => true
  | .bret => true
  | _ => false

/-- A taken transfer may drop the words fetched ahead (70_reset_and_hazards.md R513); with an instruction cache nothing of it
changes. -/
def Refetched (s t : State) : Prop := t.staleCode = if s.cfg.hasICache then s.staleCode else []

/-- `t` is `s` with control transferred to `p`: registers, memory and all other state are unchanged. -/
def GoesTo (s t : State) (p : Word) : Prop :=
  t.pc = p ∧ (∀ r, t.reg r = s.reg r) ∧ (∀ a, t.byteAt a = s.byteAt a) ∧ Refetched s t ∧
    t = { s with pc := t.pc, staleCode := t.staleCode }

/-- `t` is `s` with control transferred to `p` and register `r` holding `v`. -/
def Links (s t : State) (r : Reg) (v p : Word) : Prop :=
  t.pc = p ∧ t.reg r = v ∧ (∀ q, q ≠ r → t.reg q = s.reg q) ∧ (∀ a, t.byteAt a = s.byteAt a) ∧ Refetched s t ∧
    t = { s with regs := t.regs, pc := t.pc, staleCode := t.staleCode }

/-- `t` is `s` with the pc moved to the next instruction and nothing else changed. -/
def FallsThrough (s t : State) : Prop := t = { s with pc := s.pc + 4#32 }

/-- The two outcomes of a conditional branch (45_program_flow.md R323). -/
def Branches (s t : State) (taken : Prop) (imm : BitVec 16) : Prop :=
  (taken → GoesTo s t (s.pc + (imm ++ 0#2).signExtend 32)) ∧ (¬ taken → FallsThrough s t)

/-- `b` is one of the `n` bytes stored at `a`. -/
def Stored (n : AccessSize) (a b : Word) : Prop := ∃ k, k < n.bytes ∧ b = a + BitVec.ofNat 32 k

/-- The word that memory holds at `a`, most significant byte first (20_memory.md R110, R111). -/
def heldWord (s : State) (a : Word) : Word := s.byteAt a ++ s.byteAt (a + 1#32) ++ s.byteAt (a + 2#32) ++ s.byteAt (a + 3#32)

/-- The words that a fetch may still return after the aligned word at `a` was written between `s` and `t`: those of `s`, and at `a`
the one that memory held in `s`, which is among them if it was changed and may still be held (20_memory.md R125;
70_reset_and_hazards.md R513). -/
structure RecordsWord (s t : State) (a : Word) (mayBeHeld : Prop) : Prop where
  earlier : ∀ e ∈ t.staleCode, e ∈ s.staleCode ∨ (e.addr = a ∧ e.word = heldWord s a)
  kept : ∀ e ∈ s.staleCode, e ∈ t.staleCode
  recorded : mayBeHeld → heldWord t a ≠ heldWord s a → ∃ e ∈ t.staleCode, e.addr = a ∧ e.word = heldWord s a

/-- The bytes that a load may still return after a transfer to the aligned word at `a` between `s` and `t`: those recorded in `s`,
and in that word the ones that memory held in `s` (20_memory.md R124). -/
structure RecordsBytes (s t : State) (a : BitVec 30) : Prop where
  earlier : ∀ e ∈ t.staleData, (∃ e' ∈ s.staleData, e'.addr = e.addr ∧ e'.byte = e.byte) ∨
    (e.addr.extractLsb' 2 30 = a ∧ e.byte = s.byteAt e.addr)
  kept : ∀ e ∈ s.staleData, ∃ e' ∈ t.staleData, e'.addr = e.addr ∧ e'.byte = e.byte

/-! ### The caches -/

/-- `l` is the line of `a` as a miss in `s` fills it for way `w`, `answer` being how the platform answers each word (20_memory.md
R121, R124): it is the whole line, and its bytes are those that memory holds, of every word that the platform answers as memory. -/
structure FilledLine (s : State) (c : CacheCfg) (answer : Word → Response) (w : Nat) (a : Word) (l : CacheLine) : Prop where
  addr : l.addr = lineAddress c a
  way : l.way = w
  length : l.bytes.length = c.bytesPerLine
  bytes : ∀ b, lineAddress c b = lineAddress c a → answer (wordAddress b) = .memory → l.byte b = some (s.byteAt b)

/-- `ls'` are the lines of the cache `c` after a miss at `a` that found the lines `ls` and the way number `w` (20_memory.md R121):
the line of `a` is in that way, in place of the line of its set there. Where a line starts and which set it goes to is a DESIGN
CHOICE, unsafe (notes/assumptions/48.md). -/
def FillsLine (s : State) (c : CacheCfg) (answer : Word → Response) (w : Nat) (a : Word) (ls ls' : List CacheLine) : Prop :=
  ∃ l, FilledLine s c answer w a l ∧
    ∀ l', l' ∈ ls' ↔ l' = l ∨ l' ∈ ls ∧ ¬ (l'.way = w ∧ lineSet c l'.addr = lineSet c a)

/-- Between `s` and `t` each word of the line of `a` that a device answers is read once, as the event `event` (20_memory.md R104 b;
notes/assumptions/44.md, 48.md). -/
def ReadsDevices (s t : State) (c : CacheCfg) (answer : Word → Response) (event : Word → Event) (a : Word) : Prop :=
  ∃ ws : List Word, t.events = ws.map event ++ s.events ∧ ws.Nodup ∧
    ∀ w, w ∈ ws ↔ wordAligned w = true ∧ lineAddress c w = lineAddress c a ∧ answer w = .device

/-- The line of `a` is in the data cache (20_memory.md R124: a hit). -/
def Held (s : State) (a : Word) : Prop :=
  dataCached s.cfg a = true ∧ ∃ l ∈ s.dataLines, l.addr = lineAddress s.cfg.dcache a

/-- An access at `a` misses the data cache (20_memory.md R124). -/
def Misses (s : State) (a : Word) : Prop :=
  dataCached s.cfg a = true ∧ ∀ l ∈ s.dataLines, l.addr ≠ lineAddress s.cfg.dcache a

/-- What a load of width `n` at `a` does to the data cache and to the events between `s` and `t` (20_memory.md R121, R123, R124): on
a miss the line is fetched into the way whose turn it is, in place of the line of its set there, and the way number is switched;
else nothing. -/
structure CachesLoad (s t : State) (n : AccessSize) (a : Word) : Prop where
  noMiss : ¬ Misses s a → t.dataLines = s.dataLines ∧ t.dataWay = s.dataWay ∧ t.events = s.events
  way : Misses s a → t.dataWay = (s.dataWay + 1) % s.cfg.dcache.ways
  line : Misses s a → cfgLegal s.cfg = true →
    FillsLine s s.cfg.dcache (fillAnswer s.cfg n a) s.dataWay a s.dataLines t.dataLines
  events : Misses s a → cfgLegal s.cfg = true →
    ReadsDevices s t s.cfg.dcache (fillAnswer s.cfg n a) (.deviceRead .word) a

/-- The line of `a` is in the instruction cache (20_memory.md R125: it is "currently cached"). -/
def CodeHeld (s : State) (a : Word) : Prop :=
  codeCached s.cfg a = true ∧ ∃ l ∈ s.codeLines, l.addr = lineAddress s.cfg.icache a

/-- A fetch from `a` misses the instruction cache. -/
def CodeMisses (s : State) (a : Word) : Prop :=
  codeCached s.cfg a = true ∧ ∀ l ∈ s.codeLines, l.addr ≠ lineAddress s.cfg.icache a

/-- What a fetch at the pc that memory or a device answers does between `s` and `t` (20_memory.md R121, R125;
notes/assumptions/49.md): on a miss the line is fetched into the way whose turn it is, in place of the line of its set there, and
the way number is switched; nothing happens on a hit; where the pc is not cached, a fetch from a device is an event. Nothing else
changes but how many free values were drawn. -/
structure AfterFetch (s t : State) : Prop where
  frame : t = { s with codeLines := t.codeLines, codeWay := t.codeWay, events := t.events, free := t.free }
  noMiss : ¬ CodeMisses s s.pc → t.codeLines = s.codeLines ∧ t.codeWay = s.codeWay
  noEvent : ¬ CodeMisses s s.pc → (codeCached s.cfg s.pc = true ∨ respond s.cfg .fetch .word s.pc = .memory) → t.events = s.events
  event : codeCached s.cfg s.pc = false → respond s.cfg .fetch .word s.pc = .device → t.events = .deviceFetch s.pc :: s.events
  way : CodeMisses s s.pc → t.codeWay = (s.codeWay + 1) % s.cfg.icache.ways
  line : CodeMisses s s.pc → cfgLegal s.cfg = true →
    FillsLine s s.cfg.icache (respond s.cfg .fetch .word) s.codeWay s.pc s.codeLines t.codeLines
  events : CodeMisses s s.pc → cfgLegal s.cfg = true →
    ReadsDevices s t s.cfg.icache (respond s.cfg .fetch .word) .deviceFetch s.pc

/-- The line `l'` is `l` after the store of the low part of `v`, of width `n`, at `a`: the stored bytes that the cache covers are
written in the line that holds them, most significant first, and nothing else (20_memory.md R110, R123). -/
structure WritesLine (c : Cfg) (n : AccessSize) (a v : Word) (l l' : CacheLine) : Prop where
  same : l' = { l with bytes := l'.bytes }
  length : l'.bytes.length = l.bytes.length
  others : ∀ b, ¬ (Stored n a b ∧ dataCached c b = true ∧ l.addr = lineAddress c.dcache b) → l'.byte b = l.byte b
  stored : ∀ (k : Nat) (x : Byte), k < n.bytes → dataCached c (a + BitVec.ofNat 32 k) = true →
    l.addr = lineAddress c.dcache (a + BitVec.ofNat 32 k) → l.byte (a + BitVec.ofNat 32 k) = some x →
    l'.byte (a + BitVec.ofNat 32 k) = some (v.extractLsb' (8 * (n.bytes - 1 - k)) 8)

/-- What a store of the low part of `v`, of width `n`, at `a` does to the data cache between `s` and `t` (20_memory.md R121, R123):
the lines that are held are written, none is fetched; a miss switches the way number (DEDUCED: notes/assumptions/48.md). -/
structure CachesStore (s t : State) (n : AccessSize) (a v : Word) : Prop where
  lines : List.Forall₂ (WritesLine s.cfg n a v) s.dataLines t.dataLines
  miss : Misses s a → t.dataWay = (s.dataWay + 1) % s.cfg.dcache.ways
  noMiss : ¬ Misses s a → t.dataWay = s.dataWay

/-- The earlier words and bytes after a store of width `n` at `a`: a word that memory held and may still be held by the instruction
cache, or by the prefetch where there is none, is recorded; no byte becomes an earlier one, and none is left at the stored addresses
(R123, R132), for which memory is in its canonical form. -/
def RecordsStore (s t : State) (n : AccessSize) (a : Word) : Prop :=
  RecordsWord s t (a &&& 0xFFFFFFFC#32) (s.cfg.hasICache = true → codeCached s.cfg (a &&& 0xFFFFFFFC#32) = true) ∧
    (∀ e ∈ t.staleData, ∃ e' ∈ s.staleData, e = { e' with masked := e.masked }) ∧
    (Memory.wf s.mem = true → ∀ b, Stored n a b → t.oldBytes b = [])

/-- `t` is `s` after the store of the low part of `v`, of width `n`, at `a`: every register and every byte outside the stored ones
is unchanged, and so is all other state but the pc, the data cache's copies and way number, and what the caches may still hold,
which is what they held or what memory held before. -/
def StoresAt (s t : State) (n : AccessSize) (a v : Word) : Prop :=
  t.pc = s.pc + 4#32 ∧ (∀ r, t.reg r = s.reg r) ∧ (∀ b, ¬ Stored n a b → t.byteAt b = s.byteAt b) ∧ RecordsStore s t n a ∧
    CachesStore s t n a v ∧
    t = { s with
      pc := t.pc, mem := t.mem, staleCode := t.staleCode, staleData := t.staleData, dataLines := t.dataLines, dataWay := t.dataWay }

/-- `t` is `s` after a load of width `n` at `a` that memory answers, in which `v` goes to register `r`: no other register, no byte
of memory and no other state changes but the pc, what the load does to the data cache, and how many free values were drawn. -/
def LoadsAt (s t : State) (n : AccessSize) (a : Word) (r : Reg) (v : Word) : Prop :=
  t.reg r = v ∧ t.pc = s.pc + 4#32 ∧ (∀ q, q ≠ r → t.reg q = s.reg q) ∧ (∀ b, t.byteAt b = s.byteAt b) ∧ CachesLoad s t n a ∧
    t = { s with
      regs := t.regs, pc := t.pc, dataLines := t.dataLines, dataWay := t.dataWay, events := t.events, free := t.free }

/-- The word `w` is the load `i` of width `n` at `a`, and executing `i` in `s` completes, writing `v` to register `r`. -/
def Loads (w : Word) (i : Instr) (s : State) (n : AccessSize) (a : Word) (r : Reg) (v : Word) : Prop :=
  decode w = .instr i ∧ ∃ t, exec i s = .next t ∧ LoadsAt s t n a r v

/-- The zero-extending load of width `n` (44_data_transfer.md R287, R289, R290). -/
def plainLoad (n : AccessSize) (rX rY : Reg) (imm : BitVec 16) : Instr :=
  match n with
  | .byte => .lbu rX rY imm
  | .half => .lhu rX rY imm
  | .word => .lw rX rY imm

/-- The two register halves of a conditional branch, from BRANCH_OPERAND_FIELDS (45_program_flow.md R330): rX is w[20:16] and rY is
w[25:21], and `as_toolchain` exchanges them. -/
def leftOperand (s : State) (rX rY : Reg) : Word := if s.cfg.branchFields = .asFigure then s.reg rX else s.reg rY
def rightOperand (s : State) (rX rY : Reg) : Word := if s.cfg.branchFields = .asFigure then s.reg rY else s.reg rX

/-! ### Exception entry -/

/-- The base of a non-debug exception's vector (60_exceptions.md R412). -/
def nonDebugBase (s : State) : Word :=
  if (s.cfg.hasDebug = true ∧ s.dc.re = true) ∨ (s.cfg.alternateEba = true ∧ s.cfg.hasDebug = true ∧ s.atDebug = true) then
    s.deba ++ 0#8
  else s.eba ++ 0#8

/-- Non-debug entry with identifier `id` (60_exceptions.md R410): ea, IE.EIE, IE.IE and the pc; nothing else changes. -/
def EnteredNonDebug (s t : State) (id : Nat) : Prop :=
  t.reg 30#5 = s.pc ∧ t.ieEIE = s.ieIE ∧ t.ieIE = false ∧ t.pc = nonDebugBase s + BitVec.ofNat 32 (id * 32) ∧
    (∀ r, r ≠ 30#5 → t.reg r = s.reg r) ∧ (∀ a, t.byteAt a = s.byteAt a) ∧ Refetched s t ∧
    t = { s with regs := t.regs, ieEIE := t.ieEIE, ieIE := t.ieIE, pc := t.pc, staleCode := t.staleCode }

/-- Debug entry with identifier `id` (60_exceptions.md R411): ba, IE.BIE, IE.IE and the pc; nothing else changes. -/
def EnteredDebug (s t : State) (id : Nat) : Prop :=
  t.reg 31#5 = s.pc ∧ t.ieBIE = s.ieIE ∧ t.ieIE = false ∧ t.pc = (s.deba ++ 0#8) + BitVec.ofNat 32 (id * 32) ∧
    (∀ r, r ≠ 31#5 → t.reg r = s.reg r) ∧ (∀ a, t.byteAt a = s.byteAt a) ∧ Refetched s t ∧
    t = { s with regs := t.regs, ieBIE := t.ieBIE, ieIE := t.ieIE, pc := t.pc, staleCode := t.staleCode }

/-! ### Control and status registers (10_state.md R43) -/

/-- Index `k` names a register of this instance that can be read (R68). -/
def CsrReadable (c : Cfg) (k : CsrIndex) : Prop :=
  k ∈ [0x00#5, 0x01#5, 0x02#5, 0x06#5, 0x07#5, 0x0A#5] ∨ (k = 0x05#5 ∧ c.hasCC = true) ∨
    (k = 0x09#5 ∧ c.hasDebug = true) ∨ (k ∈ [0x0E#5, 0x0F#5] ∧ c.hasJuart = true)

/-- Index `k` names a register of this instance that can be written (R69). -/
def CsrWritable (c : Cfg) (k : CsrIndex) : Prop :=
  k ∈ [0x00#5, 0x01#5, 0x02#5, 0x07#5] ∨ (k = 0x03#5 ∧ c.hasICache = true) ∨ (k = 0x04#5 ∧ c.hasDCache = true) ∨
    (k ∈ [0x08#5, 0x09#5] ∧ c.hasDebug = true) ∨ (k ∈ [0x0E#5, 0x0F#5] ∧ c.hasJuart = true) ∨
    (∃ n : Nat, n < 4 ∧ n < c.breakpoints ∧ c.hasDebug = true ∧ k = BitVec.ofNat 5 (0x10 + n)) ∨
    (∃ n : Nat, n < 4 ∧ n < c.watchpoints ∧ c.hasDebug = true ∧ k = BitVec.ofNat 5 (0x18 + n))

/-- `rcsr rX, k` (44_data_transfer.md R295): its word decodes to it, and it writes `v` to `rX` and nothing else. -/
def CsrReads (k : CsrIndex) (s : State) (rX : Reg) (v : Word) : Prop :=
  Computes (0x90000000#32 ||| fieldAt k 21 ||| fieldAt rX 11) (.rcsr rX k) s rX v

/-- `wcsr k, rX` (44_data_transfer.md R296): its word decodes to it, and it completes in `t`. -/
def CsrWrites (k : CsrIndex) (rX : Reg) (s t : State) : Prop :=
  decode (0xD0000000#32 ||| fieldAt k 21 ||| fieldAt rX 16) = .instr (.wcsr k rX) ∧ exec (.wcsr k rX) s = .next t

/-! ### Data accesses -/

/-- The access is one that ordinary memory answers: no watchpoint, aligned, classified as memory (44_data_transfer.md R294). -/
def Reaches (s : State) (k : AccessKind) (n : AccessSize) (a : Word) : Prop :=
  s.watchpointHit k a = false ∧ aligned n a = true ∧ respond s.cfg k n a = .memory

/-- No other byte than memory's may be returned for the access: the data cache holds no copy that differs and no earlier byte
(20_memory.md R124). -/
def Fresh (s : State) (n : AccessSize) (a : Word) : Prop :=
  ∀ k, k < n.bytes → s.oldBytes (a + BitVec.ofNat 32 k) = []

/-! ### The step -/

/-- The core is ready to look at the instruction at its pc: no reset, no outstanding access, no single step, no hardware breakpoint
(60_exceptions.md R403, items 1 and 2). -/
structure Ready (s : State) : Prop where
  notReset : s.resetPin = false
  notWaiting : s.waiting = false
  notStepping : (s.cfg.hasDebug && s.dc.ss) = false
  noBreakpoint : s.breakpointHit = false

/-- The bytes at the pc are in ordinary memory that may be fetched, and no other word may be returned: no earlier one is recorded,
and the instruction cache holds no copy that differs (20_memory.md R114, R125, R130). -/
structure Fetches (s : State) (w : Word) : Prop where
  aligned : wordAligned s.pc = true
  memory : respond s.cfg .fetch .word s.pc = .memory
  defined : fetchDefined s.cfg s.pc = true
  current : s.oldWords s.pc = []
  bytes : s.wordAt s.pc = w

/-- The step of `s` is the execution of `i` in `p`, and remembers whether `i` was a load or store (60_exceptions.md R403, item 10;
70_reset_and_hazards.md R512). -/
structure Executes (s p : State) (i : Instr) : Prop where
  next : ∀ t, exec i p = .next t → step s = .next { t with lastMem := isDataAccess i }
  fault : ∀ f, exec i p = .fault f → step s = .fault f
  refused : ∀ r, exec i p = .refused r → step s = .refused r

/-- `i`, which stores nothing, is executed in `s` and gives `t`: one of the slots after `wcsr ICC` (70_reset_and_hazards.md R511).
-/
def Slot (i : Instr) (s t : State) : Prop := isStore i = false ∧ execute i s = .next t

/-- The same after a fetch at the pc of `s`, which may fill a line of the instruction cache. -/
def FetchedSlot (i : Instr) (s t : State) : Prop := ∃ (w : Word) (u : State), s.fetch = .word w u ∧ Slot i u t

/-! ### The invariant and safe runs -/

/-- What the cache `c` can hold (20_memory.md R121): whole lines, each in one of the ways, no line twice and no two lines in one way
of a set. -/
structure Organised (c : CacheCfg) (ls : List CacheLine) : Prop where
  whole : ∀ l ∈ ls, l.addr = lineAddress c l.addr ∧ l.bytes.length = c.bytesPerLine
  ways : ∀ l ∈ ls, l.way < c.ways
  apart : ls.Pairwise fun l l' => l.addr ≠ l'.addr ∧ ¬ (l.way = l'.way ∧ lineSet c l.addr = lineSet c l'.addr)

/-- The instruction cache's copy of the word at `a` is what memory holds or an earlier word that is recorded, and recorded for as
long as the copy may stay: "either the current memory word or any earlier word held there since that invalidation" (20_memory.md
R125, R126). -/
def CodeRecorded (s : State) (l : CacheLine) (a : Word) : Prop :=
  l.value .word a = heldWord s a ∨
    ∃ e ∈ s.staleCode, e.addr = a ∧ e.word = l.value .word a ∧ ∀ n, e.life = some n → ∃ d ∈ s.icc, d ≤ n

/-- The data cache's copy of a byte whose word the platform answers as memory is what memory holds: "The cached copy equals memory
unless another bus master wrote that memory" (20_memory.md R124). -/
def Coherent (s : State) : Prop :=
  ∀ l ∈ s.dataLines, ∀ (b : Word) (x : Byte), l.byte b = some x → dataCached s.cfg b = true →
    respond s.cfg .read .word (wordAddress b) = .memory → x = s.byteAt b

/-- A word that the platform answers as memory is memory for the narrower loads too, and no device for a store (20_memory.md R104
leaves `MemMap` free to answer otherwise). -/
def PlainMap (c : Cfg) : Prop :=
  ∀ (n : AccessSize) (a : Word), aligned n a = true → respond c .read .word (wordAddress a) = .memory →
    respond c .read n a = .memory ∧ respond c .write n a ≠ .device

/-- Every copy that the instruction cache holds of a word of memory is the current word or a recorded one (`CodeRecorded`). -/
def CodeWords (s : State) : Prop :=
  ∀ l ∈ s.codeLines, ∀ a, wordAligned a = true → codeCached s.cfg a = true → l.addr = lineAddress s.cfg.icache a →
    respond s.cfg .fetch .word a = .memory → CodeRecorded s l a

/-- What every reachable state satisfies: a legal instance, an aligned pc (10_state.md R37), memory in its canonical form, no bit of
IM or IP without a line (R46, D26), slots of stale words and pending invalidations within the bounds of R511 and R513, caches of
whole lines, each in a place of its own, with the way numbers among the ways (20_memory.md R121), and an instruction cache that
holds no word of memory but the current and the recorded ones (R125). -/
structure Inv (s : State) : Prop where
  legal : cfgLegal s.cfg = true
  pcAligned : wordAligned s.pc = true
  memWf : Memory.wf s.mem = true
  imLines : s.im &&& ~~~ lineMask s.cfg = 0#32
  ipLines : s.ip &&& ~~~ lineMask s.cfg = 0#32
  lives : ∀ e ∈ s.staleCode, match e.life with
    | none => s.cfg.hasICache = true
    | some n => n ≤ (if s.cfg.hasICache then 4 else 5)
  slots : ∀ d ∈ s.icc, d ≤ 4
  lines : Organised s.cfg.dcache s.dataLines
  way : s.cfg.hasDCache = true → s.dataWay < s.cfg.dcache.ways
  codeLines : Organised s.cfg.icache s.codeLines
  codeWay : s.cfg.hasICache = true → s.codeWay < s.cfg.icache.ways
  codeWords : CodeWords s

/-- The core takes `n` steps from `s` without a fault and without a refusal. -/
def RunsFor (n : Nat) (s : State) : Prop := ∃ t, Sys2Proof.core.run n s = .next t

/-- A test program has ended (70_reset_and_hazards.md R531): the instruction at the pc is `bi 0` and IE.IE is 0
(notes/assumptions/43.md). -/
def ended (s : State) : Bool := s.wordAt s.pc == 0xE0000000#32 && !s.ieIE

end Sys2Proof.Safety
end

