-- ==== Sys2Proof/Certificates/Slice0/Obligations.lean ====
section
/-! DEFINITION. The statements for the provers, in the order of OBLIGATIONS.json. Each says which rule of spec/ it formalises, or
which sentences it is derived from; a clause that rests on a choice of the model names its log entry. -/

open Sys2Proof Sys2Proof.Machine Sys2Proof.Safety

/-! ### Encoding (30_encoding.md) -/

/-- Decoding the word of a well-formed instruction gives it back; a pseudo-instruction gives its expansion (R151 to R162, R176). -/
def Obligations.DecodeInvertsEncode : Prop :=
  ∀ i : Instr, i.WellFormed → decode (encode i) = .instr i.expand

/-- Whatever word decodes to an instruction is that instruction's word: no two words share a meaning, no bit is dropped, and the
instruction is a well-formed machine instruction (R156, R163, R166). -/
def Obligations.EncodeInvertsDecode : Prop :=
  ∀ (w : Word) (i : Instr), decode w = .instr i → encode i = w ∧ i.WellFormed ∧ i.expand = i

/-- Words printed in the per-instruction rules, one or more for each family, decode to the instruction they stand for. -/
def Obligations.DecodesPrintedWords : Prop :=
  decode 0xB5F17000#32 = .instr (.add 14#5 15#5 17#5) ∧
  decode 0x3444FFE0#32 = .instr (.addi 4#5 2#5 0xFFE0#16) ∧
  decode 0xB1E07000#32 = .instr (.sextb 14#5 15#5) ∧
  decode 0x20445555#32 = .instr (.andi 4#5 2#5 0x5555#16) ∧
  decode 0xE5F17000#32 = .instr (.cmpe 14#5 15#5 17#5) ∧
  decode 0x3C440011#32 = .instr (.sli 4#5 2#5 17#5) ∧
  decode 0x28440008#32 = .instr (.lw 4#5 2#5 8#16) ∧
  decode 0x58440008#32 = .instr (.sw 2#5 8#16 4#5) ∧
  decode 0x90207800#32 = .instr (.rcsr 15#5 1#5) ∧
  decode 0xD02F0000#32 = .instr (.wcsr 1#5 15#5) ∧
  decode 0xC0600000#32 = .instr (.b 3#5) ∧
  decode 0xF8000380#32 = .instr (.calli 0x380#26) ∧
  decode 0xAC000007#32 = .instr .scall ∧
  decode 0xC3C00000#32 = .instr .eret

/-- The words with no defined meaning are exactly those of R164 (a) to (c), the must-be-zero bits being those of R163. The opcode of
`divu` is accepted: PRESUMED (notes/assumptions/21.md). -/
def Obligations.UndefinedWords : Prop :=
  ∀ w : Word, (∃ e, decode w = .undefined e) ↔ Undefined w

/-! ### Arithmetic (40_arithmetic.md) -/

/-- `add`, `addi`, `sub` (R200, R201, R202): the words as printed, the sum or difference modulo 2^32, nothing else changed. -/
def Obligations.AddAndSubtract : Prop :=
  ∀ (s : State) (rX rY rZ : Reg) (imm : BitVec 16),
    Computes (printedRR 0xB4000000#32 rX rY rZ) (.add rX rY rZ) s rX
      (BitVec.ofNat 32 ((s.reg rY).toNat + (s.reg rZ).toNat)) ∧
    Computes (printedRI 0x34000000#32 rX rY imm) (.addi rX rY imm) s rX
      (BitVec.ofInt 32 ((s.reg rY).toInt + imm.toInt)) ∧
    Computes (printedRR 0xC8000000#32 rX rY rZ) (.sub rX rY rZ) s rX
      (BitVec.ofInt 32 ((s.reg rY).toInt - (s.reg rZ).toInt))

/-- `mul`, `muli` (R203, R204) on an instance with a multiplier: the low 32 bits of the product, nothing else changed. -/
def Obligations.Multiply : Prop :=
  ∀ (s : State) (rX rY rZ : Reg) (imm : BitVec 16), (s.cfg.mcMultiply = true ∨ s.cfg.plMultiply = true) →
    Computes (printedRR 0x88000000#32 rX rY rZ) (.mul rX rY rZ) s rX
      (BitVec.ofNat 32 ((s.reg rY).toNat * (s.reg rZ).toNat)) ∧
    Computes (printedRI 0x08000000#32 rX rY imm) (.muli rX rY imm) s rX
      (BitVec.ofInt 32 ((s.reg rY).toInt * imm.toInt))

/-- `divu`, `modu` (R205, R206, R423) on an instance with a divider: unsigned quotient and remainder, nothing else changed; with a
zero divisor DivideByZero is entered and the destination is not written (D31). The word of `divu` is PRESUMED
(notes/assumptions/21.md). -/
def Obligations.Divide : Prop :=
  ∀ (s : State) (rX rY rZ : Reg), s.cfg.divide = true →
    (s.reg rZ ≠ 0#32 →
      Computes (printedRR 0x8C000000#32 rX rY rZ) (.divu rX rY rZ) s rX
        (BitVec.ofNat 32 ((s.reg rY).toNat / (s.reg rZ).toNat)) ∧
      Computes (printedRR 0xC4000000#32 rX rY rZ) (.modu rX rY rZ) s rX
        (BitVec.ofNat 32 ((s.reg rY).toNat % (s.reg rZ).toNat))) ∧
    (s.reg rZ = 0#32 →
      (∃ t, exec (.divu rX rY rZ) s = .next t ∧ EnteredNonDebug s t 5) ∧
      (∃ t, exec (.modu rX rY rZ) s = .next t ∧ EnteredNonDebug s t 5))

/-- `sextb`, `sexth` (R207, R208) on an instance with the unit: the signed value of the low byte or half-word. -/
def Obligations.SignExtend : Prop :=
  ∀ (s : State) (rX rY : Reg), s.cfg.signExtend = true →
    Computes (0xB0000000#32 ||| fieldAt rY 21 ||| fieldAt rX 11) (.sextb rX rY) s rX
      (BitVec.ofInt 32 ((s.reg rY).extractLsb' 0 8).toInt) ∧
    Computes (0xDC000000#32 ||| fieldAt rY 21 ||| fieldAt rX 11) (.sexth rX rY) s rX
      (BitVec.ofInt 32 ((s.reg rY).extractLsb' 0 16).toInt)

/-- Without its unit an optional instruction has no meaning (30_encoding.md R165, U5): it is refused by name. -/
def Obligations.OptionalUnitsRefused : Prop :=
  ∀ (s : State) (rX rY rZ : Reg) (imm : BitVec 16) (n : BitVec 5),
    (s.cfg.hasMul = false →
      exec (.mul rX rY rZ) s = .refused .absentUnit ∧ exec (.muli rX rY imm) s = .refused .absentUnit) ∧
    (s.cfg.hasDiv = false →
      exec (.divu rX rY rZ) s = .refused .absentUnit ∧ exec (.modu rX rY rZ) s = .refused .absentUnit) ∧
    (s.cfg.hasShift = false →
      exec (.sl rX rY rZ) s = .refused .absentUnit ∧ exec (.sli rX rY n) s = .refused .absentUnit ∧
      exec (.sr rX rY rZ) s = .refused .absentUnit ∧ exec (.sri rX rY n) s = .refused .absentUnit ∧
      exec (.sru rX rY rZ) s = .refused .absentUnit ∧ exec (.srui rX rY n) s = .refused .absentUnit) ∧
    (s.cfg.hasSext = false →
      exec (.sextb rX rY) s = .refused .absentUnit ∧ exec (.sexth rX rY) s = .refused .absentUnit)

/-! ### Logic (41_logic.md) -/

/-- The five register forms (R220, R223, R227, R229, R231). -/
def Obligations.LogicRegisterForms : Prop :=
  ∀ (s : State) (rX rY rZ : Reg),
    Computes (printedRR 0xA0000000#32 rX rY rZ) (.and rX rY rZ) s rX (s.reg rY &&& s.reg rZ) ∧
    Computes (printedRR 0xB8000000#32 rX rY rZ) (.or rX rY rZ) s rX (s.reg rY ||| s.reg rZ) ∧
    Computes (printedRR 0x98000000#32 rX rY rZ) (.xor rX rY rZ) s rX (s.reg rY ^^^ s.reg rZ) ∧
    Computes (printedRR 0x84000000#32 rX rY rZ) (.nor rX rY rZ) s rX (~~~ (s.reg rY ||| s.reg rZ)) ∧
    Computes (printedRR 0xA4000000#32 rX rY rZ) (.xnor rX rY rZ) s rX (~~~ (s.reg rY ^^^ s.reg rZ))

/-- The seven immediate forms (R221, R222, R224, R225, R228, R230, R232): the immediate is zero-extended, or stands in the upper
half in the "hi" forms. -/
def Obligations.LogicImmediateForms : Prop :=
  ∀ (s : State) (rX rY : Reg) (imm : BitVec 16),
    Computes (printedRI 0x20000000#32 rX rY imm) (.andi rX rY imm) s rX (s.reg rY &&& BitVec.ofNat 32 imm.toNat) ∧
    Computes (printedRI 0x60000000#32 rX rY imm) (.andhi rX rY imm) s rX (s.reg rY &&& BitVec.ofNat 32 (imm.toNat * 65536)) ∧
    Computes (printedRI 0x38000000#32 rX rY imm) (.ori rX rY imm) s rX (s.reg rY ||| BitVec.ofNat 32 imm.toNat) ∧
    Computes (printedRI 0x78000000#32 rX rY imm) (.orhi rX rY imm) s rX (s.reg rY ||| BitVec.ofNat 32 (imm.toNat * 65536)) ∧
    Computes (printedRI 0x18000000#32 rX rY imm) (.xori rX rY imm) s rX (s.reg rY ^^^ BitVec.ofNat 32 imm.toNat) ∧
    Computes (printedRI 0x04000000#32 rX rY imm) (.nori rX rY imm) s rX (~~~ (s.reg rY ||| BitVec.ofNat 32 imm.toNat)) ∧
    Computes (printedRI 0x24000000#32 rX rY imm) (.xnori rX rY imm) s rX (~~~ (s.reg rY ^^^ BitVec.ofNat 32 imm.toNat))

/-- The pseudo-instructions that write a register (R233 to R237): each spelling's word decodes to the machine instruction it stands
for, and the spelling has that instruction's effect under the real value of x[0]; `nop` changes nothing but the pc. -/
def Obligations.PseudoInstructions : Prop :=
  ∀ (s : State) (rX rY : Reg) (imm : BitVec 16),
    decode (0xA4000000#32 ||| fieldAt rY 21 ||| fieldAt rX 11) = .instr (.xnor rX rY 0#5) ∧
    (∃ t, exec (.not rX rY) s = .next t ∧ Writes s t rX (~~~ (s.reg rY ^^^ s.reg 0#5)) (s.pc + 4#32)) ∧
    decode (0xB8000000#32 ||| fieldAt rY 21 ||| fieldAt rX 11) = .instr (.or rX rY 0#5) ∧
    (∃ t, exec (.mv rX rY) s = .next t ∧ Writes s t rX (s.reg rY ||| s.reg 0#5) (s.pc + 4#32)) ∧
    decode (0x78000000#32 ||| fieldAt rX 16 ||| imm.setWidth 32) = .instr (.orhi rX 0#5 imm) ∧
    (∃ t, exec (.mvhi rX imm) s = .next t ∧ Writes s t rX (s.reg 0#5 ||| (imm ++ 0#16)) (s.pc + 4#32)) ∧
    decode (0x34000000#32 ||| fieldAt rX 16 ||| imm.setWidth 32) = .instr (.addi rX 0#5 imm) ∧
    (∃ t, exec (.mvi rX imm) s = .next t ∧
      Writes s t rX (BitVec.ofInt 32 ((s.reg 0#5).toInt + imm.toInt)) (s.pc + 4#32)) ∧
    decode 0x34000000#32 = .instr (.addi 0#5 0#5 0#16) ∧
    exec .nop s = .next { s with pc := s.pc + 4#32 }

/-! ### Comparison (42_comparison.md) -/

/-- The six register forms (R250, R252, R254, R256, R258, R260): 1 if true, 0 if false. -/
def Obligations.CompareRegisterForms : Prop :=
  ∀ (s : State) (rX rY rZ : Reg),
    Computes (printedRR 0xE4000000#32 rX rY rZ) (.cmpe rX rY rZ) s rX
      (if s.reg rY = s.reg rZ then 1#32 else 0#32) ∧
    Computes (printedRR 0xFC000000#32 rX rY rZ) (.cmpne rX rY rZ) s rX
      (if s.reg rY = s.reg rZ then 0#32 else 1#32) ∧
    Computes (printedRR 0xE8000000#32 rX rY rZ) (.cmpg rX rY rZ) s rX
      (if (s.reg rY).toInt > (s.reg rZ).toInt then 1#32 else 0#32) ∧
    Computes (printedRR 0xF4000000#32 rX rY rZ) (.cmpgu rX rY rZ) s rX
      (if (s.reg rY).toNat > (s.reg rZ).toNat then 1#32 else 0#32) ∧
    Computes (printedRR 0xEC000000#32 rX rY rZ) (.cmpge rX rY rZ) s rX
      (if (s.reg rY).toInt ≥ (s.reg rZ).toInt then 1#32 else 0#32) ∧
    Computes (printedRR 0xF0000000#32 rX rY rZ) (.cmpgeu rX rY rZ) s rX
      (if (s.reg rY).toNat ≥ (s.reg rZ).toNat then 1#32 else 0#32)

/-- The six immediate forms (R251, R253, R255, R257, R259, R261): the immediate is sign-extended, in the unsigned forms
zero-extended. -/
def Obligations.CompareImmediateForms : Prop :=
  ∀ (s : State) (rX rY : Reg) (imm : BitVec 16),
    Computes (printedRI 0x64000000#32 rX rY imm) (.cmpei rX rY imm) s rX
      (if (s.reg rY).toInt = imm.toInt then 1#32 else 0#32) ∧
    Computes (printedRI 0x7C000000#32 rX rY imm) (.cmpnei rX rY imm) s rX
      (if (s.reg rY).toInt = imm.toInt then 0#32 else 1#32) ∧
    Computes (printedRI 0x68000000#32 rX rY imm) (.cmpgi rX rY imm) s rX
      (if (s.reg rY).toInt > imm.toInt then 1#32 else 0#32) ∧
    Computes (printedRI 0x74000000#32 rX rY imm) (.cmpgui rX rY imm) s rX
      (if (s.reg rY).toNat > imm.toNat then 1#32 else 0#32) ∧
    Computes (printedRI 0x6C000000#32 rX rY imm) (.cmpgei rX rY imm) s rX
      (if (s.reg rY).toInt ≥ imm.toInt then 1#32 else 0#32) ∧
    Computes (printedRI 0x70000000#32 rX rY imm) (.cmpgeui rX rY imm) s rX
      (if (s.reg rY).toNat ≥ imm.toNat then 1#32 else 0#32)

/-! ### Shift (43_shift.md) -/

/-- The six shifts (R270 to R275) on an instance with a shifter, in integer arithmetic: the count is the low five bits of rZ, or the
5-bit immediate; left is a product, right a floored quotient of the signed or unsigned value. -/
def Obligations.Shifts : Prop :=
  ∀ (s : State) (rX rY rZ : Reg) (n : BitVec 5), (s.cfg.mcBarrelShift = true ∨ s.cfg.plBarrelShift = true) →
    Computes (printedRR 0xBC000000#32 rX rY rZ) (.sl rX rY rZ) s rX
      (BitVec.ofNat 32 ((s.reg rY).toNat * 2 ^ ((s.reg rZ).toNat % 32))) ∧
    Computes (printedShift 0x3C000000#32 rX rY n) (.sli rX rY n) s rX
      (BitVec.ofNat 32 ((s.reg rY).toNat * 2 ^ n.toNat)) ∧
    Computes (printedRR 0x94000000#32 rX rY rZ) (.sr rX rY rZ) s rX
      (BitVec.ofInt 32 ((s.reg rY).toInt / 2 ^ ((s.reg rZ).toNat % 32))) ∧
    Computes (printedShift 0x14000000#32 rX rY n) (.sri rX rY n) s rX
      (BitVec.ofInt 32 ((s.reg rY).toInt / 2 ^ n.toNat)) ∧
    Computes (printedRR 0x80000000#32 rX rY rZ) (.sru rX rY rZ) s rX
      (BitVec.ofNat 32 ((s.reg rY).toNat / 2 ^ ((s.reg rZ).toNat % 32))) ∧
    Computes (printedShift 0x00000000#32 rX rY n) (.srui rX rY n) s rX
      (BitVec.ofNat 32 ((s.reg rY).toNat / 2 ^ n.toNat))

/-! ### Loads and stores (44_data_transfer.md) -/

/-- The five loads (R286 to R290) from ordinary memory, where no other byte may be returned: the bytes at x[rY] + sext(imm16), the
most significant first (20_memory.md R110), extended as the rule says; nothing else changes, but that a load that misses the data
cache fills a line of it (R121, R124). Where the line starts, its set and how it is fetched are a DESIGN CHOICE, unsafe
(notes/assumptions/48.md). -/
def Obligations.LoadsFromMemory : Prop :=
  ∀ (s : State) (rX rY : Reg) (imm : BitVec 16) (a : Word), a = s.reg rY + imm.signExtend 32 →
    (Reaches s .read .byte a → Fresh s .byte a →
      Loads (printedRI 0x10000000#32 rX rY imm) (.lb rX rY imm) s .byte a rX (BitVec.ofInt 32 (s.byteAt a).toInt) ∧
      Loads (printedRI 0x40000000#32 rX rY imm) (.lbu rX rY imm) s .byte a rX (BitVec.ofNat 32 (s.byteAt a).toNat)) ∧
    (Reaches s .read .half a → Fresh s .half a →
      Loads (printedRI 0x1C000000#32 rX rY imm) (.lh rX rY imm) s .half a rX
        (BitVec.ofInt 32 (s.byteAt a ++ s.byteAt (a + 1#32)).toInt) ∧
      Loads (printedRI 0x2C000000#32 rX rY imm) (.lhu rX rY imm) s .half a rX
        (BitVec.ofNat 32 (s.byteAt a ++ s.byteAt (a + 1#32)).toNat)) ∧
    (Reaches s .read .word a → Fresh s .word a →
      Loads (printedRI 0x28000000#32 rX rY imm) (.lw rX rY imm) s .word a rX
        (s.byteAt a ++ s.byteAt (a + 1#32) ++ s.byteAt (a + 2#32) ++ s.byteAt (a + 3#32)))

/-- The three stores (R291, R292, R293) to ordinary memory: the low byte, half-word or word of rY at x[rX] + sext(imm16), most
significant byte first; every other byte and every register keeps its value. A line that the data cache holds is written too, and
none is fetched (20_memory.md R123); that a store that misses switches the way number is DEDUCED (notes/assumptions/48.md). The
earlier copies it leaves in the caches are those that were there and the word memory held before (20_memory.md R125;
70_reset_and_hazards.md R513: how long they last is the spec's decision D19 and D30, notes/assumptions/13.md). That a stored byte is
read back needs memory in its canonical form. -/
def Obligations.StoresToMemory : Prop :=
  ∀ (s : State) (rX rY : Reg) (imm : BitVec 16) (a : Word), a = s.reg rX + imm.signExtend 32 →
    (Reaches s .write .byte a → ∃ t, decode (printedRI 0x30000000#32 rY rX imm) = .instr (.sb rX imm rY) ∧
      exec (.sb rX imm rY) s = .next t ∧ StoresAt s t .byte a (s.reg rY) ∧
      (Memory.wf s.mem = true → t.byteAt a = (s.reg rY).extractLsb' 0 8)) ∧
    (Reaches s .write .half a → ∃ t, decode (printedRI 0x0C000000#32 rY rX imm) = .instr (.sh rX imm rY) ∧
      exec (.sh rX imm rY) s = .next t ∧ StoresAt s t .half a (s.reg rY) ∧
      (Memory.wf s.mem = true →
        t.byteAt a = (s.reg rY).extractLsb' 8 8 ∧ t.byteAt (a + 1#32) = (s.reg rY).extractLsb' 0 8)) ∧
    (Reaches s .write .word a → ∃ t, decode (printedRI 0x58000000#32 rY rX imm) = .instr (.sw rX imm rY) ∧
      exec (.sw rX imm rY) s = .next t ∧ StoresAt s t .word a (s.reg rY) ∧
      (Memory.wf s.mem = true →
        t.byteAt a = (s.reg rY).extractLsb' 24 8 ∧ t.byteAt (a + 1#32) = (s.reg rY).extractLsb' 16 8 ∧
        t.byteAt (a + 2#32) = (s.reg rY).extractLsb' 8 8 ∧ t.byteAt (a + 3#32) = (s.reg rY).extractLsb' 0 8))

/-- A load sees the core's own store before it, whatever the data cache held (20_memory.md R123, R132): `lw` after `sw` gives the
word, `lhu` after `sh` the half-word, and `lbu` after `sw` the byte the byte order puts there (R110). And a word whose line the data
cache holds is read back as it was stored whether memory or a device answers the store and the load: the copy is written (R123). -/
def Obligations.StoreThenLoad : Prop :=
  ∀ (s t : State) (rX rY rD rB : Reg) (imm imm' : BitVec 16) (a : Word), Memory.wf s.mem = true →
    a = s.reg rX + imm.signExtend 32 →
    (Reaches s .write .word a → exec (.sw rX imm rY) s = .next t →
      (t.reg rB + imm'.signExtend 32 = a → Reaches t .read .word a →
        ∃ u, exec (.lw rD rB imm') t = .next u ∧ u.reg rD = s.reg rY) ∧
      (∀ k : Nat, k < 4 → t.reg rB + imm'.signExtend 32 = a + BitVec.ofNat 32 k →
        Reaches t .read .byte (a + BitVec.ofNat 32 k) →
        ∃ u, exec (.lbu rD rB imm') t = .next u ∧
          u.reg rD = ((s.reg rY).extractLsb' (24 - 8 * k) 8).setWidth 32)) ∧
    (Reaches s .write .half a → exec (.sh rX imm rY) s = .next t →
      t.reg rB + imm'.signExtend 32 = a → Reaches t .read .half a →
        ∃ u, exec (.lhu rD rB imm') t = .next u ∧ u.reg rD = ((s.reg rY).extractLsb' 0 16).setWidth 32) ∧
    (Inv s → s.staleData = [] → Held s a → (∀ k, k < 4 → dataCached s.cfg (a + BitVec.ofNat 32 k) = true) →
      wordAligned a = true → s.watchpointHit .write a = false → respond s.cfg .write .word a ∈ [.memory, .device] →
      exec (.sw rX imm rY) s = .next t → t.reg rB + imm'.signExtend 32 = a → t.watchpointHit .read a = false →
      respond s.cfg .read .word a ∈ [.memory, .device] →
        ∃ u, exec (.lw rD rB imm') t = .next u ∧ u.reg rD = s.reg rY)

/-- Where a load or store does not complete (R294, steps 2 to 4, in this order): a watchpoint enters Watchpoint, a misaligned
address ends the run's guarantees (20_memory.md R116, U1), a bus error enters DataBusError, and no response leaves the core waiting
(R145, U12). That the exceptions are precise and a failed or watched access changes neither its register nor memory is a DESIGN
CHOICE (D11, D34, unsafe: notes/assumptions/31.md); so are the fault (D3, notes/assumptions/24.md) and the waiting
(notes/assumptions/10.md). -/
def Obligations.LoadStoreTraps : Prop :=
  ∀ (s : State) (i : Instr) (k : AccessKind) (n : AccessSize) (base : Reg) (imm : BitVec 16) (a : Word),
    dataOperand i = some (k, n, base, imm) → a = s.reg base + imm.signExtend 32 →
    (s.watchpointHit k a = true → ∃ t, exec i s = .next t ∧ EnteredDebug s t 3) ∧
    (s.watchpointHit k a = false → aligned n a = false → exec i s = .fault .misalignedData) ∧
    (s.watchpointHit k a = false → aligned n a = true → respond s.cfg k n a = .busError →
      ∃ t, exec i s = .next t ∧ EnteredNonDebug s t 4) ∧
    (s.watchpointHit k a = false → aligned n a = true → respond s.cfg k n a = .noResponse →
      exec i s = .next { s with waiting := true })

/-- Devices (20_memory.md R104 b, R119): a load takes a value of its width that the device chooses and sends a read event, a store
sends a write event with the stored part of rX; memory is unchanged. Inside the data-cacheable region the first load fills a line,
each word that a device answers being an event, and a second load is answered from the cache: it gives the same bytes and is no
event. A store writes a line that is held and fetches none (R123). The values are free (DESIGN CHOICE, notes/assumptions/9.md), and
so is the form of a fill the model's (DESIGN CHOICE, notes/assumptions/48.md). -/
def Obligations.DeviceAccess : Prop :=
  ∀ (s : State) (rX rY : Reg) (imm : BitVec 16) (n : AccessSize) (a : Word), a = s.reg rY + imm.signExtend 32 →
    aligned n a = true →
    (s.watchpointHit .read a = false → respond s.cfg .read n a = .device →
      (∃ (v : Word) (u : State), v.toNat < 2 ^ (8 * n.bytes) ∧
        u = { s with dataLines := u.dataLines, dataWay := u.dataWay, events := u.events, free := u.free } ∧
        (dataCached s.cfg a = false →
          u.events = .deviceRead n a :: s.events ∧ u.dataLines = s.dataLines ∧ u.dataWay = s.dataWay) ∧
        (dataCached s.cfg a = true → CachesLoad s u n a ∧
          ∃ l ∈ u.dataLines, l.addr = lineAddress s.cfg.dcache a ∧ v = l.value n a) ∧
        ∀ (i : Instr) (r : Word),
          (i, r) ∈ ((match n with
            | .byte => [(.lb rX rY imm, (v.extractLsb' 0 8).signExtend 32), (.lbu rX rY imm, v)]
            | .half => [(.lh rX rY imm, (v.extractLsb' 0 16).signExtend 32), (.lhu rX rY imm, v)]
            | .word => [(.lw rX rY imm, v)]) : List (Instr × Word)) →
          ∃ t, exec i s = .next t ∧ t.reg rX = r ∧ (∀ q, q ≠ rX → t.reg q = s.reg q) ∧
            t = { u with regs := t.regs, pc := s.pc + 4#32 }) ∧
      (dataCached s.cfg a = true → ∀ (t : State) (rD rB : Reg) (imm' : BitVec 16), exec (plainLoad n rX rY imm) s = .next t →
        t.reg rB + imm'.signExtend 32 = a →
        ∃ u, exec (plainLoad n rD rB imm') t = .next u ∧ u.reg rD = t.reg rX ∧ u.events = t.events)) ∧
    (s.watchpointHit .write a = false → respond s.cfg .write n a = .device →
      ∃ t, exec (match n with
        | .byte => .sb rY imm rX
        | .half => .sh rY imm rX
        | .word => .sw rY imm rX) s = .next t ∧
        CachesStore s t n a (s.reg rX) ∧
        t = { s with
          pc := s.pc + 4#32
          events := .deviceWrite n a (BitVec.ofNat 32 ((s.reg rX).toNat % 2 ^ (8 * n.bytes))) :: s.events
          dataLines := t.dataLines
          dataWay := t.dataWay })

/-- A watchpoint matches exactly when one that exists holds the access's address and its field of DC has the bit for the kind
(60_exceptions.md R442, D17; 10_state.md R61). -/
def Obligations.WatchpointMatch : Prop :=
  ∀ (s : State) (k : AccessKind) (a : Word),
    s.watchpointHit k a = true ↔
      s.cfg.debug = true ∧ ∃ n : Fin 4, n.val < s.cfg.watchpoints ∧ s.wp[n] = a ∧
        ((k = .read ∧ (s.dc.c[n]).getLsbD 0 = true) ∨ (k = .write ∧ (s.dc.c[n]).getLsbD 1 = true))

/-- What a load sees (20_memory.md R124, U17): whatever the data cache may hold, a load from ordinary memory completes, each byte it
reads is the one memory holds, the cache's copy or an earlier one that may still be cached, and nothing changes but its register,
the pc and what every load does to the cache. That the choice is made byte by byte is the model's (DESIGN CHOICE,
notes/assumptions/14.md). -/
def Obligations.LoadSeesCurrentOrEarlier : Prop :=
  ∀ (s : State) (rX rY : Reg) (imm : BitVec 16) (n : AccessSize) (a : Word), a = s.reg rY + imm.signExtend 32 →
    Reaches s .read n a →
    ∃ (bs : List Byte) (v : Word), bs.length = n.bytes ∧ v = BitVec.ofNat 32 (bs.foldl (fun v b => 256 * v + b.toNat) 0) ∧
      (∀ (k : Nat) (b : Byte), bs[k]? = some b →
        b = s.byteAt (a + BitVec.ofNat 32 k) ∨ b ∈ s.oldBytes (a + BitVec.ofNat 32 k)) ∧
      ∀ (i : Instr) (r : Word),
        (i, r) ∈ ((match n with
          | .byte => [(.lb rX rY imm, (v.extractLsb' 0 8).signExtend 32), (.lbu rX rY imm, v)]
          | .half => [(.lh rX rY imm, (v.extractLsb' 0 16).signExtend 32), (.lhu rX rY imm, v)]
          | .word => [(.lw rX rY imm, v)]) : List (Instr × Word)) →
        ∃ t, exec i s = .next t ∧ LoadsAt s t n a rX r

/-- While no other master writes, the data cache holds nothing but what memory holds (20_memory.md R124): a state with no earlier
bytes has none after a step; and where the platform answers a word alike in every width, each copy of a byte that is memory's stays
equal to memory, so that a load can return nothing else. -/
def Obligations.NoOtherMasterNoStaleData : Prop :=
  ∀ s t : State, s.staleData = [] → (∀ i ∈ s.inputs, i.writes = []) → step s = .next t →
    t.staleData = [] ∧ (∀ i ∈ t.inputs, i.writes = []) ∧
    (Inv s → PlainMap s.cfg → Coherent s → Coherent t ∧
      ∀ b, respond s.cfg .read .word (wordAddress b) = .memory → t.oldBytes b = [])

/-- What a fetch sees and does (20_memory.md R114, R121, R125, R129): from ordinary memory it gives the word memory holds, an
earlier one, or the copy in the line that the instruction cache holds, and the last two only where the address is cached, or where
there is no instruction cache; in a state that meets the invariant the copy is one of the other two. A miss fills a line. From a
device, where the address is cached, it gives the word of the line that is then held, and a later fetch that finds that line the
same word without an event (notes/assumptions/44.md, 49.md). -/
def Obligations.FetchSeesCurrentOrEarlier : Prop :=
  ∀ s : State, wordAligned s.pc = true → fetchDefined s.cfg s.pc = true →
    (respond s.cfg .fetch .word s.pc = .memory → ∃ (w : Word) (t : State), s.fetch = .word w t ∧ AfterFetch s t ∧
      (w = heldWord s s.pc ∨ (∃ e ∈ s.staleCode, e.addr = s.pc ∧ w = e.word ∧ (s.cfg.hasICache = true → codeCached s.cfg s.pc = true)) ∨
        ∃ l ∈ s.codeLines, CodeHeld s s.pc ∧ l.addr = lineAddress s.cfg.icache s.pc ∧ w = l.value .word s.pc) ∧
      (Inv s → w = heldWord s s.pc ∨ ∃ e ∈ s.staleCode, e.addr = s.pc ∧ w = e.word)) ∧
    (respond s.cfg .fetch .word s.pc = .device → ∃ (w : Word) (t : State), s.fetch = .word w t ∧ AfterFetch s t ∧
      (codeCached s.cfg s.pc = true →
        (∃ l ∈ t.codeLines, l.addr = lineAddress s.cfg.icache s.pc ∧ w = l.value .word s.pc) ∧
        ∀ u : State, u.cfg = s.cfg → u.pc = s.pc → u.codeLines = t.codeLines →
          ∃ u', u.fetch = .word w u' ∧ u'.events = u.events))

/-- Invalidating the instruction cache (20_memory.md R126; 70_reset_and_hazards.md R511): `wcsr ICC` completes and stores no value.
Once four instructions that store nothing were executed after it, each fetched, no earlier word can be fetched: memory's words are
seen; and where nothing was fetched in between no line is left. The bound of four is the spec's own decision (D19, 90_conflicts.md
C6), and that the invalidation may take effect at any moment in these slots the model's: a DESIGN CHOICE, notes/assumptions/13.md.
-/
def Obligations.CodeInvalidation : Prop :=
  ∀ (s : State) (rX : Reg), s.cfg.hasICache = true →
    (∃ t, CsrWrites 0x03#5 rX s t ∧
      t = { s with pc := s.pc + 4#32, staleCode := t.staleCode, codeLines := t.codeLines, icc := t.icc, free := t.free } ∧
      (∀ e ∈ t.staleCode, e.life ≠ none) ∧ (t.codeLines = [] ∨ (t.codeLines = s.codeLines ∧ 4 ∈ t.icc))) ∧
    (Inv s → ∀ (i₁ i₂ i₃ i₄ : Instr) (s₁ s₂ s₃ s₄ s₅ : State), execute (.wcsr 0x03#5 rX) s = .next s₁ →
      (FetchedSlot i₁ s₁ s₂ → FetchedSlot i₂ s₂ s₃ → FetchedSlot i₃ s₃ s₄ → FetchedSlot i₄ s₄ s₅ →
        s₅.staleCode = [] ∧
        ∀ a, wordAligned a = true → respond s.cfg .fetch .word a = .memory → s₅.oldWords a = []) ∧
      (Slot i₁ s₁ s₂ → Slot i₂ s₂ s₃ → Slot i₃ s₃ s₄ → Slot i₄ s₄ s₅ → s₅.staleCode = [] ∧ s₅.codeLines = []))

/-- Invalidating the data cache (20_memory.md R127; 70_reset_and_hazards.md R512): `wcsr DCC` completes and stores no value, and
with no load or store just before or after it no earlier byte and no line is left; no line appears either way. That it completes
next to a load or store too, where 93_implementation_defined.md U16 says refuse and R512 that memory stays intact, is the model's
choice (DESIGN CHOICE, unsafe: notes/assumptions/14.md); the decision on the neighbours is D19. -/
def Obligations.DataInvalidation : Prop :=
  ∀ (s : State) (rX : Reg), s.cfg.hasDCache = true →
    (∃ t, CsrWrites 0x04#5 rX s t ∧ 
      t = { s with pc := s.pc + 4#32, staleData := t.staleData, dataLines := t.dataLines, free := t.free } ∧
      ∀ l ∈ t.dataLines, ∃ l' ∈ s.dataLines, l = { l' with dropping := l.dropping }) ∧
    (∀ (i : Instr) (s₁ s₂ : State), s.lastMem = false → isDataAccess i = false →
      execute (.wcsr 0x04#5 rX) s = .next s₁ → execute i s₁ = .next s₂ →
      s₂.staleData = [] ∧ s₂.dataLines = [])

/-! ### Control and status registers (10_state.md) -/

/-- IE (R45): `rcsr` gives BIE, EIE and IE in bits 2 to 0 and zeros above, `wcsr` sets the three fields and nothing else (D8). -/
def Obligations.InterruptEnableRegister : Prop :=
  ∀ (s : State) (rX : Reg),
    CsrReads 0x00#5 s rX (BitVec.ofNat 32 (4 * s.ieBIE.toNat + 2 * s.ieEIE.toNat + s.ieIE.toNat)) ∧
    ∃ t, CsrWrites 0x00#5 rX s t ∧
      t = { s with
        pc := s.pc + 4#32
        ieIE := (s.reg rX).getLsbD 0
        ieEIE := (s.reg rX).getLsbD 1
        ieBIE := (s.reg rX).getLsbD 2 }

/-- IM and IP (R46, R47, R48): both are read whole, IM is written, a 1 written to IP clears the bit unless its line is still
asserted; bits without a line read 0 and are not set (D22, D26). -/
def Obligations.InterruptMaskAndPending : Prop :=
  ∀ (s : State) (rX : Reg),
    (∃ v, CsrReads 0x01#5 s rX v ∧ ∀ j, j < 32 → v.getLsbD j = (s.im.getLsbD j && decide (j < s.cfg.interrupts))) ∧
    (∃ v, CsrReads 0x02#5 s rX v ∧ ∀ j, j < 32 → v.getLsbD j = (s.ip.getLsbD j && decide (j < s.cfg.interrupts))) ∧
    (∃ t, CsrWrites 0x01#5 rX s t ∧ t = { s with pc := s.pc + 4#32, im := t.im } ∧
      ∀ j, j < 32 → t.im.getLsbD j = ((s.reg rX).getLsbD j && decide (j < s.cfg.interrupts))) ∧
    (∃ t, CsrWrites 0x02#5 rX s t ∧ t = { s with pc := s.pc + 4#32, ip := t.ip } ∧
      ∀ j, j < 32 → t.ip.getLsbD j =
        ((s.ip.getLsbD j && !(s.reg rX).getLsbD j) || (s.intLines.getLsbD j && decide (j < s.cfg.interrupts))))

/-- EBA, and DEBA with debug support (R57, R63): the low byte reads 0 and what is written to it is dropped (D23). -/
def Obligations.BaseAddressRegisters : Prop :=
  ∀ (s : State) (rX : Reg),
    CsrReads 0x07#5 s rX (s.eba ++ 0#8) ∧
    (∃ t, CsrWrites 0x07#5 rX s t ∧ t = { s with pc := s.pc + 4#32, eba := (s.reg rX).extractLsb' 8 24 }) ∧
    (s.cfg.debug = true →
      CsrReads 0x09#5 s rX (s.deba ++ 0#8) ∧
      ∃ t, CsrWrites 0x09#5 rX s t ∧ t = { s with pc := s.pc + 4#32, deba := (s.reg rX).extractLsb' 8 24 })

/-- DC (R59, R62): `wcsr` sets every field from the written word at the places of DC_LAYOUT, and nothing else; it cannot be read: no
value is defined (R68). The default layout is PRESUMED (notes/assumptions/20.md); the statement holds for every layout. -/
def Obligations.DebugControlRegister : Prop :=
  ∀ (s : State) (rX : Reg), s.cfg.debug = true →
    s.csrRead 0x08#5 = none ∧ ¬ CsrReadable s.cfg 0x08#5 ∧
    ∃ t, CsrWrites 0x08#5 rX s t ∧ t = { s with pc := s.pc + 4#32, dc := t.dc } ∧
      t.dc.ss = (s.reg rX).getLsbD s.cfg.dcLayout.ss ∧ t.dc.re = (s.reg rX).getLsbD s.cfg.dcLayout.re ∧
      ∀ n : Fin 4, ∀ j : Nat, j < 2 → (t.dc.c[n]).getLsbD j =
        (s.reg rX).getLsbD ((#v[s.cfg.dcLayout.c0, s.cfg.dcLayout.c1, s.cfg.dcLayout.c2, s.cfg.dcLayout.c3] : Vector Nat 4)[n] + j)

/-- BP0 to BP3 and WP0 to WP3 (R66, R67), for those the instance has: `wcsr` sets A and E, or the whole word, and nothing else; they
cannot be read (no value is defined: R68), and they are 0 after reset. -/
def Obligations.BreakpointAndWatchpointRegisters : Prop :=
  (∀ (s : State) (rX : Reg) (n : Fin 4), s.cfg.debug = true →
    (n.val < s.cfg.breakpoints → s.csrRead (BitVec.ofNat 5 (0x10 + n.val)) = none ∧
      ¬ CsrReadable s.cfg (BitVec.ofNat 5 (0x10 + n.val)) ∧
      ∃ t, CsrWrites (BitVec.ofNat 5 (0x10 + n.val)) rX s t ∧ t = { s with pc := s.pc + 4#32, bp := t.bp } ∧
        (t.bp[n]).a = (s.reg rX).extractLsb' 2 30 ∧ (t.bp[n]).e = (s.reg rX).getLsbD 0 ∧
        ∀ m : Fin 4, m ≠ n → t.bp[m] = s.bp[m]) ∧
    (n.val < s.cfg.watchpoints → s.csrRead (BitVec.ofNat 5 (0x18 + n.val)) = none ∧
      ¬ CsrReadable s.cfg (BitVec.ofNat 5 (0x18 + n.val)) ∧
      ∃ t, CsrWrites (BitVec.ofNat 5 (0x18 + n.val)) rX s t ∧ t = { s with pc := s.pc + 4#32, wp := t.wp } ∧
        t.wp[n] = s.reg rX ∧ ∀ m : Fin 4, m ≠ n → t.wp[m] = s.wp[m])) ∧
  ∀ (c : Cfg) (n : Fin 4), (State.powerUp c).bp[n] = { a := 0#30, e := false } ∧ (State.powerUp c).wp[n] = 0#32

/-- CFG and CFG2 (R52, R54, R55): each field says what the instance has. The places of some fields are DEDUCED
(notes/assumptions/41.md). -/
def Obligations.ConfigurationRegisters : Prop :=
  ∀ (s : State) (rX : Reg), cfgLegal s.cfg = true →
    (∃ v, CsrReads 0x06#5 s rX v ∧
      v.getLsbD 0 = (s.cfg.mcMultiply || s.cfg.plMultiply) ∧ v.getLsbD 1 = s.cfg.divide ∧
      v.getLsbD 2 = (s.cfg.mcBarrelShift || s.cfg.plBarrelShift) ∧ v.getLsbD 4 = s.cfg.signExtend ∧
      v.getLsbD 5 = s.cfg.cycleCounter ∧ v.getLsbD 6 = s.cfg.dcache.enabled ∧ v.getLsbD 7 = s.cfg.icache.enabled ∧
      v.getLsbD 8 = s.cfg.debug ∧ v.getLsbD 9 = s.cfg.hwDebug ∧ v.getLsbD 10 = s.cfg.romDebug ∧
      v.getLsbD 11 = s.cfg.jtagUart ∧ (v.extractLsb' 12 6).toNat = s.cfg.interrupts ∧
      (v.extractLsb' 18 4).toNat = s.cfg.breakpoints ∧ (v.extractLsb' 22 4).toNat = s.cfg.watchpoints ∧
      v.extractLsb' 26 6 = s.cfg.rev) ∧
    (∃ v, CsrReads 0x0A#5 s rX v ∧ v.getLsbD 0 = s.cfg.dim.isSome ∧ v.getLsbD 1 = s.cfg.iim.isSome)

/-- CC, JTX and JRX (R51, R64, R65): where present, a read gives the register, whose value is free in every step (D20, D21,
notes/assumptions/5.md and 6.md), with zeros above bit 8 for JTX and JRX; a write of JTX or JRX is an event and changes nothing
else. -/
def Obligations.CycleCounterAndJtagRegisters : Prop :=
  ∀ (s : State) (rX : Reg),
    (s.cfg.cycleCounter = true → CsrReads 0x05#5 s rX s.cc) ∧
    (s.cfg.jtagUart = true →
      CsrReads 0x0E#5 s rX (s.jtx.setWidth 32) ∧ CsrReads 0x0F#5 s rX (s.jrx.setWidth 32) ∧
      (∃ t, CsrWrites 0x0E#5 rX s t ∧
        t = { s with pc := s.pc + 4#32, events := .jtagTransmit ((s.reg rX).extractLsb' 0 8) :: s.events }) ∧
      (∃ t, CsrWrites 0x0F#5 rX s t ∧
        t = { s with pc := s.pc + 4#32, events := .jtagReceiveWrite (s.reg rX) :: s.events }))

/-- The last rows of R68 and R69: `rcsr` of a write-only, absent or unassigned register writes a free value to rX and changes no
other state (U6); `wcsr` of a read-only, absent or unassigned register is refused (U7), and of any other it completes. -/
def Obligations.CsrsThatCannotBeAccessed : Prop :=
  ∀ (s : State) (rX : Reg) (k : CsrIndex),
    (¬ CsrReadable s.cfg k → ∃ t, exec (.rcsr rX k) s = .next t ∧ t.pc = s.pc + 4#32 ∧
      (∀ q, q ≠ rX → t.reg q = s.reg q) ∧ (∀ b, t.byteAt b = s.byteAt b) ∧
      t = { s with regs := t.regs, pc := t.pc, free := t.free }) ∧
    (¬ CsrWritable s.cfg k → exec (.wcsr k rX) s = .refused (.csrNotWritable k)) ∧
    (CsrWritable s.cfg k → ∃ t, exec (.wcsr k rX) s = .next t)

/-! ### Program flow (45_program_flow.md) -/

/-- `bi` and `calli` (R322, R336): the target is relative to the instruction's own address, and `calli` leaves pc + 4 in ra. -/
def Obligations.ImmediateTransfers : Prop :=
  ∀ (s : State) (imm : BitVec 26),
    decode (0xE0000000#32 ||| imm.setWidth 32) = .instr (.bi imm) ∧
    (∃ t, exec (.bi imm) s = .next t ∧ GoesTo s t (s.pc + (imm ++ 0#2).signExtend 32)) ∧
    decode (0xF8000000#32 ||| imm.setWidth 32) = .instr (.calli imm) ∧
    (∃ t, exec (.calli imm) s = .next t ∧ Links s t 29#5 (s.pc + 4#32) (s.pc + (imm ++ 0#2).signExtend 32))

/-- `b`, `call` and `ret` (R321, R335, R337) to an address that is a multiple of 4: `call` reads its register before it writes ra
(D35), so `call ra` goes to the old x[29]. -/
def Obligations.RegisterTransfers : Prop :=
  ∀ (s : State) (rX : Reg), (s.reg rX).toNat % 4 = 0 →
    (rX ≠ 30#5 → rX ≠ 31#5 → decode (0xC0000000#32 ||| fieldAt rX 21) = .instr (.b rX)) ∧
    (∃ t, exec (.b rX) s = .next t ∧ GoesTo s t (s.reg rX)) ∧
    decode (0xD8000000#32 ||| fieldAt rX 21) = .instr (.call rX) ∧
    (∃ t, exec (.call rX) s = .next t ∧ Links s t 29#5 (s.pc + 4#32) (s.reg rX)) ∧
    decode 0xC3A00000#32 = .instr (.b 29#5) ∧
    (rX = 29#5 → ∃ t, exec .ret s = .next t ∧ GoesTo s t (s.reg 29#5))

/-- A register target with bit 1 or bit 0 set has no meaning (10_state.md R40, U4): `b`, `call`, `ret`, `eret` and `bret` are
refused. -/
def Obligations.MisalignedTargetsRefused : Prop :=
  ∀ (s : State) (rX : Reg), (s.reg rX).toNat % 4 ≠ 0 →
    exec (.b rX) s = .refused .misalignedTarget ∧
    exec (.call rX) s = .refused .misalignedTarget ∧
    (rX = 29#5 → exec .ret s = .refused .misalignedTarget) ∧
    (rX = 30#5 → exec .eret s = .refused .misalignedTarget) ∧
    (rX = 31#5 → exec .bret s = .refused .misalignedTarget)

/-- The six conditional branches (R323 to R329), their operands placed by BRANCH_OPERAND_FIELDS (R330): taken, the pc goes to its
own address plus the offset; not taken, to the next instruction; nothing else changes. -/
def Obligations.ConditionalBranches : Prop :=
  ∀ (s : State) (rX rY : Reg) (imm : BitVec 16) (a b : Word), a = leftOperand s rX rY → b = rightOperand s rX rY →
    (decode (printedRI 0x44000000#32 rX rY imm) = .instr (.be rX rY imm) ∧
      ∃ t, exec (.be rX rY imm) s = .next t ∧ Branches s t (a = b) imm) ∧
    (decode (printedRI 0x5C000000#32 rX rY imm) = .instr (.bne rX rY imm) ∧
      ∃ t, exec (.bne rX rY imm) s = .next t ∧ Branches s t (a ≠ b) imm) ∧
    (decode (printedRI 0x48000000#32 rX rY imm) = .instr (.bg rX rY imm) ∧
      ∃ t, exec (.bg rX rY imm) s = .next t ∧ Branches s t (a.toInt > b.toInt) imm) ∧
    (decode (printedRI 0x54000000#32 rX rY imm) = .instr (.bgu rX rY imm) ∧
      ∃ t, exec (.bgu rX rY imm) s = .next t ∧ Branches s t (a.toNat > b.toNat) imm) ∧
    (decode (printedRI 0x4C000000#32 rX rY imm) = .instr (.bge rX rY imm) ∧
      ∃ t, exec (.bge rX rY imm) s = .next t ∧ Branches s t (a.toInt ≥ b.toInt) imm) ∧
    (decode (printedRI 0x50000000#32 rX rY imm) = .instr (.bgeu rX rY imm) ∧
      ∃ t, exec (.bgeu rX rY imm) s = .next t ∧ Branches s t (a.toNat ≥ b.toNat) imm)

/-- `scall` (R340): SystemCall is entered with the address of the `scall` itself in ea. -/
def Obligations.SystemCall : Prop :=
  decode 0xAC000007#32 = .instr .scall ∧
  ∀ s : State, ∃ t, exec .scall s = .next t ∧ EnteredNonDebug s t 7

/-- `break` (R344; 60_exceptions.md R460): with debug support Breakpoint is entered with the address of the `break` itself in ba;
without it the instruction has no meaning (U14). The word is PRESUMED (notes/assumptions/21.md). -/
def Obligations.SoftwareBreakpoint : Prop :=
  decode 0xAC000002#32 = .instr .brk ∧
  ∀ s : State,
    (s.cfg.debug = true → ∃ t, exec .brk s = .next t ∧ EnteredDebug s t 1) ∧
    (s.cfg.debug = false → exec .brk s = .refused .breakWithoutDebug)

/-- `eret` and `bret` (R343, R345; 60_exceptions.md R446): the pc goes to ea or ba, a multiple of 4, IE.IE takes EIE or BIE, and
nothing else changes. -/
def Obligations.ExceptionReturns : Prop :=
  decode 0xC3C00000#32 = .instr .eret ∧ decode 0xC3E00000#32 = .instr .bret ∧
  ∀ s : State,
    ((s.reg 30#5).toNat % 4 = 0 → ∃ t, exec .eret s = .next t ∧ t.pc = s.reg 30#5 ∧ t.ieIE = s.ieEIE ∧
      (∀ r, t.reg r = s.reg r) ∧ (∀ a, t.byteAt a = s.byteAt a) ∧ Refetched s t ∧
      t = { s with pc := t.pc, ieIE := t.ieIE, staleCode := t.staleCode }) ∧
    ((s.reg 31#5).toNat % 4 = 0 → ∃ t, exec .bret s = .next t ∧ t.pc = s.reg 31#5 ∧ t.ieIE = s.ieBIE ∧
      (∀ r, t.reg r = s.reg r) ∧ (∀ a, t.byteAt a = s.byteAt a) ∧ Refetched s t ∧
      t = { s with pc := t.pc, ieIE := t.ieIE, staleCode := t.staleCode })

/-! ### Exceptions (60_exceptions.md) -/

/-- Debug entry (R411): Breakpoint and Watchpoint, with their numbers. -/
def Obligations.DebugEntry : Prop :=
  ∀ s : State, EnteredDebug s (s.enter .breakpoint) 1 ∧ EnteredDebug s (s.enter .watchpoint) 3

/-- Non-debug entry (R410, R412): the five exceptions that are taken at an instruction, with their numbers; Reset has its own
statement. The base is DEBA when DC.RE or the `at_debug` pin asks for it (D24), else EBA. -/
def Obligations.NonDebugEntry : Prop :=
  ∀ s : State,
    EnteredNonDebug s (s.enter .instructionBusError) 2 ∧ EnteredNonDebug s (s.enter .dataBusError) 4 ∧
    EnteredNonDebug s (s.enter .divideByZero) 5 ∧ EnteredNonDebug s (s.enter .interrupt) 6 ∧
    EnteredNonDebug s (s.enter .systemCall) 7

/-- Entry and return (R446, R447): `eret` undoes a non-debug entry and `bret` a debug entry, but for the link register and the saved
enable bit; and a debug exception inside a non-debug handler leaves ea and EIE as they were. -/
def Obligations.EntryThenReturn : Prop :=
  ∀ (s : State) (e : Exc), s.pc.toNat % 4 = 0 →
    (e ∈ [Exc.instructionBusError, .dataBusError, .divideByZero, .interrupt, .systemCall] →
      ∃ t, exec .eret (s.enter e) = .next t ∧ t.pc = s.pc ∧ t.ieIE = s.ieIE ∧ t.ieBIE = s.ieBIE ∧
        (∀ r, r ≠ 30#5 → t.reg r = s.reg r) ∧ (∀ a, t.byteAt a = s.byteAt a)) ∧
    (e ∈ [Exc.breakpoint, .watchpoint] →
      ∃ t, exec .bret (s.enter e) = .next t ∧ t.pc = s.pc ∧ t.ieIE = s.ieIE ∧ t.ieEIE = s.ieEIE ∧
        (∀ r, r ≠ 31#5 → t.reg r = s.reg r) ∧ (∀ a, t.byteAt a = s.byteAt a))

/-- The instruction itself raises one of the exceptions 1 to 5 exactly in these cases (R403, items 4 to 7): `break`, a data access
that a watchpoint matches or that ends in a bus error, and a division by zero. These come before an interrupt. -/
def Obligations.ExceptionsBeforeInterrupt : Prop :=
  ∀ (s : State) (i : Instr),
    s.raisesFirst i = true ↔
      i = .brk ∨
      (∃ k n base imm, dataOperand i = some (k, n, base, imm) ∧
        (s.watchpointHit k (s.reg base + imm.signExtend 32) = true ∨
          (aligned n (s.reg base + imm.signExtend 32) = true ∧
            respond s.cfg k n (s.reg base + imm.signExtend 32) = .busError))) ∨
      (∃ rX rY rZ, (i = .divu rX rY rZ ∨ i = .modu rX rY rZ) ∧ s.reg rZ = 0#32)

/-! ### The step (60_exceptions.md R403) -/

/-- A step runs the decoded instruction: with a legal instance, when the core is ready, the fetch gives a word that decodes to `i`,
its unit is present, and no interrupt goes first, the step is `exec` of `i` in the sampled and prepared state that the fetch leaves,
and remembers whether `i` was a load or store (R403, items 3 to 10; 20_memory.md R121; 70_reset_and_hazards.md R511 to R513). -/
def Obligations.StepRunsDecodedInstruction : Prop :=
  ∀ (s : State) (w : Word) (i : Instr), cfgLegal s.cfg = true → Ready s.sample → Fetches s.sample w →
    decode w = .instr i → unitPresent s.cfg i = true →
    (s.sample.interruptPending = false ∨ s.sample.raisesFirst i = true) →
    ∃ u p : State, s.sample.fetch = .word w u ∧ AfterFetch s.sample u ∧ p = u.prepare (isDataAccess i) ∧ Executes s p i ∧
      p = { u with
        staleCode := p.staleCode, codeLines := p.codeLines, icc := p.icc, staleData := p.staleData, dataLines := p.dataLines
        free := p.free }

/-- A pending, enabled interrupt is taken instead of an instruction that raises no exception 1 to 5 itself, with ea = its address
(R403 item 8, R431): IE.IE is set, and some interrupt the instance has is both pending and enabled. The instruction has been
fetched, as `AfterFetch` says, and nothing else of it is done. That a word without a meaning and an instruction whose unit is absent
raise none, so that the interrupt goes first, is the model's reading (DESIGN CHOICE, D27, notes/assumptions/16.md); that the latched
bit of IP decides, and not the line, is a DESIGN CHOICE (D10, unsafe: notes/assumptions/33.md). -/
def Obligations.StepTakesInterrupt : Prop :=
  ∀ (s : State) (w : Word) (j : Nat), cfgLegal s.cfg = true → Ready s.sample → Fetches s.sample w →
    (∀ i, decode w = .instr i → unitPresent s.cfg i = true → s.sample.raisesFirst i = false) →
    s.sample.ieIE = true → j < s.cfg.interrupts → s.sample.ip.getLsbD j = true → s.sample.im.getLsbD j = true →
    ∃ u t, AfterFetch s.sample u ∧ step s = .next t ∧ EnteredNonDebug u t 6

/-- A hardware breakpoint (R440): it matches exactly when one that exists is enabled at the pc, and then Breakpoint is entered
before the instruction executes, whatever IE.IE is. That the instruction at the breakpoint has not executed is a DESIGN CHOICE (D34,
unsafe: notes/assumptions/31.md). -/
def Obligations.StepTakesBreakpoint : Prop :=
  (∀ s : State, s.breakpointHit = true ↔
    s.cfg.debug = true ∧ ∃ n : Fin 4, n.val < s.cfg.breakpoints ∧ (s.bp[n]).e = true ∧ (s.bp[n]).a = s.pc.extractLsb' 2 30) ∧
  (∀ s : State, cfgLegal s.cfg = true → s.sample.resetPin = false → s.sample.waiting = false → s.sample.dc.ss = false →
    s.sample.breakpointHit = true → ∃ t, step s = .next t ∧ EnteredDebug s.sample t 1)

/-- A fetch that may be made and ends with a bus error (R420): InstructionBusError is entered with the failing pc in ea. Outside the
cacheable region the fetch is undefined whatever the platform answers (20_memory.md R130, notes/assumptions/17.md): StepStops. -/
def Obligations.StepTakesFetchBusError : Prop :=
  ∀ s : State, cfgLegal s.cfg = true → Ready s.sample → wordAligned s.sample.pc = true →
    fetchDefined s.cfg s.sample.pc = true → respond s.cfg .fetch .word s.sample.pc = .busError →
    ∃ t, step s = .next t ∧ EnteredNonDebug s.sample t 2

/-- Reset (70_reset_and_hazards.md R500; 10_state.md R72): while the pin is asserted, whatever the core is doing, every CSR takes
its reset value, the caches are emptied and the pc goes to EBA_RESET, or to DEBA_RESET with dynamic mapping and `at_debug`. The
registers are arbitrary (R35), memory keeps its bytes. -/
def Obligations.StepTakesReset : Prop :=
  ∀ s : State, cfgLegal s.cfg = true → s.sample.resetPin = true →
    ∃ t, step s = .next t ∧
      t.pc = (if s.cfg.alternateEba = true ∧ s.cfg.debug = true ∧ s.sample.atDebug = true then s.cfg.debaReset
        else s.cfg.ebaReset) ∧
      t.ieIE = false ∧ t.ieEIE = false ∧ t.ieBIE = false ∧ t.im = 0#32 ∧
      (∀ j, j < 32 → t.ip.getLsbD j = (s.sample.intLines.getLsbD j && decide (j < s.cfg.interrupts))) ∧
      t.eba ++ 0#8 = s.cfg.ebaReset ∧ t.deba ++ 0#8 = s.cfg.debaReset ∧ t.dc.ss = false ∧ t.dc.re = false ∧
      (∀ n : Fin 4, t.dc.c[n] = 0#2 ∧ t.bp[n] = { a := 0#30, e := false } ∧ t.wp[n] = 0#32) ∧
      t.staleCode = [] ∧ t.codeLines = [] ∧ t.icc = [] ∧ t.staleData = [] ∧ t.dataLines = [] ∧ t.waiting = false ∧ t.cfg = s.cfg ∧
      ∀ a, t.byteAt a = s.sample.byteAt a

/-- Where a step stops or stays: an illegal instance (00_scope.md R8), single step (R443, U13), an access that never ends, a fetch
among them (20_memory.md R145, U12, notes/assumptions/10.md), a fetch outside the cacheable region (R130, U2), a word with no
meaning (30_encoding.md R164, U3), an instruction whose unit is absent (R165, U5). The last two stop where no interrupt is pending
and enabled: else it goes first (R403 item 8, D27, notes/assumptions/16.md: StepTakesInterrupt). And what a fetch does that a device
answers (R104 b): where the address is cached it does to the instruction cache what every fetch does and gives the line's word, else
the word is free and the fetch is an event; the step is that of the word (DESIGN CHOICE, notes/assumptions/44.md). -/
def Obligations.StepStops : Prop :=
  ∀ s : State,
    (cfgLegal s.cfg = false → step s = .refused .illegalConfiguration) ∧
    (cfgLegal s.cfg = true → s.sample.resetPin = false →
      (s.sample.waiting = true → step s = .next s.sample) ∧
      (s.sample.waiting = false → s.cfg.debug = true → s.sample.dc.ss = true → step s = .refused .singleStep) ∧
      (Ready s.sample → wordAligned s.sample.pc = true →
        (fetchDefined s.cfg s.sample.pc = false → step s = .fault .fetchOutsideCacheable) ∧
        (fetchDefined s.cfg s.sample.pc = true → respond s.cfg .fetch .word s.sample.pc = .noResponse →
          step s = .next { s.sample with waiting := true }) ∧
        (fetchDefined s.cfg s.sample.pc = true → respond s.cfg .fetch .word s.sample.pc = .device →
          ∃ (w : Word) (p : State), AfterFetch s.sample p ∧
            (codeCached s.cfg s.pc = true → ∃ l ∈ p.codeLines, l.addr = lineAddress s.cfg.icache s.pc ∧ w = l.value .word s.pc) ∧
            (p.interruptPending = true → (∀ i, decode w = .instr i → unitPresent s.cfg i = true → p.raisesFirst i = false) →
              ∃ t, step s = .next t ∧ EnteredNonDebug p t 6) ∧
            (p.interruptPending = false → Undefined w → ∃ e, step s = .refused (.undefinedEncoding e)) ∧
            ∀ i, decode w = .instr i →
              (p.interruptPending = false → unitPresent s.cfg i = false → step s = .refused .absentUnit) ∧
              (unitPresent s.cfg i = true → (p.interruptPending = false ∨ p.raisesFirst i = true) →
                Executes s (p.prepare (isDataAccess i)) i))) ∧
      (∀ w, Ready s.sample → Fetches s.sample w → Undefined w → s.sample.interruptPending = false →
        ∃ e, step s = .refused (.undefinedEncoding e)) ∧
      (∀ w i, Ready s.sample → Fetches s.sample w → decode w = .instr i → unitPresent s.cfg i = false →
        s.sample.interruptPending = false → step s = .refused .absentUnit))

/-- The start of a step (00_scope.md R19; 60_exceptions.md R430; 10_state.md R47): the next input sets lines and pins, an asserted
line sets its pending bit, which stays set (sticky), and nothing else that a program holds changes; memory changes only by the
input's writes. One input a step, and levels that hold when no input is left, are the model's form of the environment (DESIGN
CHOICE, unsafe: notes/assumptions/11.md); the latch is D10 (notes/assumptions/33.md). -/
def Obligations.StepSamplesInputs : Prop :=
  ∀ (s t : State), t = s.sample →
    (∀ j, j < 32 → t.ip.getLsbD j = (s.ip.getLsbD j || (t.intLines.getLsbD j && decide (j < s.cfg.interrupts)))) ∧
    t.cfg = s.cfg ∧ t.regs = s.regs ∧ t.pc = s.pc ∧ t.ieIE = s.ieIE ∧ t.ieEIE = s.ieEIE ∧ t.ieBIE = s.ieBIE ∧ t.im = s.im ∧
    t.eba = s.eba ∧ t.dc = s.dc ∧ t.deba = s.deba ∧ t.bp = s.bp ∧ t.wp = s.wp ∧ t.lastMem = s.lastMem ∧
    t.waiting = s.waiting ∧ t.events = s.events ∧ t.dataLines = s.dataLines ∧ t.dataWay = s.dataWay ∧
    t.codeLines = s.codeLines ∧ t.codeWay = s.codeWay ∧ t.icc = s.icc ∧
    (s.inputs = [] → t.inputs = [] ∧ t.intLines = s.intLines ∧ t.resetPin = s.resetPin ∧ t.atDebug = s.atDebug ∧
      t.mem = s.mem ∧ t.staleCode = s.staleCode ∧ t.staleData = s.staleData) ∧
    (∀ i rest, s.inputs = i :: rest → t.inputs = rest ∧ t.intLines = i.lines ∧ t.resetPin = i.reset ∧
      t.atDebug = i.atDebug ∧ t.mem = (i.writes.foldl State.masterWrite s).mem)

/-- Another master's write (20_memory.md R131, R137): one aligned word, the bytes it carries and no others; the core's registers are
not touched. What the caches may still hold is what they held and, of the addresses they cache, what memory held before (R124,
R125). That the transfer comes between two steps and reaches memory at every address, whatever MemMap answers the core there, is the
model's choice (DESIGN CHOICE, unsafe: notes/assumptions/12.md). -/
def Obligations.OtherMasterWrites : Prop :=
  ∀ (s t : State) (w : BusWrite), t = s.masterWrite w → Memory.wf s.mem = true →
    (∀ a : Word, a.extractLsb' 2 30 ≠ w.word → t.byteAt a = s.byteAt a) ∧
    t.byteAt (w.word ++ 0#2) = w.b0.getD (s.byteAt (w.word ++ 0#2)) ∧
    t.byteAt (w.word ++ 1#2) = w.b1.getD (s.byteAt (w.word ++ 1#2)) ∧
    t.byteAt (w.word ++ 2#2) = w.b2.getD (s.byteAt (w.word ++ 2#2)) ∧
    t.byteAt (w.word ++ 3#2) = w.b3.getD (s.byteAt (w.word ++ 3#2)) ∧
    RecordsWord s t (w.word ++ 0#2) (codeCached s.cfg (w.word ++ 0#2) = true) ∧ RecordsBytes s t w.word ∧
    (∀ (k : BitVec 2) (x : Byte), (k, some x) ∈ [(0#2, w.b0), (1#2, w.b1), (2#2, w.b2), (3#2, w.b3)] →
      dataCached s.cfg (w.word ++ k) = true → s.byteAt (w.word ++ k) ∈ t.oldBytes (w.word ++ k)) ∧
    t = { s with mem := t.mem, staleCode := t.staleCode, staleData := t.staleData }

/-! ### Frames and invariants -/

/-- Which registers an instruction writes (10_state.md R33, R34): its destination; ra by `call` and `calli`; ea by the entry of
DataBusError, DivideByZero or SystemCall; ba by the entry of Breakpoint or Watchpoint. Every other register keeps its value. -/
def Obligations.GeneralRegisterFrame : Prop :=
  ∀ (i : Instr) (s t : State) (r : Reg), exec i s = .next t → t.reg r ≠ s.reg r →
    destination i = some r ∨ (isCall i = true ∧ r = 29#5) ∨
    (r = 30#5 ∧ (EnteredNonDebug s t 4 ∨ EnteredNonDebug s t 5 ∨ EnteredNonDebug s t 7)) ∨
    (r = 31#5 ∧ (EnteredDebug s t 1 ∨ EnteredDebug s t 3))

/-- Which instructions change the special registers: IM, IP, EBA, DC, DEBA, BPn and WPn only `wcsr`; the fields of IE only `wcsr`,
the returns and exception entry; CC, JTX, JRX, the configuration, the pins and the lines no instruction (10_state.md R42, R43;
60_exceptions.md R414). -/
def Obligations.SpecialRegisterFrame : Prop :=
  ∀ (i : Instr) (s t : State), exec i s = .next t →
    t.cfg = s.cfg ∧ t.cc = s.cc ∧ t.jtx = s.jtx ∧ t.jrx = s.jrx ∧ t.intLines = s.intLines ∧ t.resetPin = s.resetPin ∧
    t.atDebug = s.atDebug ∧ t.inputs = s.inputs ∧
    ((∀ k rX, i ≠ .wcsr k rX) →
      t.im = s.im ∧ t.ip = s.ip ∧ t.eba = s.eba ∧ t.dc = s.dc ∧ t.deba = s.deba ∧ t.bp = s.bp ∧ t.wp = s.wp) ∧
    ((t.ieIE, t.ieEIE, t.ieBIE) ≠ (s.ieIE, s.ieEIE, s.ieBIE) → writesIe i = true ∨
      EnteredNonDebug s t 4 ∨ EnteredNonDebug s t 5 ∨ EnteredNonDebug s t 7 ∨ EnteredDebug s t 1 ∨ EnteredDebug s t 3)

/-- Which bytes of memory an instruction changes (20_memory.md R113, R133): a store the bytes from its effective address on, and
every other instruction none. -/
def Obligations.MemoryFrame : Prop :=
  ∀ (i : Instr) (s t : State), exec i s = .next t →
    (isStore i = false → ∀ a, t.byteAt a = s.byteAt a) ∧
    (∀ n base imm, dataOperand i = some (.write, n, base, imm) →
      ∀ a, ¬ Stored n (s.reg base + imm.signExtend 32) a → t.byteAt a = s.byteAt a)

/-- Every step keeps the invariant: the pc stays a multiple of 4 (10_state.md R37), memory stays canonical, IM and IP hold no bit
without a line (R46, D26), no stale word and no pending invalidation outlives its slots (R511, R513), each cache holds whole lines,
no two of them in one place, and its way number is one of its ways (20_memory.md R121), the instruction cache's copies of memory's
words are current or recorded (R125); and no step of such a state faults for a misaligned pc. -/
def Obligations.StepKeepsInvariant : Prop :=
  ∀ s : State, Inv s → step s ≠ .fault .misalignedFetch ∧ ∀ t, step s = .next t → Inv t

/-- The invariant holds right after power-up of every legal instance, the reference instance among them. -/
def Obligations.ResetSatisfiesInvariant : Prop :=
  Inv State.reset ∧ ∀ c : Cfg, cfgLegal c = true → Inv (State.powerUp c)

/-- What reset leaves (10_state.md R72; 70_reset_and_hazards.md R501), for every instance: the pc at EBA_RESET, the CSRs at the
values the spec gives them, the caches empty. The registers, CC, JTX, JRX and the way numbers are the model's choice and are left
out (notes/assumptions/3.md, 5.md, 6.md, 48.md, 49.md). -/
def Obligations.ResetValues : Prop :=
  ∀ (c : Cfg) (s : State), s = State.powerUp c →
    s.cfg = c ∧ s.pc = c.ebaReset ∧ s.ieIE = false ∧ s.ieEIE = false ∧ s.ieBIE = false ∧ s.im = 0#32 ∧ s.ip = 0#32 ∧
    (cfgLegal c = true → s.eba ++ 0#8 = c.ebaReset ∧ s.deba ++ 0#8 = c.debaReset) ∧
    s.dc = { ss := false, re := false, c := #v[0#2, 0#2, 0#2, 0#2] } ∧
    (∀ n : Fin 4, s.bp[n] = { a := 0#30, e := false } ∧ s.wp[n] = 0#32) ∧ s.staleCode = [] ∧ s.staleData = [] ∧
    s.codeLines = [] ∧ s.icc = [] ∧ s.dataLines = []

/-- A program that has ended stays as it is (70_reset_and_hazards.md R531): at `bi 0` with IE.IE = 0, registers, pc, memory and
every CSR that an instruction writes keep their values; no event is sent either, but where the fetch fills a line with a device's
word (20_memory.md R121; notes/assumptions/44.md). -/
def Obligations.EndOfRunIsStable : Prop :=
  ∀ s : State, cfgLegal s.cfg = true → Ready s.sample → Fetches s.sample 0xE0000000#32 → s.ieIE = false →
    ∃ t, step s = .next t ∧ t.pc = s.pc ∧ t.regs = s.regs ∧ t.ieIE = false ∧ t.ieEIE = s.ieEIE ∧ t.ieBIE = s.ieBIE ∧
      t.im = s.im ∧ t.eba = s.eba ∧ t.dc = s.dc ∧ t.deba = s.deba ∧ t.bp = s.bp ∧ t.wp = s.wp ∧ t.mem = s.sample.mem ∧
      (¬ CodeMisses s s.pc ∨ (∀ w, lineAddress s.cfg.icache w = lineAddress s.cfg.icache s.pc →
        respond s.cfg .fetch .word w ≠ .device) → t.events = s.events)
end

