-- ==== Sys2Proof/Laws/Memory.lean ====
section
/-! SUPPORT. The laws of memory: read after write, and the canonical form is kept by every operation. -/

namespace Sys2Proof.Machine

/-! ### Reading -/

@[simp] theorem Memory.readByte_nil (a : Nat) : Memory.readByte [] a = Memory.unlisted := rfl

theorem Memory.wfFrom_le {low low' : Nat} {m : Memory} (hl : low' ≤ low) (h : Memory.wfFrom low m = true) :
    Memory.wfFrom low' m = true := by
  cases m with
  | nil => rfl
  | cons c m =>
    obtain ⟨k, v⟩ := c
    simp only [Memory.wfFrom, Bool.and_eq_true, decide_eq_true_eq] at h ⊢
    exact ⟨⟨⟨by omega, h.1.1.2⟩, h.1.2⟩, h.2⟩

theorem Memory.readByte_below {low a : Nat} {m : Memory} (h : Memory.wfFrom low m = true) (ha : a < low) :
    m.readByte a = Memory.unlisted := by
  induction m generalizing low with
  | nil => rfl
  | cons c m ih =>
    obtain ⟨k, v⟩ := c
    simp only [Memory.wfFrom, Bool.and_eq_true, decide_eq_true_eq] at h
    have hk : a ≠ k := by omega
    simp only [Memory.readByte, if_neg hk]
    exact ih h.2 (by omega)

/-! ### Read after write -/

/-- A write leaves every other byte alone, in any memory. -/
theorem Memory.readByte_writeByte_ne (m : Memory) {a a' : Nat} (b : Byte) (h : a' ≠ a) :
    (m.writeByte a b).readByte a' = m.readByte a' := by
  induction m with
  | nil =>
    simp only [Memory.writeByte]
    split
    · rfl
    · simp [Memory.readByte, h]
  | cons c m ih =>
    obtain ⟨k, v⟩ := c
    simp only [Memory.writeByte]
    by_cases h1 : a < k
    · rw [if_pos h1]
      split
      · rfl
      · simp [Memory.readByte, h]
    · rw [if_neg h1]
      by_cases h2 : a = k
      · subst h2
        rw [if_pos rfl]
        split <;> simp [Memory.readByte, h]
      · rw [if_neg h2]
        simp only [Memory.readByte, ih]

/-- A byte written is read back, in canonical memory. -/
theorem Memory.readByte_writeByte_self {low : Nat} {m : Memory} (a : Nat) (b : Byte) (h : Memory.wfFrom low m = true) :
    (m.writeByte a b).readByte a = b := by
  induction m generalizing low with
  | nil =>
    simp only [Memory.writeByte]
    split
    · next hb => rw [hb]; rfl
    · simp [Memory.readByte]
  | cons c m ih =>
    obtain ⟨k, v⟩ := c
    have hm : Memory.wfFrom (k + 1) m = true := by
      simp only [Memory.wfFrom, Bool.and_eq_true] at h
      exact h.2
    simp only [Memory.writeByte]
    by_cases h1 : a < k
    · rw [if_pos h1]
      split
      · next hb =>
        have hk : a ≠ k := by omega
        simp only [Memory.readByte, if_neg hk]
        rw [Memory.readByte_below hm (by omega), hb]
      · simp [Memory.readByte]
    · rw [if_neg h1]
      by_cases h2 : a = k
      · subst h2
        rw [if_pos rfl]
        split
        · next hb => rw [Memory.readByte_below hm (by omega), hb]
        · simp [Memory.readByte]
      · rw [if_neg h2]
        simp only [Memory.readByte, if_neg h2]
        exact ih hm

/-! ### The canonical form -/

theorem Memory.wfFrom_writeByte {low : Nat} {m : Memory} {a : Nat} (b : Byte) (hl : low ≤ a) (ha : a < 2 ^ 32)
    (h : Memory.wfFrom low m = true) : Memory.wfFrom low (m.writeByte a b) = true := by
  induction m generalizing low with
  | nil =>
    simp only [Memory.writeByte]
    split
    · rfl
    · next hb =>
      simp only [Memory.wfFrom, Bool.and_eq_true, decide_eq_true_eq, bne_iff_ne]
      exact ⟨⟨⟨hl, ha⟩, hb⟩, trivial⟩
  | cons c m ih =>
    obtain ⟨k, v⟩ := c
    have h' := h
    simp only [Memory.wfFrom, Bool.and_eq_true, decide_eq_true_eq] at h
    simp only [Memory.writeByte]
    by_cases h1 : a < k
    · rw [if_pos h1]
      split
      · exact h'
      · next hb =>
        simp only [Memory.wfFrom, Bool.and_eq_true, decide_eq_true_eq, bne_iff_ne]
        exact ⟨⟨⟨hl, ha⟩, hb⟩, ⟨⟨⟨by omega, h.1.1.2⟩, by simpa using h.1.2⟩, h.2⟩⟩
    · rw [if_neg h1]
      by_cases h2 : a = k
      · subst h2
        rw [if_pos rfl]
        split
        · exact Memory.wfFrom_le (by omega) h.2
        · next hb =>
          simp only [Memory.wfFrom, Bool.and_eq_true, decide_eq_true_eq, bne_iff_ne]
          exact ⟨⟨⟨hl, ha⟩, hb⟩, h.2⟩
      · rw [if_neg h2]
        simp only [Memory.wfFrom, Bool.and_eq_true, decide_eq_true_eq]
        exact ⟨h.1, ih (by omega) h.2⟩

/-- A byte write keeps the canonical form. -/
theorem Memory.wf_writeByte {m : Memory} (a : Word) (b : Byte) (h : m.wf = true) : (m.writeByte a.toNat b).wf = true :=
  Memory.wfFrom_writeByte b (Nat.zero_le _) a.isLt h

/-- A write of several bytes keeps the canonical form. -/
theorem Memory.wf_writeBytes {m : Memory} (a : Word) (bs : List Byte) (h : m.wf = true) : (m.writeBytes a bs).wf = true := by
  induction bs generalizing m a with
  | nil => exact h
  | cons b bs ih => exact ih _ (Memory.wf_writeByte a b h)

/-- A write of several bytes leaves every byte outside them alone. -/
theorem Memory.readByte_writeBytes_ne (m : Memory) (a x : Word) (bs : List Byte)
    (h : ∀ k, k < bs.length → x ≠ a + BitVec.ofNat 32 k) : (m.writeBytes a bs).readByte x.toNat = m.readByte x.toNat := by
  induction bs generalizing m a with
  | nil => rfl
  | cons b bs ih =>
    have h0 : x ≠ a := by simpa using h 0 (by simp)
    have ht : ∀ k, k < bs.length → x ≠ a + 1#32 + BitVec.ofNat 32 k := by
      intro k hk
      have := h (k + 1) (by simpa using hk)
      rwa [BitVec.add_assoc, show (1#32 + BitVec.ofNat 32 k) = BitVec.ofNat 32 (k + 1) by
        rw [Nat.add_comm k 1, BitVec.ofNat_add]]
    simp only [Memory.writeBytes]
    rw [ih _ _ ht]
    exact Memory.readByte_writeByte_ne m b (fun e => h0 (BitVec.eq_of_toNat_eq e))

/-- Two of the first four bytes from one address on are different bytes. -/
theorem offset_ne {a : Word} {j k : Nat} (hj : j < 2 ^ 32) (hk : k < 2 ^ 32) (h : j ≠ k) :
    a + BitVec.ofNat 32 j ≠ a + BitVec.ofNat 32 k := by
  intro e
  have e' := (BitVec.add_right_inj a).mp e
  have := congrArg BitVec.toNat e'
  simp only [BitVec.toNat_ofNat, Nat.mod_eq_of_lt hj, Nat.mod_eq_of_lt hk] at this
  exact h this

/-- The bytes written are read back, in canonical memory. -/
theorem Memory.readByte_writeBytes_self {m : Memory} (a : Word) (bs : List Byte) (h : m.wf = true) (hlen : bs.length ≤ 2 ^ 32)
    (k : Nat) (hk : k < bs.length) : (m.writeBytes a bs).readByte (a + BitVec.ofNat 32 k).toNat = bs[k] := by
  induction bs generalizing m a k with
  | nil => simp at hk
  | cons b bs ih =>
    simp only [List.length_cons] at hlen hk
    simp only [Memory.writeBytes]
    cases k with
    | zero =>
      rw [Memory.readByte_writeBytes_ne]
      · simpa using Memory.readByte_writeByte_self (low := 0) a.toNat b h
      · intro j hj
        rw [BitVec.add_assoc, show (1#32 + BitVec.ofNat 32 j) = BitVec.ofNat 32 (j + 1) by
          rw [Nat.add_comm j 1, BitVec.ofNat_add]]
        exact offset_ne (by omega) (by omega) (by omega)
    | succ k =>
      have := ih (m := m.writeByte a.toNat b) (a + 1#32) (Memory.wf_writeByte a b h) (by omega) k (by omega)
      rw [BitVec.add_assoc, show (1#32 + BitVec.ofNat 32 k) = BitVec.ofNat 32 (k + 1) by
        rw [Nat.add_comm k 1, BitVec.ofNat_add]] at this
      simpa using this

/-! ### Memory after the operations that write it -/

theorem State.storeMemory_wf {s : State} (a : Word) (bs : List Byte) (h : s.mem.wf = true) :
    (s.storeMemory a bs).mem.wf = true := Memory.wf_writeBytes a bs h

theorem State.placeAtPc_wf {s : State} (w : Word) (h : s.mem.wf = true) : (s.placeAtPc w).mem.wf = true :=
  Memory.wf_writeBytes _ _ h

theorem State.masterByte_wf {s : State} (a : Word) (b : Option Byte) (h : s.mem.wf = true) :
    (s.masterByte a b).mem.wf = true := by
  cases b with
  | none => exact h
  | some b => exact Memory.wf_writeByte a b h

theorem State.masterWrite_wf {s : State} (w : BusWrite) (h : s.mem.wf = true) : (s.masterWrite w).mem.wf = true :=
  State.masterByte_wf _ _ (State.masterByte_wf _ _ (State.masterByte_wf _ _ (State.masterByte_wf _ _ h)))

theorem State.foldl_masterWrite_wf (ws : List BusWrite) {s : State} (h : s.mem.wf = true) :
    (ws.foldl State.masterWrite s).mem.wf = true := by
  induction ws generalizing s with
  | nil => exact h
  | cons w ws ih => exact ih (State.masterWrite_wf w h)

theorem State.takeInput_wf {s : State} (h : s.mem.wf = true) : s.takeInput.mem.wf = true := by
  unfold State.takeInput
  split
  · exact h
  · exact State.foldl_masterWrite_wf _ h

theorem State.sample_wf {s : State} (h : s.mem.wf = true) : s.sample.mem.wf = true := State.takeInput_wf h

theorem State.reset_wf : Memory.wf State.reset.mem = true := rfl

end Sys2Proof.Machine
end

