-- ==== Sys2Proof/Laws/State.lean ====
section
/-! SUPPORT. What each update of the state does to each field: one lemma per field per update. -/

namespace Sys2Proof.Machine

/-! ### setReg -/

@[simp] theorem State.setReg_cfg (s : State) (r : Reg) (v : Word) :
    (s.setReg r v).cfg = s.cfg := rfl
@[simp] theorem State.setReg_regs (s : State) (r : Reg) (v : Word) :
    (s.setReg r v).regs = s.regs.set r.toNat v r.isLt := rfl
@[simp] theorem State.setReg_pc (s : State) (r : Reg) (v : Word) :
    (s.setReg r v).pc = s.pc := rfl
@[simp] theorem State.setReg_ieIE (s : State) (r : Reg) (v : Word) :
    (s.setReg r v).ieIE = s.ieIE := rfl
@[simp] theorem State.setReg_ieEIE (s : State) (r : Reg) (v : Word) :
    (s.setReg r v).ieEIE = s.ieEIE := rfl
@[simp] theorem State.setReg_ieBIE (s : State) (r : Reg) (v : Word) :
    (s.setReg r v).ieBIE = s.ieBIE := rfl
@[simp] theorem State.setReg_im (s : State) (r : Reg) (v : Word) :
    (s.setReg r v).im = s.im := rfl
@[simp] theorem State.setReg_ip (s : State) (r : Reg) (v : Word) :
    (s.setReg r v).ip = s.ip := rfl
@[simp] theorem State.setReg_cc (s : State) (r : Reg) (v : Word) :
    (s.setReg r v).cc = s.cc := rfl
@[simp] theorem State.setReg_eba (s : State) (r : Reg) (v : Word) :
    (s.setReg r v).eba = s.eba := rfl
@[simp] theorem State.setReg_dc (s : State) (r : Reg) (v : Word) :
    (s.setReg r v).dc = s.dc := rfl
@[simp] theorem State.setReg_deba (s : State) (r : Reg) (v : Word) :
    (s.setReg r v).deba = s.deba := rfl
@[simp] theorem State.setReg_jtx (s : State) (r : Reg) (v : Word) :
    (s.setReg r v).jtx = s.jtx := rfl
@[simp] theorem State.setReg_jrx (s : State) (r : Reg) (v : Word) :
    (s.setReg r v).jrx = s.jrx := rfl
@[simp] theorem State.setReg_bp (s : State) (r : Reg) (v : Word) :
    (s.setReg r v).bp = s.bp := rfl
@[simp] theorem State.setReg_wp (s : State) (r : Reg) (v : Word) :
    (s.setReg r v).wp = s.wp := rfl
@[simp] theorem State.setReg_mem (s : State) (r : Reg) (v : Word) :
    (s.setReg r v).mem = s.mem := rfl
@[simp] theorem State.setReg_staleCode (s : State) (r : Reg) (v : Word) :
    (s.setReg r v).staleCode = s.staleCode := rfl
@[simp] theorem State.setReg_codeLines (s : State) (r : Reg) (v : Word) :
    (s.setReg r v).codeLines = s.codeLines := rfl
@[simp] theorem State.setReg_codeWay (s : State) (r : Reg) (v : Word) :
    (s.setReg r v).codeWay = s.codeWay := rfl
@[simp] theorem State.setReg_icc (s : State) (r : Reg) (v : Word) :
    (s.setReg r v).icc = s.icc := rfl
@[simp] theorem State.setReg_staleData (s : State) (r : Reg) (v : Word) :
    (s.setReg r v).staleData = s.staleData := rfl
@[simp] theorem State.setReg_dataLines (s : State) (r : Reg) (v : Word) :
    (s.setReg r v).dataLines = s.dataLines := rfl
@[simp] theorem State.setReg_dataWay (s : State) (r : Reg) (v : Word) :
    (s.setReg r v).dataWay = s.dataWay := rfl
@[simp] theorem State.setReg_lastMem (s : State) (r : Reg) (v : Word) :
    (s.setReg r v).lastMem = s.lastMem := rfl
@[simp] theorem State.setReg_waiting (s : State) (r : Reg) (v : Word) :
    (s.setReg r v).waiting = s.waiting := rfl
@[simp] theorem State.setReg_intLines (s : State) (r : Reg) (v : Word) :
    (s.setReg r v).intLines = s.intLines := rfl
@[simp] theorem State.setReg_resetPin (s : State) (r : Reg) (v : Word) :
    (s.setReg r v).resetPin = s.resetPin := rfl
@[simp] theorem State.setReg_atDebug (s : State) (r : Reg) (v : Word) :
    (s.setReg r v).atDebug = s.atDebug := rfl
@[simp] theorem State.setReg_inputs (s : State) (r : Reg) (v : Word) :
    (s.setReg r v).inputs = s.inputs := rfl
@[simp] theorem State.setReg_events (s : State) (r : Reg) (v : Word) :
    (s.setReg r v).events = s.events := rfl
@[simp] theorem State.setReg_free (s : State) (r : Reg) (v : Word) :
    (s.setReg r v).free = s.free := rfl

/-! ### advance -/

@[simp] theorem State.advance_cfg (s : State) :
    (s.advance).cfg = s.cfg := rfl
@[simp] theorem State.advance_regs (s : State) :
    (s.advance).regs = s.regs := rfl
@[simp] theorem State.advance_pc (s : State) :
    (s.advance).pc = s.pc + 4#32 := rfl
@[simp] theorem State.advance_ieIE (s : State) :
    (s.advance).ieIE = s.ieIE := rfl
@[simp] theorem State.advance_ieEIE (s : State) :
    (s.advance).ieEIE = s.ieEIE := rfl
@[simp] theorem State.advance_ieBIE (s : State) :
    (s.advance).ieBIE = s.ieBIE := rfl
@[simp] theorem State.advance_im (s : State) :
    (s.advance).im = s.im := rfl
@[simp] theorem State.advance_ip (s : State) :
    (s.advance).ip = s.ip := rfl
@[simp] theorem State.advance_cc (s : State) :
    (s.advance).cc = s.cc := rfl
@[simp] theorem State.advance_eba (s : State) :
    (s.advance).eba = s.eba := rfl
@[simp] theorem State.advance_dc (s : State) :
    (s.advance).dc = s.dc := rfl
@[simp] theorem State.advance_deba (s : State) :
    (s.advance).deba = s.deba := rfl
@[simp] theorem State.advance_jtx (s : State) :
    (s.advance).jtx = s.jtx := rfl
@[simp] theorem State.advance_jrx (s : State) :
    (s.advance).jrx = s.jrx := rfl
@[simp] theorem State.advance_bp (s : State) :
    (s.advance).bp = s.bp := rfl
@[simp] theorem State.advance_wp (s : State) :
    (s.advance).wp = s.wp := rfl
@[simp] theorem State.advance_mem (s : State) :
    (s.advance).mem = s.mem := rfl
@[simp] theorem State.advance_staleCode (s : State) :
    (s.advance).staleCode = s.staleCode := rfl
@[simp] theorem State.advance_codeLines (s : State) :
    (s.advance).codeLines = s.codeLines := rfl
@[simp] theorem State.advance_codeWay (s : State) :
    (s.advance).codeWay = s.codeWay := rfl
@[simp] theorem State.advance_icc (s : State) :
    (s.advance).icc = s.icc := rfl
@[simp] theorem State.advance_staleData (s : State) :
    (s.advance).staleData = s.staleData := rfl
@[simp] theorem State.advance_dataLines (s : State) :
    (s.advance).dataLines = s.dataLines := rfl
@[simp] theorem State.advance_dataWay (s : State) :
    (s.advance).dataWay = s.dataWay := rfl
@[simp] theorem State.advance_lastMem (s : State) :
    (s.advance).lastMem = s.lastMem := rfl
@[simp] theorem State.advance_waiting (s : State) :
    (s.advance).waiting = s.waiting := rfl
@[simp] theorem State.advance_intLines (s : State) :
    (s.advance).intLines = s.intLines := rfl
@[simp] theorem State.advance_resetPin (s : State) :
    (s.advance).resetPin = s.resetPin := rfl
@[simp] theorem State.advance_atDebug (s : State) :
    (s.advance).atDebug = s.atDebug := rfl
@[simp] theorem State.advance_inputs (s : State) :
    (s.advance).inputs = s.inputs := rfl
@[simp] theorem State.advance_events (s : State) :
    (s.advance).events = s.events := rfl
@[simp] theorem State.advance_free (s : State) :
    (s.advance).free = s.free := rfl

/-! ### refetch -/

@[simp] theorem State.refetch_cfg (s : State) :
    (s.refetch).cfg = s.cfg := rfl
@[simp] theorem State.refetch_regs (s : State) :
    (s.refetch).regs = s.regs := rfl
@[simp] theorem State.refetch_pc (s : State) :
    (s.refetch).pc = s.pc := rfl
@[simp] theorem State.refetch_ieIE (s : State) :
    (s.refetch).ieIE = s.ieIE := rfl
@[simp] theorem State.refetch_ieEIE (s : State) :
    (s.refetch).ieEIE = s.ieEIE := rfl
@[simp] theorem State.refetch_ieBIE (s : State) :
    (s.refetch).ieBIE = s.ieBIE := rfl
@[simp] theorem State.refetch_im (s : State) :
    (s.refetch).im = s.im := rfl
@[simp] theorem State.refetch_ip (s : State) :
    (s.refetch).ip = s.ip := rfl
@[simp] theorem State.refetch_cc (s : State) :
    (s.refetch).cc = s.cc := rfl
@[simp] theorem State.refetch_eba (s : State) :
    (s.refetch).eba = s.eba := rfl
@[simp] theorem State.refetch_dc (s : State) :
    (s.refetch).dc = s.dc := rfl
@[simp] theorem State.refetch_deba (s : State) :
    (s.refetch).deba = s.deba := rfl
@[simp] theorem State.refetch_jtx (s : State) :
    (s.refetch).jtx = s.jtx := rfl
@[simp] theorem State.refetch_jrx (s : State) :
    (s.refetch).jrx = s.jrx := rfl
@[simp] theorem State.refetch_bp (s : State) :
    (s.refetch).bp = s.bp := rfl
@[simp] theorem State.refetch_wp (s : State) :
    (s.refetch).wp = s.wp := rfl
@[simp] theorem State.refetch_mem (s : State) :
    (s.refetch).mem = s.mem := rfl
@[simp] theorem State.refetch_staleCode (s : State) :
    (s.refetch).staleCode = if s.cfg.hasICache then s.staleCode else [] := rfl
@[simp] theorem State.refetch_codeLines (s : State) :
    (s.refetch).codeLines = s.codeLines := rfl
@[simp] theorem State.refetch_codeWay (s : State) :
    (s.refetch).codeWay = s.codeWay := rfl
@[simp] theorem State.refetch_icc (s : State) :
    (s.refetch).icc = s.icc := rfl
@[simp] theorem State.refetch_staleData (s : State) :
    (s.refetch).staleData = s.staleData := rfl
@[simp] theorem State.refetch_dataLines (s : State) :
    (s.refetch).dataLines = s.dataLines := rfl
@[simp] theorem State.refetch_dataWay (s : State) :
    (s.refetch).dataWay = s.dataWay := rfl
@[simp] theorem State.refetch_lastMem (s : State) :
    (s.refetch).lastMem = s.lastMem := rfl
@[simp] theorem State.refetch_waiting (s : State) :
    (s.refetch).waiting = s.waiting := rfl
@[simp] theorem State.refetch_intLines (s : State) :
    (s.refetch).intLines = s.intLines := rfl
@[simp] theorem State.refetch_resetPin (s : State) :
    (s.refetch).resetPin = s.resetPin := rfl
@[simp] theorem State.refetch_atDebug (s : State) :
    (s.refetch).atDebug = s.atDebug := rfl
@[simp] theorem State.refetch_inputs (s : State) :
    (s.refetch).inputs = s.inputs := rfl
@[simp] theorem State.refetch_events (s : State) :
    (s.refetch).events = s.events := rfl
@[simp] theorem State.refetch_free (s : State) :
    (s.refetch).free = s.free := rfl

/-! ### jump -/

@[simp] theorem State.jump_cfg (s : State) (t : Word) :
    (s.jump t).cfg = s.cfg := rfl
@[simp] theorem State.jump_regs (s : State) (t : Word) :
    (s.jump t).regs = s.regs := rfl
@[simp] theorem State.jump_pc (s : State) (t : Word) :
    (s.jump t).pc = t := rfl
@[simp] theorem State.jump_ieIE (s : State) (t : Word) :
    (s.jump t).ieIE = s.ieIE := rfl
@[simp] theorem State.jump_ieEIE (s : State) (t : Word) :
    (s.jump t).ieEIE = s.ieEIE := rfl
@[simp] theorem State.jump_ieBIE (s : State) (t : Word) :
    (s.jump t).ieBIE = s.ieBIE := rfl
@[simp] theorem State.jump_im (s : State) (t : Word) :
    (s.jump t).im = s.im := rfl
@[simp] theorem State.jump_ip (s : State) (t : Word) :
    (s.jump t).ip = s.ip := rfl
@[simp] theorem State.jump_cc (s : State) (t : Word) :
    (s.jump t).cc = s.cc := rfl
@[simp] theorem State.jump_eba (s : State) (t : Word) :
    (s.jump t).eba = s.eba := rfl
@[simp] theorem State.jump_dc (s : State) (t : Word) :
    (s.jump t).dc = s.dc := rfl
@[simp] theorem State.jump_deba (s : State) (t : Word) :
    (s.jump t).deba = s.deba := rfl
@[simp] theorem State.jump_jtx (s : State) (t : Word) :
    (s.jump t).jtx = s.jtx := rfl
@[simp] theorem State.jump_jrx (s : State) (t : Word) :
    (s.jump t).jrx = s.jrx := rfl
@[simp] theorem State.jump_bp (s : State) (t : Word) :
    (s.jump t).bp = s.bp := rfl
@[simp] theorem State.jump_wp (s : State) (t : Word) :
    (s.jump t).wp = s.wp := rfl
@[simp] theorem State.jump_mem (s : State) (t : Word) :
    (s.jump t).mem = s.mem := rfl
@[simp] theorem State.jump_staleCode (s : State) (t : Word) :
    (s.jump t).staleCode = if s.cfg.hasICache then s.staleCode else [] := rfl
@[simp] theorem State.jump_codeLines (s : State) (t : Word) :
    (s.jump t).codeLines = s.codeLines := rfl
@[simp] theorem State.jump_codeWay (s : State) (t : Word) :
    (s.jump t).codeWay = s.codeWay := rfl
@[simp] theorem State.jump_icc (s : State) (t : Word) :
    (s.jump t).icc = s.icc := rfl
@[simp] theorem State.jump_staleData (s : State) (t : Word) :
    (s.jump t).staleData = s.staleData := rfl
@[simp] theorem State.jump_dataLines (s : State) (t : Word) :
    (s.jump t).dataLines = s.dataLines := rfl
@[simp] theorem State.jump_dataWay (s : State) (t : Word) :
    (s.jump t).dataWay = s.dataWay := rfl
@[simp] theorem State.jump_lastMem (s : State) (t : Word) :
    (s.jump t).lastMem = s.lastMem := rfl
@[simp] theorem State.jump_waiting (s : State) (t : Word) :
    (s.jump t).waiting = s.waiting := rfl
@[simp] theorem State.jump_intLines (s : State) (t : Word) :
    (s.jump t).intLines = s.intLines := rfl
@[simp] theorem State.jump_resetPin (s : State) (t : Word) :
    (s.jump t).resetPin = s.resetPin := rfl
@[simp] theorem State.jump_atDebug (s : State) (t : Word) :
    (s.jump t).atDebug = s.atDebug := rfl
@[simp] theorem State.jump_inputs (s : State) (t : Word) :
    (s.jump t).inputs = s.inputs := rfl
@[simp] theorem State.jump_events (s : State) (t : Word) :
    (s.jump t).events = s.events := rfl
@[simp] theorem State.jump_free (s : State) (t : Word) :
    (s.jump t).free = s.free := rfl

/-! ### result -/

@[simp] theorem State.result_cfg (s : State) (r : Reg) (v : Word) :
    (s.result r v).cfg = s.cfg := rfl
@[simp] theorem State.result_regs (s : State) (r : Reg) (v : Word) :
    (s.result r v).regs = s.regs.set r.toNat v r.isLt := rfl
@[simp] theorem State.result_pc (s : State) (r : Reg) (v : Word) :
    (s.result r v).pc = s.pc + 4#32 := rfl
@[simp] theorem State.result_ieIE (s : State) (r : Reg) (v : Word) :
    (s.result r v).ieIE = s.ieIE := rfl
@[simp] theorem State.result_ieEIE (s : State) (r : Reg) (v : Word) :
    (s.result r v).ieEIE = s.ieEIE := rfl
@[simp] theorem State.result_ieBIE (s : State) (r : Reg) (v : Word) :
    (s.result r v).ieBIE = s.ieBIE := rfl
@[simp] theorem State.result_im (s : State) (r : Reg) (v : Word) :
    (s.result r v).im = s.im := rfl
@[simp] theorem State.result_ip (s : State) (r : Reg) (v : Word) :
    (s.result r v).ip = s.ip := rfl
@[simp] theorem State.result_cc (s : State) (r : Reg) (v : Word) :
    (s.result r v).cc = s.cc := rfl
@[simp] theorem State.result_eba (s : State) (r : Reg) (v : Word) :
    (s.result r v).eba = s.eba := rfl
@[simp] theorem State.result_dc (s : State) (r : Reg) (v : Word) :
    (s.result r v).dc = s.dc := rfl
@[simp] theorem State.result_deba (s : State) (r : Reg) (v : Word) :
    (s.result r v).deba = s.deba := rfl
@[simp] theorem State.result_jtx (s : State) (r : Reg) (v : Word) :
    (s.result r v).jtx = s.jtx := rfl
@[simp] theorem State.result_jrx (s : State) (r : Reg) (v : Word) :
    (s.result r v).jrx = s.jrx := rfl
@[simp] theorem State.result_bp (s : State) (r : Reg) (v : Word) :
    (s.result r v).bp = s.bp := rfl
@[simp] theorem State.result_wp (s : State) (r : Reg) (v : Word) :
    (s.result r v).wp = s.wp := rfl
@[simp] theorem State.result_mem (s : State) (r : Reg) (v : Word) :
    (s.result r v).mem = s.mem := rfl
@[simp] theorem State.result_staleCode (s : State) (r : Reg) (v : Word) :
    (s.result r v).staleCode = s.staleCode := rfl
@[simp] theorem State.result_codeLines (s : State) (r : Reg) (v : Word) :
    (s.result r v).codeLines = s.codeLines := rfl
@[simp] theorem State.result_codeWay (s : State) (r : Reg) (v : Word) :
    (s.result r v).codeWay = s.codeWay := rfl
@[simp] theorem State.result_icc (s : State) (r : Reg) (v : Word) :
    (s.result r v).icc = s.icc := rfl
@[simp] theorem State.result_staleData (s : State) (r : Reg) (v : Word) :
    (s.result r v).staleData = s.staleData := rfl
@[simp] theorem State.result_dataLines (s : State) (r : Reg) (v : Word) :
    (s.result r v).dataLines = s.dataLines := rfl
@[simp] theorem State.result_dataWay (s : State) (r : Reg) (v : Word) :
    (s.result r v).dataWay = s.dataWay := rfl
@[simp] theorem State.result_lastMem (s : State) (r : Reg) (v : Word) :
    (s.result r v).lastMem = s.lastMem := rfl
@[simp] theorem State.result_waiting (s : State) (r : Reg) (v : Word) :
    (s.result r v).waiting = s.waiting := rfl
@[simp] theorem State.result_intLines (s : State) (r : Reg) (v : Word) :
    (s.result r v).intLines = s.intLines := rfl
@[simp] theorem State.result_resetPin (s : State) (r : Reg) (v : Word) :
    (s.result r v).resetPin = s.resetPin := rfl
@[simp] theorem State.result_atDebug (s : State) (r : Reg) (v : Word) :
    (s.result r v).atDebug = s.atDebug := rfl
@[simp] theorem State.result_inputs (s : State) (r : Reg) (v : Word) :
    (s.result r v).inputs = s.inputs := rfl
@[simp] theorem State.result_events (s : State) (r : Reg) (v : Word) :
    (s.result r v).events = s.events := rfl
@[simp] theorem State.result_free (s : State) (r : Reg) (v : Word) :
    (s.result r v).free = s.free := rfl

/-! ### stall -/

@[simp] theorem State.stall_cfg (s : State) :
    (s.stall).cfg = s.cfg := rfl
@[simp] theorem State.stall_regs (s : State) :
    (s.stall).regs = s.regs := rfl
@[simp] theorem State.stall_pc (s : State) :
    (s.stall).pc = s.pc := rfl
@[simp] theorem State.stall_ieIE (s : State) :
    (s.stall).ieIE = s.ieIE := rfl
@[simp] theorem State.stall_ieEIE (s : State) :
    (s.stall).ieEIE = s.ieEIE := rfl
@[simp] theorem State.stall_ieBIE (s : State) :
    (s.stall).ieBIE = s.ieBIE := rfl
@[simp] theorem State.stall_im (s : State) :
    (s.stall).im = s.im := rfl
@[simp] theorem State.stall_ip (s : State) :
    (s.stall).ip = s.ip := rfl
@[simp] theorem State.stall_cc (s : State) :
    (s.stall).cc = s.cc := rfl
@[simp] theorem State.stall_eba (s : State) :
    (s.stall).eba = s.eba := rfl
@[simp] theorem State.stall_dc (s : State) :
    (s.stall).dc = s.dc := rfl
@[simp] theorem State.stall_deba (s : State) :
    (s.stall).deba = s.deba := rfl
@[simp] theorem State.stall_jtx (s : State) :
    (s.stall).jtx = s.jtx := rfl
@[simp] theorem State.stall_jrx (s : State) :
    (s.stall).jrx = s.jrx := rfl
@[simp] theorem State.stall_bp (s : State) :
    (s.stall).bp = s.bp := rfl
@[simp] theorem State.stall_wp (s : State) :
    (s.stall).wp = s.wp := rfl
@[simp] theorem State.stall_mem (s : State) :
    (s.stall).mem = s.mem := rfl
@[simp] theorem State.stall_staleCode (s : State) :
    (s.stall).staleCode = s.staleCode := rfl
@[simp] theorem State.stall_codeLines (s : State) :
    (s.stall).codeLines = s.codeLines := rfl
@[simp] theorem State.stall_codeWay (s : State) :
    (s.stall).codeWay = s.codeWay := rfl
@[simp] theorem State.stall_icc (s : State) :
    (s.stall).icc = s.icc := rfl
@[simp] theorem State.stall_staleData (s : State) :
    (s.stall).staleData = s.staleData := rfl
@[simp] theorem State.stall_dataLines (s : State) :
    (s.stall).dataLines = s.dataLines := rfl
@[simp] theorem State.stall_dataWay (s : State) :
    (s.stall).dataWay = s.dataWay := rfl
@[simp] theorem State.stall_lastMem (s : State) :
    (s.stall).lastMem = s.lastMem := rfl
@[simp] theorem State.stall_waiting (s : State) :
    (s.stall).waiting = true := rfl
@[simp] theorem State.stall_intLines (s : State) :
    (s.stall).intLines = s.intLines := rfl
@[simp] theorem State.stall_resetPin (s : State) :
    (s.stall).resetPin = s.resetPin := rfl
@[simp] theorem State.stall_atDebug (s : State) :
    (s.stall).atDebug = s.atDebug := rfl
@[simp] theorem State.stall_inputs (s : State) :
    (s.stall).inputs = s.inputs := rfl
@[simp] theorem State.stall_events (s : State) :
    (s.stall).events = s.events := rfl
@[simp] theorem State.stall_free (s : State) :
    (s.stall).free = s.free := rfl

/-! ### storeMemory -/

@[simp] theorem State.storeMemory_cfg (s : State) (a : Word) (bs : List Byte) :
    (s.storeMemory a bs).cfg = s.cfg := rfl
@[simp] theorem State.storeMemory_regs (s : State) (a : Word) (bs : List Byte) :
    (s.storeMemory a bs).regs = s.regs := rfl
@[simp] theorem State.storeMemory_pc (s : State) (a : Word) (bs : List Byte) :
    (s.storeMemory a bs).pc = s.pc := rfl
@[simp] theorem State.storeMemory_ieIE (s : State) (a : Word) (bs : List Byte) :
    (s.storeMemory a bs).ieIE = s.ieIE := rfl
@[simp] theorem State.storeMemory_ieEIE (s : State) (a : Word) (bs : List Byte) :
    (s.storeMemory a bs).ieEIE = s.ieEIE := rfl
@[simp] theorem State.storeMemory_ieBIE (s : State) (a : Word) (bs : List Byte) :
    (s.storeMemory a bs).ieBIE = s.ieBIE := rfl
@[simp] theorem State.storeMemory_im (s : State) (a : Word) (bs : List Byte) :
    (s.storeMemory a bs).im = s.im := rfl
@[simp] theorem State.storeMemory_ip (s : State) (a : Word) (bs : List Byte) :
    (s.storeMemory a bs).ip = s.ip := rfl
@[simp] theorem State.storeMemory_cc (s : State) (a : Word) (bs : List Byte) :
    (s.storeMemory a bs).cc = s.cc := rfl
@[simp] theorem State.storeMemory_eba (s : State) (a : Word) (bs : List Byte) :
    (s.storeMemory a bs).eba = s.eba := rfl
@[simp] theorem State.storeMemory_dc (s : State) (a : Word) (bs : List Byte) :
    (s.storeMemory a bs).dc = s.dc := rfl
@[simp] theorem State.storeMemory_deba (s : State) (a : Word) (bs : List Byte) :
    (s.storeMemory a bs).deba = s.deba := rfl
@[simp] theorem State.storeMemory_jtx (s : State) (a : Word) (bs : List Byte) :
    (s.storeMemory a bs).jtx = s.jtx := rfl
@[simp] theorem State.storeMemory_jrx (s : State) (a : Word) (bs : List Byte) :
    (s.storeMemory a bs).jrx = s.jrx := rfl
@[simp] theorem State.storeMemory_bp (s : State) (a : Word) (bs : List Byte) :
    (s.storeMemory a bs).bp = s.bp := rfl
@[simp] theorem State.storeMemory_wp (s : State) (a : Word) (bs : List Byte) :
    (s.storeMemory a bs).wp = s.wp := rfl
@[simp] theorem State.storeMemory_mem (s : State) (a : Word) (bs : List Byte) :
    (s.storeMemory a bs).mem = s.mem.writeBytes a bs := rfl
@[simp] theorem State.storeMemory_staleCode (s : State) (a : Word) (bs : List Byte) :
    (s.storeMemory a bs).staleCode = s.recordCode (wordAddress a) (storeLife s.cfg (wordAddress a)) (s.mem.writeBytes a bs) := rfl
@[simp] theorem State.storeMemory_codeLines (s : State) (a : Word) (bs : List Byte) :
    (s.storeMemory a bs).codeLines = s.codeLines := rfl
@[simp] theorem State.storeMemory_codeWay (s : State) (a : Word) (bs : List Byte) :
    (s.storeMemory a bs).codeWay = s.codeWay := rfl
@[simp] theorem State.storeMemory_icc (s : State) (a : Word) (bs : List Byte) :
    (s.storeMemory a bs).icc = s.icc := rfl
@[simp] theorem State.storeMemory_staleData (s : State) (a : Word) (bs : List Byte) :
    (s.storeMemory a bs).staleData = s.staleData.map (fun e => if covers a bs.length e.addr then { e with masked := true } else e) := rfl
@[simp] theorem State.storeMemory_dataLines (s : State) (a : Word) (bs : List Byte) :
    (s.storeMemory a bs).dataLines = s.dataLines.map (fun l => l.write s.cfg a bs) := rfl
@[simp] theorem State.storeMemory_dataWay (s : State) (a : Word) (bs : List Byte) :
    (s.storeMemory a bs).dataWay = s.storeWay a := rfl
@[simp] theorem State.storeMemory_lastMem (s : State) (a : Word) (bs : List Byte) :
    (s.storeMemory a bs).lastMem = s.lastMem := rfl
@[simp] theorem State.storeMemory_waiting (s : State) (a : Word) (bs : List Byte) :
    (s.storeMemory a bs).waiting = s.waiting := rfl
@[simp] theorem State.storeMemory_intLines (s : State) (a : Word) (bs : List Byte) :
    (s.storeMemory a bs).intLines = s.intLines := rfl
@[simp] theorem State.storeMemory_resetPin (s : State) (a : Word) (bs : List Byte) :
    (s.storeMemory a bs).resetPin = s.resetPin := rfl
@[simp] theorem State.storeMemory_atDebug (s : State) (a : Word) (bs : List Byte) :
    (s.storeMemory a bs).atDebug = s.atDebug := rfl
@[simp] theorem State.storeMemory_inputs (s : State) (a : Word) (bs : List Byte) :
    (s.storeMemory a bs).inputs = s.inputs := rfl
@[simp] theorem State.storeMemory_events (s : State) (a : Word) (bs : List Byte) :
    (s.storeMemory a bs).events = s.events := rfl
@[simp] theorem State.storeMemory_free (s : State) (a : Word) (bs : List Byte) :
    (s.storeMemory a bs).free = s.free := rfl

/-! ### loadDraw -/

@[simp] theorem State.loadDraw_cfg (s : State) (n : AccessSize) (a : Word) :
    (s.loadDraw n a).cfg = s.cfg := rfl
@[simp] theorem State.loadDraw_regs (s : State) (n : AccessSize) (a : Word) :
    (s.loadDraw n a).regs = s.regs := rfl
@[simp] theorem State.loadDraw_pc (s : State) (n : AccessSize) (a : Word) :
    (s.loadDraw n a).pc = s.pc := rfl
@[simp] theorem State.loadDraw_ieIE (s : State) (n : AccessSize) (a : Word) :
    (s.loadDraw n a).ieIE = s.ieIE := rfl
@[simp] theorem State.loadDraw_ieEIE (s : State) (n : AccessSize) (a : Word) :
    (s.loadDraw n a).ieEIE = s.ieEIE := rfl
@[simp] theorem State.loadDraw_ieBIE (s : State) (n : AccessSize) (a : Word) :
    (s.loadDraw n a).ieBIE = s.ieBIE := rfl
@[simp] theorem State.loadDraw_im (s : State) (n : AccessSize) (a : Word) :
    (s.loadDraw n a).im = s.im := rfl
@[simp] theorem State.loadDraw_ip (s : State) (n : AccessSize) (a : Word) :
    (s.loadDraw n a).ip = s.ip := rfl
@[simp] theorem State.loadDraw_cc (s : State) (n : AccessSize) (a : Word) :
    (s.loadDraw n a).cc = s.cc := rfl
@[simp] theorem State.loadDraw_eba (s : State) (n : AccessSize) (a : Word) :
    (s.loadDraw n a).eba = s.eba := rfl
@[simp] theorem State.loadDraw_dc (s : State) (n : AccessSize) (a : Word) :
    (s.loadDraw n a).dc = s.dc := rfl
@[simp] theorem State.loadDraw_deba (s : State) (n : AccessSize) (a : Word) :
    (s.loadDraw n a).deba = s.deba := rfl
@[simp] theorem State.loadDraw_jtx (s : State) (n : AccessSize) (a : Word) :
    (s.loadDraw n a).jtx = s.jtx := rfl
@[simp] theorem State.loadDraw_jrx (s : State) (n : AccessSize) (a : Word) :
    (s.loadDraw n a).jrx = s.jrx := rfl
@[simp] theorem State.loadDraw_bp (s : State) (n : AccessSize) (a : Word) :
    (s.loadDraw n a).bp = s.bp := rfl
@[simp] theorem State.loadDraw_wp (s : State) (n : AccessSize) (a : Word) :
    (s.loadDraw n a).wp = s.wp := rfl
@[simp] theorem State.loadDraw_mem (s : State) (n : AccessSize) (a : Word) :
    (s.loadDraw n a).mem = s.mem := rfl
@[simp] theorem State.loadDraw_staleCode (s : State) (n : AccessSize) (a : Word) :
    (s.loadDraw n a).staleCode = s.staleCode := rfl
@[simp] theorem State.loadDraw_codeLines (s : State) (n : AccessSize) (a : Word) :
    (s.loadDraw n a).codeLines = s.codeLines := rfl
@[simp] theorem State.loadDraw_codeWay (s : State) (n : AccessSize) (a : Word) :
    (s.loadDraw n a).codeWay = s.codeWay := rfl
@[simp] theorem State.loadDraw_icc (s : State) (n : AccessSize) (a : Word) :
    (s.loadDraw n a).icc = s.icc := rfl
@[simp] theorem State.loadDraw_staleData (s : State) (n : AccessSize) (a : Word) :
    (s.loadDraw n a).staleData = s.staleData := rfl
@[simp] theorem State.loadDraw_dataLines (s : State) (n : AccessSize) (a : Word) :
    (s.loadDraw n a).dataLines = s.dataLines := rfl
@[simp] theorem State.loadDraw_dataWay (s : State) (n : AccessSize) (a : Word) :
    (s.loadDraw n a).dataWay = s.dataWay := rfl
@[simp] theorem State.loadDraw_lastMem (s : State) (n : AccessSize) (a : Word) :
    (s.loadDraw n a).lastMem = s.lastMem := rfl
@[simp] theorem State.loadDraw_waiting (s : State) (n : AccessSize) (a : Word) :
    (s.loadDraw n a).waiting = s.waiting := rfl
@[simp] theorem State.loadDraw_intLines (s : State) (n : AccessSize) (a : Word) :
    (s.loadDraw n a).intLines = s.intLines := rfl
@[simp] theorem State.loadDraw_resetPin (s : State) (n : AccessSize) (a : Word) :
    (s.loadDraw n a).resetPin = s.resetPin := rfl
@[simp] theorem State.loadDraw_atDebug (s : State) (n : AccessSize) (a : Word) :
    (s.loadDraw n a).atDebug = s.atDebug := rfl
@[simp] theorem State.loadDraw_inputs (s : State) (n : AccessSize) (a : Word) :
    (s.loadDraw n a).inputs = s.inputs := rfl
@[simp] theorem State.loadDraw_events (s : State) (n : AccessSize) (a : Word) :
    (s.loadDraw n a).events = s.events := rfl
@[simp] theorem State.loadDraw_free (s : State) (n : AccessSize) (a : Word) :
    (s.loadDraw n a).free = if s.loadFresh n a then s.free else s.free + 4 := rfl

/-! ### fill -/

@[simp] theorem State.fill_cfg (s : State) (n : AccessSize) (a : Word) :
    (s.fill n a).cfg = s.cfg := rfl
@[simp] theorem State.fill_regs (s : State) (n : AccessSize) (a : Word) :
    (s.fill n a).regs = s.regs := rfl
@[simp] theorem State.fill_pc (s : State) (n : AccessSize) (a : Word) :
    (s.fill n a).pc = s.pc := rfl
@[simp] theorem State.fill_ieIE (s : State) (n : AccessSize) (a : Word) :
    (s.fill n a).ieIE = s.ieIE := rfl
@[simp] theorem State.fill_ieEIE (s : State) (n : AccessSize) (a : Word) :
    (s.fill n a).ieEIE = s.ieEIE := rfl
@[simp] theorem State.fill_ieBIE (s : State) (n : AccessSize) (a : Word) :
    (s.fill n a).ieBIE = s.ieBIE := rfl
@[simp] theorem State.fill_im (s : State) (n : AccessSize) (a : Word) :
    (s.fill n a).im = s.im := rfl
@[simp] theorem State.fill_ip (s : State) (n : AccessSize) (a : Word) :
    (s.fill n a).ip = s.ip := rfl
@[simp] theorem State.fill_cc (s : State) (n : AccessSize) (a : Word) :
    (s.fill n a).cc = s.cc := rfl
@[simp] theorem State.fill_eba (s : State) (n : AccessSize) (a : Word) :
    (s.fill n a).eba = s.eba := rfl
@[simp] theorem State.fill_dc (s : State) (n : AccessSize) (a : Word) :
    (s.fill n a).dc = s.dc := rfl
@[simp] theorem State.fill_deba (s : State) (n : AccessSize) (a : Word) :
    (s.fill n a).deba = s.deba := rfl
@[simp] theorem State.fill_jtx (s : State) (n : AccessSize) (a : Word) :
    (s.fill n a).jtx = s.jtx := rfl
@[simp] theorem State.fill_jrx (s : State) (n : AccessSize) (a : Word) :
    (s.fill n a).jrx = s.jrx := rfl
@[simp] theorem State.fill_bp (s : State) (n : AccessSize) (a : Word) :
    (s.fill n a).bp = s.bp := rfl
@[simp] theorem State.fill_wp (s : State) (n : AccessSize) (a : Word) :
    (s.fill n a).wp = s.wp := rfl
@[simp] theorem State.fill_mem (s : State) (n : AccessSize) (a : Word) :
    (s.fill n a).mem = s.mem := rfl
@[simp] theorem State.fill_staleCode (s : State) (n : AccessSize) (a : Word) :
    (s.fill n a).staleCode = s.staleCode := rfl
@[simp] theorem State.fill_codeLines (s : State) (n : AccessSize) (a : Word) :
    (s.fill n a).codeLines = s.codeLines := rfl
@[simp] theorem State.fill_codeWay (s : State) (n : AccessSize) (a : Word) :
    (s.fill n a).codeWay = s.codeWay := rfl
@[simp] theorem State.fill_icc (s : State) (n : AccessSize) (a : Word) :
    (s.fill n a).icc = s.icc := rfl
@[simp] theorem State.fill_staleData (s : State) (n : AccessSize) (a : Word) :
    (s.fill n a).staleData = s.staleData := rfl
@[simp] theorem State.fill_dataLines (s : State) (n : AccessSize) (a : Word) :
    (s.fill n a).dataLines = putLine s.cfg.dcache (s.fillLine n a) s.dataLines := rfl
@[simp] theorem State.fill_dataWay (s : State) (n : AccessSize) (a : Word) :
    (s.fill n a).dataWay = nextWay s.cfg.dcache s.dataWay := rfl
@[simp] theorem State.fill_lastMem (s : State) (n : AccessSize) (a : Word) :
    (s.fill n a).lastMem = s.lastMem := rfl
@[simp] theorem State.fill_waiting (s : State) (n : AccessSize) (a : Word) :
    (s.fill n a).waiting = s.waiting := rfl
@[simp] theorem State.fill_intLines (s : State) (n : AccessSize) (a : Word) :
    (s.fill n a).intLines = s.intLines := rfl
@[simp] theorem State.fill_resetPin (s : State) (n : AccessSize) (a : Word) :
    (s.fill n a).resetPin = s.resetPin := rfl
@[simp] theorem State.fill_atDebug (s : State) (n : AccessSize) (a : Word) :
    (s.fill n a).atDebug = s.atDebug := rfl
@[simp] theorem State.fill_inputs (s : State) (n : AccessSize) (a : Word) :
    (s.fill n a).inputs = s.inputs := rfl
@[simp] theorem State.fill_events (s : State) (n : AccessSize) (a : Word) :
    (s.fill n a).events = fillEvents s.cfg.dcache (fillAnswer s.cfg n a) (.deviceRead .word) a ++ s.events := rfl
@[simp] theorem State.fill_free (s : State) (n : AccessSize) (a : Word) :
    (s.fill n a).free = s.free + s.cfg.dcache.bytesPerLine / 4 := rfl

/-! ### cacheLoad -/

@[simp] theorem State.cacheLoad_cfg (s : State) (n : AccessSize) (a : Word) :
    (s.cacheLoad n a).cfg = s.cfg := by
  unfold State.cacheLoad; split <;> rfl
@[simp] theorem State.cacheLoad_regs (s : State) (n : AccessSize) (a : Word) :
    (s.cacheLoad n a).regs = s.regs := by
  unfold State.cacheLoad; split <;> rfl
@[simp] theorem State.cacheLoad_pc (s : State) (n : AccessSize) (a : Word) :
    (s.cacheLoad n a).pc = s.pc := by
  unfold State.cacheLoad; split <;> rfl
@[simp] theorem State.cacheLoad_ieIE (s : State) (n : AccessSize) (a : Word) :
    (s.cacheLoad n a).ieIE = s.ieIE := by
  unfold State.cacheLoad; split <;> rfl
@[simp] theorem State.cacheLoad_ieEIE (s : State) (n : AccessSize) (a : Word) :
    (s.cacheLoad n a).ieEIE = s.ieEIE := by
  unfold State.cacheLoad; split <;> rfl
@[simp] theorem State.cacheLoad_ieBIE (s : State) (n : AccessSize) (a : Word) :
    (s.cacheLoad n a).ieBIE = s.ieBIE := by
  unfold State.cacheLoad; split <;> rfl
@[simp] theorem State.cacheLoad_im (s : State) (n : AccessSize) (a : Word) :
    (s.cacheLoad n a).im = s.im := by
  unfold State.cacheLoad; split <;> rfl
@[simp] theorem State.cacheLoad_ip (s : State) (n : AccessSize) (a : Word) :
    (s.cacheLoad n a).ip = s.ip := by
  unfold State.cacheLoad; split <;> rfl
@[simp] theorem State.cacheLoad_cc (s : State) (n : AccessSize) (a : Word) :
    (s.cacheLoad n a).cc = s.cc := by
  unfold State.cacheLoad; split <;> rfl
@[simp] theorem State.cacheLoad_eba (s : State) (n : AccessSize) (a : Word) :
    (s.cacheLoad n a).eba = s.eba := by
  unfold State.cacheLoad; split <;> rfl
@[simp] theorem State.cacheLoad_dc (s : State) (n : AccessSize) (a : Word) :
    (s.cacheLoad n a).dc = s.dc := by
  unfold State.cacheLoad; split <;> rfl
@[simp] theorem State.cacheLoad_deba (s : State) (n : AccessSize) (a : Word) :
    (s.cacheLoad n a).deba = s.deba := by
  unfold State.cacheLoad; split <;> rfl
@[simp] theorem State.cacheLoad_jtx (s : State) (n : AccessSize) (a : Word) :
    (s.cacheLoad n a).jtx = s.jtx := by
  unfold State.cacheLoad; split <;> rfl
@[simp] theorem State.cacheLoad_jrx (s : State) (n : AccessSize) (a : Word) :
    (s.cacheLoad n a).jrx = s.jrx := by
  unfold State.cacheLoad; split <;> rfl
@[simp] theorem State.cacheLoad_bp (s : State) (n : AccessSize) (a : Word) :
    (s.cacheLoad n a).bp = s.bp := by
  unfold State.cacheLoad; split <;> rfl
@[simp] theorem State.cacheLoad_wp (s : State) (n : AccessSize) (a : Word) :
    (s.cacheLoad n a).wp = s.wp := by
  unfold State.cacheLoad; split <;> rfl
@[simp] theorem State.cacheLoad_mem (s : State) (n : AccessSize) (a : Word) :
    (s.cacheLoad n a).mem = s.mem := by
  unfold State.cacheLoad; split <;> rfl
@[simp] theorem State.cacheLoad_staleCode (s : State) (n : AccessSize) (a : Word) :
    (s.cacheLoad n a).staleCode = s.staleCode := by
  unfold State.cacheLoad; split <;> rfl
@[simp] theorem State.cacheLoad_codeLines (s : State) (n : AccessSize) (a : Word) :
    (s.cacheLoad n a).codeLines = s.codeLines := by
  unfold State.cacheLoad; split <;> rfl
@[simp] theorem State.cacheLoad_codeWay (s : State) (n : AccessSize) (a : Word) :
    (s.cacheLoad n a).codeWay = s.codeWay := by
  unfold State.cacheLoad; split <;> rfl
@[simp] theorem State.cacheLoad_icc (s : State) (n : AccessSize) (a : Word) :
    (s.cacheLoad n a).icc = s.icc := by
  unfold State.cacheLoad; split <;> rfl
@[simp] theorem State.cacheLoad_staleData (s : State) (n : AccessSize) (a : Word) :
    (s.cacheLoad n a).staleData = s.staleData := by
  unfold State.cacheLoad; split <;> rfl
@[simp] theorem State.cacheLoad_lastMem (s : State) (n : AccessSize) (a : Word) :
    (s.cacheLoad n a).lastMem = s.lastMem := by
  unfold State.cacheLoad; split <;> rfl
@[simp] theorem State.cacheLoad_waiting (s : State) (n : AccessSize) (a : Word) :
    (s.cacheLoad n a).waiting = s.waiting := by
  unfold State.cacheLoad; split <;> rfl
@[simp] theorem State.cacheLoad_intLines (s : State) (n : AccessSize) (a : Word) :
    (s.cacheLoad n a).intLines = s.intLines := by
  unfold State.cacheLoad; split <;> rfl
@[simp] theorem State.cacheLoad_resetPin (s : State) (n : AccessSize) (a : Word) :
    (s.cacheLoad n a).resetPin = s.resetPin := by
  unfold State.cacheLoad; split <;> rfl
@[simp] theorem State.cacheLoad_atDebug (s : State) (n : AccessSize) (a : Word) :
    (s.cacheLoad n a).atDebug = s.atDebug := by
  unfold State.cacheLoad; split <;> rfl
@[simp] theorem State.cacheLoad_inputs (s : State) (n : AccessSize) (a : Word) :
    (s.cacheLoad n a).inputs = s.inputs := by
  unfold State.cacheLoad; split <;> rfl

/-! ### deviceRead -/

@[simp] theorem State.deviceRead_cfg (s : State) (n : AccessSize) (a : Word) :
    (s.deviceRead n a).cfg = s.cfg := by
  unfold State.deviceRead; split <;> simp
@[simp] theorem State.deviceRead_regs (s : State) (n : AccessSize) (a : Word) :
    (s.deviceRead n a).regs = s.regs := by
  unfold State.deviceRead; split <;> simp
@[simp] theorem State.deviceRead_pc (s : State) (n : AccessSize) (a : Word) :
    (s.deviceRead n a).pc = s.pc := by
  unfold State.deviceRead; split <;> simp
@[simp] theorem State.deviceRead_ieIE (s : State) (n : AccessSize) (a : Word) :
    (s.deviceRead n a).ieIE = s.ieIE := by
  unfold State.deviceRead; split <;> simp
@[simp] theorem State.deviceRead_ieEIE (s : State) (n : AccessSize) (a : Word) :
    (s.deviceRead n a).ieEIE = s.ieEIE := by
  unfold State.deviceRead; split <;> simp
@[simp] theorem State.deviceRead_ieBIE (s : State) (n : AccessSize) (a : Word) :
    (s.deviceRead n a).ieBIE = s.ieBIE := by
  unfold State.deviceRead; split <;> simp
@[simp] theorem State.deviceRead_im (s : State) (n : AccessSize) (a : Word) :
    (s.deviceRead n a).im = s.im := by
  unfold State.deviceRead; split <;> simp
@[simp] theorem State.deviceRead_ip (s : State) (n : AccessSize) (a : Word) :
    (s.deviceRead n a).ip = s.ip := by
  unfold State.deviceRead; split <;> simp
@[simp] theorem State.deviceRead_cc (s : State) (n : AccessSize) (a : Word) :
    (s.deviceRead n a).cc = s.cc := by
  unfold State.deviceRead; split <;> simp
@[simp] theorem State.deviceRead_eba (s : State) (n : AccessSize) (a : Word) :
    (s.deviceRead n a).eba = s.eba := by
  unfold State.deviceRead; split <;> simp
@[simp] theorem State.deviceRead_dc (s : State) (n : AccessSize) (a : Word) :
    (s.deviceRead n a).dc = s.dc := by
  unfold State.deviceRead; split <;> simp
@[simp] theorem State.deviceRead_deba (s : State) (n : AccessSize) (a : Word) :
    (s.deviceRead n a).deba = s.deba := by
  unfold State.deviceRead; split <;> simp
@[simp] theorem State.deviceRead_jtx (s : State) (n : AccessSize) (a : Word) :
    (s.deviceRead n a).jtx = s.jtx := by
  unfold State.deviceRead; split <;> simp
@[simp] theorem State.deviceRead_jrx (s : State) (n : AccessSize) (a : Word) :
    (s.deviceRead n a).jrx = s.jrx := by
  unfold State.deviceRead; split <;> simp
@[simp] theorem State.deviceRead_bp (s : State) (n : AccessSize) (a : Word) :
    (s.deviceRead n a).bp = s.bp := by
  unfold State.deviceRead; split <;> simp
@[simp] theorem State.deviceRead_wp (s : State) (n : AccessSize) (a : Word) :
    (s.deviceRead n a).wp = s.wp := by
  unfold State.deviceRead; split <;> simp
@[simp] theorem State.deviceRead_mem (s : State) (n : AccessSize) (a : Word) :
    (s.deviceRead n a).mem = s.mem := by
  unfold State.deviceRead; split <;> simp
@[simp] theorem State.deviceRead_staleCode (s : State) (n : AccessSize) (a : Word) :
    (s.deviceRead n a).staleCode = s.staleCode := by
  unfold State.deviceRead; split <;> simp
@[simp] theorem State.deviceRead_codeLines (s : State) (n : AccessSize) (a : Word) :
    (s.deviceRead n a).codeLines = s.codeLines := by
  unfold State.deviceRead; split <;> simp
@[simp] theorem State.deviceRead_codeWay (s : State) (n : AccessSize) (a : Word) :
    (s.deviceRead n a).codeWay = s.codeWay := by
  unfold State.deviceRead; split <;> simp
@[simp] theorem State.deviceRead_icc (s : State) (n : AccessSize) (a : Word) :
    (s.deviceRead n a).icc = s.icc := by
  unfold State.deviceRead; split <;> simp
@[simp] theorem State.deviceRead_staleData (s : State) (n : AccessSize) (a : Word) :
    (s.deviceRead n a).staleData = s.staleData := by
  unfold State.deviceRead; split <;> simp
@[simp] theorem State.deviceRead_lastMem (s : State) (n : AccessSize) (a : Word) :
    (s.deviceRead n a).lastMem = s.lastMem := by
  unfold State.deviceRead; split <;> simp
@[simp] theorem State.deviceRead_waiting (s : State) (n : AccessSize) (a : Word) :
    (s.deviceRead n a).waiting = s.waiting := by
  unfold State.deviceRead; split <;> simp
@[simp] theorem State.deviceRead_intLines (s : State) (n : AccessSize) (a : Word) :
    (s.deviceRead n a).intLines = s.intLines := by
  unfold State.deviceRead; split <;> simp
@[simp] theorem State.deviceRead_resetPin (s : State) (n : AccessSize) (a : Word) :
    (s.deviceRead n a).resetPin = s.resetPin := by
  unfold State.deviceRead; split <;> simp
@[simp] theorem State.deviceRead_atDebug (s : State) (n : AccessSize) (a : Word) :
    (s.deviceRead n a).atDebug = s.atDebug := by
  unfold State.deviceRead; split <;> simp
@[simp] theorem State.deviceRead_inputs (s : State) (n : AccessSize) (a : Word) :
    (s.deviceRead n a).inputs = s.inputs := by
  unfold State.deviceRead; split <;> simp

/-! ### deviceWrite -/

@[simp] theorem State.deviceWrite_cfg (s : State) (n : AccessSize) (a v : Word) :
    (s.deviceWrite n a v).cfg = s.cfg := rfl
@[simp] theorem State.deviceWrite_regs (s : State) (n : AccessSize) (a v : Word) :
    (s.deviceWrite n a v).regs = s.regs := rfl
@[simp] theorem State.deviceWrite_pc (s : State) (n : AccessSize) (a v : Word) :
    (s.deviceWrite n a v).pc = s.pc := rfl
@[simp] theorem State.deviceWrite_ieIE (s : State) (n : AccessSize) (a v : Word) :
    (s.deviceWrite n a v).ieIE = s.ieIE := rfl
@[simp] theorem State.deviceWrite_ieEIE (s : State) (n : AccessSize) (a v : Word) :
    (s.deviceWrite n a v).ieEIE = s.ieEIE := rfl
@[simp] theorem State.deviceWrite_ieBIE (s : State) (n : AccessSize) (a v : Word) :
    (s.deviceWrite n a v).ieBIE = s.ieBIE := rfl
@[simp] theorem State.deviceWrite_im (s : State) (n : AccessSize) (a v : Word) :
    (s.deviceWrite n a v).im = s.im := rfl
@[simp] theorem State.deviceWrite_ip (s : State) (n : AccessSize) (a v : Word) :
    (s.deviceWrite n a v).ip = s.ip := rfl
@[simp] theorem State.deviceWrite_cc (s : State) (n : AccessSize) (a v : Word) :
    (s.deviceWrite n a v).cc = s.cc := rfl
@[simp] theorem State.deviceWrite_eba (s : State) (n : AccessSize) (a v : Word) :
    (s.deviceWrite n a v).eba = s.eba := rfl
@[simp] theorem State.deviceWrite_dc (s : State) (n : AccessSize) (a v : Word) :
    (s.deviceWrite n a v).dc = s.dc := rfl
@[simp] theorem State.deviceWrite_deba (s : State) (n : AccessSize) (a v : Word) :
    (s.deviceWrite n a v).deba = s.deba := rfl
@[simp] theorem State.deviceWrite_jtx (s : State) (n : AccessSize) (a v : Word) :
    (s.deviceWrite n a v).jtx = s.jtx := rfl
@[simp] theorem State.deviceWrite_jrx (s : State) (n : AccessSize) (a v : Word) :
    (s.deviceWrite n a v).jrx = s.jrx := rfl
@[simp] theorem State.deviceWrite_bp (s : State) (n : AccessSize) (a v : Word) :
    (s.deviceWrite n a v).bp = s.bp := rfl
@[simp] theorem State.deviceWrite_wp (s : State) (n : AccessSize) (a v : Word) :
    (s.deviceWrite n a v).wp = s.wp := rfl
@[simp] theorem State.deviceWrite_mem (s : State) (n : AccessSize) (a v : Word) :
    (s.deviceWrite n a v).mem = s.mem := rfl
@[simp] theorem State.deviceWrite_staleCode (s : State) (n : AccessSize) (a v : Word) :
    (s.deviceWrite n a v).staleCode = s.staleCode := rfl
@[simp] theorem State.deviceWrite_codeLines (s : State) (n : AccessSize) (a v : Word) :
    (s.deviceWrite n a v).codeLines = s.codeLines := rfl
@[simp] theorem State.deviceWrite_codeWay (s : State) (n : AccessSize) (a v : Word) :
    (s.deviceWrite n a v).codeWay = s.codeWay := rfl
@[simp] theorem State.deviceWrite_icc (s : State) (n : AccessSize) (a v : Word) :
    (s.deviceWrite n a v).icc = s.icc := rfl
@[simp] theorem State.deviceWrite_staleData (s : State) (n : AccessSize) (a v : Word) :
    (s.deviceWrite n a v).staleData = s.staleData := rfl
@[simp] theorem State.deviceWrite_dataLines (s : State) (n : AccessSize) (a v : Word) :
    (s.deviceWrite n a v).dataLines = s.dataLines.map (fun l => l.write s.cfg a (storeBytes n v)) := rfl
@[simp] theorem State.deviceWrite_dataWay (s : State) (n : AccessSize) (a v : Word) :
    (s.deviceWrite n a v).dataWay = s.storeWay a := rfl
@[simp] theorem State.deviceWrite_lastMem (s : State) (n : AccessSize) (a v : Word) :
    (s.deviceWrite n a v).lastMem = s.lastMem := rfl
@[simp] theorem State.deviceWrite_waiting (s : State) (n : AccessSize) (a v : Word) :
    (s.deviceWrite n a v).waiting = s.waiting := rfl
@[simp] theorem State.deviceWrite_intLines (s : State) (n : AccessSize) (a v : Word) :
    (s.deviceWrite n a v).intLines = s.intLines := rfl
@[simp] theorem State.deviceWrite_resetPin (s : State) (n : AccessSize) (a v : Word) :
    (s.deviceWrite n a v).resetPin = s.resetPin := rfl
@[simp] theorem State.deviceWrite_atDebug (s : State) (n : AccessSize) (a v : Word) :
    (s.deviceWrite n a v).atDebug = s.atDebug := rfl
@[simp] theorem State.deviceWrite_inputs (s : State) (n : AccessSize) (a v : Word) :
    (s.deviceWrite n a v).inputs = s.inputs := rfl
@[simp] theorem State.deviceWrite_events (s : State) (n : AccessSize) (a v : Word) :
    (s.deviceWrite n a v).events = .deviceWrite n a (storeValue n v) :: s.events := rfl
@[simp] theorem State.deviceWrite_free (s : State) (n : AccessSize) (a v : Word) :
    (s.deviceWrite n a v).free = s.free := rfl

/-! ### fillCode -/

@[simp] theorem State.fillCode_cfg (s : State) (a : Word) :
    (s.fillCode a).cfg = s.cfg := rfl
@[simp] theorem State.fillCode_regs (s : State) (a : Word) :
    (s.fillCode a).regs = s.regs := rfl
@[simp] theorem State.fillCode_pc (s : State) (a : Word) :
    (s.fillCode a).pc = s.pc := rfl
@[simp] theorem State.fillCode_ieIE (s : State) (a : Word) :
    (s.fillCode a).ieIE = s.ieIE := rfl
@[simp] theorem State.fillCode_ieEIE (s : State) (a : Word) :
    (s.fillCode a).ieEIE = s.ieEIE := rfl
@[simp] theorem State.fillCode_ieBIE (s : State) (a : Word) :
    (s.fillCode a).ieBIE = s.ieBIE := rfl
@[simp] theorem State.fillCode_im (s : State) (a : Word) :
    (s.fillCode a).im = s.im := rfl
@[simp] theorem State.fillCode_ip (s : State) (a : Word) :
    (s.fillCode a).ip = s.ip := rfl
@[simp] theorem State.fillCode_cc (s : State) (a : Word) :
    (s.fillCode a).cc = s.cc := rfl
@[simp] theorem State.fillCode_eba (s : State) (a : Word) :
    (s.fillCode a).eba = s.eba := rfl
@[simp] theorem State.fillCode_dc (s : State) (a : Word) :
    (s.fillCode a).dc = s.dc := rfl
@[simp] theorem State.fillCode_deba (s : State) (a : Word) :
    (s.fillCode a).deba = s.deba := rfl
@[simp] theorem State.fillCode_jtx (s : State) (a : Word) :
    (s.fillCode a).jtx = s.jtx := rfl
@[simp] theorem State.fillCode_jrx (s : State) (a : Word) :
    (s.fillCode a).jrx = s.jrx := rfl
@[simp] theorem State.fillCode_bp (s : State) (a : Word) :
    (s.fillCode a).bp = s.bp := rfl
@[simp] theorem State.fillCode_wp (s : State) (a : Word) :
    (s.fillCode a).wp = s.wp := rfl
@[simp] theorem State.fillCode_mem (s : State) (a : Word) :
    (s.fillCode a).mem = s.mem := rfl
@[simp] theorem State.fillCode_staleCode (s : State) (a : Word) :
    (s.fillCode a).staleCode = s.staleCode := rfl
@[simp] theorem State.fillCode_codeLines (s : State) (a : Word) :
    (s.fillCode a).codeLines = putLine s.cfg.icache (s.codeLine a) s.codeLines := rfl
@[simp] theorem State.fillCode_codeWay (s : State) (a : Word) :
    (s.fillCode a).codeWay = nextWay s.cfg.icache s.codeWay := rfl
@[simp] theorem State.fillCode_icc (s : State) (a : Word) :
    (s.fillCode a).icc = s.icc := rfl
@[simp] theorem State.fillCode_staleData (s : State) (a : Word) :
    (s.fillCode a).staleData = s.staleData := rfl
@[simp] theorem State.fillCode_dataLines (s : State) (a : Word) :
    (s.fillCode a).dataLines = s.dataLines := rfl
@[simp] theorem State.fillCode_dataWay (s : State) (a : Word) :
    (s.fillCode a).dataWay = s.dataWay := rfl
@[simp] theorem State.fillCode_lastMem (s : State) (a : Word) :
    (s.fillCode a).lastMem = s.lastMem := rfl
@[simp] theorem State.fillCode_waiting (s : State) (a : Word) :
    (s.fillCode a).waiting = s.waiting := rfl
@[simp] theorem State.fillCode_intLines (s : State) (a : Word) :
    (s.fillCode a).intLines = s.intLines := rfl
@[simp] theorem State.fillCode_resetPin (s : State) (a : Word) :
    (s.fillCode a).resetPin = s.resetPin := rfl
@[simp] theorem State.fillCode_atDebug (s : State) (a : Word) :
    (s.fillCode a).atDebug = s.atDebug := rfl
@[simp] theorem State.fillCode_inputs (s : State) (a : Word) :
    (s.fillCode a).inputs = s.inputs := rfl
@[simp] theorem State.fillCode_events (s : State) (a : Word) :
    (s.fillCode a).events = fillEvents s.cfg.icache (fetchAnswer s.cfg) .deviceFetch a ++ s.events := rfl
@[simp] theorem State.fillCode_free (s : State) (a : Word) :
    (s.fillCode a).free = s.free + s.cfg.icache.bytesPerLine / 4 := rfl

/-! ### cacheFetch -/

@[simp] theorem State.cacheFetch_cfg (s : State) (a : Word) :
    (s.cacheFetch a).cfg = s.cfg := by
  unfold State.cacheFetch; split <;> rfl
@[simp] theorem State.cacheFetch_regs (s : State) (a : Word) :
    (s.cacheFetch a).regs = s.regs := by
  unfold State.cacheFetch; split <;> rfl
@[simp] theorem State.cacheFetch_pc (s : State) (a : Word) :
    (s.cacheFetch a).pc = s.pc := by
  unfold State.cacheFetch; split <;> rfl
@[simp] theorem State.cacheFetch_ieIE (s : State) (a : Word) :
    (s.cacheFetch a).ieIE = s.ieIE := by
  unfold State.cacheFetch; split <;> rfl
@[simp] theorem State.cacheFetch_ieEIE (s : State) (a : Word) :
    (s.cacheFetch a).ieEIE = s.ieEIE := by
  unfold State.cacheFetch; split <;> rfl
@[simp] theorem State.cacheFetch_ieBIE (s : State) (a : Word) :
    (s.cacheFetch a).ieBIE = s.ieBIE := by
  unfold State.cacheFetch; split <;> rfl
@[simp] theorem State.cacheFetch_im (s : State) (a : Word) :
    (s.cacheFetch a).im = s.im := by
  unfold State.cacheFetch; split <;> rfl
@[simp] theorem State.cacheFetch_ip (s : State) (a : Word) :
    (s.cacheFetch a).ip = s.ip := by
  unfold State.cacheFetch; split <;> rfl
@[simp] theorem State.cacheFetch_cc (s : State) (a : Word) :
    (s.cacheFetch a).cc = s.cc := by
  unfold State.cacheFetch; split <;> rfl
@[simp] theorem State.cacheFetch_eba (s : State) (a : Word) :
    (s.cacheFetch a).eba = s.eba := by
  unfold State.cacheFetch; split <;> rfl
@[simp] theorem State.cacheFetch_dc (s : State) (a : Word) :
    (s.cacheFetch a).dc = s.dc := by
  unfold State.cacheFetch; split <;> rfl
@[simp] theorem State.cacheFetch_deba (s : State) (a : Word) :
    (s.cacheFetch a).deba = s.deba := by
  unfold State.cacheFetch; split <;> rfl
@[simp] theorem State.cacheFetch_jtx (s : State) (a : Word) :
    (s.cacheFetch a).jtx = s.jtx := by
  unfold State.cacheFetch; split <;> rfl
@[simp] theorem State.cacheFetch_jrx (s : State) (a : Word) :
    (s.cacheFetch a).jrx = s.jrx := by
  unfold State.cacheFetch; split <;> rfl
@[simp] theorem State.cacheFetch_bp (s : State) (a : Word) :
    (s.cacheFetch a).bp = s.bp := by
  unfold State.cacheFetch; split <;> rfl
@[simp] theorem State.cacheFetch_wp (s : State) (a : Word) :
    (s.cacheFetch a).wp = s.wp := by
  unfold State.cacheFetch; split <;> rfl
@[simp] theorem State.cacheFetch_mem (s : State) (a : Word) :
    (s.cacheFetch a).mem = s.mem := by
  unfold State.cacheFetch; split <;> rfl
@[simp] theorem State.cacheFetch_staleCode (s : State) (a : Word) :
    (s.cacheFetch a).staleCode = s.staleCode := by
  unfold State.cacheFetch; split <;> rfl
@[simp] theorem State.cacheFetch_icc (s : State) (a : Word) :
    (s.cacheFetch a).icc = s.icc := by
  unfold State.cacheFetch; split <;> rfl
@[simp] theorem State.cacheFetch_staleData (s : State) (a : Word) :
    (s.cacheFetch a).staleData = s.staleData := by
  unfold State.cacheFetch; split <;> rfl
@[simp] theorem State.cacheFetch_dataLines (s : State) (a : Word) :
    (s.cacheFetch a).dataLines = s.dataLines := by
  unfold State.cacheFetch; split <;> rfl
@[simp] theorem State.cacheFetch_dataWay (s : State) (a : Word) :
    (s.cacheFetch a).dataWay = s.dataWay := by
  unfold State.cacheFetch; split <;> rfl
@[simp] theorem State.cacheFetch_lastMem (s : State) (a : Word) :
    (s.cacheFetch a).lastMem = s.lastMem := by
  unfold State.cacheFetch; split <;> rfl
@[simp] theorem State.cacheFetch_waiting (s : State) (a : Word) :
    (s.cacheFetch a).waiting = s.waiting := by
  unfold State.cacheFetch; split <;> rfl
@[simp] theorem State.cacheFetch_intLines (s : State) (a : Word) :
    (s.cacheFetch a).intLines = s.intLines := by
  unfold State.cacheFetch; split <;> rfl
@[simp] theorem State.cacheFetch_resetPin (s : State) (a : Word) :
    (s.cacheFetch a).resetPin = s.resetPin := by
  unfold State.cacheFetch; split <;> rfl
@[simp] theorem State.cacheFetch_atDebug (s : State) (a : Word) :
    (s.cacheFetch a).atDebug = s.atDebug := by
  unfold State.cacheFetch; split <;> rfl
@[simp] theorem State.cacheFetch_inputs (s : State) (a : Word) :
    (s.cacheFetch a).inputs = s.inputs := by
  unfold State.cacheFetch; split <;> rfl

/-! ### deviceFetch -/

@[simp] theorem State.deviceFetch_cfg (s : State) (a : Word) :
    (s.deviceFetch a).cfg = s.cfg := by
  unfold State.deviceFetch; split <;> simp
@[simp] theorem State.deviceFetch_regs (s : State) (a : Word) :
    (s.deviceFetch a).regs = s.regs := by
  unfold State.deviceFetch; split <;> simp
@[simp] theorem State.deviceFetch_pc (s : State) (a : Word) :
    (s.deviceFetch a).pc = s.pc := by
  unfold State.deviceFetch; split <;> simp
@[simp] theorem State.deviceFetch_ieIE (s : State) (a : Word) :
    (s.deviceFetch a).ieIE = s.ieIE := by
  unfold State.deviceFetch; split <;> simp
@[simp] theorem State.deviceFetch_ieEIE (s : State) (a : Word) :
    (s.deviceFetch a).ieEIE = s.ieEIE := by
  unfold State.deviceFetch; split <;> simp
@[simp] theorem State.deviceFetch_ieBIE (s : State) (a : Word) :
    (s.deviceFetch a).ieBIE = s.ieBIE := by
  unfold State.deviceFetch; split <;> simp
@[simp] theorem State.deviceFetch_im (s : State) (a : Word) :
    (s.deviceFetch a).im = s.im := by
  unfold State.deviceFetch; split <;> simp
@[simp] theorem State.deviceFetch_ip (s : State) (a : Word) :
    (s.deviceFetch a).ip = s.ip := by
  unfold State.deviceFetch; split <;> simp
@[simp] theorem State.deviceFetch_cc (s : State) (a : Word) :
    (s.deviceFetch a).cc = s.cc := by
  unfold State.deviceFetch; split <;> simp
@[simp] theorem State.deviceFetch_eba (s : State) (a : Word) :
    (s.deviceFetch a).eba = s.eba := by
  unfold State.deviceFetch; split <;> simp
@[simp] theorem State.deviceFetch_dc (s : State) (a : Word) :
    (s.deviceFetch a).dc = s.dc := by
  unfold State.deviceFetch; split <;> simp
@[simp] theorem State.deviceFetch_deba (s : State) (a : Word) :
    (s.deviceFetch a).deba = s.deba := by
  unfold State.deviceFetch; split <;> simp
@[simp] theorem State.deviceFetch_jtx (s : State) (a : Word) :
    (s.deviceFetch a).jtx = s.jtx := by
  unfold State.deviceFetch; split <;> simp
@[simp] theorem State.deviceFetch_jrx (s : State) (a : Word) :
    (s.deviceFetch a).jrx = s.jrx := by
  unfold State.deviceFetch; split <;> simp
@[simp] theorem State.deviceFetch_bp (s : State) (a : Word) :
    (s.deviceFetch a).bp = s.bp := by
  unfold State.deviceFetch; split <;> simp
@[simp] theorem State.deviceFetch_wp (s : State) (a : Word) :
    (s.deviceFetch a).wp = s.wp := by
  unfold State.deviceFetch; split <;> simp
@[simp] theorem State.deviceFetch_mem (s : State) (a : Word) :
    (s.deviceFetch a).mem = s.mem := by
  unfold State.deviceFetch; split <;> simp
@[simp] theorem State.deviceFetch_staleCode (s : State) (a : Word) :
    (s.deviceFetch a).staleCode = s.staleCode := by
  unfold State.deviceFetch; split <;> simp
@[simp] theorem State.deviceFetch_icc (s : State) (a : Word) :
    (s.deviceFetch a).icc = s.icc := by
  unfold State.deviceFetch; split <;> simp
@[simp] theorem State.deviceFetch_staleData (s : State) (a : Word) :
    (s.deviceFetch a).staleData = s.staleData := by
  unfold State.deviceFetch; split <;> simp
@[simp] theorem State.deviceFetch_dataLines (s : State) (a : Word) :
    (s.deviceFetch a).dataLines = s.dataLines := by
  unfold State.deviceFetch; split <;> simp
@[simp] theorem State.deviceFetch_dataWay (s : State) (a : Word) :
    (s.deviceFetch a).dataWay = s.dataWay := by
  unfold State.deviceFetch; split <;> simp
@[simp] theorem State.deviceFetch_lastMem (s : State) (a : Word) :
    (s.deviceFetch a).lastMem = s.lastMem := by
  unfold State.deviceFetch; split <;> simp
@[simp] theorem State.deviceFetch_waiting (s : State) (a : Word) :
    (s.deviceFetch a).waiting = s.waiting := by
  unfold State.deviceFetch; split <;> simp
@[simp] theorem State.deviceFetch_intLines (s : State) (a : Word) :
    (s.deviceFetch a).intLines = s.intLines := by
  unfold State.deviceFetch; split <;> simp
@[simp] theorem State.deviceFetch_resetPin (s : State) (a : Word) :
    (s.deviceFetch a).resetPin = s.resetPin := by
  unfold State.deviceFetch; split <;> simp
@[simp] theorem State.deviceFetch_atDebug (s : State) (a : Word) :
    (s.deviceFetch a).atDebug = s.atDebug := by
  unfold State.deviceFetch; split <;> simp
@[simp] theorem State.deviceFetch_inputs (s : State) (a : Word) :
    (s.deviceFetch a).inputs = s.inputs := by
  unfold State.deviceFetch; split <;> simp

/-! ### invalidateCode -/

@[simp] theorem State.invalidateCode_cfg (s : State) :
    (s.invalidateCode).cfg = s.cfg := rfl
@[simp] theorem State.invalidateCode_regs (s : State) :
    (s.invalidateCode).regs = s.regs := rfl
@[simp] theorem State.invalidateCode_pc (s : State) :
    (s.invalidateCode).pc = s.pc := rfl
@[simp] theorem State.invalidateCode_ieIE (s : State) :
    (s.invalidateCode).ieIE = s.ieIE := rfl
@[simp] theorem State.invalidateCode_ieEIE (s : State) :
    (s.invalidateCode).ieEIE = s.ieEIE := rfl
@[simp] theorem State.invalidateCode_ieBIE (s : State) :
    (s.invalidateCode).ieBIE = s.ieBIE := rfl
@[simp] theorem State.invalidateCode_im (s : State) :
    (s.invalidateCode).im = s.im := rfl
@[simp] theorem State.invalidateCode_ip (s : State) :
    (s.invalidateCode).ip = s.ip := rfl
@[simp] theorem State.invalidateCode_cc (s : State) :
    (s.invalidateCode).cc = s.cc := rfl
@[simp] theorem State.invalidateCode_eba (s : State) :
    (s.invalidateCode).eba = s.eba := rfl
@[simp] theorem State.invalidateCode_dc (s : State) :
    (s.invalidateCode).dc = s.dc := rfl
@[simp] theorem State.invalidateCode_deba (s : State) :
    (s.invalidateCode).deba = s.deba := rfl
@[simp] theorem State.invalidateCode_jtx (s : State) :
    (s.invalidateCode).jtx = s.jtx := rfl
@[simp] theorem State.invalidateCode_jrx (s : State) :
    (s.invalidateCode).jrx = s.jrx := rfl
@[simp] theorem State.invalidateCode_bp (s : State) :
    (s.invalidateCode).bp = s.bp := rfl
@[simp] theorem State.invalidateCode_wp (s : State) :
    (s.invalidateCode).wp = s.wp := rfl
@[simp] theorem State.invalidateCode_mem (s : State) :
    (s.invalidateCode).mem = s.mem := rfl
@[simp] theorem State.invalidateCode_staleCode (s : State) :
    (s.invalidateCode).staleCode = s.staleCode.map (fun e => { e with life := some (e.life.getD 4) }) := rfl
@[simp] theorem State.invalidateCode_codeLines (s : State) :
    (s.invalidateCode).codeLines = if Config.freeChoice s.free % 2 == 0 then [] else s.codeLines := rfl
@[simp] theorem State.invalidateCode_codeWay (s : State) :
    (s.invalidateCode).codeWay = s.codeWay := rfl
@[simp] theorem State.invalidateCode_icc (s : State) :
    (s.invalidateCode).icc = if Config.freeChoice s.free % 2 == 0 then [] else s.icc ++ [4] := rfl
@[simp] theorem State.invalidateCode_staleData (s : State) :
    (s.invalidateCode).staleData = s.staleData := rfl
@[simp] theorem State.invalidateCode_dataLines (s : State) :
    (s.invalidateCode).dataLines = s.dataLines := rfl
@[simp] theorem State.invalidateCode_dataWay (s : State) :
    (s.invalidateCode).dataWay = s.dataWay := rfl
@[simp] theorem State.invalidateCode_lastMem (s : State) :
    (s.invalidateCode).lastMem = s.lastMem := rfl
@[simp] theorem State.invalidateCode_waiting (s : State) :
    (s.invalidateCode).waiting = s.waiting := rfl
@[simp] theorem State.invalidateCode_intLines (s : State) :
    (s.invalidateCode).intLines = s.intLines := rfl
@[simp] theorem State.invalidateCode_resetPin (s : State) :
    (s.invalidateCode).resetPin = s.resetPin := rfl
@[simp] theorem State.invalidateCode_atDebug (s : State) :
    (s.invalidateCode).atDebug = s.atDebug := rfl
@[simp] theorem State.invalidateCode_inputs (s : State) :
    (s.invalidateCode).inputs = s.inputs := rfl
@[simp] theorem State.invalidateCode_events (s : State) :
    (s.invalidateCode).events = s.events := rfl
@[simp] theorem State.invalidateCode_free (s : State) :
    (s.invalidateCode).free = s.free + 1 := rfl

/-! ### invalidateData -/

@[simp] theorem State.invalidateData_cfg (s : State) :
    (s.invalidateData).cfg = s.cfg := rfl
@[simp] theorem State.invalidateData_regs (s : State) :
    (s.invalidateData).regs = s.regs := rfl
@[simp] theorem State.invalidateData_pc (s : State) :
    (s.invalidateData).pc = s.pc := rfl
@[simp] theorem State.invalidateData_ieIE (s : State) :
    (s.invalidateData).ieIE = s.ieIE := rfl
@[simp] theorem State.invalidateData_ieEIE (s : State) :
    (s.invalidateData).ieEIE = s.ieEIE := rfl
@[simp] theorem State.invalidateData_ieBIE (s : State) :
    (s.invalidateData).ieBIE = s.ieBIE := rfl
@[simp] theorem State.invalidateData_im (s : State) :
    (s.invalidateData).im = s.im := rfl
@[simp] theorem State.invalidateData_ip (s : State) :
    (s.invalidateData).ip = s.ip := rfl
@[simp] theorem State.invalidateData_cc (s : State) :
    (s.invalidateData).cc = s.cc := rfl
@[simp] theorem State.invalidateData_eba (s : State) :
    (s.invalidateData).eba = s.eba := rfl
@[simp] theorem State.invalidateData_dc (s : State) :
    (s.invalidateData).dc = s.dc := rfl
@[simp] theorem State.invalidateData_deba (s : State) :
    (s.invalidateData).deba = s.deba := rfl
@[simp] theorem State.invalidateData_jtx (s : State) :
    (s.invalidateData).jtx = s.jtx := rfl
@[simp] theorem State.invalidateData_jrx (s : State) :
    (s.invalidateData).jrx = s.jrx := rfl
@[simp] theorem State.invalidateData_bp (s : State) :
    (s.invalidateData).bp = s.bp := rfl
@[simp] theorem State.invalidateData_wp (s : State) :
    (s.invalidateData).wp = s.wp := rfl
@[simp] theorem State.invalidateData_mem (s : State) :
    (s.invalidateData).mem = s.mem := rfl
@[simp] theorem State.invalidateData_staleCode (s : State) :
    (s.invalidateData).staleCode = s.staleCode := rfl
@[simp] theorem State.invalidateData_codeLines (s : State) :
    (s.invalidateData).codeLines = s.codeLines := rfl
@[simp] theorem State.invalidateData_codeWay (s : State) :
    (s.invalidateData).codeWay = s.codeWay := rfl
@[simp] theorem State.invalidateData_icc (s : State) :
    (s.invalidateData).icc = s.icc := rfl
@[simp] theorem State.invalidateData_staleData (s : State) :
    (s.invalidateData).staleData = if s.lastMem then s.staleData else s.staleData.map (fun e => { e with dropping := true }) := rfl
@[simp] theorem State.invalidateData_dataLines (s : State) :
    (s.invalidateData).dataLines = let marked := s.dataLines.map (fun l => { l with dropping := true })
      if s.lastMem then settleLines s.free marked else marked := rfl
@[simp] theorem State.invalidateData_dataWay (s : State) :
    (s.invalidateData).dataWay = s.dataWay := rfl
@[simp] theorem State.invalidateData_lastMem (s : State) :
    (s.invalidateData).lastMem = s.lastMem := rfl
@[simp] theorem State.invalidateData_waiting (s : State) :
    (s.invalidateData).waiting = s.waiting := rfl
@[simp] theorem State.invalidateData_intLines (s : State) :
    (s.invalidateData).intLines = s.intLines := rfl
@[simp] theorem State.invalidateData_resetPin (s : State) :
    (s.invalidateData).resetPin = s.resetPin := rfl
@[simp] theorem State.invalidateData_atDebug (s : State) :
    (s.invalidateData).atDebug = s.atDebug := rfl
@[simp] theorem State.invalidateData_inputs (s : State) :
    (s.invalidateData).inputs = s.inputs := rfl
@[simp] theorem State.invalidateData_events (s : State) :
    (s.invalidateData).events = s.events := rfl
@[simp] theorem State.invalidateData_free (s : State) :
    (s.invalidateData).free = if s.lastMem then s.free + s.dataLines.length else s.free := rfl

/-! ### prepare -/

@[simp] theorem State.prepare_cfg (s : State) (b : Bool) :
    (s.prepare b).cfg = s.cfg := rfl
@[simp] theorem State.prepare_regs (s : State) (b : Bool) :
    (s.prepare b).regs = s.regs := rfl
@[simp] theorem State.prepare_pc (s : State) (b : Bool) :
    (s.prepare b).pc = s.pc := rfl
@[simp] theorem State.prepare_ieIE (s : State) (b : Bool) :
    (s.prepare b).ieIE = s.ieIE := rfl
@[simp] theorem State.prepare_ieEIE (s : State) (b : Bool) :
    (s.prepare b).ieEIE = s.ieEIE := rfl
@[simp] theorem State.prepare_ieBIE (s : State) (b : Bool) :
    (s.prepare b).ieBIE = s.ieBIE := rfl
@[simp] theorem State.prepare_im (s : State) (b : Bool) :
    (s.prepare b).im = s.im := rfl
@[simp] theorem State.prepare_ip (s : State) (b : Bool) :
    (s.prepare b).ip = s.ip := rfl
@[simp] theorem State.prepare_cc (s : State) (b : Bool) :
    (s.prepare b).cc = s.cc := rfl
@[simp] theorem State.prepare_eba (s : State) (b : Bool) :
    (s.prepare b).eba = s.eba := rfl
@[simp] theorem State.prepare_dc (s : State) (b : Bool) :
    (s.prepare b).dc = s.dc := rfl
@[simp] theorem State.prepare_deba (s : State) (b : Bool) :
    (s.prepare b).deba = s.deba := rfl
@[simp] theorem State.prepare_jtx (s : State) (b : Bool) :
    (s.prepare b).jtx = s.jtx := rfl
@[simp] theorem State.prepare_jrx (s : State) (b : Bool) :
    (s.prepare b).jrx = s.jrx := rfl
@[simp] theorem State.prepare_bp (s : State) (b : Bool) :
    (s.prepare b).bp = s.bp := rfl
@[simp] theorem State.prepare_wp (s : State) (b : Bool) :
    (s.prepare b).wp = s.wp := rfl
@[simp] theorem State.prepare_mem (s : State) (b : Bool) :
    (s.prepare b).mem = s.mem := rfl
@[simp] theorem State.prepare_staleCode (s : State) (b : Bool) :
    (s.prepare b).staleCode = s.staleCode.filterMap StaleWord.age := rfl
@[simp] theorem State.prepare_codeLines (s : State) (b : Bool) :
    (s.prepare b).codeLines = settleCode (if b then s.free + s.dataLines.length else s.free) s.icc s.codeLines := rfl
@[simp] theorem State.prepare_codeWay (s : State) (b : Bool) :
    (s.prepare b).codeWay = s.codeWay := rfl
@[simp] theorem State.prepare_icc (s : State) (b : Bool) :
    (s.prepare b).icc = pendingCode (if b then s.free + s.dataLines.length else s.free) s.icc := rfl
@[simp] theorem State.prepare_staleData (s : State) (b : Bool) :
    (s.prepare b).staleData = if b then s.staleData.map (fun e => { e with dropping := false })
      else s.staleData.filter (fun e => !e.dropping) := rfl
@[simp] theorem State.prepare_dataLines (s : State) (b : Bool) :
    (s.prepare b).dataLines = if b then settleLines s.free s.dataLines else s.dataLines.filter (fun l => !l.dropping) := rfl
@[simp] theorem State.prepare_dataWay (s : State) (b : Bool) :
    (s.prepare b).dataWay = s.dataWay := rfl
@[simp] theorem State.prepare_lastMem (s : State) (b : Bool) :
    (s.prepare b).lastMem = s.lastMem := rfl
@[simp] theorem State.prepare_waiting (s : State) (b : Bool) :
    (s.prepare b).waiting = s.waiting := rfl
@[simp] theorem State.prepare_intLines (s : State) (b : Bool) :
    (s.prepare b).intLines = s.intLines := rfl
@[simp] theorem State.prepare_resetPin (s : State) (b : Bool) :
    (s.prepare b).resetPin = s.resetPin := rfl
@[simp] theorem State.prepare_atDebug (s : State) (b : Bool) :
    (s.prepare b).atDebug = s.atDebug := rfl
@[simp] theorem State.prepare_inputs (s : State) (b : Bool) :
    (s.prepare b).inputs = s.inputs := rfl
@[simp] theorem State.prepare_events (s : State) (b : Bool) :
    (s.prepare b).events = s.events := rfl
@[simp] theorem State.prepare_free (s : State) (b : Bool) :
    (s.prepare b).free = if s.icc.isEmpty then (if b then s.free + s.dataLines.length else s.free)
      else (if b then s.free + s.dataLines.length else s.free) + 1 := rfl

/-! ### executed -/

@[simp] theorem State.executed_cfg (s : State) (i : Instr) :
    (s.executed i).cfg = s.cfg := rfl
@[simp] theorem State.executed_regs (s : State) (i : Instr) :
    (s.executed i).regs = s.regs := rfl
@[simp] theorem State.executed_pc (s : State) (i : Instr) :
    (s.executed i).pc = s.pc := rfl
@[simp] theorem State.executed_ieIE (s : State) (i : Instr) :
    (s.executed i).ieIE = s.ieIE := rfl
@[simp] theorem State.executed_ieEIE (s : State) (i : Instr) :
    (s.executed i).ieEIE = s.ieEIE := rfl
@[simp] theorem State.executed_ieBIE (s : State) (i : Instr) :
    (s.executed i).ieBIE = s.ieBIE := rfl
@[simp] theorem State.executed_im (s : State) (i : Instr) :
    (s.executed i).im = s.im := rfl
@[simp] theorem State.executed_ip (s : State) (i : Instr) :
    (s.executed i).ip = s.ip := rfl
@[simp] theorem State.executed_cc (s : State) (i : Instr) :
    (s.executed i).cc = s.cc := rfl
@[simp] theorem State.executed_eba (s : State) (i : Instr) :
    (s.executed i).eba = s.eba := rfl
@[simp] theorem State.executed_dc (s : State) (i : Instr) :
    (s.executed i).dc = s.dc := rfl
@[simp] theorem State.executed_deba (s : State) (i : Instr) :
    (s.executed i).deba = s.deba := rfl
@[simp] theorem State.executed_jtx (s : State) (i : Instr) :
    (s.executed i).jtx = s.jtx := rfl
@[simp] theorem State.executed_jrx (s : State) (i : Instr) :
    (s.executed i).jrx = s.jrx := rfl
@[simp] theorem State.executed_bp (s : State) (i : Instr) :
    (s.executed i).bp = s.bp := rfl
@[simp] theorem State.executed_wp (s : State) (i : Instr) :
    (s.executed i).wp = s.wp := rfl
@[simp] theorem State.executed_mem (s : State) (i : Instr) :
    (s.executed i).mem = s.mem := rfl
@[simp] theorem State.executed_staleCode (s : State) (i : Instr) :
    (s.executed i).staleCode = s.staleCode := rfl
@[simp] theorem State.executed_codeLines (s : State) (i : Instr) :
    (s.executed i).codeLines = s.codeLines := rfl
@[simp] theorem State.executed_codeWay (s : State) (i : Instr) :
    (s.executed i).codeWay = s.codeWay := rfl
@[simp] theorem State.executed_icc (s : State) (i : Instr) :
    (s.executed i).icc = s.icc := rfl
@[simp] theorem State.executed_staleData (s : State) (i : Instr) :
    (s.executed i).staleData = s.staleData := rfl
@[simp] theorem State.executed_dataLines (s : State) (i : Instr) :
    (s.executed i).dataLines = s.dataLines := rfl
@[simp] theorem State.executed_dataWay (s : State) (i : Instr) :
    (s.executed i).dataWay = s.dataWay := rfl
@[simp] theorem State.executed_lastMem (s : State) (i : Instr) :
    (s.executed i).lastMem = isDataAccess i := rfl
@[simp] theorem State.executed_waiting (s : State) (i : Instr) :
    (s.executed i).waiting = s.waiting := rfl
@[simp] theorem State.executed_intLines (s : State) (i : Instr) :
    (s.executed i).intLines = s.intLines := rfl
@[simp] theorem State.executed_resetPin (s : State) (i : Instr) :
    (s.executed i).resetPin = s.resetPin := rfl
@[simp] theorem State.executed_atDebug (s : State) (i : Instr) :
    (s.executed i).atDebug = s.atDebug := rfl
@[simp] theorem State.executed_inputs (s : State) (i : Instr) :
    (s.executed i).inputs = s.inputs := rfl
@[simp] theorem State.executed_events (s : State) (i : Instr) :
    (s.executed i).events = s.events := rfl
@[simp] theorem State.executed_free (s : State) (i : Instr) :
    (s.executed i).free = s.free := rfl

/-! ### fetchDraw -/

@[simp] theorem State.fetchDraw_cfg (s : State) (a : Word) :
    (s.fetchDraw a).cfg = s.cfg := rfl
@[simp] theorem State.fetchDraw_regs (s : State) (a : Word) :
    (s.fetchDraw a).regs = s.regs := rfl
@[simp] theorem State.fetchDraw_pc (s : State) (a : Word) :
    (s.fetchDraw a).pc = s.pc := rfl
@[simp] theorem State.fetchDraw_ieIE (s : State) (a : Word) :
    (s.fetchDraw a).ieIE = s.ieIE := rfl
@[simp] theorem State.fetchDraw_ieEIE (s : State) (a : Word) :
    (s.fetchDraw a).ieEIE = s.ieEIE := rfl
@[simp] theorem State.fetchDraw_ieBIE (s : State) (a : Word) :
    (s.fetchDraw a).ieBIE = s.ieBIE := rfl
@[simp] theorem State.fetchDraw_im (s : State) (a : Word) :
    (s.fetchDraw a).im = s.im := rfl
@[simp] theorem State.fetchDraw_ip (s : State) (a : Word) :
    (s.fetchDraw a).ip = s.ip := rfl
@[simp] theorem State.fetchDraw_cc (s : State) (a : Word) :
    (s.fetchDraw a).cc = s.cc := rfl
@[simp] theorem State.fetchDraw_eba (s : State) (a : Word) :
    (s.fetchDraw a).eba = s.eba := rfl
@[simp] theorem State.fetchDraw_dc (s : State) (a : Word) :
    (s.fetchDraw a).dc = s.dc := rfl
@[simp] theorem State.fetchDraw_deba (s : State) (a : Word) :
    (s.fetchDraw a).deba = s.deba := rfl
@[simp] theorem State.fetchDraw_jtx (s : State) (a : Word) :
    (s.fetchDraw a).jtx = s.jtx := rfl
@[simp] theorem State.fetchDraw_jrx (s : State) (a : Word) :
    (s.fetchDraw a).jrx = s.jrx := rfl
@[simp] theorem State.fetchDraw_bp (s : State) (a : Word) :
    (s.fetchDraw a).bp = s.bp := rfl
@[simp] theorem State.fetchDraw_wp (s : State) (a : Word) :
    (s.fetchDraw a).wp = s.wp := rfl
@[simp] theorem State.fetchDraw_mem (s : State) (a : Word) :
    (s.fetchDraw a).mem = s.mem := rfl
@[simp] theorem State.fetchDraw_staleCode (s : State) (a : Word) :
    (s.fetchDraw a).staleCode = s.staleCode := rfl
@[simp] theorem State.fetchDraw_codeLines (s : State) (a : Word) :
    (s.fetchDraw a).codeLines = s.codeLines := rfl
@[simp] theorem State.fetchDraw_codeWay (s : State) (a : Word) :
    (s.fetchDraw a).codeWay = s.codeWay := rfl
@[simp] theorem State.fetchDraw_icc (s : State) (a : Word) :
    (s.fetchDraw a).icc = s.icc := rfl
@[simp] theorem State.fetchDraw_staleData (s : State) (a : Word) :
    (s.fetchDraw a).staleData = s.staleData := rfl
@[simp] theorem State.fetchDraw_dataLines (s : State) (a : Word) :
    (s.fetchDraw a).dataLines = s.dataLines := rfl
@[simp] theorem State.fetchDraw_dataWay (s : State) (a : Word) :
    (s.fetchDraw a).dataWay = s.dataWay := rfl
@[simp] theorem State.fetchDraw_lastMem (s : State) (a : Word) :
    (s.fetchDraw a).lastMem = s.lastMem := rfl
@[simp] theorem State.fetchDraw_waiting (s : State) (a : Word) :
    (s.fetchDraw a).waiting = s.waiting := rfl
@[simp] theorem State.fetchDraw_intLines (s : State) (a : Word) :
    (s.fetchDraw a).intLines = s.intLines := rfl
@[simp] theorem State.fetchDraw_resetPin (s : State) (a : Word) :
    (s.fetchDraw a).resetPin = s.resetPin := rfl
@[simp] theorem State.fetchDraw_atDebug (s : State) (a : Word) :
    (s.fetchDraw a).atDebug = s.atDebug := rfl
@[simp] theorem State.fetchDraw_inputs (s : State) (a : Word) :
    (s.fetchDraw a).inputs = s.inputs := rfl
@[simp] theorem State.fetchDraw_events (s : State) (a : Word) :
    (s.fetchDraw a).events = s.events := rfl
@[simp] theorem State.fetchDraw_free (s : State) (a : Word) :
    (s.fetchDraw a).free = if (s.staleWords a).isEmpty then s.free else s.free + 1 := rfl

/-! ### placeAtPc -/

@[simp] theorem State.placeAtPc_cfg (s : State) (w : Word) :
    (s.placeAtPc w).cfg = s.cfg := rfl
@[simp] theorem State.placeAtPc_regs (s : State) (w : Word) :
    (s.placeAtPc w).regs = s.regs := rfl
@[simp] theorem State.placeAtPc_pc (s : State) (w : Word) :
    (s.placeAtPc w).pc = s.pc := rfl
@[simp] theorem State.placeAtPc_ieIE (s : State) (w : Word) :
    (s.placeAtPc w).ieIE = s.ieIE := rfl
@[simp] theorem State.placeAtPc_ieEIE (s : State) (w : Word) :
    (s.placeAtPc w).ieEIE = s.ieEIE := rfl
@[simp] theorem State.placeAtPc_ieBIE (s : State) (w : Word) :
    (s.placeAtPc w).ieBIE = s.ieBIE := rfl
@[simp] theorem State.placeAtPc_im (s : State) (w : Word) :
    (s.placeAtPc w).im = s.im := rfl
@[simp] theorem State.placeAtPc_ip (s : State) (w : Word) :
    (s.placeAtPc w).ip = s.ip := rfl
@[simp] theorem State.placeAtPc_cc (s : State) (w : Word) :
    (s.placeAtPc w).cc = s.cc := rfl
@[simp] theorem State.placeAtPc_eba (s : State) (w : Word) :
    (s.placeAtPc w).eba = s.eba := rfl
@[simp] theorem State.placeAtPc_dc (s : State) (w : Word) :
    (s.placeAtPc w).dc = s.dc := rfl
@[simp] theorem State.placeAtPc_deba (s : State) (w : Word) :
    (s.placeAtPc w).deba = s.deba := rfl
@[simp] theorem State.placeAtPc_jtx (s : State) (w : Word) :
    (s.placeAtPc w).jtx = s.jtx := rfl
@[simp] theorem State.placeAtPc_jrx (s : State) (w : Word) :
    (s.placeAtPc w).jrx = s.jrx := rfl
@[simp] theorem State.placeAtPc_bp (s : State) (w : Word) :
    (s.placeAtPc w).bp = s.bp := rfl
@[simp] theorem State.placeAtPc_wp (s : State) (w : Word) :
    (s.placeAtPc w).wp = s.wp := rfl
@[simp] theorem State.placeAtPc_mem (s : State) (w : Word) :
    (s.placeAtPc w).mem = s.mem.writeBytes s.pc (storeBytes .word w) := rfl
@[simp] theorem State.placeAtPc_staleCode (s : State) (w : Word) :
    (s.placeAtPc w).staleCode = s.staleCode.filter (fun e => e.addr != s.pc) := rfl
@[simp] theorem State.placeAtPc_codeLines (s : State) (w : Word) :
    (s.placeAtPc w).codeLines = s.codeLines.filter (fun l => l.addr != lineAddress s.cfg.icache s.pc) := rfl
@[simp] theorem State.placeAtPc_codeWay (s : State) (w : Word) :
    (s.placeAtPc w).codeWay = s.codeWay := rfl
@[simp] theorem State.placeAtPc_icc (s : State) (w : Word) :
    (s.placeAtPc w).icc = s.icc := rfl
@[simp] theorem State.placeAtPc_staleData (s : State) (w : Word) :
    (s.placeAtPc w).staleData = s.staleData := rfl
@[simp] theorem State.placeAtPc_dataLines (s : State) (w : Word) :
    (s.placeAtPc w).dataLines = s.dataLines := rfl
@[simp] theorem State.placeAtPc_dataWay (s : State) (w : Word) :
    (s.placeAtPc w).dataWay = s.dataWay := rfl
@[simp] theorem State.placeAtPc_lastMem (s : State) (w : Word) :
    (s.placeAtPc w).lastMem = s.lastMem := rfl
@[simp] theorem State.placeAtPc_waiting (s : State) (w : Word) :
    (s.placeAtPc w).waiting = s.waiting := rfl
@[simp] theorem State.placeAtPc_intLines (s : State) (w : Word) :
    (s.placeAtPc w).intLines = s.intLines := rfl
@[simp] theorem State.placeAtPc_resetPin (s : State) (w : Word) :
    (s.placeAtPc w).resetPin = s.resetPin := rfl
@[simp] theorem State.placeAtPc_atDebug (s : State) (w : Word) :
    (s.placeAtPc w).atDebug = s.atDebug := rfl
@[simp] theorem State.placeAtPc_inputs (s : State) (w : Word) :
    (s.placeAtPc w).inputs = s.inputs := rfl
@[simp] theorem State.placeAtPc_events (s : State) (w : Word) :
    (s.placeAtPc w).events = s.events := rfl
@[simp] theorem State.placeAtPc_free (s : State) (w : Word) :
    (s.placeAtPc w).free = s.free := rfl

/-! ### takeReset -/

@[simp] theorem State.takeReset_cfg (s : State) :
    (s.takeReset).cfg = s.cfg := by
  unfold State.takeReset; rfl
@[simp] theorem State.takeReset_regs (s : State) :
    (s.takeReset).regs = Vector.ofFn (fun i : Fin 32 => Config.freeReg s.free i.val) := by
  unfold State.takeReset; rfl
@[simp] theorem State.takeReset_pc (s : State) :
    (s.takeReset).pc = s.resetPc := by
  unfold State.takeReset; rfl
@[simp] theorem State.takeReset_ieIE (s : State) :
    (s.takeReset).ieIE = false := by
  unfold State.takeReset; rfl
@[simp] theorem State.takeReset_ieEIE (s : State) :
    (s.takeReset).ieEIE = false := by
  unfold State.takeReset; rfl
@[simp] theorem State.takeReset_ieBIE (s : State) :
    (s.takeReset).ieBIE = false := by
  unfold State.takeReset; rfl
@[simp] theorem State.takeReset_im (s : State) :
    (s.takeReset).im = 0#32 := by
  unfold State.takeReset; rfl
@[simp] theorem State.takeReset_ip (s : State) :
    (s.takeReset).ip = s.intLines &&& lineMask s.cfg := by
  unfold State.takeReset; rfl
@[simp] theorem State.takeReset_cc (s : State) :
    (s.takeReset).cc = s.cc := by
  unfold State.takeReset; rfl
@[simp] theorem State.takeReset_eba (s : State) :
    (s.takeReset).eba = s.cfg.ebaReset.extractLsb' 8 24 := by
  unfold State.takeReset; rfl
@[simp] theorem State.takeReset_dc (s : State) :
    (s.takeReset).dc = { ss := false, re := false, c := Vector.replicate 4 0#2 } := by
  unfold State.takeReset; rfl
@[simp] theorem State.takeReset_deba (s : State) :
    (s.takeReset).deba = s.cfg.debaReset.extractLsb' 8 24 := by
  unfold State.takeReset; rfl
@[simp] theorem State.takeReset_jtx (s : State) :
    (s.takeReset).jtx = s.jtx := by
  unfold State.takeReset; rfl
@[simp] theorem State.takeReset_jrx (s : State) :
    (s.takeReset).jrx = s.jrx := by
  unfold State.takeReset; rfl
@[simp] theorem State.takeReset_bp (s : State) :
    (s.takeReset).bp = Vector.replicate 4 { a := 0#30, e := false } := by
  unfold State.takeReset; rfl
@[simp] theorem State.takeReset_wp (s : State) :
    (s.takeReset).wp = Vector.replicate 4 0#32 := by
  unfold State.takeReset; rfl
@[simp] theorem State.takeReset_mem (s : State) :
    (s.takeReset).mem = s.mem := by
  unfold State.takeReset; rfl
@[simp] theorem State.takeReset_staleCode (s : State) :
    (s.takeReset).staleCode = [] := by
  unfold State.takeReset; rfl
@[simp] theorem State.takeReset_codeLines (s : State) :
    (s.takeReset).codeLines = [] := by
  unfold State.takeReset; rfl
@[simp] theorem State.takeReset_codeWay (s : State) :
    (s.takeReset).codeWay = Config.freeChoice (s.free + 1) % s.cfg.icache.ways := by
  unfold State.takeReset; rfl
@[simp] theorem State.takeReset_icc (s : State) :
    (s.takeReset).icc = [] := by
  unfold State.takeReset; rfl
@[simp] theorem State.takeReset_staleData (s : State) :
    (s.takeReset).staleData = [] := by
  unfold State.takeReset; rfl
@[simp] theorem State.takeReset_dataLines (s : State) :
    (s.takeReset).dataLines = [] := by
  unfold State.takeReset; rfl
@[simp] theorem State.takeReset_dataWay (s : State) :
    (s.takeReset).dataWay = Config.freeChoice s.free % s.cfg.dcache.ways := by
  unfold State.takeReset; rfl
@[simp] theorem State.takeReset_lastMem (s : State) :
    (s.takeReset).lastMem = false := by
  unfold State.takeReset; rfl
@[simp] theorem State.takeReset_waiting (s : State) :
    (s.takeReset).waiting = false := by
  unfold State.takeReset; rfl
@[simp] theorem State.takeReset_intLines (s : State) :
    (s.takeReset).intLines = s.intLines := by
  unfold State.takeReset; rfl
@[simp] theorem State.takeReset_resetPin (s : State) :
    (s.takeReset).resetPin = s.resetPin := by
  unfold State.takeReset; rfl
@[simp] theorem State.takeReset_atDebug (s : State) :
    (s.takeReset).atDebug = s.atDebug := by
  unfold State.takeReset; rfl
@[simp] theorem State.takeReset_inputs (s : State) :
    (s.takeReset).inputs = s.inputs := by
  unfold State.takeReset; rfl
@[simp] theorem State.takeReset_events (s : State) :
    (s.takeReset).events = s.events := by
  unfold State.takeReset; rfl
@[simp] theorem State.takeReset_free (s : State) :
    (s.takeReset).free = s.free + 2 := by
  unfold State.takeReset; rfl

/-! ### enter -/

@[simp] theorem State.enter_cfg (s : State) (e : Exc) :
    (s.enter e).cfg = s.cfg := by
  unfold State.enter; split <;> rfl
@[simp] theorem State.enter_regs (s : State) (e : Exc) :
    (s.enter e).regs = s.regs.set (if isDebugExc e then ba else ea).toNat s.pc (if isDebugExc e then ba else ea).isLt := by
  cases e <;> rfl
@[simp] theorem State.enter_pc (s : State) (e : Exc) :
    (s.enter e).pc = s.vector e := by
  unfold State.enter; split <;> rfl
@[simp] theorem State.enter_ieIE (s : State) (e : Exc) :
    (s.enter e).ieIE = false := by
  unfold State.enter; split <;> rfl
@[simp] theorem State.enter_ieEIE (s : State) (e : Exc) :
    (s.enter e).ieEIE = if isDebugExc e then s.ieEIE else s.ieIE := by
  cases e <;> rfl
@[simp] theorem State.enter_ieBIE (s : State) (e : Exc) :
    (s.enter e).ieBIE = if isDebugExc e then s.ieIE else s.ieBIE := by
  cases e <;> rfl
@[simp] theorem State.enter_im (s : State) (e : Exc) :
    (s.enter e).im = s.im := by
  unfold State.enter; split <;> rfl
@[simp] theorem State.enter_ip (s : State) (e : Exc) :
    (s.enter e).ip = s.ip := by
  unfold State.enter; split <;> rfl
@[simp] theorem State.enter_cc (s : State) (e : Exc) :
    (s.enter e).cc = s.cc := by
  unfold State.enter; split <;> rfl
@[simp] theorem State.enter_eba (s : State) (e : Exc) :
    (s.enter e).eba = s.eba := by
  unfold State.enter; split <;> rfl
@[simp] theorem State.enter_dc (s : State) (e : Exc) :
    (s.enter e).dc = s.dc := by
  unfold State.enter; split <;> rfl
@[simp] theorem State.enter_deba (s : State) (e : Exc) :
    (s.enter e).deba = s.deba := by
  unfold State.enter; split <;> rfl
@[simp] theorem State.enter_jtx (s : State) (e : Exc) :
    (s.enter e).jtx = s.jtx := by
  unfold State.enter; split <;> rfl
@[simp] theorem State.enter_jrx (s : State) (e : Exc) :
    (s.enter e).jrx = s.jrx := by
  unfold State.enter; split <;> rfl
@[simp] theorem State.enter_bp (s : State) (e : Exc) :
    (s.enter e).bp = s.bp := by
  unfold State.enter; split <;> rfl
@[simp] theorem State.enter_wp (s : State) (e : Exc) :
    (s.enter e).wp = s.wp := by
  unfold State.enter; split <;> rfl
@[simp] theorem State.enter_mem (s : State) (e : Exc) :
    (s.enter e).mem = s.mem := by
  unfold State.enter; split <;> rfl
@[simp] theorem State.enter_staleCode (s : State) (e : Exc) :
    (s.enter e).staleCode = if s.cfg.hasICache then s.staleCode else [] := by
  unfold State.enter; split <;> rfl
@[simp] theorem State.enter_codeLines (s : State) (e : Exc) :
    (s.enter e).codeLines = s.codeLines := by
  unfold State.enter; split <;> rfl
@[simp] theorem State.enter_codeWay (s : State) (e : Exc) :
    (s.enter e).codeWay = s.codeWay := by
  unfold State.enter; split <;> rfl
@[simp] theorem State.enter_icc (s : State) (e : Exc) :
    (s.enter e).icc = s.icc := by
  unfold State.enter; split <;> rfl
@[simp] theorem State.enter_staleData (s : State) (e : Exc) :
    (s.enter e).staleData = s.staleData := by
  unfold State.enter; split <;> rfl
@[simp] theorem State.enter_dataLines (s : State) (e : Exc) :
    (s.enter e).dataLines = s.dataLines := by
  unfold State.enter; split <;> rfl
@[simp] theorem State.enter_dataWay (s : State) (e : Exc) :
    (s.enter e).dataWay = s.dataWay := by
  unfold State.enter; split <;> rfl
@[simp] theorem State.enter_lastMem (s : State) (e : Exc) :
    (s.enter e).lastMem = s.lastMem := by
  unfold State.enter; split <;> rfl
@[simp] theorem State.enter_waiting (s : State) (e : Exc) :
    (s.enter e).waiting = s.waiting := by
  unfold State.enter; split <;> rfl
@[simp] theorem State.enter_intLines (s : State) (e : Exc) :
    (s.enter e).intLines = s.intLines := by
  unfold State.enter; split <;> rfl
@[simp] theorem State.enter_resetPin (s : State) (e : Exc) :
    (s.enter e).resetPin = s.resetPin := by
  unfold State.enter; split <;> rfl
@[simp] theorem State.enter_atDebug (s : State) (e : Exc) :
    (s.enter e).atDebug = s.atDebug := by
  unfold State.enter; split <;> rfl
@[simp] theorem State.enter_inputs (s : State) (e : Exc) :
    (s.enter e).inputs = s.inputs := by
  unfold State.enter; split <;> rfl
@[simp] theorem State.enter_events (s : State) (e : Exc) :
    (s.enter e).events = s.events := by
  unfold State.enter; split <;> rfl
@[simp] theorem State.enter_free (s : State) (e : Exc) :
    (s.enter e).free = s.free := by
  unfold State.enter; split <;> rfl

end Sys2Proof.Machine
end

