-- ==== Sys2Proof/Laws/Cache.lean ====
section
/-! SUPPORT. What the operations of the caches can do, once: lines and sets, a hit, a fill, a store, an invalidation, and what they keep. -/

namespace Sys2Proof.Machine

open Sys2Proof.Safety

/-! ### Lines and sets -/

/-- A line's address, as a number (20_memory.md R121). -/
theorem toNat_lineAddress (c : CacheCfg) (a : Word) : (lineAddress c a).toNat = a.toNat - a.toNat % c.bytesPerLine := by
  have := a.isLt
  simp only [lineAddress, BitVec.toNat_ofNat]
  omega

/-- A line's address is its own line's. -/
theorem lineAddress_lineAddress (c : CacheCfg) (a : Word) : lineAddress c (lineAddress c a) = lineAddress c a := by
  apply BitVec.eq_of_toNat_eq
  have h : (a.toNat - a.toNat % c.bytesPerLine) % c.bytesPerLine = 0 := Nat.sub_mod_eq_zero_of_mod_eq (by simp)
  rw [toNat_lineAddress, toNat_lineAddress, h, Nat.sub_zero]

/-- Where an address lies in its line. -/
theorem toNat_sub_lineAddress (c : CacheCfg) (a : Word) : (a - lineAddress c a).toNat = a.toNat % c.bytesPerLine := by
  have h1 := Nat.mod_le a.toNat c.bytesPerLine
  have h2 := a.isLt
  rw [BitVec.toNat_sub, toNat_lineAddress]
  omega

/-- A line's address is in the line's set. -/
theorem lineSet_lineAddress (c : CacheCfg) (a : Word) : lineSet c (lineAddress c a) = lineSet c a := by
  unfold lineSet
  rw [toNat_lineAddress, show a.toNat - a.toNat % c.bytesPerLine = c.bytesPerLine * (a.toNat / c.bytesPerLine) by
    have := Nat.div_add_mod a.toNat c.bytesPerLine; omega]
  rcases Nat.eq_zero_or_pos c.bytesPerLine with h | h
  · rw [h]; simp
  · rw [Nat.mul_div_cancel_left _ h]

/-- The lengths of a line and the ways of a legal cache (20_memory.md R122). -/
theorem geometry_of_cacheLegal {b : Bool} {c : CacheCfg} (hl : cacheLegal b c = true) (he : c.enabled = true) :
    (c.bytesPerLine = 4 ∨ c.bytesPerLine = 8 ∨ c.bytesPerLine = 16) ∧ (c.ways = 1 ∨ c.ways = 2) := by
  simp only [cacheLegal, he, Bool.not_true, Bool.false_or, Bool.and_eq_true, List.contains_cons, List.contains_nil, Bool.or_false,
    Bool.or_eq_true, beq_iff_eq] at hl
  tauto

/-- Both caches of a legal instance are legal. -/
theorem cacheLegal_of_cfgLegal {c : Cfg} (hl : cfgLegal c = true) :
    cacheLegal c.limitInclusive c.icache = true ∧ cacheLegal c.limitInclusive c.dcache = true := by
  simp only [cfgLegal, Bool.and_eq_true] at hl
  tauto

/-- An address that goes through a cache needs the cache. -/
theorem enabled_of_dataCached {c : Cfg} {a : Word} (h : dataCached c a = true) : c.hasDCache = true := by
  simp only [dataCached, cacheCovers, Bool.and_eq_true] at h
  exact h.1.1.1.1
theorem enabled_of_codeCached {c : Cfg} {a : Word} (h : codeCached c a = true) : c.hasICache = true := by
  simp only [codeCached, cacheCovers, Bool.and_eq_true] at h
  exact h.1.1.1.1

/-- The lengths of a line and the ways of a legal instance whose data cache covers an address (20_memory.md R122). -/
theorem geometry_of_dataCached {c : Cfg} {a : Word} (hl : cfgLegal c = true) (hc : dataCached c a = true) :
    (c.dcache.bytesPerLine = 4 ∨ c.dcache.bytesPerLine = 8 ∨ c.dcache.bytesPerLine = 16) ∧
      (c.dcache.ways = 1 ∨ c.dcache.ways = 2) ∧ c.hasDCache = true :=
  have g := geometry_of_cacheLegal (cacheLegal_of_cfgLegal hl).2 (enabled_of_dataCached hc)
  ⟨g.1, g.2, enabled_of_dataCached hc⟩

/-- The same of the instruction cache. -/
theorem geometry_of_codeCached {c : Cfg} {a : Word} (hl : cfgLegal c = true) (hc : codeCached c a = true) :
    (c.icache.bytesPerLine = 4 ∨ c.icache.bytesPerLine = 8 ∨ c.icache.bytesPerLine = 16) ∧
      (c.icache.ways = 1 ∨ c.icache.ways = 2) ∧ c.hasICache = true :=
  have g := geometry_of_cacheLegal (cacheLegal_of_cfgLegal hl).1 (enabled_of_codeCached hc)
  ⟨g.1, g.2, enabled_of_codeCached hc⟩

/-- The way number after a miss is one of the ways of a legal cache. -/
theorem nextWay_lt {b : Bool} {c : CacheCfg} (hl : cacheLegal b c = true) (he : c.enabled = true) (w : Nat) :
    nextWay c w < c.ways := Nat.mod_lt _ (by have := (geometry_of_cacheLegal hl he).2; omega)

/-! ### One line -/

@[simp] theorem CacheLine.setByte_addr (l : CacheLine) (a : Word) (b : Byte) : (l.setByte a b).addr = l.addr := rfl
@[simp] theorem CacheLine.setByte_way (l : CacheLine) (a : Word) (b : Byte) : (l.setByte a b).way = l.way := rfl
@[simp] theorem CacheLine.setByte_dropping (l : CacheLine) (a : Word) (b : Byte) : (l.setByte a b).dropping = l.dropping := rfl
@[simp] theorem CacheLine.setByte_length (l : CacheLine) (a : Word) (b : Byte) : (l.setByte a b).bytes.length = l.bytes.length :=
  List.length_set

/-- A byte of a line is written where the line has it. -/
theorem CacheLine.byte_setByte_self {l : CacheLine} {a : Word} {x : Byte} (b : Byte) (h : l.byte a = some x) :
    (l.setByte a b).byte a = some b := by
  unfold CacheLine.byte at h ⊢
  exact List.getElem?_set_self (List.getElem?_eq_some_iff.mp h).1

/-- The other bytes of the line stay. -/
theorem CacheLine.byte_setByte_ne {l : CacheLine} {a a' : Word} (b : Byte) (h : a' ≠ a) : (l.setByte a b).byte a' = l.byte a' := by
  unfold CacheLine.byte CacheLine.setByte
  simp only
  refine List.getElem?_set_ne fun e => h ?_
  have := BitVec.eq_of_toNat_eq e
  have h2 := congrArg (· + l.addr) this
  simpa using h2.symm

/-- A store changes nothing of a line but its bytes, and not their number. -/
theorem CacheLine.write_same (c : Cfg) (l : CacheLine) (a : Word) (bs : List Byte) :
    l.write c a bs = { l with bytes := (l.write c a bs).bytes } ∧ (l.write c a bs).bytes.length = l.bytes.length := by
  induction bs generalizing l a with
  | nil => exact ⟨rfl, rfl⟩
  | cons b bs ih =>
    unfold CacheLine.write
    split
    · obtain ⟨h1, h2⟩ := ih (l.setByte a b) (a + 1#32)
      refine ⟨?_, by rw [h2, CacheLine.setByte_length]⟩
      rw [h1]; rfl
    · exact ih l (a + 1#32)

@[simp] theorem CacheLine.write_addr (c : Cfg) (l : CacheLine) (a : Word) (bs : List Byte) : (l.write c a bs).addr = l.addr := by
  rw [(l.write_same c a bs).1]
@[simp] theorem CacheLine.write_way (c : Cfg) (l : CacheLine) (a : Word) (bs : List Byte) : (l.write c a bs).way = l.way := by
  rw [(l.write_same c a bs).1]
@[simp] theorem CacheLine.write_length (c : Cfg) (l : CacheLine) (a : Word) (bs : List Byte) :
    (l.write c a bs).bytes.length = l.bytes.length := (l.write_same c a bs).2

/-- A byte that is not stored, not cached, or of another line stays. -/
theorem CacheLine.byte_write_ne {c : Cfg} {l : CacheLine} {a x : Word} {bs : List Byte}
    (h : ¬ ((∃ k, k < bs.length ∧ x = a + BitVec.ofNat 32 k) ∧ dataCached c x = true ∧ l.addr = lineAddress c.dcache x)) :
    (l.write c a bs).byte x = l.byte x := by
  induction bs generalizing l a with
  | nil => rfl
  | cons b bs ih =>
    have step : ∀ k, a + 1#32 + BitVec.ofNat 32 k = a + BitVec.ofNat 32 (k + 1) := fun k => by
      rw [BitVec.ofNat_add, BitVec.add_assoc, BitVec.add_comm (1#32)]
    unfold CacheLine.write
    split
    · next hc =>
      simp only [Bool.and_eq_true, beq_iff_eq] at hc
      have hx : x ≠ a := by
        rintro rfl
        exact h ⟨⟨0, by simp, by simp⟩, hc⟩
      rw [ih, CacheLine.byte_setByte_ne b hx]
      rintro ⟨⟨k, hk, rfl⟩, h2, h3⟩
      exact h ⟨⟨k + 1, by simpa using hk, step k⟩, h2, h3⟩
    · refine ih ?_
      rintro ⟨⟨k, hk, rfl⟩, h2, h3⟩
      exact h ⟨⟨k + 1, by simpa using hk, step k⟩, h2, h3⟩

/-- A stored byte that the line holds is written. -/
theorem CacheLine.byte_write_self {c : Cfg} {l : CacheLine} {a : Word} {bs : List Byte} {k : Nat} {x : Byte} (hk : k < bs.length)
    (hlen : bs.length ≤ 2 ^ 32) (hc : dataCached c (a + BitVec.ofNat 32 k) = true)
    (ha : l.addr = lineAddress c.dcache (a + BitVec.ofNat 32 k)) (hx : l.byte (a + BitVec.ofNat 32 k) = some x) :
    (l.write c a bs).byte (a + BitVec.ofNat 32 k) = some bs[k] := by
  induction bs generalizing l a k x with
  | nil => simp at hk
  | cons b bs ih =>
    unfold CacheLine.write
    cases k with
    | zero =>
      simp only [BitVec.add_zero] at hc ha hx ⊢
      rw [if_pos (by simp [hc, ← ha])]
      rw [CacheLine.byte_write_ne, CacheLine.byte_setByte_self b hx]
      · rfl
      · rintro ⟨⟨j, hj, e⟩, -⟩
        simp only [List.length_cons] at hlen
        have := congrArg (fun w => w - a) e
        simp only [BitVec.sub_self] at this
        rw [show a + 1#32 + BitVec.ofNat 32 j - a = BitVec.ofNat 32 (j + 1) by
          rw [BitVec.ofNat_add]; ring] at this
        have := congrArg BitVec.toNat this
        simp only [BitVec.toNat_ofNat] at this
        omega
    | succ k =>
      have e : a + BitVec.ofNat 32 (k + 1) = a + 1#32 + BitVec.ofNat 32 k := by
        rw [BitVec.ofNat_add, BitVec.add_assoc, BitVec.add_comm (1#32)]
      simp only [List.length_cons] at hk hlen
      rw [e] at hc ha hx ⊢
      have hne : a + 1#32 + BitVec.ofNat 32 k ≠ a := by
        rw [← e]
        have := offset_ne (a := a) (j := k + 1) (k := 0) (by omega) (by omega) (by omega)
        simpa using this
      simp only [List.getElem_cons_succ]
      split
      · exact ih (x := x) (by omega) (by omega) hc ha (by rw [CacheLine.byte_setByte_ne b hne]; exact hx)
      · exact ih (x := x) (by omega) (by omega) hc ha hx

/-- A line after a store, in the words of the rule. -/
theorem CacheLine.write_writesLine (c : Cfg) (l : CacheLine) (n : AccessSize) (a v : Word) :
    WritesLine c n a v l (l.write c a (storeBytes n v)) := by
  have hlen : (storeBytes n v).length = n.bytes := by cases n <;> rfl
  refine ⟨(l.write_same c a _).1, (l.write_same c a _).2, fun b hb => ?_, fun k x hk hc ha hx => ?_⟩
  · apply CacheLine.byte_write_ne
    rw [hlen]
    exact hb
  · rw [CacheLine.byte_write_self (by omega) (by cases n <;> simp [storeBytes]) hc ha hx]
    cases n <;> simp only [AccessSize.bytes] at hk <;> interval_cases k <;> rfl

/-! ### Words of a line -/

/-- A word's address is a multiple of 4. -/
theorem wordAligned_iff (a : Word) : wordAligned a = true ↔ a.toNat % 4 = 0 := by
  unfold wordAligned
  rw [beq_iff_eq, ← BitVec.toNat_inj]
  simp [BitVec.extractLsb'_toNat]

/-- The bytes of a word are those that it is made of. -/
theorem byteOfWord_wordOfBytes (b0 b1 b2 b3 : Byte) :
    byteOfWord (wordOfBytes b0 b1 b2 b3) 0 = b0 ∧ byteOfWord (wordOfBytes b0 b1 b2 b3) 1 = b1 ∧
      byteOfWord (wordOfBytes b0 b1 b2 b3) 2 = b2 ∧ byteOfWord (wordOfBytes b0 b1 b2 b3) 3 = b3 := by
  refine ⟨?_, ?_, ?_, ?_⟩ <;> apply BitVec.eq_of_getLsbD_eq <;> intro i hi <;>
    simp only [byteOfWord, wordOfBytes, BitVec.getLsbD_extractLsb', BitVec.getLsbD_append, hi, decide_true, Bool.true_and] <;>
    split <;> (try split) <;> (try split) <;> first | omega | (congr 1; omega)

/-- The address of a word, as a number. -/
theorem toNat_wordAddress (a : Word) : (wordAddress a).toNat = a.toNat - a.toNat % 4 := by
  have h : wordAddress a = a.extractLsb' 2 30 ++ 0#2 := by
    apply BitVec.eq_of_getLsbD_eq
    intro i hi
    rw [BitVec.getLsbD_append]
    interval_cases i <;> simp [wordAddress]
  rw [h, BitVec.toNat_append, BitVec.extractLsb'_toNat]
  have := a.isLt
  simp only [BitVec.toNat_ofNat, Nat.zero_mod, Nat.or_zero, Nat.shiftLeft_eq, Nat.shiftRight_eq_div_pow]
  omega

/-- Byte `j` of word `k` of a list of words. -/
theorem getElem?_flatMap_storeBytes (f : Nat → Word) {m k j : Nat} (hk : k < m) (hj : j < 4) :
    ((List.range m).flatMap (fun k => storeBytes .word (f k)))[4 * k + j]? = some (byteOfWord (f k) j) := by
  have hlen : ∀ m, ((List.range m).flatMap (fun k => storeBytes .word (f k))).length = 4 * m := by
    intro m
    induction m with
    | zero => rfl
    | succ m ih => simp [List.range_succ, List.flatMap_append, storeBytes]; omega
  induction m with
  | zero => omega
  | succ m ih =>
    rw [List.range_succ, List.flatMap_append]
    rcases Nat.lt_or_ge k m with h | h
    · rw [List.getElem?_append_left (by rw [hlen]; omega)]
      exact ih h
    · obtain rfl : k = m := by omega
      rw [List.getElem?_append_right (by rw [hlen]; omega), hlen, Nat.add_sub_cancel_left]
      interval_cases j <;> rfl

/-- The words of a line are the aligned ones whose line it is. -/
theorem mem_lineWords {c : CacheCfg} (hb : c.bytesPerLine = 4 ∨ c.bytesPerLine = 8 ∨ c.bytesPerLine = 16) (a w : Word) :
    w ∈ lineWords c a ↔ w.toNat % 4 = 0 ∧ lineAddress c w = lineAddress c a := by
  have ha := a.isLt
  have hw := w.isLt
  rw [← BitVec.toNat_inj, toNat_lineAddress, toNat_lineAddress]
  unfold lineWords
  simp only [List.mem_map, List.mem_range, ← BitVec.toNat_inj, BitVec.toNat_add, toNat_lineAddress, BitVec.toNat_ofNat]
  constructor
  · rintro ⟨k, hk, e⟩
    rcases hb with h | h | h <;> rw [h] at hk e ⊢ <;> omega
  · rintro ⟨h4, e⟩
    refine ⟨w.toNat % c.bytesPerLine / 4, ?_, ?_⟩ <;> rcases hb with h | h | h <;> rw [h] at e ⊢ <;> omega

/-- No word of a line comes twice. -/
theorem nodup_lineWords {c : CacheCfg} (hb : c.bytesPerLine = 4 ∨ c.bytesPerLine = 8 ∨ c.bytesPerLine = 16) (a : Word) :
    (lineWords c a).Nodup := by
  unfold lineWords
  refine (List.nodup_map_iff_inj_on (List.nodup_range)).mpr fun i hi j hj e => ?_
  simp only [List.mem_range] at hi hj
  have := congrArg BitVec.toNat (add_left_cancel e)
  simp only [BitVec.toNat_ofNat] at this
  omega

/-! ### A line that is filled -/

/-- The bytes of a line of `m` words. -/
theorem length_flatMap_storeBytes (f : Nat → Word) (m : Nat) :
    ((List.range m).flatMap (fun k => storeBytes .word (f k))).length = 4 * m := by
  induction m with
  | zero => rfl
  | succ m ih => simp [List.range_succ, List.flatMap_append, storeBytes]; omega

/-- The line that a miss fills, in the words of the rules. -/
theorem State.newLine_filled (s : State) {c : CacheCfg} (hb : c.bytesPerLine = 4 ∨ c.bytesPerLine = 8 ∨ c.bytesPerLine = 16)
    (answer : Word → Response) (w : Nat) (a : Word) : FilledLine s c answer w a (s.newLine c answer w a) := by
  refine ⟨rfl, rfl, ?_, fun b he hm => ?_⟩
  · unfold State.newLine
    rw [length_flatMap_storeBytes]
    omega
  · have h1 := toNat_sub_lineAddress c b
    have hlt : b.toNat % c.bytesPerLine < c.bytesPerLine := Nat.mod_lt _ (by omega)
    have hw : lineAddress c a + BitVec.ofNat 32 (4 * (b.toNat % c.bytesPerLine / 4)) = wordAddress b := by
      apply BitVec.eq_of_toNat_eq
      have := b.isLt
      rw [← he, BitVec.toNat_add, toNat_lineAddress, toNat_wordAddress, BitVec.toNat_ofNat]
      rcases hb with h | h | h <;> rw [h] <;> omega
    unfold CacheLine.byte State.newLine
    simp only
    rw [← he, h1]
    conv_lhs => rw [show b.toNat % c.bytesPerLine = 4 * (b.toNat % c.bytesPerLine / 4) + b.toNat % c.bytesPerLine % 4 by omega]
    rw [getElem?_flatMap_storeBytes _ (by omega) (by omega)]
    unfold State.filledWord
    rw [he, hw, if_pos hm]
    have hb4 : b = wordAddress b + BitVec.ofNat 32 (b.toNat % c.bytesPerLine % 4) := by
      apply BitVec.eq_of_toNat_eq
      have := b.isLt
      rw [BitVec.toNat_add, toNat_wordAddress, BitVec.toNat_ofNat]
      rcases hb with h | h | h <;> rw [h] <;> omega
    conv_rhs => rw [hb4]
    have hj : b.toNat % c.bytesPerLine % 4 < 4 := Nat.mod_lt _ (by omega)
    generalize b.toNat % c.bytesPerLine % 4 = j at hj
    congr 1
    unfold State.wordAt Memory.readWord State.byteAt
    obtain ⟨h0, h1, h2, h3⟩ := byteOfWord_wordOfBytes (s.mem.readByte (wordAddress b).toNat)
      (s.mem.readByte (wordAddress b + 1#32).toNat) (s.mem.readByte (wordAddress b + 2#32).toNat)
      (s.mem.readByte (wordAddress b + 3#32).toNat)
    interval_cases j
    · rw [h0, BitVec.add_zero]
    · exact h1
    · exact h2
    · exact h3

/-- The bytes of an aligned word are in its line, and in no other word. -/
theorem lineAddress_offset {c : CacheCfg} (hb : c.bytesPerLine = 4 ∨ c.bytesPerLine = 8 ∨ c.bytesPerLine = 16) {a : Word}
    (ha : wordAligned a = true) {k : Nat} (hk : k < 4) :
    lineAddress c (a + BitVec.ofNat 32 k) = lineAddress c a ∧ wordAddress (a + BitVec.ofNat 32 k) = a := by
  rw [wordAligned_iff] at ha
  have := a.isLt
  refine ⟨?_, ?_⟩ <;> apply BitVec.eq_of_toNat_eq
  · rw [toNat_lineAddress, toNat_lineAddress, BitVec.toNat_add, BitVec.toNat_ofNat]
    rcases hb with h | h | h <;> rw [h] <;> omega
  · rw [toNat_wordAddress, BitVec.toNat_add, BitVec.toNat_ofNat]
    omega

/-- A word of memory in a line that was filled is the one that memory held. -/
theorem value_of_filledLine {s : State} {c : CacheCfg} {answer : Word → Response} {w : Nat} {a b : Word} {l : CacheLine}
    (hf : FilledLine s c answer w a l) (hb : c.bytesPerLine = 4 ∨ c.bytesPerLine = 8 ∨ c.bytesPerLine = 16)
    (hal : wordAligned b = true) (he : lineAddress c b = lineAddress c a) (hm : answer b = .memory) :
    l.value .word b = heldWord s b := by
  have key : ∀ k, k < 4 → l.byte (b + BitVec.ofNat 32 k) = some (s.byteAt (b + BitVec.ofNat 32 k)) := fun k hk => by
    obtain ⟨h1, h2⟩ := lineAddress_offset hb hal hk
    exact hf.bytes _ (h1.trans he) (by rw [h2]; exact hm)
  have h0 := key 0 (by decide)
  have h1 := key 1 (by decide)
  have h2 := key 2 (by decide)
  have h3 := key 3 (by decide)
  simp only [BitVec.add_zero] at h0
  unfold CacheLine.value heldWord
  simp only [BitVec.add_zero, h0, h1, h2, h3, Option.getD_some]
  rfl

/-- A line that is put among others takes its place, in the words of the rule. -/
theorem putLine_fillsLine (s : State) {c : CacheCfg} (hb : c.bytesPerLine = 4 ∨ c.bytesPerLine = 8 ∨ c.bytesPerLine = 16)
    (answer : Word → Response) (w : Nat) (a : Word) (ls : List CacheLine) :
    FillsLine s c answer w a ls (putLine c (s.newLine c answer w a) ls) := by
  refine ⟨_, s.newLine_filled hb answer w a, fun l' => ?_⟩
  have h : lineSet c (s.newLine c answer w a).addr = lineSet c a := lineSet_lineAddress c a
  simp only [putLine, List.mem_cons, List.mem_filter, CacheLine.displaces, h, Bool.not_eq_true', Bool.and_eq_false_imp, beq_iff_eq,
    beq_eq_false_iff_ne, not_and]
  exact Iff.rfl

/-- The events of a miss, in the words of the rule. -/
theorem fillEvents_readsDevices {s t : State} {c : CacheCfg} {answer : Word → Response} {event : Word → Event} {a : Word}
    (hb : c.bytesPerLine = 4 ∨ c.bytesPerLine = 8 ∨ c.bytesPerLine = 16)
    (he : t.events = fillEvents c answer event a ++ s.events) : ReadsDevices s t c answer event a := by
  refine ⟨((lineWords c a).filter (fun w => answer w == .device)).reverse, ?_, ?_, fun w => ?_⟩
  · rw [he, List.map_reverse]
    rfl
  · exact List.nodup_reverse.mpr ((nodup_lineWords hb a).filter _)
  · rw [List.mem_reverse, List.mem_filter, mem_lineWords hb, beq_iff_eq, and_assoc, wordAligned_iff]

/-! ### Hits and misses -/

/-- The line of an address is one of those held, at the line's address. -/
theorem lineOf_some {c : CacheCfg} {ls : List CacheLine} {a : Word} {l : CacheLine} (h : lineOf c ls a = some l) :
    l ∈ ls ∧ l.addr = lineAddress c a := ⟨List.mem_of_find?_eq_some h, by simpa using List.find?_some h⟩

/-- No line of an address is held. -/
theorem lineOf_isNone (c : CacheCfg) (ls : List CacheLine) (a : Word) :
    (lineOf c ls a).isNone = true ↔ ∀ l ∈ ls, l.addr ≠ lineAddress c a := by
  simp [lineOf]

/-- A line that is held is one of the state's, at the address of the access's line, and the address is cached. -/
theorem State.heldLine_some {s : State} {a : Word} {l : CacheLine} (h : s.heldLine a = some l) :
    dataCached s.cfg a = true ∧ l ∈ s.dataLines ∧ l.addr = lineAddress s.cfg.dcache a := by
  unfold State.heldLine at h
  split at h
  · next hc => exact ⟨hc, lineOf_some h⟩
  · cases h

/-- The same of the instruction cache. -/
theorem State.heldCode_some {s : State} {a : Word} {l : CacheLine} (h : s.heldCode a = some l) :
    codeCached s.cfg a = true ∧ l ∈ s.codeLines ∧ l.addr = lineAddress s.cfg.icache a := by
  unfold State.heldCode at h
  split at h
  · next hc => exact ⟨hc, lineOf_some h⟩
  · cases h

/-- The test for a miss. -/
theorem State.misses_iff (s : State) (a : Word) : (dataCached s.cfg a && (s.heldLine a).isNone) = true ↔ Misses s a := by
  unfold Misses State.heldLine
  rw [Bool.and_eq_true]
  exact and_congr_right fun hc => by rw [if_pos hc]; exact lineOf_isNone ..

/-- The test for a miss of the instruction cache. -/
theorem State.codeMisses_iff (s : State) (a : Word) : (codeCached s.cfg a && (s.heldCode a).isNone) = true ↔ CodeMisses s a := by
  unfold CodeMisses State.heldCode
  rw [Bool.and_eq_true]
  exact and_congr_right fun hc => by rw [if_pos hc]; exact lineOf_isNone ..

/-- Without a miss, at an address that is cached, a line is held. -/
theorem State.heldLine_of_not_misses {s : State} {a : Word} (hc : dataCached s.cfg a = true) (h : ¬ Misses s a) :
    ∃ l, s.heldLine a = some l := by
  rw [← State.misses_iff, hc, Bool.true_and] at h
  exact Option.ne_none_iff_exists'.mp (by simpa using h)

/-- The same of the instruction cache. -/
theorem State.heldCode_of_not_misses {s : State} {a : Word} (hc : codeCached s.cfg a = true) (h : ¬ CodeMisses s a) :
    ∃ l, s.heldCode a = some l := by
  rw [← State.codeMisses_iff, hc, Bool.true_and] at h
  exact Option.ne_none_iff_exists'.mp (by simpa using h)

/-- Everything that a load can do to the data cache: fill a line or nothing. -/
theorem State.cacheLoad_cases (s : State) (n : AccessSize) (a : Word) :
    (Misses s a ∧ s.cacheLoad n a = s.fill n a) ∨ (¬ Misses s a ∧ s.cacheLoad n a = s) := by
  unfold State.cacheLoad
  by_cases h : Misses s a
  · exact .inl ⟨h, if_pos ((s.misses_iff a).mpr h)⟩
  · exact .inr ⟨h, if_neg (mt (s.misses_iff a).mp h)⟩

/-- Everything that a fetch can do to the instruction cache: fill a line or nothing. -/
theorem State.cacheFetch_cases (s : State) (a : Word) :
    (CodeMisses s a ∧ s.cacheFetch a = s.fillCode a) ∨ (¬ CodeMisses s a ∧ s.cacheFetch a = s) := by
  unfold State.cacheFetch
  by_cases h : CodeMisses s a
  · exact .inl ⟨h, if_pos ((s.codeMisses_iff a).mpr h)⟩
  · exact .inr ⟨h, if_neg (mt (s.codeMisses_iff a).mp h)⟩

/-- What a load leaves unchanged. -/
theorem State.cacheLoad_frame (s : State) (n : AccessSize) (a : Word) :
    s.cacheLoad n a = { s with
      dataLines := (s.cacheLoad n a).dataLines
      dataWay := (s.cacheLoad n a).dataWay
      events := (s.cacheLoad n a).events
      free := (s.cacheLoad n a).free } := by
  obtain ⟨-, h⟩ | ⟨-, h⟩ := s.cacheLoad_cases n a
  · rw [h]; rfl
  · rw [h]

/-- With no line held, no byte but memory's and the earlier ones can be returned. -/
theorem State.portByte_of_nil {s : State} (h : s.dataLines = []) (a : Word) : s.portByte a = s.byteAt a := by
  simp [State.portByte, State.heldLine, lineOf, h]

/-- Where no other byte than memory's may be returned, the data port sees it and no earlier one is recorded. -/
theorem State.oldBytes_eq_nil {s : State} {a : Word} : s.oldBytes a = [] ↔ s.staleBytes a = [] ∧ s.portByte a = s.byteAt a := by
  unfold State.oldBytes
  rw [List.append_eq_nil_iff]
  split <;> simp_all

/-! ### Loads and stores, in the words of the rules -/

/-- What a load does to the data cache. -/
theorem State.cacheLoad_cachesLoad (s : State) (n : AccessSize) (a : Word) : CachesLoad s (s.cacheLoad n a) n a := by
  obtain ⟨hm, h⟩ | ⟨hm, h⟩ := s.cacheLoad_cases n a <;> rw [h]
  · exact ⟨fun hn => absurd hm hn, fun _ => rfl,
      fun _ hl => putLine_fillsLine s (geometry_of_dataCached hl hm.1).1 _ _ _ _,
      fun _ hl => fillEvents_readsDevices (geometry_of_dataCached hl hm.1).1 rfl⟩
  · exact ⟨fun _ => ⟨rfl, rfl, rfl⟩, fun h' => absurd h' hm, fun h' => absurd h' hm, fun h' => absurd h' hm⟩

/-- What a load does to the data cache does not depend on the counter of free values, and says nothing of the rest of the next
state. -/
theorem cachesLoad_congr {s t t' : State} {f : Nat} {n : AccessSize} {a : Word} (h : CachesLoad { s with free := f } t n a)
    (hl : t'.dataLines = t.dataLines) (hw : t'.dataWay = t.dataWay) (he : t'.events = t.events) : CachesLoad s t' n a := by
  refine ⟨fun hm => by rw [hl, hw, he]; exact h.noMiss hm, fun hm => by rw [hw]; exact h.way hm, fun hm hc => ?_, fun hm hc => ?_⟩
  · obtain ⟨l, hf, hx⟩ := h.line hm hc
    exact ⟨l, ⟨hf.addr, hf.way, hf.length, hf.bytes⟩, fun l' => by rw [hl]; exact hx l'⟩
  · unfold ReadsDevices
    rw [he]
    exact h.events hm hc

/-- A load from memory, in the words of the rules. -/
theorem State.cacheLoad_loadsAt (s : State) (n : AccessSize) (a : Word) (r : Reg) (v : Word) :
    LoadsAt s ((((s.loadDraw n a).cacheLoad n a).setReg r v).advance) n a r v := by
  have hf := (s.loadDraw n a).cacheLoad_frame n a
  have hc := cachesLoad_congr (s := s) (t' := (((s.loadDraw n a).cacheLoad n a).setReg r v).advance)
    ((s.loadDraw n a).cacheLoad_cachesLoad n a) rfl rfl rfl
  generalize (s.loadDraw n a).cacheLoad n a = u at hf hc ⊢
  have hu : ∃ ls w ev f, u = { s with dataLines := ls, dataWay := w, events := ev, free := f } := ⟨_, _, _, _, hf⟩
  obtain ⟨ls, w, ev, f, rfl⟩ := hu
  refine ⟨?_, rfl, fun q hq => ?_, fun _ => rfl, hc, rfl⟩
  · simp [State.reg]
  · have hn : r.toNat ≠ q.toNat := fun e => hq (BitVec.eq_of_toNat_eq e.symm)
    simp [State.reg, hn]

/-- What a store does to the data cache, in any state that it leaves. -/
theorem State.store_cachesStore {s t : State} {n : AccessSize} {a v : Word}
    (hl : t.dataLines = s.dataLines.map (fun l => l.write s.cfg a (storeBytes n v))) (hw : t.dataWay = s.storeWay a) :
    CachesStore s t n a v := by
  refine ⟨?_, fun hm => ?_, fun hm => ?_⟩
  · rw [hl, List.forall₂_map_right_iff]
    exact List.forall₂_same.mpr fun l _ => l.write_writesLine ..
  · rw [hw, State.storeWay, if_pos ((s.misses_iff a).mpr hm)]
    rfl
  · rw [hw, State.storeWay, if_neg (mt (s.misses_iff a).mp hm)]

/-! ### What a cache's organisation depends on -/

/-- A line's place: its address, its way and its length. -/
def CacheLine.place (l : CacheLine) : Word × Nat × Nat := (l.addr, l.way, l.bytes.length)

/-- The organisation of a cache depends only on the places of its lines, and taking lines away keeps it. -/
theorem organised_of_places {c : CacheCfg} {ls ls' : List CacheLine}
    (h : (ls'.map CacheLine.place).Sublist (ls.map CacheLine.place)) (ho : Organised c ls) : Organised c ls' := by
  have all : ∀ {P : Word × Nat × Nat → Prop}, (∀ l ∈ ls, P l.place) → ∀ l ∈ ls', P l.place := fun {P} hp l hl => by
    obtain ⟨l', h', e⟩ := List.mem_map.mp (h.subset (List.mem_map_of_mem hl))
    rw [← e]
    exact hp l' h'
  refine ⟨all (P := fun p => p.1 = lineAddress c p.1 ∧ p.2.2 = c.bytesPerLine) ho.whole,
    all (P := fun p => p.2.1 < c.ways) ho.ways, ?_⟩
  have h1 : (ls.map CacheLine.place).Pairwise fun p q =>
      p.1 ≠ q.1 ∧ ¬ (p.2.1 = q.2.1 ∧ lineSet c p.1 = lineSet c q.1) := List.pairwise_map.mpr ho.apart
  exact List.pairwise_map.mp (h1.sublist h)

/-- Putting a whole line that was not held keeps a cache organised. -/
theorem putLine_organised {s : State} {c : CacheCfg} {answer : Word → Response} {w : Nat} {a : Word} {l : CacheLine}
    {ls : List CacheLine} (ho : Organised c ls) (hf : FilledLine s c answer w a l) (hw : w < c.ways)
    (hm : ∀ l' ∈ ls, l'.addr ≠ lineAddress c a) : Organised c (putLine c l ls) := by
  have hs : Organised c (ls.filter (fun l' => !l.displaces c l')) := organised_of_places (List.Sublist.map _ List.filter_sublist) ho
  refine ⟨fun l' hx => ?_, fun l' hx => ?_, List.pairwise_cons.mpr ⟨fun l' hx => ?_, hs.apart⟩⟩
  · obtain rfl | hx := List.mem_cons.mp hx
    · exact ⟨by rw [hf.addr, lineAddress_lineAddress], hf.length⟩
    · exact hs.whole l' hx
  · obtain rfl | hx := List.mem_cons.mp hx
    · rw [hf.way]
      exact hw
    · exact hs.ways l' hx
  · obtain ⟨hx, hd⟩ := List.mem_filter.mp hx
    refine ⟨fun e => hm l' hx (by rw [← e, hf.addr]), fun e => ?_⟩
    simp [CacheLine.displaces, e.1, e.2] at hd

/-- A store leaves every line in its place. -/
theorem places_write (c : Cfg) (ls : List CacheLine) (a : Word) (bs : List Byte) :
    (ls.map (fun l => l.write c a bs)).map CacheLine.place = ls.map CacheLine.place := by
  rw [List.map_map]
  exact List.map_congr_left fun l _ => by simp [CacheLine.place]

/-- Marking lines to be dropped leaves every line in its place. -/
theorem places_dropping (ls : List CacheLine) (d : Bool) :
    (ls.map (fun l => { l with dropping := d })).map CacheLine.place = ls.map CacheLine.place := by
  rw [List.map_map]
  rfl

/-- An invalidation next to a load or store takes lines away. -/
theorem places_settleLines (n : Nat) (ls : List CacheLine) :
    ((settleLines n ls).map CacheLine.place).Sublist (ls.map CacheLine.place) := by
  induction ls generalizing n with
  | nil => exact List.Sublist.refl _
  | cons l ls ih =>
    unfold settleLines
    split
    · exact (ih (n + 1)).cons _
    · exact (ih (n + 1)).cons_cons _

/-- What an invalidation next to a load or store leaves are lines that were there. -/
theorem mem_settleLines {n : Nat} {ls : List CacheLine} {l : CacheLine} (h : l ∈ settleLines n ls) :
    ∃ l' ∈ ls, l = { l' with dropping := false } := by
  induction ls generalizing n with
  | nil => simp [settleLines] at h
  | cons l' ls ih =>
    unfold settleLines at h
    split at h
    · obtain ⟨k, hk, e⟩ := ih h
      exact ⟨k, List.mem_cons_of_mem _ hk, e⟩
    · rcases List.mem_cons.mp h with h | h
      · exact ⟨l', List.mem_cons_self, h⟩
      · obtain ⟨k, hk, e⟩ := ih h
        exact ⟨k, List.mem_cons_of_mem _ hk, e⟩

/-- A load keeps the data cache organised. -/
theorem State.cacheLoad_organised {s : State} (hl : cfgLegal s.cfg = true) (ho : Organised s.cfg.dcache s.dataLines)
    (hw : s.cfg.hasDCache = true → s.dataWay < s.cfg.dcache.ways) (n : AccessSize) (a : Word) :
    Organised s.cfg.dcache (s.cacheLoad n a).dataLines ∧
      (s.cfg.hasDCache = true → (s.cacheLoad n a).dataWay < s.cfg.dcache.ways) := by
  obtain ⟨hm, h⟩ | ⟨-, h⟩ := s.cacheLoad_cases n a <;> rw [h]
  · have g := geometry_of_dataCached hl hm.1
    exact ⟨putLine_organised ho (s.newLine_filled g.1 _ _ _) (hw g.2.2) hm.2,
      fun he => nextWay_lt (cacheLegal_of_cfgLegal hl).2 he _⟩
  · exact ⟨ho, hw⟩

/-- A fetch keeps the instruction cache organised. -/
theorem State.cacheFetch_organised {s : State} (hl : cfgLegal s.cfg = true) (ho : Organised s.cfg.icache s.codeLines)
    (hw : s.cfg.hasICache = true → s.codeWay < s.cfg.icache.ways) (a : Word) :
    Organised s.cfg.icache (s.cacheFetch a).codeLines ∧
      (s.cfg.hasICache = true → (s.cacheFetch a).codeWay < s.cfg.icache.ways) := by
  obtain ⟨hm, h⟩ | ⟨-, h⟩ := s.cacheFetch_cases a <;> rw [h]
  · have g := geometry_of_codeCached hl hm.1
    exact ⟨putLine_organised ho (s.newLine_filled g.1 _ _ _) (hw g.2.2) hm.2,
      fun he => nextWay_lt (cacheLegal_of_cfgLegal hl).1 he _⟩
  · exact ⟨ho, hw⟩

/-- A store switches the way number or leaves it. -/
theorem State.storeWay_lt {s : State} (hl : cfgLegal s.cfg = true) (hw : s.cfg.hasDCache = true → s.dataWay < s.cfg.dcache.ways)
    (a : Word) (he : s.cfg.hasDCache = true) : s.storeWay a < s.cfg.dcache.ways := by
  unfold State.storeWay
  split
  · exact nextWay_lt (cacheLegal_of_cfgLegal hl).2 he _
  · exact hw he

/-! ### The instruction cache -/

/-- With no line held, the instruction port sees what memory holds. -/
theorem State.portWord_of_nil {s : State} (h : s.codeLines = []) (a : Word) : s.portWord a = s.wordAt a := by
  simp [State.portWord, State.heldCode, lineOf, h]

/-- Where no other word than memory's may be returned, the instruction port sees it and no earlier one is recorded. -/
theorem State.oldWords_eq_nil {s : State} {a : Word} : s.oldWords a = [] ↔ s.staleWords a = [] ∧ s.portWord a = s.wordAt a := by
  unfold State.oldWords
  rw [List.append_eq_nil_iff]
  split <;> simp_all

/-- What a fetch does to the instruction cache leaves the rest unchanged. -/
theorem State.cacheFetch_frame (s : State) (a : Word) :
    s.cacheFetch a = { s with
      codeLines := (s.cacheFetch a).codeLines
      codeWay := (s.cacheFetch a).codeWay
      events := (s.cacheFetch a).events
      free := (s.cacheFetch a).free } := by
  obtain ⟨-, h⟩ | ⟨-, h⟩ := s.cacheFetch_cases a
  · rw [h]; rfl
  · rw [h]

/-- Once a line is filled the address is a hit, and gives the line's word. -/
theorem State.heldCode_cacheFetch {s : State} {a : Word} (hc : codeCached s.cfg a = true) :
    (s.cacheFetch a).heldCode a = some ((s.heldCode a).getD (s.codeLine a)) := by
  obtain ⟨hm, h⟩ | ⟨hm, h⟩ := s.cacheFetch_cases a
  · have hn : s.heldCode a = none := by
      have := (s.codeMisses_iff a).mpr hm
      simpa [hc] using this
    rw [h, hn]
    simp [State.heldCode, hc, lineOf, putLine, State.codeLine, State.newLine]
  · obtain ⟨l, hl⟩ := State.heldCode_of_not_misses hc hm
    rw [h, hl]
    rfl

/-- Everything that `wcsr ICC` or the slots after it can do to the lines and to the pending invalidations: an invalidation takes
effect and no line is left, or those that stay have slots left. -/
theorem settleCode_cases (n : Nat) (icc : List Nat) (ls : List CacheLine) :
    ((∃ d ∈ icc, d ≤ slotsDue n) ∧ settleCode n icc ls = []) ∨
      ((∀ d ∈ icc, slotsDue n < d) ∧ settleCode n icc ls = ls ∧ pendingCode n icc = icc.map (· - 1)) := by
  unfold settleCode pendingCode
  by_cases h : ∃ d ∈ icc, d ≤ slotsDue n
  · exact .inl ⟨h, if_pos (by simpa using h)⟩
  · refine .inr ⟨by simpa using h, if_neg (by simpa using h), ?_⟩
    rw [List.filter_eq_self.mpr (by simpa using h)]

/-- A pending invalidation has one slot less than before. -/
theorem mem_pendingCode {n d : Nat} {icc : List Nat} : d ∈ pendingCode n icc ↔ d + 1 ∈ icc ∧ slotsDue n ≤ d := by
  have h1 : 1 ≤ slotsDue n := Nat.le_max_left ..
  simp only [pendingCode, List.mem_map, List.mem_filter, decide_eq_true_eq]
  constructor
  · rintro ⟨e, ⟨he, hlt⟩, rfl⟩
    rw [Nat.sub_add_cancel (by omega)]
    exact ⟨he, by omega⟩
  · rintro ⟨he, hlt⟩
    exact ⟨d + 1, ⟨he, by omega⟩, rfl⟩

/-- The lines that are left are lines that were there. -/
theorem settleCode_sublist (n : Nat) (icc : List Nat) (ls : List CacheLine) : (settleCode n icc ls).Sublist ls := by
  unfold settleCode
  split
  · exact List.nil_sublist _
  · exact List.Sublist.refl _

end Sys2Proof.Machine
end

