-- ==== Sys2Proof/Laws/Ops.lean ====
section
/-! SUPPORT. What each shared operation can do, once: registers, data accesses, transfers, exceptions, CSRs, fetch and the step. -/

namespace Sys2Proof.Machine

open Sys2Proof.Safety

/-! ### Registers and bytes -/

/-- Registers depend on nothing but the register file. -/
theorem State.reg_congr {s t : State} (h : t.regs = s.regs) (r : Reg) : t.reg r = s.reg r := by
  simp only [State.reg, h]

/-- Bytes depend on nothing but memory. -/
theorem State.byteAt_congr {s t : State} (h : t.mem = s.mem) (a : Word) : t.byteAt a = s.byteAt a := by
  simp only [State.byteAt, h]

@[simp] theorem State.reg_setReg_self (s : State) (r : Reg) (v : Word) : (s.setReg r v).reg r = v := by
  simp [State.reg]

@[simp] theorem State.reg_setReg_ne (s : State) {r q : Reg} (v : Word) (h : q ≠ r) : (s.setReg r v).reg q = s.reg q := by
  have hn : r.toNat ≠ q.toNat := fun e => h (BitVec.eq_of_toNat_eq e.symm)
  simp [State.reg, hn]

@[simp] theorem State.reg_advance (s : State) (q : Reg) : s.advance.reg q = s.reg q := rfl
@[simp] theorem State.reg_jump (s : State) (t : Word) (q : Reg) : (s.jump t).reg q = s.reg q := rfl
@[simp] theorem State.reg_stall (s : State) (q : Reg) : s.stall.reg q = s.reg q := rfl
@[simp] theorem State.reg_loadDraw (s : State) (n : AccessSize) (a : Word) (q : Reg) : (s.loadDraw n a).reg q = s.reg q := rfl
@[simp] theorem State.reg_cacheLoad (s : State) (n : AccessSize) (a : Word) (q : Reg) :
    (s.cacheLoad n a).reg q = s.reg q := State.reg_congr (State.cacheLoad_regs s n a) q
@[simp] theorem State.reg_deviceRead (s : State) (n : AccessSize) (a : Word) (q : Reg) :
    (s.deviceRead n a).reg q = s.reg q := State.reg_congr (State.deviceRead_regs s n a) q
@[simp] theorem State.reg_deviceWrite (s : State) (n : AccessSize) (a v : Word) (q : Reg) :
    (s.deviceWrite n a v).reg q = s.reg q := rfl
@[simp] theorem State.reg_storeMemory (s : State) (a : Word) (bs : List Byte) (q : Reg) :
    (s.storeMemory a bs).reg q = s.reg q := rfl
@[simp] theorem State.reg_prepare (s : State) (b : Bool) (q : Reg) : (s.prepare b).reg q = s.reg q := rfl
@[simp] theorem State.reg_executed (s : State) (i : Instr) (q : Reg) : (s.executed i).reg q = s.reg q := rfl

/-- Exception entry writes the link register of its class and no other. -/
theorem State.reg_enter (s : State) (e : Exc) (q : Reg) :
    (s.enter e).reg q = if q = (if isDebugExc e then ba else ea) then s.pc else s.reg q := by
  have h : (s.enter e).reg q = (s.setReg (if isDebugExc e then ba else ea) s.pc).reg q :=
    State.reg_congr (by rw [State.enter_regs]; rfl) q
  rw [h]
  by_cases hq : q = (if isDebugExc e then ba else ea)
  · rw [if_pos hq, hq, State.reg_setReg_self]
  · rw [if_neg hq, State.reg_setReg_ne s s.pc hq]

/-! ### Data accesses -/

/-- A data access reaches memory exactly when no watchpoint matches, it is aligned and memory answers. -/
theorem State.dataAccess_eq_memory {s : State} {k : AccessKind} {n : AccessSize} {a : Word} :
    s.dataAccess k n a = .memory ↔ s.watchpointHit k a = false ∧ aligned n a = true ∧ respond s.cfg k n a = .memory := by
  unfold State.dataAccess
  cases hw : s.watchpointHit k a <;> cases ha : aligned n a <;> cases hr : respond s.cfg k n a <;> simp

/-- The two exceptions of a data access. -/
theorem State.dataAccess_trap {s : State} {k : AccessKind} {n : AccessSize} {a : Word} {e : Exc}
    (h : s.dataAccess k n a = .trap e) :
    (e = .watchpoint ∧ s.watchpointHit k a = true) ∨
      (e = .dataBusError ∧ s.watchpointHit k a = false ∧ aligned n a = true ∧ respond s.cfg k n a = .busError) := by
  unfold State.dataAccess at h
  cases hw : s.watchpointHit k a <;> cases ha : aligned n a <;> cases hr : respond s.cfg k n a <;> simp_all

/-- Everything a load can do when it gives a next state. -/
theorem State.load_next {s t : State} {n : AccessSize} {ext : Word → Word} {dest base : Reg} {imm : BitVec 16}
    (h : s.load n ext dest base imm = .next t) :
    (∃ e, s.dataAccess .read n (s.effAddr base imm) = .trap e ∧ t = s.enter e) ∨
    (s.dataAccess .read n (s.effAddr base imm) = .stuck ∧ t = s.stall) ∨
    (s.dataAccess .read n (s.effAddr base imm) = .device ∧
      t = ((s.deviceRead n (s.effAddr base imm)).setReg dest (ext (s.deviceData n (s.effAddr base imm)))).advance) ∨
    (s.dataAccess .read n (s.effAddr base imm) = .memory ∧
      t = (((s.loadDraw n (s.effAddr base imm)).cacheLoad n (s.effAddr base imm)).setReg dest
        (ext (s.loadMemory n (s.effAddr base imm)))).advance) := by
  unfold State.load at h
  cases hd : s.dataAccess .read n (s.effAddr base imm) <;> simp_all

/-- Everything a store can do when it gives a next state. -/
theorem State.store_next {s t : State} {n : AccessSize} {base data : Reg} {imm : BitVec 16}
    (h : s.store n base imm data = .next t) :
    (∃ e, s.dataAccess .write n (s.effAddr base imm) = .trap e ∧ t = s.enter e) ∨
    (s.dataAccess .write n (s.effAddr base imm) = .stuck ∧ t = s.stall) ∨
    (s.dataAccess .write n (s.effAddr base imm) = .device ∧
      t = (s.deviceWrite n (s.effAddr base imm) (s.reg data)).advance) ∨
    (s.dataAccess .write n (s.effAddr base imm) = .memory ∧
      t = (s.storeMemory (s.effAddr base imm) (storeBytes n (s.reg data))).advance) := by
  unfold State.store at h
  cases hd : s.dataAccess .write n (s.effAddr base imm) <;> simp_all

@[simp] theorem storeBytes_length (n : AccessSize) (v : Word) : (storeBytes n v).length = n.bytes := by
  cases n <;> rfl

/-- A store leaves every byte outside the stored ones alone. -/
theorem State.byteAt_storeMemory_ne (s : State) (a x : Word) (bs : List Byte)
    (h : ∀ k, k < bs.length → x ≠ a + BitVec.ofNat 32 k) : (s.storeMemory a bs).byteAt x = s.byteAt x :=
  Memory.readByte_writeBytes_ne s.mem a x bs h

/-- The stored bytes are read back, in canonical memory. -/
theorem State.byteAt_storeMemory_self {s : State} (a : Word) (bs : List Byte) (hm : s.mem.wf = true)
    (hlen : bs.length ≤ 2 ^ 32) (k : Nat) (hk : k < bs.length) :
    (s.storeMemory a bs).byteAt (a + BitVec.ofNat 32 k) = bs[k] :=
  Memory.readByte_writeBytes_self a bs hm hlen k hk

/-- Where no other byte than memory's may be returned, the data port sees it. -/
theorem State.loadByte_of_fresh {s : State} {a : Word} (n : Nat) (h : s.oldBytes a = []) : s.loadByte n a = s.byteAt a := by
  rw [State.oldBytes_eq_nil] at h
  simp [State.loadByte, h]

/-- A load sees what memory holds, the cache's copy or an earlier byte. -/
theorem State.loadByte_mem (s : State) (n : Nat) (a : Word) : s.loadByte n a = s.byteAt a ∨ s.loadByte n a ∈ s.oldBytes a := by
  have key : ∀ x ∈ s.portByte a :: s.byteAt a :: s.staleBytes a, x = s.byteAt a ∨ x ∈ s.oldBytes a := by
    intro x hx
    unfold State.oldBytes
    rcases List.mem_cons.mp hx with rfl | hx
    · by_cases h : s.portByte a = s.byteAt a
      · exact .inl h
      · rw [if_neg h]
        exact .inr (by simp)
    · rcases List.mem_cons.mp hx with rfl | hx
      · exact .inl rfl
      · exact .inr (List.mem_append_left _ hx)
  unfold State.loadByte
  cases h : s.staleBytes a with
  | nil => exact key _ (by simp)
  | cons o os =>
    refine key _ ?_
    have hk : Config.freeChoice n % ((o :: os).length + 2) < (s.portByte a :: s.byteAt a :: o :: os).length := Nat.mod_lt _ (by simp)
    rw [h]
    simp only [List.getD_eq_getElem?_getD, List.getElem?_eq_getElem hk, Option.getD_some]
    exact List.getElem_mem hk

/-- A fetch returns what memory holds, the instruction cache's copy or an earlier word. -/
theorem State.fetchMemory_mem (s : State) (a : Word) : s.fetchMemory a = s.wordAt a ∨ s.fetchMemory a ∈ s.oldWords a := by
  have key : ∀ x ∈ s.portWord a :: s.wordAt a :: s.staleWords a, x = s.wordAt a ∨ x ∈ s.oldWords a := by
    intro x hx
    unfold State.oldWords
    rcases List.mem_cons.mp hx with rfl | hx
    · by_cases h : s.portWord a = s.wordAt a
      · exact .inl h
      · rw [if_neg h]
        exact .inr (by simp)
    · rcases List.mem_cons.mp hx with rfl | hx
      · exact .inl rfl
      · exact .inr (List.mem_append_left _ hx)
  unfold State.fetchMemory
  cases h : s.staleWords a with
  | nil => exact key _ (by simp)
  | cons o os =>
    refine key _ ?_
    have hk : Config.freeChoice s.free % ((o :: os).length + 2) < (s.portWord a :: s.wordAt a :: o :: os).length := Nat.mod_lt _ (by simp)
    rw [h]
    simp only [List.getD_eq_getElem?_getD, List.getElem?_eq_getElem hk, Option.getD_some]
    exact List.getElem_mem hk

/-- Where no other word than memory's may be returned, a fetch returns it and draws no free value. -/
theorem State.fetchMemory_of_current {s : State} {a : Word} (h : s.oldWords a = []) :
    s.fetchMemory a = s.wordAt a ∧ s.fetchDraw a = s := by
  rw [State.oldWords_eq_nil] at h
  simp [State.fetchMemory, State.fetchDraw, h]

/-- A load with no choice draws no free value. -/
theorem State.loadDraw_of_fresh {s : State} {n : AccessSize} {a : Word}
    (h : ∀ k, k < n.bytes → s.oldBytes (a + BitVec.ofNat 32 k) = []) : s.loadDraw n a = s := by
  have hf : s.loadFresh n a = true := by
    unfold State.loadFresh
    rw [List.all_eq_true]
    intro k hk
    simp [h k (List.mem_range.mp hk)]
  simp [State.loadDraw, hf]

/-- Everything that a load of a device does beside its register: with the address cached what every load does to the cache, the
value being that of the line held or filled; else a read of the device itself. -/
theorem State.deviceRead_cases (s : State) (n : AccessSize) (a : Word) :
    (dataCached s.cfg a = true ∧ s.deviceRead n a = s.cacheLoad n a ∧
      s.deviceData n a = ((s.heldLine a).getD (s.fillLine n a)).value n a) ∨
    (dataCached s.cfg a = false ∧ s.deviceRead n a = { s with events := .deviceRead n a :: s.events, free := s.free + 1 } ∧
      s.deviceData n a = deviceValue n (Config.freeWord s.free)) := by
  unfold State.deviceRead State.deviceData
  cases dataCached s.cfg a <;> simp

/-- What a load of a device leaves unchanged. -/
theorem State.deviceRead_frame (s : State) (n : AccessSize) (a : Word) :
    s.deviceRead n a = { s with
      dataLines := (s.deviceRead n a).dataLines
      dataWay := (s.deviceRead n a).dataWay
      events := (s.deviceRead n a).events
      free := (s.deviceRead n a).free } := by
  obtain ⟨-, h, -⟩ | ⟨-, h, -⟩ := s.deviceRead_cases n a <;> rw [h]
  exact s.cacheLoad_frame n a

/-- A load of a device keeps the data cache organised. -/
theorem State.deviceRead_organised {s : State} (hl : cfgLegal s.cfg = true) (ho : Organised s.cfg.dcache s.dataLines)
    (hw : s.cfg.hasDCache = true → s.dataWay < s.cfg.dcache.ways) (n : AccessSize) (a : Word) :
    Organised s.cfg.dcache (s.deviceRead n a).dataLines ∧
      (s.cfg.hasDCache = true → (s.deviceRead n a).dataWay < s.cfg.dcache.ways) := by
  obtain ⟨-, h, -⟩ | ⟨-, h, -⟩ := s.deviceRead_cases n a <;> rw [h]
  · exact State.cacheLoad_organised hl ho hw n a
  · exact ⟨ho, hw⟩

/-! ### Transfers and exceptions -/

/-- A transfer to a register completes exactly when the address is a multiple of 4. -/
theorem State.jumpTo_next {s t : State} {a : Word} : s.jumpTo a = .next t ↔ wordAligned a = true ∧ t = s.jump a := by
  unfold State.jumpTo
  split
  · next h => exact ⟨fun e => ⟨h, (Host.Outcome.next.inj e).symm⟩, fun e => by rw [e.2]⟩
  · next h => simp [h]

/-- A return completes exactly when the address is a multiple of 4. -/
theorem State.returnTo_next {s t : State} {a : Word} {e : Bool} :
    s.returnTo a e = .next t ↔ wordAligned a = true ∧ t = { s.jump a with ieIE := e } := by
  unfold State.returnTo
  split
  · next h => exact ⟨fun e => ⟨h, (Host.Outcome.next.inj e).symm⟩, fun e => by rw [e.2]⟩
  · next h => simp [h]

/-- An instruction of a unit completes only where the unit is present. -/
theorem needs_next {p : Bool} {o : Host.Outcome State Fault Refusal} {t : State} :
    needs p o = .next t ↔ p = true ∧ o = .next t := by
  unfold needs
  split <;> simp_all

/-- A conditional branch either jumps or advances. -/
theorem State.branchIf_cases (s : State) (c : Bool) (imm : BitVec 16) :
    (c = true ∧ s.branchIf c imm = s.jump (s.target16 imm)) ∨ (c = false ∧ s.branchIf c imm = s.advance) := by
  cases c <;> simp [State.branchIf]

/-- Entry of a debug exception, in the fields that it writes. -/
theorem State.enter_debug {s : State} {e : Exc} (h : isDebugExc e = true) :
    s.enter e = { (s.refetch).setReg ba s.pc with ieBIE := s.ieIE, ieIE := false, pc := s.vector e } := by
  simp [State.enter, h]

/-- Entry of a non-debug exception, in the fields that it writes. -/
theorem State.enter_nonDebug {s : State} {e : Exc} (h : isDebugExc e = false) :
    s.enter e = { (s.refetch).setReg ea s.pc with ieEIE := s.ieIE, ieIE := false, pc := s.vector e } := by
  simp [State.enter, h]

/-! ### Control and status registers -/

/-- What a write of a control and status register leaves unchanged, whichever register it is. -/
theorem State.csrWrite_frame {s t : State} {k : CsrIndex} {v : Word} (h : s.csrWrite k v = some t) :
    t.cfg = s.cfg ∧ t.regs = s.regs ∧ t.pc = s.pc ∧ t.cc = s.cc ∧ t.jtx = s.jtx ∧ t.jrx = s.jrx ∧ t.mem = s.mem ∧
      t.lastMem = s.lastMem ∧ t.waiting = s.waiting ∧ t.intLines = s.intLines ∧ t.resetPin = s.resetPin ∧
      t.atDebug = s.atDebug ∧ t.inputs = s.inputs ∧ t.dataWay = s.dataWay ∧ t.codeWay = s.codeWay := by
  unfold State.csrWrite State.writeBp State.writeWp at h
  split at h <;> (try split at h) <;> simp only [Option.some.injEq, reduceCtorEq] at h <;> subst h <;>
    exact ⟨rfl, rfl, rfl, rfl, rfl, rfl, rfl, rfl, rfl, rfl, rfl, rfl, rfl, rfl, rfl⟩

/-- What a write of a control and status register does to IM and IP. -/
theorem State.csrWrite_bounds {s t : State} {k : CsrIndex} {v : Word} (h : s.csrWrite k v = some t) :
    (t.im = s.im ∨ t.im = v &&& lineMask s.cfg) ∧
      (t.ip = s.ip ∨ t.ip = (s.ip &&& ~~~v) ||| (s.intLines &&& lineMask s.cfg)) := by
  unfold State.csrWrite State.writeBp State.writeWp at h
  split at h <;> (try split at h) <;> simp only [Option.some.injEq, reduceCtorEq] at h <;> subst h <;>
    refine ⟨?_, ?_⟩ <;>
    first
    | exact .inl rfl
    | exact .inr rfl

/-- What a write of a control and status register does to the instruction cache and to the words that may be fetched. -/
theorem State.csrWrite_code {s t : State} {k : CsrIndex} {v : Word} (h : s.csrWrite k v = some t) :
    (t.staleCode = s.staleCode ∧ t.codeLines = s.codeLines ∧ t.icc = s.icc) ∨ (s.cfg.hasICache = true ∧ t = s.invalidateCode) := by
  unfold State.csrWrite State.writeBp State.writeWp at h
  split at h <;> (try split at h) <;> simp only [Option.some.injEq, reduceCtorEq] at h <;> subst h <;>
    first
    | exact .inl ⟨rfl, rfl, rfl⟩
    | exact .inr ⟨by assumption, rfl⟩

/-- What a write of a control and status register does to the earlier bytes that may be loaded. -/
theorem State.csrWrite_staleData {s t : State} {k : CsrIndex} {v : Word} (h : s.csrWrite k v = some t) :
    t.staleData = s.staleData ∨ t.staleData = s.invalidateData.staleData := by
  unfold State.csrWrite State.writeBp State.writeWp at h
  split at h <;> (try split at h) <;> simp only [Option.some.injEq, reduceCtorEq] at h <;> subst h <;>
    first
    | exact .inl rfl
    | exact .inr rfl

/-- What a write of a control and status register does to the lines of the data cache. -/
theorem State.csrWrite_dataLines {s t : State} {k : CsrIndex} {v : Word} (h : s.csrWrite k v = some t) :
    t.dataLines = s.dataLines ∨ t.dataLines = s.invalidateData.dataLines := by
  unfold State.csrWrite State.writeBp State.writeWp at h
  split at h <;> (try split at h) <;> simp only [Option.some.injEq, reduceCtorEq] at h <;> subst h <;>
    first
    | exact .inr (by with_reducible rfl)
    | exact .inl rfl

/-- An invalidation takes lines of the data cache away, or marks them. -/
theorem State.places_invalidateData (s : State) :
    (s.invalidateData.dataLines.map CacheLine.place).Sublist (s.dataLines.map CacheLine.place) := by
  rw [State.invalidateData_dataLines, ← places_dropping s.dataLines true]
  split
  · exact places_settleLines ..
  · exact List.Sublist.refl _

/-- What passes before an instruction takes lines of the data cache away. -/
theorem State.places_prepare (s : State) (m : Bool) :
    ((s.prepare m).dataLines.map CacheLine.place).Sublist (s.dataLines.map CacheLine.place) := by
  rw [State.prepare_dataLines]
  split
  · exact places_settleLines ..
  · exact List.Sublist.map _ List.filter_sublist

/-! ### Inputs -/

/-- What another master's byte leaves unchanged. -/
theorem State.masterByte_frame (s : State) (a : Word) (b : Option Byte) :
    s.masterByte a b = { s with mem := (s.masterByte a b).mem, staleData := (s.masterByte a b).staleData } := by
  cases b <;> rfl

/-- What another master's transfer leaves unchanged. -/
theorem State.masterWrite_frame (s : State) (w : BusWrite) :
    s.masterWrite w = { s with
      mem := (s.masterWrite w).mem
      staleCode := (s.masterWrite w).staleCode
      staleData := (s.masterWrite w).staleData } := by
  have key : ∀ (u : State) (a : Word) (b : Option Byte), ∃ m d, u.masterByte a b = { u with mem := m, staleData := d } :=
    fun u a b => ⟨_, _, u.masterByte_frame a b⟩
  obtain ⟨m0, d0, e0⟩ := key s (w.word ++ 0#2) w.b0
  obtain ⟨m1, d1, e1⟩ := key { s with mem := m0, staleData := d0 } (w.word ++ 0#2 + 1#32) w.b1
  obtain ⟨m2, d2, e2⟩ := key { s with mem := m1, staleData := d1 } (w.word ++ 0#2 + 2#32) w.b2
  obtain ⟨m3, d3, e3⟩ := key { s with mem := m2, staleData := d2 } (w.word ++ 0#2 + 3#32) w.b3
  have h : s.masterWrite w = { s with
      mem := m3
      staleCode := s.recordCode (w.word ++ 0#2) (masterLife s.cfg (w.word ++ 0#2)) m3
      staleData := d3 } := by
    simp only [State.masterWrite, e0, e1, e2, e3]
  rw [h]

/-- What a list of transfers leaves unchanged. -/
theorem State.foldl_masterWrite_frame (ws : List BusWrite) (s : State) :
    ∃ m c d, ws.foldl State.masterWrite s = { s with mem := m, staleCode := c, staleData := d } := by
  induction ws generalizing s with
  | nil => exact ⟨s.mem, s.staleCode, s.staleData, rfl⟩
  | cons w ws ih =>
    obtain ⟨m, c, d, h⟩ := ih (s.masterWrite w)
    refine ⟨m, c, d, ?_⟩
    rw [List.foldl_cons, h, State.masterWrite_frame]

/-- Everything that taking an input can do. -/
theorem State.takeInput_cases (s : State) :
    (s.inputs = [] ∧ s.takeInput = s) ∨
    ∃ i rest m c d, s.inputs = i :: rest ∧
      s.takeInput = { s with
        inputs := rest
        intLines := i.lines
        resetPin := i.reset
        atDebug := i.atDebug
        mem := m
        staleCode := c
        staleData := d } := by
  unfold State.takeInput
  cases h : s.inputs with
  | nil => exact .inl ⟨rfl, rfl⟩
  | cons i rest =>
    obtain ⟨m, c, d, e⟩ := State.foldl_masterWrite_frame i.writes
      { s with inputs := rest, intLines := i.lines, resetPin := i.reset, atDebug := i.atDebug }
    exact .inr ⟨i, rest, m, c, d, rfl, e⟩

/-- What the start of a step leaves unchanged. -/
theorem State.sample_frame (s : State) :
    s.sample.cfg = s.cfg ∧ s.sample.regs = s.regs ∧ s.sample.pc = s.pc ∧ s.sample.ieIE = s.ieIE ∧ s.sample.ieEIE = s.ieEIE ∧
      s.sample.ieBIE = s.ieBIE ∧ s.sample.im = s.im ∧ s.sample.eba = s.eba ∧ s.sample.dc = s.dc ∧ s.sample.deba = s.deba ∧
      s.sample.bp = s.bp ∧ s.sample.wp = s.wp ∧ s.sample.lastMem = s.lastMem ∧ s.sample.waiting = s.waiting ∧
      s.sample.events = s.events ∧ s.sample.dataLines = s.dataLines ∧ s.sample.dataWay = s.dataWay ∧
      s.sample.codeLines = s.codeLines ∧ s.sample.codeWay = s.codeWay ∧ s.sample.icc = s.icc := by
  obtain ⟨-, h⟩ | ⟨i, rest, m, c, d, -, h⟩ := s.takeInput_cases <;> simp [State.sample, h]

@[simp] theorem State.sample_cfg (s : State) : s.sample.cfg = s.cfg := s.sample_frame.1
@[simp] theorem State.sample_pc (s : State) : s.sample.pc = s.pc := s.sample_frame.2.2.1

/-! ### Fetch and step -/

/-- A fetch from ordinary memory that may be fetched gives a word. -/
theorem State.fetch_memory {s : State} (ha : wordAligned s.pc = true) (hr : respond s.cfg .fetch .word s.pc = .memory)
    (hd : fetchDefined s.cfg s.pc = true) :
    s.fetch = .word (s.fetchMemory s.pc) ((s.fetchDraw s.pc).cacheFetch s.pc) := by
  simp [State.fetch, ha, hr, hd]

/-- So does a fetch from a device. -/
theorem State.fetch_device {s : State} (ha : wordAligned s.pc = true) (hr : respond s.cfg .fetch .word s.pc = .device)
    (hd : fetchDefined s.cfg s.pc = true) : s.fetch = .word (s.deviceWord s.pc) (s.deviceFetch s.pc) := by
  simp [State.fetch, ha, hr, hd]

/-- Everything that a fetch which gives a word can be. -/
theorem State.fetch_word {s t : State} {w : Word} (h : s.fetch = .word w t) :
    wordAligned s.pc = true ∧ fetchDefined s.cfg s.pc = true ∧
      ((respond s.cfg .fetch .word s.pc = .memory ∧ w = s.fetchMemory s.pc ∧ t = (s.fetchDraw s.pc).cacheFetch s.pc) ∨
        (respond s.cfg .fetch .word s.pc = .device ∧ w = s.deviceWord s.pc ∧ t = s.deviceFetch s.pc)) := by
  unfold State.fetch at h
  cases ha : wordAligned s.pc <;> cases hd : fetchDefined s.cfg s.pc <;> cases hr : respond s.cfg .fetch .word s.pc <;>
    simp_all

/-- What a fetch does to the instruction cache, from memory or at an address that is cached. -/
theorem State.cacheFetch_afterFetch (s : State) (f : Nat)
    (h : codeCached s.cfg s.pc = true ∨ respond s.cfg .fetch .word s.pc = .memory) :
    AfterFetch s (({ s with free := f } : State).cacheFetch s.pc) := by
  have hf := ({ s with free := f } : State).cacheFetch_frame s.pc
  obtain ⟨hm, e⟩ | ⟨hm, e⟩ := ({ s with free := f } : State).cacheFetch_cases s.pc <;> rw [e] at hf ⊢
  · exact {
      frame := hf
      noMiss := fun hn => absurd hm hn
      noEvent := fun hn => absurd hm hn
      event := fun hc => by rw [hm.1] at hc; cases hc
      way := fun _ => rfl
      line := fun _ hl => by
        obtain ⟨l, hx, hy⟩ := putLine_fillsLine ({ s with free := f } : State) (geometry_of_codeCached hl hm.1).1
          (fetchAnswer s.cfg) s.codeWay s.pc s.codeLines
        exact ⟨l, ⟨hx.addr, hx.way, hx.length, hx.bytes⟩, hy⟩
      events := fun _ hl => fillEvents_readsDevices (geometry_of_codeCached hl hm.1).1 rfl }
  · exact {
      frame := rfl
      noMiss := fun _ => ⟨rfl, rfl⟩
      noEvent := fun _ _ => rfl
      event := fun hc hd => by rw [hc, hd] at h; simp at h
      way := fun hn => absurd hn hm
      line := fun hn => absurd hn hm
      events := fun hn => absurd hn hm }

/-- What a fetch from a device does, from the cache or not. -/
theorem State.deviceFetch_cases (s : State) (a : Word) :
    (codeCached s.cfg a = true ∧ s.deviceFetch a = s.cacheFetch a ∧
      s.deviceWord a = ((s.heldCode a).getD (s.codeLine a)).value .word a) ∨
    (codeCached s.cfg a = false ∧ s.deviceFetch a = { s with events := .deviceFetch a :: s.events, free := s.free + 1 } ∧
      s.deviceWord a = Config.freeWord s.free) := by
  unfold State.deviceFetch State.deviceWord
  cases codeCached s.cfg a <;> simp

/-- What the state after a fetch differs in. -/
theorem State.fetch_afterFetch {s t : State} {w : Word} (h : s.fetch = .word w t) : AfterFetch s t := by
  obtain ⟨-, -, ⟨hr, -, rfl⟩ | ⟨hr, -, rfl⟩⟩ := State.fetch_word h
  · exact s.cacheFetch_afterFetch _ (.inr hr)
  · obtain ⟨hc, e, -⟩ | ⟨hc, e, -⟩ := s.deviceFetch_cases s.pc <;> rw [e]
    · exact s.cacheFetch_afterFetch s.free (.inl hc)
    · have hm : ¬ CodeMisses s s.pc := fun hm => by rw [hm.1] at hc; cases hc
      exact {
        frame := rfl
        noMiss := fun _ => ⟨rfl, rfl⟩
        noEvent := fun _ h' => by rw [hc, hr] at h'; simp at h'
        event := fun _ _ => rfl
        way := fun hn => absurd hn hm
        line := fun hn => absurd hn hm
        events := fun hn => absurd hn hm }

/-- Words depend on nothing but memory. -/
theorem heldWord_congr {s t : State} (h : t.mem = s.mem) (a : Word) : heldWord t a = heldWord s a := by
  simp only [heldWord, State.byteAt_congr h]

/-- What the words of the instruction cache depend on: a copy that stays is recorded as it was. -/
theorem codeWords_congr {s t : State} (h : CodeWords s) (hcfg : t.cfg = s.cfg) (hl : ∀ l ∈ t.codeLines, l ∈ s.codeLines)
    (hm : t.mem = s.mem) (hs : t.staleCode = s.staleCode) (hi : t.icc = s.icc) : CodeWords t := by
  intro l hx a ha hc hla hr
  rw [hcfg] at hc hla hr
  rcases h l (hl l hx) a ha hc hla hr with h' | h'
  · exact .inl (h'.trans (heldWord_congr hm a).symm)
  · rw [← hs, ← hi] at h'
    exact .inr h'

/-- A fetch keeps the words of the instruction cache recorded: those of a line that it fills are memory's. -/
theorem State.cacheFetch_codeWords {s : State} (hl : cfgLegal s.cfg = true) (h : CodeWords s) (a : Word) :
    CodeWords (s.cacheFetch a) := by
  obtain ⟨hm, e⟩ | ⟨-, e⟩ := s.cacheFetch_cases a <;> rw [e]
  · have g := geometry_of_codeCached hl hm.1
    have hf := s.newLine_filled g.1 (fetchAnswer s.cfg) s.codeWay a
    intro l hx b ha hc hla hr
    rw [State.fillCode_codeLines, putLine, List.mem_cons, List.mem_filter] at hx
    rw [State.fillCode_cfg] at hc hla hr
    rcases hx with rfl | ⟨hx, -⟩
    · exact .inl ((value_of_filledLine hf g.1 ha hla.symm hr).trans (heldWord_congr (s.fillCode_mem a) b).symm)
    · rcases h l hx b ha hc hla hr with h' | h'
      · exact .inl (h'.trans (heldWord_congr (s.fillCode_mem a) b).symm)
      · exact .inr h'
  · exact h

/-- A fetch that gives a word does to the instruction cache what `cacheFetch` does, from some number of free values, or nothing. -/
theorem State.fetch_code {s t : State} {w : Word} (h : s.fetch = .word w t) :
    (∃ f : Nat, t = ({ s with free := f } : State).cacheFetch s.pc) ∨ ∃ e f, t = { s with events := e, free := f } := by
  obtain ⟨-, -, ⟨-, -, rfl⟩ | ⟨-, -, rfl⟩⟩ := State.fetch_word h
  · exact .inl ⟨_, rfl⟩
  · obtain ⟨-, e, -⟩ | ⟨-, e, -⟩ := s.deviceFetch_cases s.pc
    · exact .inl ⟨s.free, e⟩
    · exact .inr ⟨_, _, e⟩

/-- A fetch keeps the instruction cache organised. -/
theorem State.fetch_organised {s t : State} {w : Word} (h : s.fetch = .word w t) (hl : cfgLegal s.cfg = true)
    (ho : Organised s.cfg.icache s.codeLines) (hw : s.cfg.hasICache = true → s.codeWay < s.cfg.icache.ways) :
    Organised s.cfg.icache t.codeLines ∧ (s.cfg.hasICache = true → t.codeWay < s.cfg.icache.ways) := by
  obtain ⟨f, rfl⟩ | ⟨e, f, rfl⟩ := State.fetch_code h
  · exact State.cacheFetch_organised (s := { s with free := f }) hl ho hw s.pc
  · exact ⟨ho, hw⟩

/-- A fetch keeps the words of the instruction cache recorded. -/
theorem State.fetch_codeWords {s t : State} {w : Word} (h : s.fetch = .word w t) (hl : cfgLegal s.cfg = true) (hc : CodeWords s) :
    CodeWords t := by
  obtain ⟨f, rfl⟩ | ⟨e, f, rfl⟩ := State.fetch_code h
  · exact State.cacheFetch_codeWords (s := { s with free := f }) hl (codeWords_congr hc rfl (fun _ h => h) rfl rfl rfl) s.pc
  · exact codeWords_congr hc rfl (fun _ h => h) rfl rfl rfl

/-- Everything that the issue of a decoded instruction can do when it gives a next state. -/
theorem issue_next {i : Instr} {s t : State} (h : issue i s = .next t) :
    (s.interruptPending = true ∧ t = s.enter .interrupt) ∨
      (unitPresent s.cfg i = true ∧ ∃ u, exec i (s.prepare (isDataAccess i)) = .next u ∧ t = u.executed i) := by
  unfold issue at h
  split at h
  · next hi =>
    simp only [Bool.and_eq_true] at hi
    exact .inl ⟨hi.1, (Host.Outcome.next.inj h).symm⟩
  · split at h
    · cases h
    · next hu =>
      unfold execute mapNext at h
      split at h
      · next u hu' => exact .inr ⟨by simpa using hu, u, hu', (Host.Outcome.next.inj h).symm⟩
      · cases h
      · cases h

/-- Everything that a fetched word can do when it gives a next state. -/
theorem runWord_next {w : Word} {s t : State} (h : runWord w s = .next t) :
    (s.interruptPending = true ∧ t = s.enter .interrupt) ∨
      ∃ i, decode w = .instr i ∧ unitPresent s.cfg i = true ∧
        ∃ u, exec i (s.prepare (isDataAccess i)) = .next u ∧ t = u.executed i := by
  unfold runWord at h
  split at h
  · split at h
    · next hi => exact .inl ⟨hi, (Host.Outcome.next.inj h).symm⟩
    · cases h
  · next i hd => exact (issue_next h).imp_right fun hx => ⟨i, hd, hx⟩

/-- Everything that a step can do, once the inputs are sampled, when it gives a next state. -/
theorem stepSampled_next {s t : State} (h : stepSampled s = .next t) :
    (s.resetPin = true ∧ t = s.takeReset) ∨ (s.waiting = true ∧ t = s) ∨ (s.breakpointHit = true ∧ t = s.enter .breakpoint) ∨
    (s.fetch = .busError ∧ t = s.enter .instructionBusError) ∨ (s.fetch = .stuck ∧ t = s.stall) ∨
    ∃ w u, s.fetch = .word w u ∧ runWord w u = .next t := by
  unfold stepSampled at h
  split at h
  · next hr => exact .inl ⟨hr, by simpa [eq_comm] using h⟩
  split at h
  · next hw => exact .inr (.inl ⟨hw, by simpa [eq_comm] using h⟩)
  split at h
  · simp at h
  split at h
  · next hb => exact .inr (.inr (.inl ⟨hb, by simpa [eq_comm] using h⟩))
  split at h
  · next hf => exact .inr (.inr (.inr (.inl ⟨hf, by simpa [eq_comm] using h⟩)))
  · simp at h
  · simp at h
  · next hf => exact .inr (.inr (.inr (.inr (.inl ⟨hf, by simpa [eq_comm] using h⟩))))
  · next w u hf => exact .inr (.inr (.inr (.inr (.inr ⟨w, u, hf, h⟩))))

/-- A step that gives a next state is one of a legal instance, once the inputs are sampled. -/
theorem step_next {s t : State} (h : step s = .next t) : cfgLegal s.cfg = true ∧ stepSampled s.sample = .next t := by
  unfold step at h
  split at h
  · next hc => exact ⟨hc, h⟩
  · simp at h

end Sys2Proof.Machine
end

