-- ==== Sys2Proof/Laws/Exec.lean ====
section
/-! SUPPORT. What an instruction can do, once for all of them: every next state of `exec` is one of these effects, so that a frame or an
invariant needs one case for each effect instead of one for each instruction. -/

namespace Sys2Proof.Machine

open Sys2Proof.Safety

/-- The effects that executing `i` in `s` can have. -/
inductive Effect (i : Instr) (s : State) : State → Prop where
  /-- A value goes to the destination. -/
  | result (r : Reg) (v : Word) (hd : destination i = some r) (hs : isStore i = false) : Effect i s (s.result r v)
  /-- A free value goes to the destination: `rcsr` of a register that cannot be read. -/
  | freeResult (r : Reg) (v : Word) (hd : destination i = some r) (hs : isStore i = false) :
      Effect i s (({ s with free := s.free + 1 } : State).result r v)
  /-- A load from memory. -/
  | loaded (r : Reg) (v : Word) (n : AccessSize) (a : Word) (hd : destination i = some r) (hs : isStore i = false)
      (hm : isDataAccess i = true) (ha : s.dataAccess .read n a = .memory) :
      Effect i s ((((s.loadDraw n a).cacheLoad n a).setReg r v).advance)
  /-- A load from a device. -/
  | deviceLoaded (r : Reg) (v : Word) (n : AccessSize) (a : Word) (hd : destination i = some r) (hs : isStore i = false)
      (hm : isDataAccess i = true) (ha : s.dataAccess .read n a = .device) :
      Effect i s (((s.deviceRead n a).setReg r v).advance)
  /-- A store to memory. -/
  | stored (n : AccessSize) (base data : Reg) (imm : BitVec 16) (hi : dataOperand i = some (.write, n, base, imm))
      (hs : isStore i = true) (ha : s.dataAccess .write n (s.effAddr base imm) = .memory) :
      Effect i s (s.storeMemory (s.effAddr base imm) (storeBytes n (s.reg data))).advance
  /-- A store to a device. -/
  | deviceStored (n : AccessSize) (a v : Word) (hs : isStore i = true) (hm : isDataAccess i = true)
      (ha : s.dataAccess .write n a = .device) :
      Effect i s (s.deviceWrite n a v).advance
  /-- An access that never ends. -/
  | stalled (hm : isDataAccess i = true) : Effect i s s.stall
  /-- An exception is entered; a debug exception only with debug support. -/
  | entered (e : Exc) (he : e ∈ [Exc.breakpoint, .watchpoint, .dataBusError, .divideByZero, .systemCall]) :
      Effect i s (s.enter e)
  /-- A control and status register is written. -/
  | csr (k : CsrIndex) (rX : Reg) (t : State) (hi : i = .wcsr k rX) (hw : s.csrWrite k (s.reg rX) = some t) :
      Effect i s t.advance
  /-- A branch that is not taken. -/
  | fallThrough (hs : isStore i = false) (hm : isDataAccess i = false) : Effect i s s.advance
  /-- A transfer, to a target relative to the pc or to a multiple of 4. -/
  | jumped (a : Word) (ha : wordAligned s.pc = true → wordAligned a = true) (hs : isStore i = false) : Effect i s (s.jump a)
  /-- A call. -/
  | called (a : Word) (ha : wordAligned s.pc = true → wordAligned a = true) (hi : isCall i = true) :
      Effect i s ((s.setReg ra (s.pc + 4#32)).jump a)
  /-- A return from an exception. -/
  | returned (a : Word) (e : Bool) (ha : wordAligned a = true) (hi : writesIe i = true) (hs : isStore i = false) :
      Effect i s { s.jump a with ieIE := e }

/-- An offset of whole words keeps an address aligned. -/
theorem wordAligned_add_offset {w : Nat} {pc : Word} (imm : BitVec w) (hw : w + 2 ≤ 32) (h : wordAligned pc = true) :
    wordAligned (pc + (imm ++ 0#2).signExtend 32) = true := by
  rw [wordAligned_iff] at h ⊢
  have key : ((imm ++ 0#2).signExtend 32).toNat % 4 = 0 := by
    have h0 : ((imm ++ 0#2).signExtend 32).extractLsb' 0 2 = 0#2 := by
      apply BitVec.eq_of_getLsbD_eq
      intro j hj
      rw [BitVec.getLsbD_extractLsb', Nat.zero_add, BitVec.getLsbD_signExtend, if_pos (show j < w + 2 by omega),
        BitVec.getLsbD_append, if_pos hj]
      simp
    have := congrArg BitVec.toNat h0
    simpa [BitVec.extractLsb'_toNat] using this
  rw [BitVec.toNat_add]
  omega

/-- A load has one of the effects of a load. -/
theorem Effect.of_load {i : Instr} {s t : State} {n : AccessSize} {ext : Word → Word} {dest base : Reg} {imm : BitVec 16}
    (hd : destination i = some dest) (hs : isStore i = false) (hm : isDataAccess i = true)
    (h : s.load n ext dest base imm = .next t) : Effect i s t := by
  obtain ⟨e, hda, rfl⟩ | ⟨-, rfl⟩ | ⟨ha, rfl⟩ | ⟨ha, rfl⟩ := State.load_next h
  · obtain ⟨rfl, -⟩ | ⟨rfl, -⟩ := State.dataAccess_trap hda <;> exact .entered _ (by simp)
  · exact .stalled hm
  · exact .deviceLoaded _ _ _ _ hd hs hm ha
  · exact .loaded _ _ _ _ hd hs hm ha

/-- A store has one of the effects of a store. -/
theorem Effect.of_store {i : Instr} {s t : State} {n : AccessSize} {base data : Reg} {imm : BitVec 16}
    (hi : dataOperand i = some (.write, n, base, imm)) (hs : isStore i = true)
    (h : s.store n base imm data = .next t) : Effect i s t := by
  obtain ⟨e, hda, rfl⟩ | ⟨-, rfl⟩ | ⟨ha, rfl⟩ | ⟨ha, rfl⟩ := State.store_next h
  · obtain ⟨rfl, -⟩ | ⟨rfl, -⟩ := State.dataAccess_trap hda <;> exact .entered _ (by simp)
  · exact .stalled (by simp [isDataAccess, hi])
  · exact .deviceStored _ _ _ hs (by simp [isDataAccess, hi]) ha
  · exact .stored n base data imm hi hs ha

/-- A plain result. -/
theorem Effect.of_result {i : Instr} {s t : State} {r : Reg} {v : Word} (hd : destination i = some r) (hs : isStore i = false)
    (h : (.next (s.result r v) : Host.Outcome State Fault Refusal) = .next t) : Effect i s t := by
  cases h
  exact .result r v hd hs

/-- A result that needs a unit. -/
theorem Effect.of_needs {i : Instr} {s t : State} {p : Bool} {r : Reg} {v : Word} (hd : destination i = some r)
    (hs : isStore i = false) (h : needs p (.next (s.result r v)) = .next t) : Effect i s t :=
  Effect.of_result hd hs (needs_next.mp h).2

/-- A division. -/
theorem Effect.of_divide {i : Instr} {s t : State} {p : Bool} {c : Prop} [Decidable c] {r : Reg} {v : Word}
    (hd : destination i = some r) (hs : isStore i = false)
    (h : needs p (if c then .next (s.enter .divideByZero) else .next (s.result r v)) = .next t) : Effect i s t := by
  have h' := (needs_next.mp h).2
  split at h'
  · cases h'
    exact .entered _ (by simp)
  · exact Effect.of_result hd hs h'

/-- A conditional branch. -/
theorem Effect.of_branch {i : Instr} {s t : State} {c : Bool} {imm : BitVec 16} (hs : isStore i = false)
    (hm : isDataAccess i = false)
    (h : (.next (s.branchIf c imm) : Host.Outcome State Fault Refusal) = .next t) : Effect i s t := by
  cases h
  obtain ⟨-, e⟩ | ⟨-, e⟩ := s.branchIf_cases c imm <;> rw [e]
  · exact .jumped _ (fun ha => wordAligned_add_offset imm (by decide) ha) hs
  · exact .fallThrough hs hm

/-- A branch to a register. -/
theorem Effect.of_jumpTo {i : Instr} {s t : State} {a : Word} (hs : isStore i = false) (h : s.jumpTo a = .next t) :
    Effect i s t := by
  obtain ⟨ha, rfl⟩ := State.jumpTo_next.mp h
  exact .jumped a (fun _ => ha) hs

/-- Every next state of an instruction is one of the effects. -/
theorem exec_effect {i : Instr} {s t : State} (h : exec i s = .next t) : Effect i s t := by
  cases i with
  | add => exact .of_result rfl rfl h
  | addi => exact .of_result rfl rfl h
  | sub => exact .of_result rfl rfl h
  | mul => exact .of_needs rfl rfl h
  | muli => exact .of_needs rfl rfl h
  | divu => exact .of_divide rfl rfl h
  | modu => exact .of_divide rfl rfl h
  | sextb => exact .of_needs rfl rfl h
  | sexth => exact .of_needs rfl rfl h
  | and => exact .of_result rfl rfl h
  | andi => exact .of_result rfl rfl h
  | andhi => exact .of_result rfl rfl h
  | or => exact .of_result rfl rfl h
  | ori => exact .of_result rfl rfl h
  | orhi => exact .of_result rfl rfl h
  | xor => exact .of_result rfl rfl h
  | xori => exact .of_result rfl rfl h
  | nor => exact .of_result rfl rfl h
  | nori => exact .of_result rfl rfl h
  | xnor => exact .of_result rfl rfl h
  | xnori => exact .of_result rfl rfl h
  | cmpe => exact .of_result rfl rfl h
  | cmpei => exact .of_result rfl rfl h
  | cmpne => exact .of_result rfl rfl h
  | cmpnei => exact .of_result rfl rfl h
  | cmpg => exact .of_result rfl rfl h
  | cmpgi => exact .of_result rfl rfl h
  | cmpgu => exact .of_result rfl rfl h
  | cmpgui => exact .of_result rfl rfl h
  | cmpge => exact .of_result rfl rfl h
  | cmpgei => exact .of_result rfl rfl h
  | cmpgeu => exact .of_result rfl rfl h
  | cmpgeui => exact .of_result rfl rfl h
  | sl => exact .of_needs rfl rfl h
  | sli => exact .of_needs rfl rfl h
  | sr => exact .of_needs rfl rfl h
  | sri => exact .of_needs rfl rfl h
  | sru => exact .of_needs rfl rfl h
  | srui => exact .of_needs rfl rfl h
  | lb => exact .of_load rfl rfl rfl h
  | lbu => exact .of_load rfl rfl rfl h
  | lh => exact .of_load rfl rfl rfl h
  | lhu => exact .of_load rfl rfl rfl h
  | lw => exact .of_load rfl rfl rfl h
  | sb => exact .of_store rfl rfl h
  | sh => exact .of_store rfl rfl h
  | sw => exact .of_store rfl rfl h
  | rcsr rX k =>
    simp only [exec, execRcsr] at h
    split at h
    · exact .of_result rfl rfl h
    · cases h
      exact .freeResult _ _ rfl rfl
  | wcsr k rX =>
    simp only [exec, execWcsr] at h
    split at h
    · next u hu =>
      cases h
      exact .csr k rX u rfl hu
    · cases h
  | b => exact .of_jumpTo rfl h
  | bi imm =>
    cases h
    exact .jumped _ (fun ha => wordAligned_add_offset imm (by decide) ha) rfl
  | be => exact .of_branch rfl rfl h
  | bne => exact .of_branch rfl rfl h
  | bg => exact .of_branch rfl rfl h
  | bgu => exact .of_branch rfl rfl h
  | bge => exact .of_branch rfl rfl h
  | bgeu => exact .of_branch rfl rfl h
  | call =>
    obtain ⟨ha, rfl⟩ := State.jumpTo_next.mp h
    exact .called _ (fun _ => ha) rfl
  | calli imm =>
    cases h
    exact .called _ (fun ha => wordAligned_add_offset imm (by decide) ha) rfl
  | scall =>
    cases h
    exact .entered _ (by simp)
  | eret =>
    obtain ⟨ha, rfl⟩ := State.returnTo_next.mp h
    exact .returned _ _ ha rfl rfl
  | brk =>
    simp only [exec, execBreak] at h
    split at h
    · cases h
      exact .entered _ (by simp)
    · cases h
  | bret =>
    obtain ⟨ha, rfl⟩ := State.returnTo_next.mp h
    exact .returned _ _ ha rfl rfl
  | ret => exact .of_jumpTo rfl h
  | mv => exact .of_result rfl rfl h
  | mvhi => exact .of_result rfl rfl h
  | not => exact .of_result rfl rfl h
  | mvi => exact .of_result rfl rfl h
  | nop => exact .of_result rfl rfl h

end Sys2Proof.Machine
end

