-- ==== Sys2Proof/Laws/Code.lean ====
section
/-! SUPPORT. Why the instruction cache holds no word of memory but the current and the recorded ones (20_memory.md R125): what each
operation does to `CodeWords`, once. -/

namespace Sys2Proof.Machine

open Sys2Proof.Safety

/-! ### Words and their bytes -/

/-- The word at `a`, in the words of the rule. -/
theorem heldWord_eq (s : State) (a : Word) : heldWord s a = s.wordAt a := rfl

/-- A byte of an aligned word lies in that word. -/
theorem wordAddress_offset {a : Word} (ha : wordAligned a = true) {k : Nat} (hk : k < 4) :
    wordAddress (a + BitVec.ofNat 32 k) = a := by
  rw [wordAligned_iff] at ha
  have := a.isLt
  apply BitVec.eq_of_toNat_eq
  rw [toNat_wordAddress, BitVec.toNat_add, BitVec.toNat_ofNat]
  omega

/-- The bytes of an aligned access lie in one word. -/
theorem wordAddress_stored {n : AccessSize} {a : Word} (ha : aligned n a = true) {k : Nat} (hk : k < n.bytes) :
    wordAddress (a + BitVec.ofNat 32 k) = wordAddress a := by
  apply BitVec.eq_of_toNat_eq
  have := a.isLt
  rw [toNat_wordAddress, toNat_wordAddress, BitVec.toNat_add, BitVec.toNat_ofNat]
  cases n
  · have : k = 0 := by simp only [AccessSize.bytes] at hk; omega
    subst this
    simp
    omega
  · have : a.toNat % 2 = 0 := by
      simp only [aligned, beq_iff_eq, ← BitVec.toNat_inj] at ha
      simpa [BitVec.extractLsb'_toNat] using ha
    simp only [AccessSize.bytes] at hk
    omega
  · have := (wordAligned_iff a).mp ha
    simp only [AccessSize.bytes] at hk
    omega

/-- A word changes only if one of its bytes does. -/
theorem heldWord_of_bytes {s t : State} {b : Word} (hb : wordAligned b = true)
    (h : ∀ x, wordAddress x = b → t.byteAt x = s.byteAt x) : heldWord t b = heldWord s b := by
  have h0 := h (b + 0#32) (wordAddress_offset hb (k := 0) (by decide))
  rw [BitVec.add_zero] at h0
  unfold heldWord
  rw [h0, h _ (wordAddress_offset hb (k := 1) (by decide)), h _ (wordAddress_offset hb (k := 2) (by decide)),
    h _ (wordAddress_offset hb (k := 3) (by decide))]

/-! ### Writes of memory -/

/-- A write of memory in the word at `a` keeps every copy of the instruction cache recorded, if it records the word that it
overwrites for as long as the cache is not invalidated. -/
theorem codeWords_of_write {s t : State} {a : Word} {life : Option (Option Nat)} (h : CodeWords s) (hcfg : t.cfg = s.cfg)
    (hl : t.codeLines = s.codeLines) (hi : t.icc = s.icc) (hs : t.staleCode = s.recordCode a life t.mem)
    (hlife : codeCached s.cfg a = true → life = some none)
    (hout : ∀ x, wordAddress x ≠ a → t.byteAt x = s.byteAt x) : CodeWords t := by
  intro l hx b hb hc hla hr
  rw [hl] at hx
  rw [hcfg] at hc hla hr
  have kept : ∀ e ∈ s.staleCode, e ∈ t.staleCode := fun e he => by
    rw [hs]
    unfold State.recordCode
    split
    · exact he
    · split
      · exact he
      · exact List.mem_cons_of_mem _ he
  rcases h l hx b hb hc hla hr with hv | ⟨e, he, h1, h2, h3⟩
  · by_cases hba : b = a
    · subst hba
      rw [hlife hc, State.recordCode] at hs
      by_cases hm : t.mem.readWord b = s.wordAt b
      · exact .inl (hv.trans hm.symm)
      · rw [if_neg hm] at hs
        exact .inr ⟨{ addr := b, word := s.wordAt b, life := none }, by rw [hs]; exact List.mem_cons_self, rfl, hv.symm,
          fun _ hn => nomatch hn⟩
    · exact .inl (hv.trans (heldWord_of_bytes hb fun x hx => hout x (by rw [hx]; exact hba)).symm)
  · exact .inr ⟨e, kept e he, h1, h2, by rw [hi]; exact h3⟩

/-- A store of the core to memory. -/
theorem State.storeMemory_codeWords {s : State} (h : CodeWords s) {n : AccessSize} {a : Word} (ha : aligned n a = true) (v : Word) :
    CodeWords (s.storeMemory a (storeBytes n v)) := by
  refine codeWords_of_write (a := wordAddress a) (life := storeLife s.cfg (wordAddress a)) h rfl rfl rfl rfl ?_ ?_
  · intro hc
    have he := enabled_of_codeCached hc
    simp [storeLife, he, hc]
  · intro x hx
    refine State.byteAt_storeMemory_ne s a x _ fun k hk e => hx ?_
    rw [e]
    exact wordAddress_stored ha (by simpa using hk)

/-- The first address of a bus transfer is that of a word. -/
theorem wordAligned_append (w : BitVec 30) : wordAligned (w ++ 0#2) = true := by
  unfold wordAligned
  rw [BitVec.extractLsb'_append_eq_right]
  rfl

/-- A write of another master. -/
theorem State.masterWrite_codeWords {s : State} (h : CodeWords s) (w : BusWrite) : CodeWords (s.masterWrite w) := by
  have hf := s.masterWrite_frame w
  refine codeWords_of_write (a := w.word ++ 0#2) (life := masterLife s.cfg (w.word ++ 0#2)) h (by rw [hf]) (by rw [hf]) (by rw [hf])
    rfl (fun hc => by simp [masterLife, hc]) fun x hx => ?_
  have one : ∀ (u : State) (k : Nat) (b : Option Byte), k < 4 →
      (u.masterByte (w.word ++ 0#2 + BitVec.ofNat 32 k) b).byteAt x = u.byteAt x := fun u k b hk => by
    cases b with
    | none => rfl
    | some b =>
      refine Memory.readByte_writeByte_ne u.mem b fun e => hx ?_
      rw [BitVec.eq_of_toNat_eq e]
      exact wordAddress_offset (wordAligned_append w.word) hk
  have o0 := one s 0 w.b0 (by decide)
  rw [BitVec.add_zero] at o0
  exact (one _ 3 w.b3 (by decide)).trans ((one _ 2 w.b2 (by decide)).trans ((one _ 1 w.b1 (by decide)).trans o0))

/-- The inputs of a step. -/
theorem State.sample_codeWords {s : State} (h : CodeWords s) : CodeWords s.sample := by
  have key : ∀ (ws : List BusWrite) (u : State), CodeWords u → CodeWords (ws.foldl State.masterWrite u) := by
    intro ws
    induction ws with
    | nil => exact fun _ h => h
    | cons w ws ih => exact fun u h => ih _ (u.masterWrite_codeWords h w)
  have ht : CodeWords s.takeInput := by
    unfold State.takeInput
    split
    · exact h
    · exact key _ _ (codeWords_congr h rfl (fun _ h => h) rfl rfl rfl)
  exact codeWords_congr ht rfl (fun _ h => h) rfl rfl rfl

/-! ### Invalidations, transfers and exceptions -/

/-- `wcsr ICC`: what was recorded stays recorded for as long as the lines may stay. -/
theorem State.invalidateCode_codeWords {s : State} (h : CodeWords s) : CodeWords s.invalidateCode := by
  intro l hx a ha hc hla hr
  rw [State.invalidateCode_codeLines] at hx
  split at hx
  · cases hx
  · next hn =>
    rcases h l hx a ha hc hla hr with h' | ⟨e, he, h1, h2, h3⟩
    · exact .inl h'
    · refine .inr ⟨_, List.mem_map_of_mem he, h1, h2, fun n hl => ?_⟩
      rw [State.invalidateCode_icc, if_neg hn]
      cases hL : e.life with
      | none => exact ⟨4, by simp, by simp [hL] at hl; omega⟩
      | some k =>
        obtain ⟨d, hd, hk⟩ := h3 k hL
        exact ⟨d, by simp [hd], by simp [hL] at hl; omega⟩

/-- What passes before an instruction: as long as a line stays, what was recorded for it does. -/
theorem State.prepare_codeWords {s : State} (h : CodeWords s) (m : Bool) : CodeWords (s.prepare m) := by
  intro l hx a ha hc hla hr
  rw [State.prepare_codeLines] at hx
  obtain ⟨-, e⟩ | ⟨hd, e, hp⟩ := settleCode_cases (if m then s.free + s.dataLines.length else s.free) s.icc s.codeLines
  · rw [e] at hx
    cases hx
  · rw [e] at hx
    rcases h l hx a ha hc hla hr with h' | ⟨e, he, h1, h2, h3⟩
    · exact .inl h'
    · cases hL : e.life with
      | none =>
        refine .inr ⟨e, ?_, h1, h2, fun n hl => by rw [hL] at hl; cases hl⟩
        rw [State.prepare_staleCode, List.mem_filterMap]
        exact ⟨e, he, by simp [StaleWord.age, hL]⟩
      | some k =>
        obtain ⟨d, hdi, hdk⟩ := h3 k hL
        have h4 : 1 ≤ slotsDue (if m then s.free + s.dataLines.length else s.free) := Nat.le_max_left ..
        have h5 := hd d hdi
        refine .inr ⟨{ e with life := some (k - 1) }, ?_, h1, h2, fun n hl => ⟨d - 1, ?_, ?_⟩⟩
        · rw [State.prepare_staleCode, List.mem_filterMap]
          refine ⟨e, he, ?_⟩
          simp only [StaleWord.age, hL]
          rw [if_neg (by omega)]
        · rw [State.prepare_icc, hp]
          exact List.mem_map_of_mem hdi
        · simp only [Option.some.injEq] at hl
          omega

/-- A transfer or an exception: with an instruction cache nothing that was recorded goes, and without one nothing is cached. -/
theorem codeWords_of_refetched {s t : State} (h : CodeWords s) (hcfg : t.cfg = s.cfg) (hl : t.codeLines = s.codeLines)
    (hm : t.mem = s.mem) (hs : t.staleCode = if s.cfg.hasICache then s.staleCode else []) (hi : t.icc = s.icc) : CodeWords t := by
  cases he : s.cfg.hasICache with
  | true => exact codeWords_congr h hcfg (fun _ hx => by rw [← hl]; exact hx) hm (by rw [hs, he]; rfl) hi
  | false =>
    intro l hx a ha hc
    rw [hcfg] at hc
    rw [enabled_of_codeCached hc] at he
    cases he

/-- The entry of an exception. -/
theorem State.enter_codeWords {s : State} (h : CodeWords s) (e : Exc) : CodeWords (s.enter e) :=
  codeWords_of_refetched h (by simp) (by simp) (by simp) (by simp) (by simp)

/-- Every instruction. -/
theorem Effect.codeWords {i : Instr} {s t : State} (he : Effect i s t) (h : CodeWords s) : CodeWords t := by
  have same : ∀ {u : State}, u.cfg = s.cfg → u.codeLines = s.codeLines → u.mem = s.mem → u.staleCode = s.staleCode → u.icc = s.icc →
      CodeWords u := fun hc hl => codeWords_congr h hc (fun _ hx => by rw [← hl]; exact hx)
  cases he with
  | result => exact same rfl rfl rfl rfl rfl
  | freeResult => exact same rfl rfl rfl rfl rfl
  | loaded => exact same (by simp) (by simp) (by simp) (by simp) (by simp)
  | deviceLoaded => exact same (by simp) (by simp) (by simp) (by simp) (by simp)
  | stored n base data imm hi hs ha =>
    exact codeWords_congr (State.storeMemory_codeWords h (State.dataAccess_eq_memory.mp ha).2.1 (s.reg data)) rfl (fun _ hx => hx)
      rfl rfl rfl
  | deviceStored => exact same rfl rfl rfl rfl rfl
  | stalled => exact same rfl rfl rfl rfl rfl
  | entered e => exact s.enter_codeWords h e
  | csr k rX u hi hw =>
    have hf := State.csrWrite_frame hw
    rcases State.csrWrite_code hw with ⟨e1, e2, e3⟩ | ⟨-, rfl⟩
    · exact same hf.1 e2 hf.2.2.2.2.2.2.1 e1 e3
    · exact codeWords_congr (State.invalidateCode_codeWords h) rfl (fun _ hx => hx) rfl rfl rfl
  | fallThrough => exact same rfl rfl rfl rfl rfl
  | jumped => exact codeWords_of_refetched h rfl rfl rfl rfl rfl
  | called => exact codeWords_of_refetched h rfl rfl rfl rfl rfl
  | returned => exact codeWords_of_refetched h rfl rfl rfl rfl rfl

end Sys2Proof.Machine
end

