-- ==== Sys2Proof/Laws/Decode.lean ====
section
/-! SUPPORT. The fields of the words that the encoder builds, and the decoder's answer on each kind of word. -/

namespace Sys2Proof

/-! ### Fields of a concatenation -/

theorem extractLsb'_append_low {a b : Nat} (x : BitVec a) (y : BitVec b) (st len : Nat) (h : st + len ≤ b) :
    (x ++ y).extractLsb' st len = y.extractLsb' st len := by
  apply BitVec.eq_of_getLsbD_eq
  intro i hi
  simp only [BitVec.getLsbD_extractLsb', BitVec.getLsbD_append, hi, decide_true, Bool.true_and]
  rw [if_pos (show st + i < b by omega)]

theorem extractLsb'_append_high {a b : Nat} (x : BitVec a) (y : BitVec b) (st len : Nat) (h : b ≤ st) :
    (x ++ y).extractLsb' st len = x.extractLsb' (st - b) len := by
  apply BitVec.eq_of_getLsbD_eq
  intro i hi
  simp only [BitVec.getLsbD_extractLsb', BitVec.getLsbD_append, hi, decide_true, Bool.true_and]
  rw [if_neg (show ¬ st + i < b by omega), show st + i - b = st - b + i by omega]

/-- Two adjacent fields put together again. -/
theorem extractLsb'_append_adjacent {n : Nat} (w : BitVec n) (st a b : Nat) :
    w.extractLsb' (st + b) a ++ w.extractLsb' st b = w.extractLsb' st (a + b) := by
  apply BitVec.eq_of_getLsbD_eq
  intro i hi
  simp only [BitVec.getLsbD_append, BitVec.getLsbD_extractLsb', hi, decide_true, Bool.true_and]
  by_cases h : i < b
  · rw [if_pos h, decide_eq_true h, Bool.true_and]
  · rw [if_neg h, decide_eq_true (show i - b < a by omega), Bool.true_and, show st + b + (i - b) = st + i by omega]

section Fields
variable (op : BitVec 6) (f0 f1 f2 : Reg) (imm : BitVec 16) (imm5 : BitVec 5) (imm26 : BitVec 26)

@[simp] theorem opcode_wordRI : opcode (wordRI op f0 f1 imm) = op := by
  show BitVec.extractLsb' 26 6 (op ++ f0 ++ f1 ++ imm : BitVec (6 + 5 + 5 + 16)) = op
  rw [extractLsb'_append_high _ _ _ _ (by decide), extractLsb'_append_high _ _ _ _ (by decide),
    extractLsb'_append_high _ _ _ _ (by decide)]
  exact BitVec.extractLsb'_eq_self

@[simp] theorem field0_wordRI : field0 (wordRI op f0 f1 imm) = f0 := by
  show BitVec.extractLsb' 21 5 (op ++ f0 ++ f1 ++ imm : BitVec (6 + 5 + 5 + 16)) = f0
  rw [extractLsb'_append_high _ _ _ _ (by decide), extractLsb'_append_high _ _ _ _ (by decide),
    extractLsb'_append_low _ _ _ _ (by decide)]
  exact BitVec.extractLsb'_eq_self

@[simp] theorem field1_wordRI : field1 (wordRI op f0 f1 imm) = f1 := by
  show BitVec.extractLsb' 16 5 (op ++ f0 ++ f1 ++ imm : BitVec (6 + 5 + 5 + 16)) = f1
  rw [extractLsb'_append_high _ _ _ _ (by decide), extractLsb'_append_low _ _ _ _ (by decide)]
  exact BitVec.extractLsb'_eq_self

@[simp] theorem fieldImm16_wordRI : fieldImm16 (wordRI op f0 f1 imm) = imm := by
  show BitVec.extractLsb' 0 16 (op ++ f0 ++ f1 ++ imm : BitVec (6 + 5 + 5 + 16)) = imm
  rw [extractLsb'_append_low _ _ _ _ (by decide)]
  exact BitVec.extractLsb'_eq_self

@[simp] theorem opcode_wordRR : opcode (wordRR op f0 f1 f2) = op := by
  show BitVec.extractLsb' 26 6 (op ++ f0 ++ f1 ++ f2 ++ 0#11 : BitVec (6 + 5 + 5 + 5 + 11)) = op
  rw [extractLsb'_append_high _ _ _ _ (by decide), extractLsb'_append_high _ _ _ _ (by decide),
    extractLsb'_append_high _ _ _ _ (by decide), extractLsb'_append_high _ _ _ _ (by decide)]
  exact BitVec.extractLsb'_eq_self

@[simp] theorem field0_wordRR : field0 (wordRR op f0 f1 f2) = f0 := by
  show BitVec.extractLsb' 21 5 (op ++ f0 ++ f1 ++ f2 ++ 0#11 : BitVec (6 + 5 + 5 + 5 + 11)) = f0
  rw [extractLsb'_append_high _ _ _ _ (by decide), extractLsb'_append_high _ _ _ _ (by decide),
    extractLsb'_append_high _ _ _ _ (by decide), extractLsb'_append_low _ _ _ _ (by decide)]
  exact BitVec.extractLsb'_eq_self

@[simp] theorem field1_wordRR : field1 (wordRR op f0 f1 f2) = f1 := by
  show BitVec.extractLsb' 16 5 (op ++ f0 ++ f1 ++ f2 ++ 0#11 : BitVec (6 + 5 + 5 + 5 + 11)) = f1
  rw [extractLsb'_append_high _ _ _ _ (by decide), extractLsb'_append_high _ _ _ _ (by decide),
    extractLsb'_append_low _ _ _ _ (by decide)]
  exact BitVec.extractLsb'_eq_self

@[simp] theorem field2_wordRR : field2 (wordRR op f0 f1 f2) = f2 := by
  show BitVec.extractLsb' 11 5 (op ++ f0 ++ f1 ++ f2 ++ 0#11 : BitVec (6 + 5 + 5 + 5 + 11)) = f2
  rw [extractLsb'_append_high _ _ _ _ (by decide), extractLsb'_append_low _ _ _ _ (by decide)]
  exact BitVec.extractLsb'_eq_self

@[simp] theorem low_wordRR : (wordRR op f0 f1 f2).extractLsb' 0 11 = 0#11 := by
  show BitVec.extractLsb' 0 11 (op ++ f0 ++ f1 ++ f2 ++ 0#11 : BitVec (6 + 5 + 5 + 5 + 11)) = 0#11
  rw [extractLsb'_append_low _ _ _ _ (by decide)]
  rfl

@[simp] theorem low21_wordRR : (wordRR op f0 0#5 0#5).extractLsb' 0 21 = 0#21 := by
  have h := extractLsb'_append_adjacent (wordRR op f0 0#5 0#5) 0 10 11
  have h2 : (wordRR op f0 0#5 0#5).extractLsb' 11 10 = 0#10 := by
    have h3 := extractLsb'_append_adjacent (wordRR op f0 0#5 0#5) 11 5 5
    have e1 : (wordRR op f0 0#5 0#5).extractLsb' 16 5 = 0#5 := field1_wordRR op f0 0#5 0#5
    have e2 : (wordRR op f0 0#5 0#5).extractLsb' 11 5 = 0#5 := field2_wordRR op f0 0#5 0#5
    rw [e1, e2] at h3
    exact h3.symm
  rw [h2, low_wordRR] at h
  exact h.symm

@[simp] theorem opcode_wordShiftImm : opcode (wordShiftImm op f0 f1 imm5) = op := by
  show BitVec.extractLsb' 26 6 (op ++ f0 ++ f1 ++ 0#11 ++ imm5 : BitVec (6 + 5 + 5 + 11 + 5)) = op
  rw [extractLsb'_append_high _ _ _ _ (by decide), extractLsb'_append_high _ _ _ _ (by decide),
    extractLsb'_append_high _ _ _ _ (by decide), extractLsb'_append_high _ _ _ _ (by decide)]
  exact BitVec.extractLsb'_eq_self

@[simp] theorem field0_wordShiftImm : field0 (wordShiftImm op f0 f1 imm5) = f0 := by
  show BitVec.extractLsb' 21 5 (op ++ f0 ++ f1 ++ 0#11 ++ imm5 : BitVec (6 + 5 + 5 + 11 + 5)) = f0
  rw [extractLsb'_append_high _ _ _ _ (by decide), extractLsb'_append_high _ _ _ _ (by decide),
    extractLsb'_append_high _ _ _ _ (by decide), extractLsb'_append_low _ _ _ _ (by decide)]
  exact BitVec.extractLsb'_eq_self

@[simp] theorem field1_wordShiftImm : field1 (wordShiftImm op f0 f1 imm5) = f1 := by
  show BitVec.extractLsb' 16 5 (op ++ f0 ++ f1 ++ 0#11 ++ imm5 : BitVec (6 + 5 + 5 + 11 + 5)) = f1
  rw [extractLsb'_append_high _ _ _ _ (by decide), extractLsb'_append_high _ _ _ _ (by decide),
    extractLsb'_append_low _ _ _ _ (by decide)]
  exact BitVec.extractLsb'_eq_self

@[simp] theorem low_wordShiftImm : (wordShiftImm op f0 f1 imm5).extractLsb' 5 11 = 0#11 := by
  show BitVec.extractLsb' 5 11 (op ++ f0 ++ f1 ++ 0#11 ++ imm5 : BitVec (6 + 5 + 5 + 11 + 5)) = 0#11
  rw [extractLsb'_append_high _ _ _ _ (by decide), extractLsb'_append_low _ _ _ _ (by decide)]
  rfl

@[simp] theorem fieldImm5_wordShiftImm : fieldImm5 (wordShiftImm op f0 f1 imm5) = imm5 := by
  show BitVec.extractLsb' 0 5 (op ++ f0 ++ f1 ++ 0#11 ++ imm5 : BitVec (6 + 5 + 5 + 11 + 5)) = imm5
  rw [extractLsb'_append_low _ _ _ _ (by decide)]
  exact BitVec.extractLsb'_eq_self

@[simp] theorem opcode_wordI : opcode (wordI op imm26) = op := by
  show BitVec.extractLsb' 26 6 (op ++ imm26 : BitVec (6 + 26)) = op
  rw [extractLsb'_append_high _ _ _ _ (by decide)]
  exact BitVec.extractLsb'_eq_self

@[simp] theorem fieldImm26_wordI : fieldImm26 (wordI op imm26) = imm26 := by
  show BitVec.extractLsb' 0 26 (op ++ imm26 : BitVec (6 + 26)) = imm26
  rw [extractLsb'_append_low _ _ _ _ (by decide)]
  exact BitVec.extractLsb'_eq_self

end Fields

/-! ### A word from its fields -/

theorem wordRI_of_fields (w : Word) : wordRI (opcode w) (field0 w) (field1 w) (fieldImm16 w) = w := by
  show (w.extractLsb' 26 6 ++ w.extractLsb' 21 5 ++ w.extractLsb' 16 5 ++ w.extractLsb' 0 16 : BitVec (6 + 5 + 5 + 16)) = w
  rw [extractLsb'_append_adjacent w 21 6 5, extractLsb'_append_adjacent w 16 11 5, extractLsb'_append_adjacent w 0 16 16]
  exact BitVec.extractLsb'_eq_self

theorem wordRR_of_fields (w : Word) (h : w.extractLsb' 0 11 = 0#11) :
    wordRR (opcode w) (field0 w) (field1 w) (field2 w) = w := by
  have e : wordRR (opcode w) (field0 w) (field1 w) (field2 w) =
      (w.extractLsb' 26 6 ++ w.extractLsb' 21 5 ++ w.extractLsb' 16 5 ++ w.extractLsb' 11 5 ++ w.extractLsb' 0 11 :
        BitVec (6 + 5 + 5 + 5 + 11)) := by
    rw [h]; rfl
  rw [e, extractLsb'_append_adjacent w 21 6 5, extractLsb'_append_adjacent w 16 11 5, extractLsb'_append_adjacent w 11 16 5,
    extractLsb'_append_adjacent w 0 21 11]
  exact BitVec.extractLsb'_eq_self

theorem wordShiftImm_of_fields (w : Word) (h : w.extractLsb' 5 11 = 0#11) :
    wordShiftImm (opcode w) (field0 w) (field1 w) (fieldImm5 w) = w := by
  have e : wordShiftImm (opcode w) (field0 w) (field1 w) (fieldImm5 w) =
      (w.extractLsb' 26 6 ++ w.extractLsb' 21 5 ++ w.extractLsb' 16 5 ++ w.extractLsb' 5 11 ++ w.extractLsb' 0 5 :
        BitVec (6 + 5 + 5 + 11 + 5)) := by
    rw [h]; rfl
  rw [e, extractLsb'_append_adjacent w 21 6 5, extractLsb'_append_adjacent w 16 11 5, extractLsb'_append_adjacent w 5 16 11,
    extractLsb'_append_adjacent w 0 27 5]
  exact BitVec.extractLsb'_eq_self

theorem wordI_of_fields (w : Word) : wordI (opcode w) (fieldImm26 w) = w := by
  show (w.extractLsb' 26 6 ++ w.extractLsb' 0 26 : BitVec (6 + 26)) = w
  rw [extractLsb'_append_adjacent w 0 6 26]
  exact BitVec.extractLsb'_eq_self

/-- The must-be-zero bits that two adjacent fields make up. -/
theorem fields_zero_of_append {a b : Nat} {x : BitVec a} {y : BitVec b} (h : x ++ y = 0#(a + b)) : x = 0#a ∧ y = 0#b := by
  constructor
  · have := congrArg (BitVec.extractLsb' b a) h
    rw [extractLsb'_append_high _ _ _ _ (Nat.le_refl b), Nat.sub_self, BitVec.extractLsb'_eq_self] at this
    simpa using this
  · have := congrArg (BitVec.extractLsb' 0 b) h
    rw [extractLsb'_append_low _ _ _ _ (by omega), BitVec.extractLsb'_eq_self] at this
    simpa using this

/-! ### The decoder by opcode (R160) -/

theorem decode_0x00 {w : Word} (h : opcode w = 0x00#6) : decode w = decodeShiftImm .srui w := by
  unfold decode; rw [h]; rfl
theorem decode_0x01 {w : Word} (h : opcode w = 0x01#6) : decode w = decodeRI .nori w := by
  unfold decode; rw [h]; rfl
theorem decode_0x02 {w : Word} (h : opcode w = 0x02#6) : decode w = decodeRI .muli w := by
  unfold decode; rw [h]; rfl
theorem decode_0x03 {w : Word} (h : opcode w = 0x03#6) : decode w = decodeStore .sh w := by
  unfold decode; rw [h]; rfl
theorem decode_0x04 {w : Word} (h : opcode w = 0x04#6) : decode w = decodeRI .lb w := by
  unfold decode; rw [h]; rfl
theorem decode_0x05 {w : Word} (h : opcode w = 0x05#6) : decode w = decodeShiftImm .sri w := by
  unfold decode; rw [h]; rfl
theorem decode_0x06 {w : Word} (h : opcode w = 0x06#6) : decode w = decodeRI .xori w := by
  unfold decode; rw [h]; rfl
theorem decode_0x07 {w : Word} (h : opcode w = 0x07#6) : decode w = decodeRI .lh w := by
  unfold decode; rw [h]; rfl
theorem decode_0x08 {w : Word} (h : opcode w = 0x08#6) : decode w = decodeRI .andi w := by
  unfold decode; rw [h]; rfl
theorem decode_0x09 {w : Word} (h : opcode w = 0x09#6) : decode w = decodeRI .xnori w := by
  unfold decode; rw [h]; rfl
theorem decode_0x0A {w : Word} (h : opcode w = 0x0A#6) : decode w = decodeRI .lw w := by
  unfold decode; rw [h]; rfl
theorem decode_0x0B {w : Word} (h : opcode w = 0x0B#6) : decode w = decodeRI .lhu w := by
  unfold decode; rw [h]; rfl
theorem decode_0x0C {w : Word} (h : opcode w = 0x0C#6) : decode w = decodeStore .sb w := by
  unfold decode; rw [h]; rfl
theorem decode_0x0D {w : Word} (h : opcode w = 0x0D#6) : decode w = decodeRI .addi w := by
  unfold decode; rw [h]; rfl
theorem decode_0x0E {w : Word} (h : opcode w = 0x0E#6) : decode w = decodeRI .ori w := by
  unfold decode; rw [h]; rfl
theorem decode_0x0F {w : Word} (h : opcode w = 0x0F#6) : decode w = decodeShiftImm .sli w := by
  unfold decode; rw [h]; rfl
theorem decode_0x10 {w : Word} (h : opcode w = 0x10#6) : decode w = decodeRI .lbu w := by
  unfold decode; rw [h]; rfl
theorem decode_0x11 {w : Word} (h : opcode w = 0x11#6) : decode w = decodeRI .be w := by
  unfold decode; rw [h]; rfl
theorem decode_0x12 {w : Word} (h : opcode w = 0x12#6) : decode w = decodeRI .bg w := by
  unfold decode; rw [h]; rfl
theorem decode_0x13 {w : Word} (h : opcode w = 0x13#6) : decode w = decodeRI .bge w := by
  unfold decode; rw [h]; rfl
theorem decode_0x14 {w : Word} (h : opcode w = 0x14#6) : decode w = decodeRI .bgeu w := by
  unfold decode; rw [h]; rfl
theorem decode_0x15 {w : Word} (h : opcode w = 0x15#6) : decode w = decodeRI .bgu w := by
  unfold decode; rw [h]; rfl
theorem decode_0x16 {w : Word} (h : opcode w = 0x16#6) : decode w = decodeStore .sw w := by
  unfold decode; rw [h]; rfl
theorem decode_0x17 {w : Word} (h : opcode w = 0x17#6) : decode w = decodeRI .bne w := by
  unfold decode; rw [h]; rfl
theorem decode_0x18 {w : Word} (h : opcode w = 0x18#6) : decode w = decodeRI .andhi w := by
  unfold decode; rw [h]; rfl
theorem decode_0x19 {w : Word} (h : opcode w = 0x19#6) : decode w = decodeRI .cmpei w := by
  unfold decode; rw [h]; rfl
theorem decode_0x1A {w : Word} (h : opcode w = 0x1A#6) : decode w = decodeRI .cmpgi w := by
  unfold decode; rw [h]; rfl
theorem decode_0x1B {w : Word} (h : opcode w = 0x1B#6) : decode w = decodeRI .cmpgei w := by
  unfold decode; rw [h]; rfl
theorem decode_0x1C {w : Word} (h : opcode w = 0x1C#6) : decode w = decodeRI .cmpgeui w := by
  unfold decode; rw [h]; rfl
theorem decode_0x1D {w : Word} (h : opcode w = 0x1D#6) : decode w = decodeRI .cmpgui w := by
  unfold decode; rw [h]; rfl
theorem decode_0x1E {w : Word} (h : opcode w = 0x1E#6) : decode w = decodeRI .orhi w := by
  unfold decode; rw [h]; rfl
theorem decode_0x1F {w : Word} (h : opcode w = 0x1F#6) : decode w = decodeRI .cmpnei w := by
  unfold decode; rw [h]; rfl
theorem decode_0x20 {w : Word} (h : opcode w = 0x20#6) : decode w = decodeRR .sru w := by
  unfold decode; rw [h]; rfl
theorem decode_0x21 {w : Word} (h : opcode w = 0x21#6) : decode w = decodeRR .nor w := by
  unfold decode; rw [h]; rfl
theorem decode_0x22 {w : Word} (h : opcode w = 0x22#6) : decode w = decodeRR .mul w := by
  unfold decode; rw [h]; rfl
theorem decode_0x23 {w : Word} (h : opcode w = 0x23#6) : decode w = decodeRR .divu w := by
  unfold decode; rw [h]; rfl
theorem decode_0x24 {w : Word} (h : opcode w = 0x24#6) : decode w = decodeReadCsr w := by
  unfold decode; rw [h]; rfl
theorem decode_0x25 {w : Word} (h : opcode w = 0x25#6) : decode w = decodeRR .sr w := by
  unfold decode; rw [h]; rfl
theorem decode_0x26 {w : Word} (h : opcode w = 0x26#6) : decode w = decodeRR .xor w := by
  unfold decode; rw [h]; rfl
theorem decode_0x28 {w : Word} (h : opcode w = 0x28#6) : decode w = decodeRR .and w := by
  unfold decode; rw [h]; rfl
theorem decode_0x29 {w : Word} (h : opcode w = 0x29#6) : decode w = decodeRR .xnor w := by
  unfold decode; rw [h]; rfl
theorem decode_0x2B {w : Word} (h : opcode w = 0x2B#6) : decode w = decodeSystem w := by
  unfold decode; rw [h]; rfl
theorem decode_0x2C {w : Word} (h : opcode w = 0x2C#6) : decode w = decodeExtend .sextb w := by
  unfold decode; rw [h]; rfl
theorem decode_0x2D {w : Word} (h : opcode w = 0x2D#6) : decode w = decodeRR .add w := by
  unfold decode; rw [h]; rfl
theorem decode_0x2E {w : Word} (h : opcode w = 0x2E#6) : decode w = decodeRR .or w := by
  unfold decode; rw [h]; rfl
theorem decode_0x2F {w : Word} (h : opcode w = 0x2F#6) : decode w = decodeRR .sl w := by
  unfold decode; rw [h]; rfl
theorem decode_0x30 {w : Word} (h : opcode w = 0x30#6) : decode w = decodeBranchReg w := by
  unfold decode; rw [h]; rfl
theorem decode_0x31 {w : Word} (h : opcode w = 0x31#6) : decode w = decodeRR .modu w := by
  unfold decode; rw [h]; rfl
theorem decode_0x32 {w : Word} (h : opcode w = 0x32#6) : decode w = decodeRR .sub w := by
  unfold decode; rw [h]; rfl
theorem decode_0x34 {w : Word} (h : opcode w = 0x34#6) : decode w = decodeWriteCsr w := by
  unfold decode; rw [h]; rfl
theorem decode_0x36 {w : Word} (h : opcode w = 0x36#6) : decode w = requireZero (w.extractLsb' 0 21) (.call (field0 w)) := by
  unfold decode; rw [h]; rfl
theorem decode_0x37 {w : Word} (h : opcode w = 0x37#6) : decode w = decodeExtend .sexth w := by
  unfold decode; rw [h]; rfl
theorem decode_0x38 {w : Word} (h : opcode w = 0x38#6) : decode w = .instr (.bi (fieldImm26 w)) := by
  unfold decode; rw [h]; rfl
theorem decode_0x39 {w : Word} (h : opcode w = 0x39#6) : decode w = decodeRR .cmpe w := by
  unfold decode; rw [h]; rfl
theorem decode_0x3A {w : Word} (h : opcode w = 0x3A#6) : decode w = decodeRR .cmpg w := by
  unfold decode; rw [h]; rfl
theorem decode_0x3B {w : Word} (h : opcode w = 0x3B#6) : decode w = decodeRR .cmpge w := by
  unfold decode; rw [h]; rfl
theorem decode_0x3C {w : Word} (h : opcode w = 0x3C#6) : decode w = decodeRR .cmpgeu w := by
  unfold decode; rw [h]; rfl
theorem decode_0x3D {w : Word} (h : opcode w = 0x3D#6) : decode w = decodeRR .cmpgu w := by
  unfold decode; rw [h]; rfl
theorem decode_0x3E {w : Word} (h : opcode w = 0x3E#6) : decode w = .instr (.calli (fieldImm26 w)) := by
  unfold decode; rw [h]; rfl
theorem decode_0x3F {w : Word} (h : opcode w = 0x3F#6) : decode w = decodeRR .cmpne w := by
  unfold decode; rw [h]; rfl

/-! ### The encoder and the expansion by constructor -/

section Constructors
@[simp] theorem encode_add (rX rY rZ : Reg) : encode (.add rX rY rZ) = wordRR 0x2D#6 rY rZ rX := rfl
@[simp] theorem encode_addi (rX rY : Reg) (imm : BitVec 16) : encode (.addi rX rY imm) = wordRI 0x0D#6 rY rX imm := rfl
@[simp] theorem encode_sub (rX rY rZ : Reg) : encode (.sub rX rY rZ) = wordRR 0x32#6 rY rZ rX := rfl
@[simp] theorem encode_mul (rX rY rZ : Reg) : encode (.mul rX rY rZ) = wordRR 0x22#6 rY rZ rX := rfl
@[simp] theorem encode_muli (rX rY : Reg) (imm : BitVec 16) : encode (.muli rX rY imm) = wordRI 0x02#6 rY rX imm := rfl
@[simp] theorem encode_divu (rX rY rZ : Reg) : encode (.divu rX rY rZ) = wordRR 0x23#6 rY rZ rX := rfl
@[simp] theorem encode_modu (rX rY rZ : Reg) : encode (.modu rX rY rZ) = wordRR 0x31#6 rY rZ rX := rfl
@[simp] theorem encode_sextb (rX rY : Reg) : encode (.sextb rX rY) = wordRR 0x2C#6 rY 0#5 rX := rfl
@[simp] theorem encode_sexth (rX rY : Reg) : encode (.sexth rX rY) = wordRR 0x37#6 rY 0#5 rX := rfl
@[simp] theorem encode_and (rX rY rZ : Reg) : encode (.and rX rY rZ) = wordRR 0x28#6 rY rZ rX := rfl
@[simp] theorem encode_andi (rX rY : Reg) (imm : BitVec 16) : encode (.andi rX rY imm) = wordRI 0x08#6 rY rX imm := rfl
@[simp] theorem encode_andhi (rX rY : Reg) (imm : BitVec 16) : encode (.andhi rX rY imm) = wordRI 0x18#6 rY rX imm := rfl
@[simp] theorem encode_or (rX rY rZ : Reg) : encode (.or rX rY rZ) = wordRR 0x2E#6 rY rZ rX := rfl
@[simp] theorem encode_ori (rX rY : Reg) (imm : BitVec 16) : encode (.ori rX rY imm) = wordRI 0x0E#6 rY rX imm := rfl
@[simp] theorem encode_orhi (rX rY : Reg) (imm : BitVec 16) : encode (.orhi rX rY imm) = wordRI 0x1E#6 rY rX imm := rfl
@[simp] theorem encode_xor (rX rY rZ : Reg) : encode (.xor rX rY rZ) = wordRR 0x26#6 rY rZ rX := rfl
@[simp] theorem encode_xori (rX rY : Reg) (imm : BitVec 16) : encode (.xori rX rY imm) = wordRI 0x06#6 rY rX imm := rfl
@[simp] theorem encode_nor (rX rY rZ : Reg) : encode (.nor rX rY rZ) = wordRR 0x21#6 rY rZ rX := rfl
@[simp] theorem encode_nori (rX rY : Reg) (imm : BitVec 16) : encode (.nori rX rY imm) = wordRI 0x01#6 rY rX imm := rfl
@[simp] theorem encode_xnor (rX rY rZ : Reg) : encode (.xnor rX rY rZ) = wordRR 0x29#6 rY rZ rX := rfl
@[simp] theorem encode_xnori (rX rY : Reg) (imm : BitVec 16) : encode (.xnori rX rY imm) = wordRI 0x09#6 rY rX imm := rfl
@[simp] theorem encode_cmpe (rX rY rZ : Reg) : encode (.cmpe rX rY rZ) = wordRR 0x39#6 rY rZ rX := rfl
@[simp] theorem encode_cmpei (rX rY : Reg) (imm : BitVec 16) : encode (.cmpei rX rY imm) = wordRI 0x19#6 rY rX imm := rfl
@[simp] theorem encode_cmpne (rX rY rZ : Reg) : encode (.cmpne rX rY rZ) = wordRR 0x3F#6 rY rZ rX := rfl
@[simp] theorem encode_cmpnei (rX rY : Reg) (imm : BitVec 16) : encode (.cmpnei rX rY imm) = wordRI 0x1F#6 rY rX imm := rfl
@[simp] theorem encode_cmpg (rX rY rZ : Reg) : encode (.cmpg rX rY rZ) = wordRR 0x3A#6 rY rZ rX := rfl
@[simp] theorem encode_cmpgi (rX rY : Reg) (imm : BitVec 16) : encode (.cmpgi rX rY imm) = wordRI 0x1A#6 rY rX imm := rfl
@[simp] theorem encode_cmpgu (rX rY rZ : Reg) : encode (.cmpgu rX rY rZ) = wordRR 0x3D#6 rY rZ rX := rfl
@[simp] theorem encode_cmpgui (rX rY : Reg) (imm : BitVec 16) : encode (.cmpgui rX rY imm) = wordRI 0x1D#6 rY rX imm := rfl
@[simp] theorem encode_cmpge (rX rY rZ : Reg) : encode (.cmpge rX rY rZ) = wordRR 0x3B#6 rY rZ rX := rfl
@[simp] theorem encode_cmpgei (rX rY : Reg) (imm : BitVec 16) : encode (.cmpgei rX rY imm) = wordRI 0x1B#6 rY rX imm := rfl
@[simp] theorem encode_cmpgeu (rX rY rZ : Reg) : encode (.cmpgeu rX rY rZ) = wordRR 0x3C#6 rY rZ rX := rfl
@[simp] theorem encode_cmpgeui (rX rY : Reg) (imm : BitVec 16) : encode (.cmpgeui rX rY imm) = wordRI 0x1C#6 rY rX imm := rfl
@[simp] theorem encode_sl (rX rY rZ : Reg) : encode (.sl rX rY rZ) = wordRR 0x2F#6 rY rZ rX := rfl
@[simp] theorem encode_sli (rX rY : Reg) (imm : BitVec 5) : encode (.sli rX rY imm) = wordShiftImm 0x0F#6 rY rX imm := rfl
@[simp] theorem encode_sr (rX rY rZ : Reg) : encode (.sr rX rY rZ) = wordRR 0x25#6 rY rZ rX := rfl
@[simp] theorem encode_sri (rX rY : Reg) (imm : BitVec 5) : encode (.sri rX rY imm) = wordShiftImm 0x05#6 rY rX imm := rfl
@[simp] theorem encode_sru (rX rY rZ : Reg) : encode (.sru rX rY rZ) = wordRR 0x20#6 rY rZ rX := rfl
@[simp] theorem encode_srui (rX rY : Reg) (imm : BitVec 5) : encode (.srui rX rY imm) = wordShiftImm 0x00#6 rY rX imm := rfl
@[simp] theorem encode_lb (rX rY : Reg) (imm : BitVec 16) : encode (.lb rX rY imm) = wordRI 0x04#6 rY rX imm := rfl
@[simp] theorem encode_lbu (rX rY : Reg) (imm : BitVec 16) : encode (.lbu rX rY imm) = wordRI 0x10#6 rY rX imm := rfl
@[simp] theorem encode_lh (rX rY : Reg) (imm : BitVec 16) : encode (.lh rX rY imm) = wordRI 0x07#6 rY rX imm := rfl
@[simp] theorem encode_lhu (rX rY : Reg) (imm : BitVec 16) : encode (.lhu rX rY imm) = wordRI 0x0B#6 rY rX imm := rfl
@[simp] theorem encode_lw (rX rY : Reg) (imm : BitVec 16) : encode (.lw rX rY imm) = wordRI 0x0A#6 rY rX imm := rfl
@[simp] theorem encode_sb (rX : Reg) (imm : BitVec 16) (rY : Reg) : encode (.sb rX imm rY) = wordRI 0x0C#6 rX rY imm := rfl
@[simp] theorem encode_sh (rX : Reg) (imm : BitVec 16) (rY : Reg) : encode (.sh rX imm rY) = wordRI 0x03#6 rX rY imm := rfl
@[simp] theorem encode_sw (rX : Reg) (imm : BitVec 16) (rY : Reg) : encode (.sw rX imm rY) = wordRI 0x16#6 rX rY imm := rfl
@[simp] theorem encode_rcsr (rX : Reg) (csr : CsrIndex) : encode (.rcsr rX csr) = wordRR 0x24#6 csr 0#5 rX := rfl
@[simp] theorem encode_wcsr (csr : CsrIndex) (rX : Reg) : encode (.wcsr csr rX) = wordRI 0x34#6 csr rX 0#16 := rfl
@[simp] theorem encode_b (rX : Reg) : encode (.b rX) = wordRR 0x30#6 rX 0#5 0#5 := rfl
@[simp] theorem encode_bi (imm : BitVec 26) : encode (.bi imm) = wordI 0x38#6 imm := rfl
@[simp] theorem encode_be (rX rY : Reg) (imm : BitVec 16) : encode (.be rX rY imm) = wordRI 0x11#6 rY rX imm := rfl
@[simp] theorem encode_bne (rX rY : Reg) (imm : BitVec 16) : encode (.bne rX rY imm) = wordRI 0x17#6 rY rX imm := rfl
@[simp] theorem encode_bg (rX rY : Reg) (imm : BitVec 16) : encode (.bg rX rY imm) = wordRI 0x12#6 rY rX imm := rfl
@[simp] theorem encode_bgu (rX rY : Reg) (imm : BitVec 16) : encode (.bgu rX rY imm) = wordRI 0x15#6 rY rX imm := rfl
@[simp] theorem encode_bge (rX rY : Reg) (imm : BitVec 16) : encode (.bge rX rY imm) = wordRI 0x13#6 rY rX imm := rfl
@[simp] theorem encode_bgeu (rX rY : Reg) (imm : BitVec 16) : encode (.bgeu rX rY imm) = wordRI 0x14#6 rY rX imm := rfl
@[simp] theorem encode_call (rX : Reg) : encode (.call rX) = wordRR 0x36#6 rX 0#5 0#5 := rfl
@[simp] theorem encode_calli (imm : BitVec 26) : encode (.calli imm) = wordI 0x3E#6 imm := rfl
@[simp] theorem encode_scall : encode (.scall) = 0xAC000007#32 := rfl
@[simp] theorem encode_eret : encode (.eret) = 0xC3C00000#32 := rfl
@[simp] theorem encode_brk : encode (.brk) = 0xAC000002#32 := rfl
@[simp] theorem encode_bret : encode (.bret) = 0xC3E00000#32 := rfl
@[simp] theorem encode_ret : encode (.ret) = wordRR 0x30#6 29#5 0#5 0#5 := rfl
@[simp] theorem encode_mv (rX rY : Reg) : encode (.mv rX rY) = wordRR 0x2E#6 rY 0#5 rX := rfl
@[simp] theorem encode_mvhi (rX : Reg) (imm : BitVec 16) : encode (.mvhi rX imm) = wordRI 0x1E#6 0#5 rX imm := rfl
@[simp] theorem encode_not (rX rY : Reg) : encode (.not rX rY) = wordRR 0x29#6 rY 0#5 rX := rfl
@[simp] theorem encode_mvi (rX : Reg) (imm : BitVec 16) : encode (.mvi rX imm) = wordRI 0x0D#6 0#5 rX imm := rfl
@[simp] theorem encode_nop : encode (.nop) = 0x34000000#32 := rfl
@[simp] theorem expand_add (rX rY rZ : Reg) : Instr.expand (.add rX rY rZ) = .add rX rY rZ := rfl
@[simp] theorem expand_addi (rX rY : Reg) (imm : BitVec 16) : Instr.expand (.addi rX rY imm) = .addi rX rY imm := rfl
@[simp] theorem expand_sub (rX rY rZ : Reg) : Instr.expand (.sub rX rY rZ) = .sub rX rY rZ := rfl
@[simp] theorem expand_mul (rX rY rZ : Reg) : Instr.expand (.mul rX rY rZ) = .mul rX rY rZ := rfl
@[simp] theorem expand_muli (rX rY : Reg) (imm : BitVec 16) : Instr.expand (.muli rX rY imm) = .muli rX rY imm := rfl
@[simp] theorem expand_divu (rX rY rZ : Reg) : Instr.expand (.divu rX rY rZ) = .divu rX rY rZ := rfl
@[simp] theorem expand_modu (rX rY rZ : Reg) : Instr.expand (.modu rX rY rZ) = .modu rX rY rZ := rfl
@[simp] theorem expand_sextb (rX rY : Reg) : Instr.expand (.sextb rX rY) = .sextb rX rY := rfl
@[simp] theorem expand_sexth (rX rY : Reg) : Instr.expand (.sexth rX rY) = .sexth rX rY := rfl
@[simp] theorem expand_and (rX rY rZ : Reg) : Instr.expand (.and rX rY rZ) = .and rX rY rZ := rfl
@[simp] theorem expand_andi (rX rY : Reg) (imm : BitVec 16) : Instr.expand (.andi rX rY imm) = .andi rX rY imm := rfl
@[simp] theorem expand_andhi (rX rY : Reg) (imm : BitVec 16) : Instr.expand (.andhi rX rY imm) = .andhi rX rY imm := rfl
@[simp] theorem expand_or (rX rY rZ : Reg) : Instr.expand (.or rX rY rZ) = .or rX rY rZ := rfl
@[simp] theorem expand_ori (rX rY : Reg) (imm : BitVec 16) : Instr.expand (.ori rX rY imm) = .ori rX rY imm := rfl
@[simp] theorem expand_orhi (rX rY : Reg) (imm : BitVec 16) : Instr.expand (.orhi rX rY imm) = .orhi rX rY imm := rfl
@[simp] theorem expand_xor (rX rY rZ : Reg) : Instr.expand (.xor rX rY rZ) = .xor rX rY rZ := rfl
@[simp] theorem expand_xori (rX rY : Reg) (imm : BitVec 16) : Instr.expand (.xori rX rY imm) = .xori rX rY imm := rfl
@[simp] theorem expand_nor (rX rY rZ : Reg) : Instr.expand (.nor rX rY rZ) = .nor rX rY rZ := rfl
@[simp] theorem expand_nori (rX rY : Reg) (imm : BitVec 16) : Instr.expand (.nori rX rY imm) = .nori rX rY imm := rfl
@[simp] theorem expand_xnor (rX rY rZ : Reg) : Instr.expand (.xnor rX rY rZ) = .xnor rX rY rZ := rfl
@[simp] theorem expand_xnori (rX rY : Reg) (imm : BitVec 16) : Instr.expand (.xnori rX rY imm) = .xnori rX rY imm := rfl
@[simp] theorem expand_cmpe (rX rY rZ : Reg) : Instr.expand (.cmpe rX rY rZ) = .cmpe rX rY rZ := rfl
@[simp] theorem expand_cmpei (rX rY : Reg) (imm : BitVec 16) : Instr.expand (.cmpei rX rY imm) = .cmpei rX rY imm := rfl
@[simp] theorem expand_cmpne (rX rY rZ : Reg) : Instr.expand (.cmpne rX rY rZ) = .cmpne rX rY rZ := rfl
@[simp] theorem expand_cmpnei (rX rY : Reg) (imm : BitVec 16) : Instr.expand (.cmpnei rX rY imm) = .cmpnei rX rY imm := rfl
@[simp] theorem expand_cmpg (rX rY rZ : Reg) : Instr.expand (.cmpg rX rY rZ) = .cmpg rX rY rZ := rfl
@[simp] theorem expand_cmpgi (rX rY : Reg) (imm : BitVec 16) : Instr.expand (.cmpgi rX rY imm) = .cmpgi rX rY imm := rfl
@[simp] theorem expand_cmpgu (rX rY rZ : Reg) : Instr.expand (.cmpgu rX rY rZ) = .cmpgu rX rY rZ := rfl
@[simp] theorem expand_cmpgui (rX rY : Reg) (imm : BitVec 16) : Instr.expand (.cmpgui rX rY imm) = .cmpgui rX rY imm := rfl
@[simp] theorem expand_cmpge (rX rY rZ : Reg) : Instr.expand (.cmpge rX rY rZ) = .cmpge rX rY rZ := rfl
@[simp] theorem expand_cmpgei (rX rY : Reg) (imm : BitVec 16) : Instr.expand (.cmpgei rX rY imm) = .cmpgei rX rY imm := rfl
@[simp] theorem expand_cmpgeu (rX rY rZ : Reg) : Instr.expand (.cmpgeu rX rY rZ) = .cmpgeu rX rY rZ := rfl
@[simp] theorem expand_cmpgeui (rX rY : Reg) (imm : BitVec 16) : Instr.expand (.cmpgeui rX rY imm) = .cmpgeui rX rY imm := rfl
@[simp] theorem expand_sl (rX rY rZ : Reg) : Instr.expand (.sl rX rY rZ) = .sl rX rY rZ := rfl
@[simp] theorem expand_sli (rX rY : Reg) (imm : BitVec 5) : Instr.expand (.sli rX rY imm) = .sli rX rY imm := rfl
@[simp] theorem expand_sr (rX rY rZ : Reg) : Instr.expand (.sr rX rY rZ) = .sr rX rY rZ := rfl
@[simp] theorem expand_sri (rX rY : Reg) (imm : BitVec 5) : Instr.expand (.sri rX rY imm) = .sri rX rY imm := rfl
@[simp] theorem expand_sru (rX rY rZ : Reg) : Instr.expand (.sru rX rY rZ) = .sru rX rY rZ := rfl
@[simp] theorem expand_srui (rX rY : Reg) (imm : BitVec 5) : Instr.expand (.srui rX rY imm) = .srui rX rY imm := rfl
@[simp] theorem expand_lb (rX rY : Reg) (imm : BitVec 16) : Instr.expand (.lb rX rY imm) = .lb rX rY imm := rfl
@[simp] theorem expand_lbu (rX rY : Reg) (imm : BitVec 16) : Instr.expand (.lbu rX rY imm) = .lbu rX rY imm := rfl
@[simp] theorem expand_lh (rX rY : Reg) (imm : BitVec 16) : Instr.expand (.lh rX rY imm) = .lh rX rY imm := rfl
@[simp] theorem expand_lhu (rX rY : Reg) (imm : BitVec 16) : Instr.expand (.lhu rX rY imm) = .lhu rX rY imm := rfl
@[simp] theorem expand_lw (rX rY : Reg) (imm : BitVec 16) : Instr.expand (.lw rX rY imm) = .lw rX rY imm := rfl
@[simp] theorem expand_sb (rX : Reg) (imm : BitVec 16) (rY : Reg) : Instr.expand (.sb rX imm rY) = .sb rX imm rY := rfl
@[simp] theorem expand_sh (rX : Reg) (imm : BitVec 16) (rY : Reg) : Instr.expand (.sh rX imm rY) = .sh rX imm rY := rfl
@[simp] theorem expand_sw (rX : Reg) (imm : BitVec 16) (rY : Reg) : Instr.expand (.sw rX imm rY) = .sw rX imm rY := rfl
@[simp] theorem expand_rcsr (rX : Reg) (csr : CsrIndex) : Instr.expand (.rcsr rX csr) = .rcsr rX csr := rfl
@[simp] theorem expand_wcsr (csr : CsrIndex) (rX : Reg) : Instr.expand (.wcsr csr rX) = .wcsr csr rX := rfl
@[simp] theorem expand_b (rX : Reg) : Instr.expand (.b rX) = .b rX := rfl
@[simp] theorem expand_bi (imm : BitVec 26) : Instr.expand (.bi imm) = .bi imm := rfl
@[simp] theorem expand_be (rX rY : Reg) (imm : BitVec 16) : Instr.expand (.be rX rY imm) = .be rX rY imm := rfl
@[simp] theorem expand_bne (rX rY : Reg) (imm : BitVec 16) : Instr.expand (.bne rX rY imm) = .bne rX rY imm := rfl
@[simp] theorem expand_bg (rX rY : Reg) (imm : BitVec 16) : Instr.expand (.bg rX rY imm) = .bg rX rY imm := rfl
@[simp] theorem expand_bgu (rX rY : Reg) (imm : BitVec 16) : Instr.expand (.bgu rX rY imm) = .bgu rX rY imm := rfl
@[simp] theorem expand_bge (rX rY : Reg) (imm : BitVec 16) : Instr.expand (.bge rX rY imm) = .bge rX rY imm := rfl
@[simp] theorem expand_bgeu (rX rY : Reg) (imm : BitVec 16) : Instr.expand (.bgeu rX rY imm) = .bgeu rX rY imm := rfl
@[simp] theorem expand_call (rX : Reg) : Instr.expand (.call rX) = .call rX := rfl
@[simp] theorem expand_calli (imm : BitVec 26) : Instr.expand (.calli imm) = .calli imm := rfl
@[simp] theorem expand_scall : Instr.expand (.scall) = .scall := rfl
@[simp] theorem expand_eret : Instr.expand (.eret) = .eret := rfl
@[simp] theorem expand_brk : Instr.expand (.brk) = .brk := rfl
@[simp] theorem expand_bret : Instr.expand (.bret) = .bret := rfl
@[simp] theorem expand_ret : Instr.expand (.ret) = .b 29#5 := rfl
@[simp] theorem expand_mv (rX rY : Reg) : Instr.expand (.mv rX rY) = .or rX rY 0#5 := rfl
@[simp] theorem expand_mvhi (rX : Reg) (imm : BitVec 16) : Instr.expand (.mvhi rX imm) = .orhi rX 0#5 imm := rfl
@[simp] theorem expand_not (rX rY : Reg) : Instr.expand (.not rX rY) = .xnor rX rY 0#5 := rfl
@[simp] theorem expand_mvi (rX : Reg) (imm : BitVec 16) : Instr.expand (.mvi rX imm) = .addi rX 0#5 imm := rfl
@[simp] theorem expand_nop : Instr.expand (.nop) = .addi 0#5 0#5 0#16 := rfl
end Constructors

end Sys2Proof
end

