-- ==== Sys2Proof/Laws/Words.lean ====
section
/-! SUPPORT. The words as the rules print them (`base | Y<<21 | …`) are the words the encoder builds. -/

namespace Sys2Proof.Safety

theorem getLsbD_fieldAt (r : BitVec 5) (n i : Nat) (hn : n ≤ 27) :
    (fieldAt r n).getLsbD i = (decide (n ≤ i) && r.getLsbD (i - n)) := by
  unfold fieldAt
  rw [BitVec.getLsbD_shiftLeft, BitVec.getLsbD_setWidth]
  by_cases h : n ≤ i
  · have h' : ¬ i < n := by omega
    simp only [h, h', decide_true, decide_false, Bool.not_false, Bool.true_and, Bool.and_true]
    by_cases h32 : i < 32
    · simp [h32, show i - n < 32 by omega]
    · have : r.getLsbD (i - n) = false := BitVec.getLsbD_of_ge _ _ (by omega)
      simp [h32, this]
  · simp [h, show i < n by omega]

theorem printedRR_eq (op : BitVec 6) (rX rY rZ : Reg) :
    printedRR (op.setWidth 32 <<< 26) rX rY rZ = wordRR op rY rZ rX := by
  apply BitVec.eq_of_getLsbD_eq
  intro i hi
  show _ = (op ++ rY ++ rZ ++ rX ++ 0#11 : BitVec (6 + 5 + 5 + 5 + 11)).getLsbD i
  simp only [printedRR, BitVec.getLsbD_or, BitVec.getLsbD_append, BitVec.getLsbD_shiftLeft, BitVec.getLsbD_setWidth]
  simp only [Nat.sub_sub, Nat.reduceAdd]
  rw [getLsbD_fieldAt _ _ _ (by decide), getLsbD_fieldAt _ _ _ (by decide), getLsbD_fieldAt _ _ _ (by decide)]
  have hs (r : Reg) (k : Nat) (hk : 5 ≤ k) : r.getLsbD k = false := BitVec.getLsbD_of_ge _ _ hk
  by_cases h1 : i < 11
  · simp [h1, show ¬ 11 ≤ i by omega, show ¬ 16 ≤ i by omega, show ¬ 21 ≤ i by omega, show i < 26 by omega]
  by_cases h2 : i < 16
  · simp [h1, show 11 ≤ i by omega, show ¬ 16 ≤ i by omega, show ¬ 21 ≤ i by omega, show i < 26 by omega,
      show i - 11 < 5 by omega]
  have hx := hs rX (i - 11) (by omega)
  by_cases h3 : i < 21
  · simp [h1, hx, show 16 ≤ i by omega, show ¬ 21 ≤ i by omega, show i < 26 by omega, show ¬ i - 11 < 5 by omega,
      show i - 16 < 5 by omega]
  have hz := hs rZ (i - 16) (by omega)
  by_cases h4 : i < 26
  · simp [h1, hx, hz, show 21 ≤ i by omega, h4, show ¬ i - 11 < 5 by omega, show ¬ i - 16 < 5 by omega,
      show i - 21 < 5 by omega]
  have hy := hs rY (i - 21) (by omega)
  simp [h1, hx, hy, hz, hi, h4, show ¬ i - 11 < 5 by omega, show ¬ i - 16 < 5 by omega, show ¬ i - 21 < 5 by omega,
    show i - 26 < 32 by omega]

theorem printedRI_eq (op : BitVec 6) (rX rY : Reg) (imm : BitVec 16) :
    printedRI (op.setWidth 32 <<< 26) rX rY imm = wordRI op rY rX imm := by
  apply BitVec.eq_of_getLsbD_eq
  intro i hi
  show _ = (op ++ rY ++ rX ++ imm : BitVec (6 + 5 + 5 + 16)).getLsbD i
  simp only [printedRI, BitVec.getLsbD_or, BitVec.getLsbD_append, BitVec.getLsbD_shiftLeft, BitVec.getLsbD_setWidth]
  simp only [Nat.sub_sub, Nat.reduceAdd]
  rw [getLsbD_fieldAt _ _ _ (by decide), getLsbD_fieldAt _ _ _ (by decide)]
  have hs (r : Reg) (k : Nat) (hk : 5 ≤ k) : r.getLsbD k = false := BitVec.getLsbD_of_ge _ _ hk
  by_cases h2 : i < 16
  · simp [h2, hi, show ¬ 16 ≤ i by omega, show ¬ 21 ≤ i by omega, show i < 26 by omega]
  have hm : imm.getLsbD i = false := BitVec.getLsbD_of_ge _ _ (by omega)
  by_cases h3 : i < 21
  · simp [h2, show 16 ≤ i by omega, show ¬ 21 ≤ i by omega, show i < 26 by omega, show i - 16 < 5 by omega]
  have hx := hs rX (i - 16) (by omega)
  by_cases h4 : i < 26
  · simp [h2, hm, hx, show 21 ≤ i by omega, h4, show ¬ i - 16 < 5 by omega, show i - 21 < 5 by omega]
  have hy := hs rY (i - 21) (by omega)
  simp [h2, hm, hx, hy, hi, h4, show ¬ i - 16 < 5 by omega, show ¬ i - 21 < 5 by omega, show i - 26 < 32 by omega]

/-- The printed shift word is an RI word whose immediate has its upper eleven bits zero. -/
theorem printedShift_eq (op : BitVec 6) (rX rY : Reg) (n : BitVec 5) :
    printedShift (op.setWidth 32 <<< 26) rX rY n = wordShiftImm op rY rX n := by
  have e : printedShift (op.setWidth 32 <<< 26) rX rY n = printedRI (op.setWidth 32 <<< 26) rX rY (0#11 ++ n) := by
    unfold printedShift printedRI
    congr 1
    apply BitVec.eq_of_getLsbD_eq
    intro i hi
    rw [BitVec.getLsbD_setWidth, BitVec.getLsbD_setWidth, BitVec.getLsbD_append]
    by_cases h : i < 5
    · simp [h]
    · have : n.getLsbD i = false := BitVec.getLsbD_of_ge _ _ (by omega)
      simp [h, this]
  rw [e, printedRI_eq]
  show (op ++ rY ++ rX ++ (0#11 ++ n) : BitVec (6 + 5 + 5 + (11 + 5))) = (op ++ rY ++ rX ++ 0#11 ++ n : BitVec (6 + 5 + 5 + 11 + 5))
  exact (BitVec.append_assoc).symm

theorem printedI_eq (op : BitVec 6) (imm : BitVec 26) :
    op.setWidth 32 <<< 26 ||| imm.setWidth 32 = wordI op imm := by
  apply BitVec.eq_of_getLsbD_eq
  intro i hi
  show _ = (op ++ imm : BitVec (6 + 26)).getLsbD i
  simp only [BitVec.getLsbD_or, BitVec.getLsbD_append, BitVec.getLsbD_shiftLeft, BitVec.getLsbD_setWidth]
  by_cases h : i < 26
  · simp [h, hi]
  · have : imm.getLsbD i = false := BitVec.getLsbD_of_ge _ _ (by omega)
    simp [h, hi, this, show i - 26 < 32 by omega]

@[simp] theorem fieldAt_zero (n : Nat) : fieldAt 0#5 n = 0#32 := by
  simp [fieldAt]

/-- A printed word with rZ = 0 is one without the field. -/
theorem printedRR_two (base : Word) (rX rY : Reg) :
    printedRR base rX rY 0#5 = base ||| fieldAt rY 21 ||| fieldAt rX 11 := by
  simp [printedRR]

/-- A printed word with rY = 0 is one without the field. -/
theorem printedRI_one (base : Word) (rX : Reg) (imm : BitVec 16) :
    printedRI base rX 0#5 imm = base ||| fieldAt rX 16 ||| imm.setWidth 32 := by
  simp [printedRI]

/-- A printed word with a zero immediate is one without it. -/
theorem printedRI_two (base : Word) (rX rY : Reg) :
    printedRI base rX rY 0#16 = base ||| fieldAt rY 21 ||| fieldAt rX 16 := by
  simp [printedRI]

/-- A printed word of one register in bits 25:21. -/
theorem printedRR_one (base : Word) (rY : Reg) :
    printedRR base 0#5 rY 0#5 = base ||| fieldAt rY 21 := by
  simp [printedRR]

end Sys2Proof.Safety
end

