-- ==== Sys2Proof/Tests/Slice0.lean ====
section
/-! SUPPORT. The model's own tests: the check of WellFormed, the words the spec writes out, single steps with the values of
95_test_vectors.md and 96_test_vectors_system.md, and a witness for the hypotheses of every statement that has some. -/

namespace Sys2Proof.Tests

open Sys2Proof.Machine Sys2Proof.Safety

/-! ### Helpers -/

/-- What `f` sees of the next state, if there is one. -/
def seen {α : Type} (f : State → α) : Host.Outcome State Fault Refusal → Option α
  | .next t => some (f t)
  | .fault _ => none
  | .refused _ => none

/-- The outcome is a next state. -/
def completes (o : Host.Outcome State Fault Refusal) : Bool := (seen (fun _ => ()) o).isSome

theorem exists_next_of_completes {o : Host.Outcome State Fault Refusal} (h : completes o = true) : ∃ t, o = .next t := by
  cases o with
  | next t => exact ⟨t, rfl⟩
  | fault _ => cases h
  | refused _ => cases h

/-- The reference instance at pc 0x1000, with these registers and 0 in the others: the start of the vectors of 95_test_vectors.md.
-/
def start (rs : List (Reg × Word)) : State :=
  rs.foldl (fun s r => s.setReg r.1 r.2) { State.reset with pc := 0x1000#32 }

/-- The same with DEBA = 0x400, as 96_test_vectors_system.md supposes. -/
def startDebug (rs : List (Reg × Word)) : State := { start rs with deba := 4#24 }

/-- `s` with the bytes `bs` at 0x2000. -/
def withData (s : State) (bs : List Byte) : State := { s with mem := s.mem.writeBytes 0x2000#32 bs }

/-- `s` on the instance that `f` makes of its own. -/
def onCfg (f : Cfg → Cfg) (s : State) : State := { s with cfg := f s.cfg }

/-- An instance with no optional unit but the one that Table 17 asks for. -/
def bare (c : Cfg) : Cfg :=
  { c with
    plMultiply := false, divide := false, plBarrelShift := false, signExtend := true, debug := false, hwDebug := false,
    romDebug := false, breakpoints := 0, watchpoints := 0, jtag := false, jtagUart := false, cycleCounter := false,
    icache := { c.icache with enabled := false }, dcache := { c.dcache with enabled := false }, interrupts := 0 }

/-- Every access is answered by `r`. -/
def allAnswer (r : Response) : Answers := { fetch := r, read := ⟨r, r, r⟩, write := ⟨r, r, r⟩ }

/-- A platform on which `r` answers the addresses 0x5000 to 0x5003, and memory all others. -/
def answeredAt5000 (r : Response) (c : Cfg) : Cfg :=
  { c with memMap :=
    { regions := [{ range := { first := 0x5000#32, last := 0x5003#32 }, answers := allAnswer r }]
      other := Answers.allMemory } }

/-- One step of `s` with the word `w` at its pc. -/
def stepOn (w : Nat) (s : State) : Host.Outcome State Fault Refusal := step (s.withFetchWord 32 w)

/-- Register `r` and the pc after one step of the word `w` from `start rs`. -/
def after (rs : List (Reg × Word)) (w : Nat) (r : Reg) : Option (Word × Word) :=
  seen (fun t => (t.reg r, t.pc)) (stepOn w (start rs))

/-- The IE register's bits BIE, EIE, IE. -/
def ieBits (t : State) : Bool × Bool × Bool := (t.ieBIE, t.ieEIE, t.ieIE)

/-! ### Well-formed instructions (45_program_flow.md R321) -/

theorem test_wellFormed_b_ra : (Instr.b 29#5).WellFormed := by decide
theorem test_illFormed_b_ea_and_ba : ¬ (Instr.b 30#5).WellFormed ∧ ¬ (Instr.b 31#5).WellFormed := by decide

/-! ### Decoding: the words of 95_test_vectors.md E1 and E5 -/

theorem test_decode_arithmetic :
    decode 0xB5F17000#32 = .instr (.add 14#5 15#5 17#5) ∧ decode 0x3444FFE0#32 = .instr (.addi 4#5 2#5 0xFFE0#16) ∧
    decode 0xC9F17000#32 = .instr (.sub 14#5 15#5 17#5) ∧ decode 0x89F17000#32 = .instr (.mul 14#5 15#5 17#5) ∧
    decode 0x08445555#32 = .instr (.muli 4#5 2#5 0x5555#16) ∧ decode 0x8DF17000#32 = .instr (.divu 14#5 15#5 17#5) ∧
    decode 0xC5F17000#32 = .instr (.modu 14#5 15#5 17#5) ∧ decode 0xB1E07000#32 = .instr (.sextb 14#5 15#5) ∧
    decode 0xDDE07000#32 = .instr (.sexth 14#5 15#5) := by decide

theorem test_decode_logic :
    decode 0xA1F17000#32 = .instr (.and 14#5 15#5 17#5) ∧ decode 0x20445555#32 = .instr (.andi 4#5 2#5 0x5555#16) ∧
    decode 0x60445555#32 = .instr (.andhi 4#5 2#5 0x5555#16) ∧ decode 0xB9F17000#32 = .instr (.or 14#5 15#5 17#5) ∧
    decode 0x38445555#32 = .instr (.ori 4#5 2#5 0x5555#16) ∧ decode 0x78445555#32 = .instr (.orhi 4#5 2#5 0x5555#16) ∧
    decode 0x99F17000#32 = .instr (.xor 14#5 15#5 17#5) ∧ decode 0x18445555#32 = .instr (.xori 4#5 2#5 0x5555#16) ∧
    decode 0x85F17000#32 = .instr (.nor 14#5 15#5 17#5) ∧ decode 0x04445555#32 = .instr (.nori 4#5 2#5 0x5555#16) ∧
    decode 0xA5F17000#32 = .instr (.xnor 14#5 15#5 17#5) ∧ decode 0x24445555#32 = .instr (.xnori 4#5 2#5 0x5555#16) := by decide

theorem test_decode_comparison :
    decode 0xE5F17000#32 = .instr (.cmpe 14#5 15#5 17#5) ∧ decode 0x64445555#32 = .instr (.cmpei 4#5 2#5 0x5555#16) ∧
    decode 0xFDF17000#32 = .instr (.cmpne 14#5 15#5 17#5) ∧ decode 0x7C445555#32 = .instr (.cmpnei 4#5 2#5 0x5555#16) ∧
    decode 0xE9F17000#32 = .instr (.cmpg 14#5 15#5 17#5) ∧ decode 0x68445555#32 = .instr (.cmpgi 4#5 2#5 0x5555#16) ∧
    decode 0xF5F17000#32 = .instr (.cmpgu 14#5 15#5 17#5) ∧ decode 0x74445555#32 = .instr (.cmpgui 4#5 2#5 0x5555#16) ∧
    decode 0xEDF17000#32 = .instr (.cmpge 14#5 15#5 17#5) ∧ decode 0x6C445555#32 = .instr (.cmpgei 4#5 2#5 0x5555#16) ∧
    decode 0xF1F17000#32 = .instr (.cmpgeu 14#5 15#5 17#5) ∧
    decode 0x70445555#32 = .instr (.cmpgeui 4#5 2#5 0x5555#16) := by decide

theorem test_decode_shift :
    decode 0xBDF17000#32 = .instr (.sl 14#5 15#5 17#5) ∧ decode 0x3C440011#32 = .instr (.sli 4#5 2#5 17#5) ∧
    decode 0x95F17000#32 = .instr (.sr 14#5 15#5 17#5) ∧ decode 0x1444000C#32 = .instr (.sri 4#5 2#5 12#5) ∧
    decode 0x81F17000#32 = .instr (.sru 14#5 15#5 17#5) ∧ decode 0x00440005#32 = .instr (.srui 4#5 2#5 5#5) := by decide

theorem test_decode_transfer :
    decode 0x10440005#32 = .instr (.lb 4#5 2#5 5#16) ∧ decode 0x40440005#32 = .instr (.lbu 4#5 2#5 5#16) ∧
    decode 0x1C440006#32 = .instr (.lh 4#5 2#5 6#16) ∧ decode 0x2C440006#32 = .instr (.lhu 4#5 2#5 6#16) ∧
    decode 0x28440008#32 = .instr (.lw 4#5 2#5 8#16) ∧ decode 0x30440008#32 = .instr (.sb 2#5 8#16 4#5) ∧
    decode 0x0C440008#32 = .instr (.sh 2#5 8#16 4#5) ∧ decode 0x58440008#32 = .instr (.sw 2#5 8#16 4#5) ∧
    decode 0x90207800#32 = .instr (.rcsr 15#5 1#5) ∧ decode 0xD02F0000#32 = .instr (.wcsr 1#5 15#5) := by decide

theorem test_decode_flow :
    decode 0xC0600000#32 = .instr (.b 3#5) ∧ decode 0xE0000008#32 = .instr (.bi 8#26) ∧
    decode 0x44440002#32 = .instr (.be 4#5 2#5 2#16) ∧ decode 0x5C440002#32 = .instr (.bne 4#5 2#5 2#16) ∧
    decode 0x48440002#32 = .instr (.bg 4#5 2#5 2#16) ∧ decode 0x54440002#32 = .instr (.bgu 4#5 2#5 2#16) ∧
    decode 0x4C440002#32 = .instr (.bge 4#5 2#5 2#16) ∧ decode 0x50440002#32 = .instr (.bgeu 4#5 2#5 2#16) ∧
    decode 0xD8600000#32 = .instr (.call 3#5) ∧ decode 0xF8000380#32 = .instr (.calli 0x380#26) ∧
    decode 0xAC000007#32 = .instr .scall ∧ decode 0xC3C00000#32 = .instr .eret ∧
    decode 0xAC000002#32 = .instr .brk ∧ decode 0xC3E00000#32 = .instr .bret := by decide

/-- The six pseudo-instructions: their words, and the machine instructions these are (E5). -/
theorem test_decode_pseudo :
    encode .ret = 0xC3A00000#32 ∧ decode 0xC3A00000#32 = .instr (.b 29#5) ∧
    encode (.mv 4#5 2#5) = 0xB8402000#32 ∧ decode 0xB8402000#32 = .instr (.or 4#5 2#5 0#5) ∧
    encode (.mvhi 4#5 0x5555#16) = 0x78045555#32 ∧ decode 0x78045555#32 = .instr (.orhi 4#5 0#5 0x5555#16) ∧
    encode (.not 4#5 2#5) = 0xA4402000#32 ∧ decode 0xA4402000#32 = .instr (.xnor 4#5 2#5 0#5) ∧
    encode (.mvi 1#5 10#16) = 0x3401000A#32 ∧ decode 0x3401000A#32 = .instr (.addi 1#5 0#5 10#16) ∧
    encode .nop = 0x34000000#32 ∧ decode 0x34000000#32 = .instr (.addi 0#5 0#5 0#16) := by decide

/-- The words that 96_test_vectors_system.md lists under "Corner cases with no vector". -/
theorem test_decode_refuses :
    decode 0x9C000000#32 = .undefined (.reservedOpcode 0x27#6) ∧ decode 0xA8000000#32 = .undefined (.reservedOpcode 0x2A#6) ∧
    decode 0xCC000000#32 = .undefined (.reservedOpcode 0x33#6) ∧ decode 0xD4000000#32 = .undefined (.reservedOpcode 0x35#6) ∧
    decode 0xAC000000#32 = .undefined .undefinedSystemWord ∧
    decode 0xB4221801#32 = .undefined .nonzeroReservedField := by decide

/-- The host's numbering: bit 0 is the least significant bit of the word. -/
theorem test_decodeTableWord : decodeTableWord 32 0xC8221800 = some (.sub 3#5 1#5 2#5) := by decide

/-! ### Single steps: vectors B1 to B6 of 95_test_vectors.md -/

theorem test_add_sub :
    after [(1, 0x7FFFFFFF), (2, 1)] 0xB4221800 3 = some (0x80000000, 0x1004) ∧
    after [(1, 5), (2, 6)] 0xB4220000 0 = some (0xB, 0x1004) ∧
    after [(1, 0x8000)] 0x34238000 3 = some (0, 0x1004) ∧
    after [(1, 0), (2, 1)] 0xC8221800 3 = some (0xFFFFFFFF, 0x1004) := by decide

theorem test_mul_div :
    after [(1, 0x12345678), (2, 0x9ABCDEF0)] 0x88221800 3 = some (0x242D2080, 0x1004) ∧
    after [(1, 3)] 0x08238000 3 = some (0xFFFE8000, 0x1004) ∧
    after [(1, 0x80000000), (2, 0xFFFFFFFF)] 0x8C221800 3 = some (0, 0x1004) ∧
    after [(1, 0x80000000), (2, 0xFFFFFFFF)] 0xC4221800 3 = some (0x80000000, 0x1004) := by decide

theorem test_sign_extend :
    after [(1, 0x12345680)] 0xB0201800 3 = some (0xFFFFFF80, 0x1004) ∧
    after [(1, 0x12348000)] 0xDC201800 3 = some (0xFFFF8000, 0x1004) := by decide

theorem test_logic_registers :
    after [(1, 0xFF00FF00), (2, 0x0FF00FF0)] 0xA0221800 3 = some (0x0F000F00, 0x1004) ∧
    after [(1, 0xFF00FF00), (2, 0x0FF00FF0)] 0xB8221800 3 = some (0xFFF0FFF0, 0x1004) ∧
    after [(1, 0xFF00FF00), (2, 0x0FF00FF0)] 0x98221800 3 = some (0xF0F0F0F0, 0x1004) ∧
    after [(1, 0xFF00FF00), (2, 0x0FF00FF0)] 0x84221800 3 = some (0x000F000F, 0x1004) ∧
    after [(1, 0xFF00FF00), (2, 0x0FF00FF0)] 0xA4221800 3 = some (0x0F0F0F0F, 0x1004) := by decide

theorem test_logic_immediates :
    after [(1, 0xFFFF00FF)] 0x20238001 3 = some (1, 0x1004) ∧
    after [(1, 0xFFFF00FF)] 0x38238001 3 = some (0xFFFF80FF, 0x1004) ∧
    after [(1, 0xFFFF00FF)] 0x18238001 3 = some (0xFFFF80FE, 0x1004) ∧
    after [(1, 0xFFFF00FF)] 0x04238001 3 = some (0x00007F00, 0x1004) ∧
    after [(1, 0xFFFF00FF)] 0x24238001 3 = some (0x00007F01, 0x1004) ∧
    after [(1, 0xFFFF00FF)] 0x60238001 3 = some (0x80010000, 0x1004) ∧
    after [(1, 0xF0F0)] 0x78238001 3 = some (0x8001F0F0, 0x1004) := by decide

/-- The pseudo-instructions read the real register 0. -/
theorem test_pseudo :
    after [(1, 0xCAFE0000), (0, 0xBABE)] 0xB8201800 3 = some (0xCAFEBABE, 0x1004) ∧
    after [(1, 0x0F0F0F0F), (0, 0xFFFFFFFF)] 0xA4201800 3 = some (0x0F0F0F0F, 0x1004) ∧
    after [] 0x78038001 3 = some (0x80010000, 0x1004) ∧
    after [(0, 0x10)] 0x3403FFFE 3 = some (0xE, 0x1004) ∧
    after [(0, 0x10)] 0x34000000 0 = some (0x10, 0x1004) ∧
    after [(29, 0x2468)] 0xC3A00000 29 = some (0x2468, 0x2468) := by decide

theorem test_compare_registers :
    after [(1, 0xFFFFFFFF), (2, 1)] 0xE4221800 3 = some (0, 0x1004) ∧
    after [(1, 0xFFFFFFFF), (2, 1)] 0xFC221800 3 = some (1, 0x1004) ∧
    after [(1, 0xFFFFFFFF), (2, 1)] 0xE8221800 3 = some (0, 0x1004) ∧
    after [(1, 0x80000000), (2, 0x80000000)] 0xEC221800 3 = some (1, 0x1004) ∧
    after [(1, 0xFFFFFFFF), (2, 1)] 0xF4221800 3 = some (1, 0x1004) ∧
    after [(1, 0xFFFFFFFF), (2, 1)] 0xF0221800 3 = some (1, 0x1004) := by decide

theorem test_compare_immediates :
    after [(1, 0xFFFFFFFF)] 0x6423FFFF 3 = some (1, 0x1004) ∧ after [(1, 0xFFFFFFFF)] 0x7C23FFFF 3 = some (0, 0x1004) ∧
    after [(1, 0)] 0x6823FFFF 3 = some (1, 0x1004) ∧ after [(1, 0xFFFF8000)] 0x6C238000 3 = some (1, 0x1004) ∧
    after [(1, 0xFFFF)] 0x7423FFFF 3 = some (0, 0x1004) ∧ after [(1, 0xFFFF)] 0x7023FFFF 3 = some (1, 0x1004) := by decide

/-- Only the low five bits of the count are used. -/
theorem test_shift :
    after [(1, 1), (2, 0xFFFFFFE4)] 0xBC221800 3 = some (0x10, 0x1004) ∧
    after [(1, 0xFFFF)] 0x3C230011 3 = some (0xFFFE0000, 0x1004) ∧
    after [(1, 0x80000000), (2, 0x24)] 0x94221800 3 = some (0xF8000000, 0x1004) ∧
    after [(1, 0xFFF12345)] 0x1423000C 3 = some (0xFFFFFF12, 0x1004) ∧
    after [(1, 0x80000000), (2, 0x20)] 0x80221800 3 = some (0x80000000, 0x1004) ∧
    after [(1, 0xFFFFFFFF)] 0x00230005 3 = some (0x07FFFFFF, 0x1004) := by decide

/-- The memory of the load rows: 0x2000 holds `81 02 83 04 F5 06 07 88`. -/
def loadStart (base : Word) : State :=
  withData (start [(2, base)]) [0x81, 0x02, 0x83, 0x04, 0xF5, 0x06, 0x07, 0x88]

theorem test_load :
    seen (fun t => t.reg 3) (stepOn 0x10430000 (loadStart 0x2000)) = some 0xFFFFFF81 ∧
    seen (fun t => t.reg 3) (stepOn 0x40430007 (loadStart 0x2000)) = some 0x88 ∧
    seen (fun t => t.reg 3) (stepOn 0x1C430000 (loadStart 0x2000)) = some 0xFFFF8102 ∧
    seen (fun t => t.reg 3) (stepOn 0x2C430004 (loadStart 0x2000)) = some 0xF506 ∧
    seen (fun t => t.reg 3) (stepOn 0x28438000 (loadStart 0xA000)) = some 0x81028304 ∧
    seen (fun t => t.reg 2) (stepOn 0x28420000 (loadStart 0x2000)) = some 0x81028304 := by decide

/-- The word at 0x2000 and the word at 0x2004 after a step. -/
def dataWords (t : State) : Word × Word := (t.wordAt 0x2000, t.wordAt 0x2004)

theorem test_store :
    seen dataWords (stepOn 0x30430003 (start [(2, 0x2000), (3, 0x11223344)])) = some (0x00000044, 0) ∧
    seen dataWords (stepOn 0x0C430006 (start [(2, 0x2000), (3, 0x11223344)])) = some (0, 0x00003344) ∧
    seen dataWords (stepOn 0x5843FFFC (start [(2, 0x2008), (3, 0x11223344)])) = some (0, 0x11223344) := by decide

theorem test_branch :
    after [(1, 5), (2, 5)] 0x44410008 0 = some (0, 0x1020) ∧ after [(1, 5), (2, 5)] 0x5C410008 0 = some (0, 0x1004) ∧
    after [(1, 2), (2, 1)] 0x4841FC00 0 = some (0, 0x0) ∧ after [(1, 0xFFFFFFFF), (2, 1)] 0x4C410008 0 = some (0, 0x1004) ∧
    after [(1, 0xFFFFFFFF), (2, 1)] 0x54410008 0 = some (0, 0x1020) ∧
    after [(1, 0xFFFFFFFF), (2, 1)] 0x50410008 0 = some (0, 0x1020) := by decide

/-- Under `as_toolchain` the other field is the left side: the vectors' second column of words. -/
theorem test_branch_toolchain :
    seen (·.pc) (stepOn 0x54220008 (onCfg (fun c => { c with branchFields := .asToolchain })
      (start [(1, 0xFFFFFFFF), (2, 1)]))) = some 0x1020 ∧
    seen (·.pc) (stepOn 0x48220008 (onCfg (fun c => { c with branchFields := .asToolchain })
      (start [(1, 0xFFFFFFFF), (2, 1)]))) = some 0x1004 := by decide

theorem test_jump :
    after [] 0xE2000000 0 = some (0, 0xF8001000) ∧ after [(3, 0x4000)] 0xC0600000 29 = some (0, 0x4000) ∧
    after [(29, 0x4000)] 0xDBA00000 29 = some (0x1004, 0x4000) ∧ after [] 0xFBFFFFFE 29 = some (0x1004, 0xFF8) := by decide

/-! ### Single steps: vectors B7 and B8 of 96_test_vectors_system.md -/

theorem test_csr_write :
    seen ieBits (stepOn 0xD0010000 (start [(1, 0xFFFFFFFF)])) = some (true, true, true) ∧
    seen (·.ip) (stepOn 0xD0410000 { start [(1, 5)] with ip := 0xF, intLines := 1 }) = some 0xB ∧
    seen (·.ebaWord) (stepOn 0xD0E10000 (start [(1, 0x12345678)])) = some 0x12345600 := by decide

theorem test_csr_read :
    seen (fun t => t.reg 2) (stepOn 0x90001000 { start [] with ieIE := true, ieBIE := true }) = some 5 ∧
    seen (fun t => t.reg 2) (stepOn 0x90401000 { start [] with intLines := 0x80000000 }) = some 0x80000000 := by decide

/-- X3 and X4: SystemCall at DEBA + 0xE0 with DC.RE = 1, Breakpoint at DEBA + 0x20. -/
theorem test_scall_break :
    seen (fun t => (t.pc, t.reg 30, ieBits t))
      (stepOn 0xAC000007 { startDebug [] with ieEIE := true, dc := { State.reset.dc with re := true } }) =
        some (0x4E0, 0x1000, (false, false, false)) ∧
    seen (fun t => (t.pc, t.reg 31, ieBits t)) (stepOn 0xAC000002 { startDebug [] with ieIE := true, ieEIE := true, eba := 1 }) =
      some (0x420, 0x1000, (true, true, false)) := by decide

/-- X7 and X6. -/
theorem test_eret_bret :
    seen (fun t => (t.pc, ieBits t)) (stepOn 0xC3C00000 { startDebug [(30, 0x2000)] with ieIE := true, ieBIE := true }) =
      some (0x2000, (true, false, false)) ∧
    seen (fun t => (t.pc, ieBits t)) (stepOn 0xC3E00000 { startDebug [(31, 0x3000)] with ieBIE := true }) =
      some (0x3000, (true, false, true)) := by decide

/-- X8, X11 and X12: DivideByZero, DataBusError, InstructionBusError. -/
theorem test_traps :
    seen (fun t => (t.pc, t.reg 3, t.reg 30)) (stepOn 0x8C221800 (startDebug [(1, 7), (3, 0x33)])) = some (0xA0, 0x33, 0x1000) ∧
    seen (fun t => (t.pc, t.reg 30, t.wordAt 0x5000))
      (stepOn 0x58430000 (onCfg (answeredAt5000 .busError) (startDebug [(2, 0x5000), (3, 0x33)]))) = some (0x80, 0x1000, 0) ∧
    seen (fun t => (t.pc, t.reg 30)) (step (onCfg (answeredAt5000 .busError) { startDebug [] with pc := 0x5000 })) =
      some (0x40, 0x5000) := by decide

/-- X13, X17 and X19: an interrupt goes before the instruction and before SystemCall, after DivideByZero. -/
theorem test_interrupt_priority :
    seen (fun t => (t.pc, t.reg 1, t.reg 30, t.ip)) (stepOn 0x34210001 { startDebug [] with ieIE := true, im := 4, intLines := 4 }) =
      some (0xC0, 0, 0x1000, 4) ∧
    seen (·.pc) (stepOn 0xAC000007 { startDebug [] with ieIE := true, im := 1, ip := 1 }) = some 0xC0 ∧
    seen (·.pc) (stepOn 0x8C201800 { startDebug [(1, 5)] with ieIE := true, im := 1, ip := 1 }) = some 0xA0 := by decide

/-- An interrupt goes before a word without a meaning, and before an instruction whose unit is absent (60_exceptions.md R403 item 8,
D27); with none pending the step refuses. -/
theorem test_interrupt_before_no_instruction :
    seen (fun t => (t.pc, t.reg 30)) (stepOn 0xD4000000 { startDebug [] with ieIE := true, im := 1, ip := 1 }) = some (0xC0, 0x1000) ∧
    seen (fun t => (t.pc, t.reg 30)) (stepOn 0x88221800
      (onCfg (fun c => { c with plMultiply := false }) { startDebug [] with ieIE := true, im := 1, ip := 1 })) = some (0xC0, 0x1000) ∧
    seen (·.pc) (stepOn 0xD4000000 { startDebug [] with ieIE := true, im := 1 }) = none := by decide

/-- X21, X23 and X24: a hardware breakpoint beats the interrupt; a write watchpoint stops a store and not a load. -/
theorem test_debug :
    seen (fun t => (t.pc, t.reg 31)) (stepOn 0x34210001
      { startDebug [] with ieIE := true, im := 1, ip := 1, bp := State.reset.bp.set 0 (bpOfWord 0x1001) }) = some (0x420, 0x1000) ∧
    seen (fun t => (t.pc, t.wordAt 0x2000)) (stepOn 0x58430000
      { startDebug [(2, 0x2000), (3, 0x55)] with
        wp := State.reset.wp.set 0 0x2000, dc := { State.reset.dc with c := #v[2, 0, 0, 0] } }) = some (0x460, 0) ∧
    seen (fun t => (t.pc, t.reg 3)) (stepOn 0x28430000 (withData
      { startDebug [(2, 0x2000), (3, 0x55)] with
        wp := State.reset.wp.set 0 0x2000, dc := { State.reset.dc with c := #v[2, 0, 0, 0] } } [0, 0, 0, 9])) =
      some (0x1004, 9) := by decide

/-- A state in which the data cache may still return an earlier byte of address 0 and holds the line of 0x5000, and the instruction
cache holds the line of 0x1000 with an earlier word. -/
def stale : State :=
  { start [] with
    staleData := [{ addr := 0, byte := 7, masked := false, dropping := false }]
    staleCode := [{ addr := 0x1000, word := 0xAC000007, life := none }]
    codeLines := [{ addr := 0x1000, way := 0, bytes := [0xAC, 0, 0, 7], dropping := false }]
    dataLines := [{ addr := 0x5000, way := 0, bytes := [0x81, 2, 3, 4], dropping := false }] }

/-- A device inside the data-cacheable region (20_memory.md R119): the first load fills the line; a load of a line that is cached is
no event and gives its bytes. -/
theorem test_device_cached :
    seen (·.events) (exec (.lw 3#5 0#5 0x5000#16) (onCfg (answeredAt5000 .device) (start []))) = some [.deviceRead .word 0x5000] ∧
    seen (fun t => (t.events, t.reg 3)) (exec (.lw 3#5 0#5 0x5000#16) (onCfg (answeredAt5000 .device) stale)) =
      some ([], 0x81020304) ∧
    seen (fun t => (t.events, t.reg 3)) (exec (.lb 3#5 0#5 0x5000#16) (onCfg (answeredAt5000 .device) stale)) =
      some ([], 0xFFFFFF81) := by decide

/-- Outside that region every load is an event; a store is one always, and writes the cached copy too (R123). -/
theorem test_device_uncached_and_store :
    seen (fun t => (t.events, t.dataLines))
      (exec (.lw 3#5 0#5 0x5000#16) (onCfg (fun c => answeredAt5000 .device (bare c)) (start []))) =
      some ([.deviceRead .word 0x5000], []) ∧
    seen (fun t => (t.events, t.dataLines.map (·.bytes)))
      (exec (.sh 0#5 0x5002#16 1#5)
        (onCfg (answeredAt5000 .device) { stale with regs := (start [(1, 0x11223344)]).regs })) =
      some ([.deviceWrite .half 0x5002 0x3344], [[0x81, 2, 0x33, 0x44]]) := by decide

/-- The instruction `j` after `i`. -/
def two (i j : Instr) (s : State) : Host.Outcome State Fault Refusal :=
  match exec i s with
  | .next t => exec j t
  | o => o

/-- A data cache of `ways` ways, with lines of `bytes` bytes. -/
def cacheOf (ways bytes : Nat) (c : Cfg) : Cfg := { c with dcache := { c.dcache with ways := ways, bytesPerLine := bytes } }

/-- Two addresses of one set (R121): with one way the second line takes the place of the first, with two both are held; each miss
switches the way number, that of a store too, which fetches nothing (R123), and a hit leaves it. -/
theorem test_cache_ways :
    seen (fun t => t.dataLines.map (·.addr)) (two (.lw 3#5 0#5 0#16) (.lw 3#5 0#5 0x800#16) (start [])) = some [0x800] ∧
    seen (fun t => (t.dataLines.map (fun l => (l.addr, l.way)), t.dataWay))
      (two (.lw 3#5 0#5 0#16) (.lw 3#5 0#5 0x800#16) (onCfg (cacheOf 2 4) (start []))) = some ([(0x800, 1), (0, 0)], 0) ∧
    seen (fun t => (t.dataLines.map (·.addr), t.dataWay))
      (two (.lbu 3#5 0#5 0#16) (.lw 3#5 0#5 0#16) (onCfg (cacheOf 2 4) (start []))) = some ([0], 1) ∧
    seen (fun t => (t.dataLines.map (·.addr), t.dataWay))
      (two (.lw 3#5 0#5 0#16) (.sw 0#5 0x800#16 3#5) (onCfg (cacheOf 2 4) (start []))) = some ([0], 0) := by decide

/-- A platform that answers the addresses 0x5000 to 0x5003 with `r` where they are read and with `w` where they are written. -/
def splitAt5000 (r w : Response) (c : Cfg) : Cfg :=
  { c with memMap :=
    { regions := [{ range := { first := 0x5000#32, last := 0x5003#32 }
                    answers := { fetch := .memory, read := ⟨r, r, r⟩, write := ⟨w, w, w⟩ } }]
      other := Answers.allMemory } }

/-- A state in which the data cache holds the line of 0x5000 and no earlier byte. -/
def holding : State := { start [(1, 0x11223344)] with dataLines := stale.dataLines }

/-- A store writes the copy whoever answers it, and the next load sees it (R123, R132). -/
theorem test_cache_store_then_load :
    seen (fun t => t.reg 3) (two (.sw 0#5 0x5000#16 1#5) (.lw 3#5 0#5 0x5000#16) (onCfg (splitAt5000 .device .memory) holding)) =
      some 0x11223344 ∧
    seen (fun t => t.reg 3) (two (.sw 0#5 0x5000#16 1#5) (.lw 3#5 0#5 0x5000#16) (onCfg (splitAt5000 .memory .device) holding)) =
      some 0x11223344 := by decide

/-- A line of 8 bytes with a device's word and a word of memory: a load from memory fetches both, and the device's word is an event.
-/
theorem test_cache_mixed_line :
    seen (fun t => (t.events, t.reg 3, t.dataLines.map (fun l => (l.addr, l.bytes.length, l.value .word 0x5004))))
      (exec (.lw 3#5 0#5 0x5004#16) (onCfg (fun c => cacheOf 1 8 (answeredAt5000 .device c)) (start []))) =
      some ([.deviceRead .word 0x5000], 0, [(0x5000, 8, 0)]) := by decide

/-- A fetch from 0x5000, which the platform answers with `r`. -/
def fetching (r : Response) : State := onCfg (answeredAt5000 r) { start [] with pc := 0x5000 }

/-- What `f` sees of the word that a fetch from `a` gives and of the state after it. -/
def fetchedAt {α : Type} (a : Word) (s : State) (f : Word → State → α) : Option α :=
  match ({ s with pc := a } : State).fetch with
  | .word w t => some (f w t)
  | .busError => none
  | .outside => none
  | .misaligned => none
  | .stuck => none

/-- What `f` sees of the state after a fetch from `a` and one from `b`. -/
def twoFetches {α : Type} (a b : Word) (s : State) (f : State → α) : Option α :=
  (fetchedAt a s (fun _ t => t)).bind (fun t => fetchedAt b t (fun _ u => f u))

/-- An instruction cache of `ways` ways, with lines of `bytes` bytes. -/
def codeCacheOf (ways bytes : Nat) (c : Cfg) : Cfg := { c with icache := { c.icache with ways := ways, bytesPerLine := bytes } }

/-- A fetch from a device at a cached address fills the line, and the next one is no event; where it is not cached each is one. -/
theorem test_device_fetch :
    twoFetches 0x5000 0x5000 (fetching .device) (fun t => (t.events, t.codeLines.map (·.addr))) =
      some ([.deviceFetch 0x5000], [0x5000]) ∧
    twoFetches 0x5000 0x5000 (onCfg bare (fetching .device)) (fun t => (t.events, t.codeLines)) =
      some ([.deviceFetch 0x5000, .deviceFetch 0x5000], []) := by decide

/-- Two addresses of one set of the instruction cache (R121): with one way the second line takes the place of the first, with two both
are held; each miss switches the way number and a hit leaves it. -/
theorem test_code_cache_ways :
    twoFetches 0 0x800 (start []) (fun t => t.codeLines.map (·.addr)) = some [0x800] ∧
    twoFetches 0 0x800 (onCfg (codeCacheOf 2 4) (start [])) (fun t => (t.codeLines.map (fun l => (l.addr, l.way)), t.codeWay)) =
      some ([(0x800, 1), (0, 0)], 0) ∧
    twoFetches 0 0 (onCfg (codeCacheOf 2 4) (start [])) (fun t => (t.codeLines.map (·.addr), t.codeWay)) = some ([0], 1) := by decide

/-- A line of 8 bytes with a device's word and a word of memory: a fetch from memory fetches both, and the device's word is an event.
-/
theorem test_code_cache_mixed_line :
    fetchedAt 0x5004 (onCfg (fun c => codeCacheOf 1 8 (answeredAt5000 .device c)) (start []))
      (fun w t => (w, t.events, t.codeLines.map (fun l => (l.addr, l.bytes.length, l.value .word 0x5004)))) =
      some (0, [.deviceFetch 0x5000], [(0x5000, 8, 0)]) := by decide

/-- On a hit a fetch gives the cache's copy, on a miss what memory holds; `placeAtPc` drops the copy. -/
theorem test_code_cache_hit :
    fetchedAt 0x1000 { stale with staleCode := [] } (fun w t => (w, t.events)) = some (0xAC000007, []) ∧
    fetchedAt 0x1000 { stale with staleCode := [], codeLines := [] } (fun w t => (w, t.codeLines.map (·.bytes))) =
      some (0, [[0, 0, 0, 0]]) ∧
    fetchedAt 0x1000 (stale.placeAtPc 0x34000000) (fun w _ => w) = some 0x34000000 := by decide

/-- The fourth slot after `wcsr ICC` is the last: an invalidation with one slot left takes effect (R126, R511). -/
theorem test_code_cache_last_slot (s : State) : (({ s with icc := [1] } : State).prepare false).codeLines = [] := by
  rcases settleCode_cases s.free [1] s.codeLines with ⟨-, h⟩ | ⟨h, -⟩
  · exact h
  · have h1 : 1 ≤ slotsDue s.free := Nat.le_max_left ..
    have := h 1 List.mem_cons_self
    omega

/-! ### Witnesses for the hypotheses of the statements, in their order -/

theorem witness_DecodeInvertsEncode : (Instr.b 29#5).WellFormed ∧ (Instr.nop).WellFormed := by decide

theorem witness_EncodeInvertsDecode : decode 0xC3A00000#32 = .instr (.b 29#5) ∧ decode 0xFFFFF800#32 = .instr (.cmpne 31#5 31#5 31#5) := by
  decide

theorem witness_Multiply :
    Cfg.reference.plMultiply = true ∧ ({ Cfg.reference with plMultiply := false, mcMultiply := true } : Cfg).mcMultiply = true := by
  decide

theorem witness_Divide :
    (start [(2, 0xFFFFFFFF)]).cfg.divide = true ∧ (start [(2, 0xFFFFFFFF)]).reg 2#5 ≠ 0#32 ∧ (start []).reg 2#5 = 0#32 := by decide

theorem witness_SignExtend : State.reset.cfg.signExtend = true := by decide

theorem witness_OptionalUnitsRefused :
    cfgLegal (bare Cfg.reference) = true ∧ (bare Cfg.reference).hasMul = false ∧ (bare Cfg.reference).hasDiv = false ∧
    (bare Cfg.reference).hasShift = false ∧ ({ Cfg.reference with signExtend := false } : Cfg).hasSext = false := by decide

theorem witness_Shifts :
    Cfg.reference.plBarrelShift = true ∧
    ({ Cfg.reference with plBarrelShift := false, mcBarrelShift := true } : Cfg).mcBarrelShift = true := by decide

/-- The last byte, half-word and word of the address space. -/
theorem witness_LoadsFromMemory :
    (Reaches State.reset .read .byte 0xFFFFFFFF#32 ∧ Fresh State.reset .byte 0xFFFFFFFF#32) ∧
    (Reaches State.reset .read .half 0xFFFFFFFE#32 ∧ Fresh State.reset .half 0xFFFFFFFE#32) ∧
    (Reaches State.reset .read .word 0xFFFFFFFC#32 ∧ Fresh State.reset .word 0xFFFFFFFC#32) ∧
    (start [(2, 0xFFFFFFFE)]).reg 2#5 + (1#16).signExtend 32 = 0xFFFFFFFF#32 := by
  unfold Reaches Fresh; decide

/-- The three places of an address: its line is held, not held, and the address is not cached; on a legal instance. -/
theorem witness_LoadsFromMemory_cache :
    ¬ Misses stale 0x5003#32 ∧ Misses stale 0x2000#32 ∧ ¬ Misses stale 0xFFFFFFFC#32 ∧ cfgLegal stale.cfg = true ∧
    Reaches stale .read .byte 0x5003#32 ∧ Reaches stale .read .word 0x2000#32 ∧ Fresh stale .word 0x2000#32 := by
  unfold Misses Reaches Fresh; decide

theorem witness_StoresToMemory :
    Reaches State.reset .write .byte 0xFFFFFFFF#32 ∧ Reaches State.reset .write .half 0xFFFFFFFE#32 ∧
    Reaches State.reset .write .word 0xFFFFFFFC#32 ∧ Memory.wf State.reset.mem = true ∧
    codeCached Cfg.reference 0x2000#32 = true ∧
    seen (·.staleCode) (exec (.sw 0#5 0x2000#16 2#5) (start [(2, 1)])) = some [{ addr := 0x2000, word := 0, life := none }] := by
  unfold Reaches; decide

/-- A store to a byte that the data cache holds, and one that misses it. -/
theorem witness_StoresToMemory_cache :
    Reaches holding .write .half 0x5002#32 ∧ dataCached holding.cfg (0x5002#32 + BitVec.ofNat 32 1) = true ∧
    (∃ l ∈ holding.dataLines, l.addr = lineAddress holding.cfg.dcache (0x5002#32 + BitVec.ofNat 32 1) ∧
      l.byte (0x5002#32 + BitVec.ofNat 32 1) = some 4) ∧ Misses holding 0x2000#32 := by
  unfold Reaches Misses; decide

theorem witness_StoreThenLoad :
    Memory.wf (start []).mem = true ∧ Reaches (start []) .write .word 0xFFFFFFFC#32 ∧ Reaches (start []) .write .half 0xFFFFFFFE#32 ∧
    (∃ t, exec (.sw 1#5 0xFFFC#16 2#5) (start [(2, 0x11223344)]) = .next t ∧ t.reg 0#5 + (0xFFFC#16).signExtend 32 = 0xFFFFFFFC#32 ∧
      Reaches t .read .word 0xFFFFFFFC#32 ∧
      t.reg 0#5 + (0xFFFF#16).signExtend 32 = 0xFFFFFFFC#32 + BitVec.ofNat 32 3 ∧
      Reaches t .read .byte (0xFFFFFFFC#32 + BitVec.ofNat 32 3)) ∧
    (∃ t, exec (.sh 1#5 0xFFFE#16 2#5) (start [(2, 0x11223344)]) = .next t ∧ t.reg 0#5 + (0xFFFE#16).signExtend 32 = 0xFFFFFFFE#32 ∧
      Reaches t .read .half 0xFFFFFFFE#32) := by
  unfold Reaches
  exact ⟨by decide, by decide, by decide, ⟨_, rfl, by decide, by decide, by decide, by decide⟩, ⟨_, rfl, by decide, by decide⟩⟩

/-- A state whose watchpoints 0 and 3 watch reads of 0 and writes of 0xFFFFFFFF. -/
def watched : State :=
  { startDebug [] with wp := #v[0, 0, 0, 0xFFFFFFFF], dc := { State.reset.dc with c := #v[1, 0, 0, 2] } }

theorem witness_LoadStoreTraps :
    dataOperand (.lw 3#5 2#5 0#16) = some (.read, .word, 2#5, 0#16) ∧ dataOperand (.sb 2#5 0xFFFF#16 3#5) = some (.write, .byte, 2#5, 0xFFFF#16) ∧
    watched.watchpointHit .read 0#32 = true ∧ watched.watchpointHit .write 0xFFFFFFFF#32 = true ∧
    watched.watchpointHit .write 0#32 = false ∧
    aligned .half 0xFFFFFFFF#32 = false ∧ aligned .word 2#32 = false ∧
    respond (answeredAt5000 .busError Cfg.reference) .read .word 0x5000#32 = .busError ∧
    respond (answeredAt5000 .busError Cfg.reference) .write .byte 0x5003#32 = .busError ∧
    respond (answeredAt5000 .noResponse Cfg.reference) .write .half 0x5002#32 = .noResponse ∧
    State.reset.watchpointHit .read 0x5000#32 = false := by decide

/-- In the data-cacheable region and outside it, at the ends of the device's addresses; and a second load of the same address. -/
theorem witness_DeviceAccess :
    respond (answeredAt5000 .device Cfg.reference) .read .word 0x5000#32 = .device ∧ aligned .word 0x5000#32 = true ∧
    respond (answeredAt5000 .device Cfg.reference) .write .half 0x5002#32 = .device ∧ aligned .half 0x5002#32 = true ∧
    respond (answeredAt5000 .device Cfg.reference) .read .byte 0x5003#32 = .device ∧
    dataCached (answeredAt5000 .device Cfg.reference) 0x5000#32 = true ∧
    dataCached (answeredAt5000 .device (bare Cfg.reference)) 0x5000#32 = false ∧
    cfgLegal (answeredAt5000 .device Cfg.reference) = true ∧
    State.reset.watchpointHit .read 0x5000#32 = false ∧ State.reset.watchpointHit .write 0x5002#32 = false ∧
    ∃ t, exec (plainLoad .word 3#5 0#5 0x5000#16) (onCfg (answeredAt5000 .device) (start [])) = .next t ∧
      t.reg 0#5 + (0x5000#16).signExtend 32 = 0x5000#32 :=
  ⟨by decide, by decide, by decide, by decide, by decide, by decide, by decide, by decide, by decide, by decide, _, rfl, by decide⟩

/-- The line of `stale` is a whole line in a way of the cache. -/
theorem organised_stale : Organised stale.cfg.dcache stale.dataLines where
  whole := by decide
  ways := by decide
  apart := List.pairwise_singleton _ _

/-- A cache that holds nothing is organised. -/
theorem organised_nil (c : CacheCfg) : Organised c [] := ⟨fun _ h => (nomatch h), fun _ h => (nomatch h), .nil⟩

/-- An address that is a multiple of 4 is the whole line where a line has 4 bytes. -/
theorem eq_of_lineAddress {c : CacheCfg} {a b : Word} (hc : c.bytesPerLine = 4) (ha : wordAligned a = true)
    (h : b = lineAddress c a) : a = b := by
  rw [wordAligned_iff] at ha
  rw [h]
  apply BitVec.eq_of_toNat_eq
  rw [toNat_lineAddress, hc, ha, Nat.sub_zero]

theorem witness_LoadSeesCurrentOrEarlier : Reaches stale .read .word 0#32 ∧ stale.oldBytes 0#32 = [7#8] := by
  unfold Reaches; decide

theorem witness_NoOtherMasterNoStaleData :
    State.reset.staleData = [] ∧ (∀ i ∈ State.reset.inputs, i.writes = []) ∧ ∃ t, step (State.reset.withFetchWord 32 0x34000000) = .next t :=
  ⟨by decide, by decide, exists_next_of_completes (by decide)⟩

/-- With an instruction cache that holds an earlier word, from a device, and without an instruction cache. -/
theorem witness_FetchSeesCurrentOrEarlier :
    (wordAligned stale.pc = true ∧ respond stale.cfg .fetch .word stale.pc = .memory ∧ fetchDefined stale.cfg stale.pc = true ∧
      stale.staleWords stale.pc = [0xAC000007#32] ∧ stale.portWord stale.pc = 0xAC000007#32) ∧
    (respond (fetching .device).cfg .fetch .word 0x5000#32 = .device ∧ fetchDefined (fetching .device).cfg 0x5000#32 = true ∧
      codeCached (fetching .device).cfg 0x5000#32 = true ∧ codeCached (bare Cfg.reference) 0x5000#32 = false) ∧
    (respond (bare Cfg.reference) .fetch .word 0xFFFFFFFC#32 = .memory ∧ fetchDefined (bare Cfg.reference) 0xFFFFFFFC#32 = true) := by
  decide

theorem inv_start : Inv (start []) where
  legal := by decide
  pcAligned := by decide
  memWf := by decide
  imLines := by decide
  ipLines := by decide
  lives := fun _ h => nomatch h
  slots := fun _ h => nomatch h
  lines := organised_nil _
  way := by decide
  codeLines := organised_nil _
  codeWay := by decide
  codeWords := fun _ h => nomatch h

theorem inv_stale : Inv stale where
  legal := by decide
  pcAligned := by decide
  memWf := by decide
  imLines := by decide
  ipLines := by decide
  lives := fun e h => by rw [List.mem_singleton.mp h]; rfl
  slots := fun _ h => nomatch h
  lines := organised_stale
  way := by decide
  codeLines := ⟨by decide, by decide, List.pairwise_singleton _ _⟩
  codeWay := by decide
  codeWords := fun l hl a ha _ he _ => by
    obtain rfl := List.mem_singleton.mp hl
    obtain rfl := eq_of_lineAddress (by decide) ha he
    exact .inr ⟨_, List.mem_cons_self, rfl, by decide, fun _ h => nomatch h⟩

/-- A word of a held line, stored where memory answers the store and a device the load, and the other way round. -/
theorem witness_StoreThenLoad_held :
    Inv (onCfg (splitAt5000 .device .memory) holding) ∧ holding.staleData = [] ∧
    Held (onCfg (splitAt5000 .device .memory) holding) 0x5000#32 ∧
    (∀ k, k < 4 → dataCached (splitAt5000 .device .memory Cfg.reference) (0x5000#32 + BitVec.ofNat 32 k) = true) ∧
    holding.watchpointHit .write 0x5000#32 = false ∧
    respond (splitAt5000 .device .memory Cfg.reference) .write .word 0x5000#32 = .memory ∧
    respond (splitAt5000 .device .memory Cfg.reference) .read .word 0x5000#32 = .device ∧
    respond (splitAt5000 .memory .device Cfg.reference) .write .word 0x5000#32 = .device ∧
    ∃ t, exec (.sw 0#5 0x5000#16 1#5) (onCfg (splitAt5000 .device .memory) holding) = .next t ∧
      t.reg 0#5 + (0x5000#16).signExtend 32 = 0x5000#32 ∧ t.watchpointHit .read 0x5000#32 = false := by
  unfold Held
  exact ⟨⟨by decide, by decide, by decide, by decide, by decide, fun _ h => (nomatch h), fun _ h => (nomatch h),
    ⟨by decide, by decide, List.pairwise_singleton _ _⟩, by decide, organised_nil _, by decide, fun _ h => (nomatch h)⟩, by decide,
    by decide, by decide, by decide, by decide, by decide, by decide, _, rfl, by decide, by decide⟩

/-- A data cache that holds a line of memory, as memory has it. -/
def coherent : State := { start [] with dataLines := [{ addr := 0x5000, way := 0, bytes := [0, 0, 0, 0], dropping := false }] }

theorem witness_NoOtherMasterNoStaleData_coherent :
    coherent.staleData = [] ∧ Inv coherent ∧ PlainMap coherent.cfg ∧ Coherent coherent ∧
    ∃ t, step (coherent.withFetchWord 32 0x34000000) = .next t := by
  refine ⟨rfl, ⟨by decide, by decide, by decide, by decide, by decide, fun _ h => (nomatch h), fun _ h => (nomatch h),
    ⟨by decide, by decide, List.pairwise_singleton _ _⟩, by decide, organised_nil _, by decide, fun _ h => (nomatch h)⟩,
    fun n a _ _ => ⟨by cases n <;> rfl, by cases n <;> exact fun h => nomatch (show Response.memory = .device from h)⟩,
    fun l hl b x hx _ _ => ?_, exists_next_of_completes (by decide)⟩
  obtain rfl := List.mem_singleton.mp hl
  have := List.mem_of_getElem? hx
  have h0 : x = 0#8 := by simpa using this
  exact h0

/-- A `nop` at an aligned pc that memory answers is fetched and executed, whatever the instruction cache holds. -/
theorem exists_fetchedSlot_nop {s : State} (ha : wordAligned s.pc = true) (hr : respond s.cfg .fetch .word s.pc = .memory)
    (hd : fetchDefined s.cfg s.pc = true) : ∃ t, FetchedSlot .nop s t ∧ t.cfg = s.cfg ∧ t.pc = s.pc + 4#32 := by
  refine ⟨_, ⟨_, _, State.fetch_memory ha hr hd, rfl, rfl⟩, ?_, ?_⟩ <;>
    simp

/-- Four slots after `wcsr ICC`, fetched or not, with an earlier word and a line to invalidate. -/
theorem witness_CodeInvalidation :
    stale.cfg.hasICache = true ∧ Inv stale ∧ stale.staleCode ≠ [] ∧ stale.codeLines ≠ [] ∧
    ∃ s₁, execute (.wcsr 0x03#5 0#5) stale = .next s₁ ∧
      (∃ s₂ s₃ s₄ s₅, FetchedSlot .nop s₁ s₂ ∧ FetchedSlot .nop s₂ s₃ ∧ FetchedSlot .nop s₃ s₄ ∧ FetchedSlot .nop s₄ s₅) ∧
      ∃ s₂ s₃ s₄ s₅, Slot .nop s₁ s₂ ∧ Slot .nop s₂ s₃ ∧ Slot .nop s₃ s₄ ∧ Slot .nop s₄ s₅ ∧ s₄.staleCode ≠ [] := by
  refine ⟨by decide, inv_stale, by decide, by decide, _, rfl, ?_,
    _, _, _, _, ⟨rfl, rfl⟩, ⟨rfl, rfl⟩, ⟨rfl, rfl⟩, ⟨rfl, rfl⟩, by decide⟩
  obtain ⟨s₂, h₂, c₂, p₂⟩ := exists_fetchedSlot_nop (s := ((stale.prepare false).invalidateCode.advance).executed (.wcsr 0x03#5 0#5))
    (by decide) (by decide) (by decide)
  obtain ⟨s₃, h₃, c₃, p₃⟩ := exists_fetchedSlot_nop (s := s₂) (by rw [p₂]; decide) (by rw [c₂, p₂]; decide) (by rw [c₂, p₂]; decide)
  obtain ⟨s₄, h₄, c₄, p₄⟩ := exists_fetchedSlot_nop (s := s₃) (by rw [p₃, p₂]; decide) (by rw [c₃, c₂, p₃, p₂]; decide)
    (by rw [c₃, c₂, p₃, p₂]; decide)
  obtain ⟨s₅, h₅, -⟩ := exists_fetchedSlot_nop (s := s₄) (by rw [p₄, p₃, p₂]; decide) (by rw [c₄, c₃, c₂, p₄, p₃, p₂]; decide)
    (by rw [c₄, c₃, c₂, p₄, p₃, p₂]; decide)
  exact ⟨s₂, s₃, s₄, s₅, h₂, h₃, h₄, h₅⟩

/-- With an earlier byte and a device's line to invalidate. -/
theorem witness_DataInvalidation :
    stale.cfg.hasDCache = true ∧ stale.lastMem = false ∧ isDataAccess .nop = false ∧ stale.staleData ≠ [] ∧ stale.dataLines ≠ [] ∧
    ∃ s₁ s₂, execute (.wcsr 0x04#5 0#5) stale = .next s₁ ∧ execute .nop s₁ = .next s₂ :=
  ⟨by decide, by decide, by decide, by decide, by decide, _, _, rfl, rfl⟩

theorem witness_BaseAddressRegisters : State.reset.cfg.debug = true := by decide

theorem witness_DebugControlRegister : State.reset.cfg.debug = true ∧ State.reset.cfg.dcLayout.c3 = 8 := by decide

theorem witness_BreakpointAndWatchpointRegisters :
    State.reset.cfg.debug = true ∧ (0 : Fin 4).val < State.reset.cfg.breakpoints ∧ (3 : Fin 4).val < State.reset.cfg.breakpoints ∧
    (0 : Fin 4).val < State.reset.cfg.watchpoints ∧ (3 : Fin 4).val < State.reset.cfg.watchpoints := by decide

/-- The instance with most of everything, and the one with least. -/
theorem witness_ConfigurationRegisters : cfgLegal State.reset.cfg = true ∧ cfgLegal (bare Cfg.reference) = true := by decide

theorem witness_CycleCounterAndJtagRegisters : State.reset.cfg.cycleCounter = true ∧ State.reset.cfg.jtagUart = true := by decide

/-- DC cannot be read, index 1F is unassigned. -/
theorem witness_CsrsThatCannotBeAccessed_read :
    ¬ CsrReadable Cfg.reference 0x08#5 ∧ ¬ CsrReadable Cfg.reference 0x1F#5 := by
  unfold CsrReadable; decide

/-- CFG cannot be written, index 1F is unassigned, and BP3 is there with four breakpoints only. -/
theorem witness_CsrsThatCannotBeAccessed_write :
    ¬ CsrWritable Cfg.reference 0x06#5 ∧ ¬ CsrWritable Cfg.reference 0x1F#5 ∧
    ¬ CsrWritable { Cfg.reference with breakpoints := 3 } 0x13#5 ∧
    CsrWritable Cfg.reference 0x00#5 ∧ CsrWritable Cfg.reference 0x13#5 ∧ CsrWritable Cfg.reference 0x1B#5 := by
  unfold CsrWritable
  exact ⟨by decide, by decide, by decide, by decide, by decide, by decide⟩

theorem witness_RegisterTransfers :
    ((start [(3, 0xFFFFFFFC)]).reg 3#5).toNat % 4 = 0 ∧ ((start [(29, 0x4000)]).reg 29#5).toNat % 4 = 0 ∧ (3#5 : Reg) ≠ 30#5 ∧
    (3#5 : Reg) ≠ 31#5 := by decide

theorem witness_MisalignedTargetsRefused :
    ((start [(3, 1)]).reg 3#5).toNat % 4 ≠ 0 ∧ ((start [(29, 0xFFFFFFFF)]).reg 29#5).toNat % 4 ≠ 0 ∧
    ((start [(30, 2)]).reg 30#5).toNat % 4 ≠ 0 ∧ ((start [(31, 3)]).reg 31#5).toNat % 4 ≠ 0 := by decide

/-- Operands on which every branch is taken, or not taken: 0 against 0, and 0x80000000 against 0x7FFFFFFF both ways. -/
theorem witness_ConditionalBranches :
    (leftOperand (start []) 1#5 2#5 = rightOperand (start []) 1#5 2#5) ∧
    (leftOperand (start [(1, 0x80000000), (2, 0x7FFFFFFF)]) 1#5 2#5).toNat > (rightOperand (start [(1, 0x80000000), (2, 0x7FFFFFFF)]) 1#5 2#5).toNat ∧
    ¬ (leftOperand (start [(1, 0x80000000), (2, 0x7FFFFFFF)]) 1#5 2#5).toInt ≥ (rightOperand (start [(1, 0x80000000), (2, 0x7FFFFFFF)]) 1#5 2#5).toInt ∧
    (leftOperand (start [(1, 0x80000000), (2, 0x7FFFFFFF)]) 2#5 1#5).toInt > (rightOperand (start [(1, 0x80000000), (2, 0x7FFFFFFF)]) 2#5 1#5).toInt ∧
    ¬ (leftOperand (start [(1, 0x80000000), (2, 0x7FFFFFFF)]) 2#5 1#5).toNat ≥ (rightOperand (start [(1, 0x80000000), (2, 0x7FFFFFFF)]) 2#5 1#5).toNat := by
  unfold leftOperand rightOperand; decide

theorem witness_SoftwareBreakpoint : State.reset.cfg.debug = true ∧ (bare Cfg.reference).debug = false := by decide

theorem witness_ExceptionReturns :
    ((start [(30, 0xFFFFFFFC)]).reg 30#5).toNat % 4 = 0 ∧ ((start [(31, 0)]).reg 31#5).toNat % 4 = 0 := by decide

theorem witness_EntryThenReturn :
    (start []).pc.toNat % 4 = 0 ∧ Exc.interrupt ∈ [Exc.instructionBusError, .dataBusError, .divideByZero, .interrupt, .systemCall] ∧
    Exc.watchpoint ∈ [Exc.breakpoint, .watchpoint] := by decide

/-- The core may look at the instruction at the pc of `start []` with the word `w` there. -/
theorem ready_start (w : Word) : Ready ((start []).placeAtPc w).sample where
  notReset := rfl
  notWaiting := rfl
  notStepping := rfl
  noBreakpoint := rfl

theorem witness_StepRunsDecodedInstruction :
    cfgLegal (start []).cfg = true ∧ Ready ((start []).placeAtPc 0xB4221800#32).sample ∧
    Fetches ((start []).placeAtPc 0xB4221800#32).sample 0xB4221800#32 ∧ decode 0xB4221800#32 = .instr (.add 3#5 1#5 2#5) ∧
    unitPresent (start []).cfg (.add 3#5 1#5 2#5) = true ∧ ((start []).placeAtPc 0xB4221800#32).sample.interruptPending = false :=
  ⟨by decide, ready_start _, ⟨by decide, by decide, by decide, by decide, by decide⟩, by decide, by decide, by decide⟩

/-- A division by zero goes before an interrupt that is pending. -/
theorem witness_StepRunsDecodedInstruction_first :
    ({ (start []).placeAtPc 0x8C221800#32 with ieIE := true, im := 1, ip := 1 } : State).sample.interruptPending = true ∧
    ({ (start []).placeAtPc 0x8C221800#32 with ieIE := true, im := 1, ip := 1 } : State).sample.raisesFirst (.divu 3#5 1#5 2#5) = true := by
  decide

/-- `add r3, r1, r2` with the interrupts 0 and 31 pending and enabled. -/
def interrupted : State := { (start []).placeAtPc 0xB4221800#32 with ieIE := true, im := 0x80000001, ip := 0x80000001 }

theorem witness_StepTakesInterrupt :
    cfgLegal interrupted.cfg = true ∧ Ready interrupted.sample ∧ Fetches interrupted.sample 0xB4221800#32 ∧
    decode 0xB4221800#32 = .instr (.add 3#5 1#5 2#5) ∧ interrupted.sample.raisesFirst (.add 3#5 1#5 2#5) = false ∧
    interrupted.sample.ieIE = true ∧ 31 < interrupted.cfg.interrupts ∧ interrupted.sample.ip.getLsbD 31 = true ∧
    interrupted.sample.im.getLsbD 31 = true ∧ interrupted.sample.ip.getLsbD 0 = true ∧ interrupted.sample.im.getLsbD 0 = true :=
  ⟨by decide, ⟨by decide, by decide, by decide, by decide⟩, ⟨by decide, by decide, by decide, by decide, by decide⟩,
    by decide, by decide, by decide, by decide, by decide, by decide, by decide, by decide⟩

/-- A word without a meaning, and `mul` without a multiplier, with an interrupt pending. -/
theorem witness_StepTakesInterrupt_no_instruction :
    (∀ i, decode 0xD4000000#32 ≠ .instr i) ∧
    Fetches ({ interrupted with mem := ((start []).placeAtPc 0xD4000000#32).mem } : State).sample 0xD4000000#32 ∧
    decode 0x88221800#32 = .instr (.mul 3#5 1#5 2#5) ∧
    unitPresent { Cfg.reference with plMultiply := false } (.mul 3#5 1#5 2#5) = false ∧
    cfgLegal { Cfg.reference with plMultiply := false } = true := by
  refine ⟨fun i h => ?_, ⟨by decide, by decide, by decide, by decide, by decide⟩, by decide, by decide, by decide⟩
  rw [show decode 0xD4000000#32 = .undefined (.reservedOpcode 0x35#6) by decide] at h
  cases h

/-- Breakpoint 3 at the last word of the address space. -/
def broken : State := { State.reset with pc := 0xFFFFFFFC, bp := State.reset.bp.set 3 (bpOfWord 0xFFFFFFFD) }

theorem witness_StepTakesBreakpoint :
    cfgLegal broken.cfg = true ∧ broken.sample.resetPin = false ∧ broken.sample.waiting = false ∧ broken.sample.dc.ss = false ∧
    broken.sample.breakpointHit = true := by decide

theorem witness_StepTakesFetchBusError :
    cfgLegal (fetching .busError).cfg = true ∧ Ready (fetching .busError).sample ∧ wordAligned (fetching .busError).sample.pc = true ∧
    fetchDefined (fetching .busError).cfg (fetching .busError).sample.pc = true ∧
    respond (fetching .busError).cfg .fetch .word (fetching .busError).sample.pc = .busError :=
  ⟨by decide, ⟨by decide, by decide, by decide, by decide⟩, by decide, by decide, by decide⟩

/-- The reset pin is asserted at the next step, with `at_debug` as well, on an instance with dynamic mapping. -/
def resetting : State :=
  onCfg (fun c => { c with alternateEba := true })
    { stale with waiting := true, inputs := [{ lines := 1, reset := true, atDebug := true, writes := [] }] }

theorem witness_StepTakesReset :
    cfgLegal resetting.cfg = true ∧ resetting.sample.resetPin = true ∧ resetting.sample.atDebug = true ∧
    seen (fun t => (t.waiting, t.ip)) (step resetting) = some (false, 1#32) := by decide

theorem witness_StepStops_illegal : cfgLegal { Cfg.reference with interrupts := 33 } = false := by decide

theorem witness_StepStops_waiting :
    ({ start [] with waiting := true } : State).sample.resetPin = false ∧ ({ start [] with waiting := true } : State).sample.waiting = true := by
  decide

theorem witness_StepStops_singleStep :
    ({ start [] with dc := dcOfWord DcLayout.standard 1 } : State).sample.dc.ss = true ∧
    ({ start [] with dc := dcOfWord DcLayout.standard 1 } : State).sample.waiting = false := by decide

/-- The first address past the cacheable region, where the platform answers as memory or with an error. -/
theorem witness_StepStops_outside :
    Ready ({ start [] with pc := 0x80000000 } : State).sample ∧ wordAligned 0x80000000#32 = true ∧
    fetchDefined Cfg.reference 0x80000000#32 = false ∧ respond Cfg.reference .fetch .word 0x80000000#32 = .memory ∧
    respond { Cfg.reference with memMap := { regions := [], other := allAnswer .busError } } .fetch .word 0x80000000#32 = .busError :=
  ⟨⟨by decide, by decide, by decide, by decide⟩, by decide, by decide, by decide, by decide⟩

/-- A fetch that nothing answers, and one that a device answers. -/
theorem witness_StepStops_answers :
    (Ready (fetching .noResponse).sample ∧ wordAligned (fetching .noResponse).sample.pc = true ∧
      fetchDefined (fetching .noResponse).cfg (fetching .noResponse).sample.pc = true ∧
      respond (fetching .noResponse).cfg .fetch .word (fetching .noResponse).sample.pc = .noResponse) ∧
    (Ready (fetching .device).sample ∧ wordAligned (fetching .device).sample.pc = true ∧
      fetchDefined (fetching .device).cfg (fetching .device).sample.pc = true ∧
      respond (fetching .device).cfg .fetch .word (fetching .device).sample.pc = .device) :=
  ⟨⟨⟨by decide, by decide, by decide, by decide⟩, by decide, by decide, by decide⟩,
    ⟨by decide, by decide, by decide, by decide⟩, by decide, by decide, by decide⟩

theorem witness_StepStops_undefined :
    Ready ((start []).placeAtPc 0xD4000000#32).sample ∧ Fetches ((start []).placeAtPc 0xD4000000#32).sample 0xD4000000#32 ∧
    ((start []).placeAtPc 0xD4000000#32).sample.interruptPending = false ∧
    Undefined 0xD4000000#32 ∧ Undefined 0xAC000000#32 ∧ Undefined 0xB4221801#32 :=
  ⟨ready_start _, ⟨by decide, by decide, by decide, by decide, by decide⟩, by decide,
    by unfold Undefined; decide, by unfold Undefined; decide, by unfold Undefined; decide⟩

/-- `mul` on an instance without a multiplier. -/
theorem witness_StepStops_absent :
    Ready (onCfg bare ((start []).placeAtPc 0x88221800#32)).sample ∧
    Fetches (onCfg bare ((start []).placeAtPc 0x88221800#32)).sample 0x88221800#32 ∧
    decode 0x88221800#32 = .instr (.mul 3#5 1#5 2#5) ∧ unitPresent (bare Cfg.reference) (.mul 3#5 1#5 2#5) = false ∧
    (onCfg bare ((start []).placeAtPc 0x88221800#32)).sample.interruptPending = false :=
  ⟨⟨by decide, by decide, by decide, by decide⟩, ⟨by decide, by decide, by decide, by decide, by decide⟩, by decide, by decide,
    by decide⟩

/-- Another master writes the first and the last byte of the word at 0x2000. -/
def transfer : BusWrite := { word := 0x800#30, b0 := some 9, b1 := none, b2 := none, b3 := some 8 }

/-- A state with no input to come, and one whose input asserts a line and brings a transfer. -/
theorem witness_StepSamplesInputs :
    (start []).inputs = [] ∧
    (fun t : State => (t.inputs, t.ip, t.wordAt 0x2000))
      ({ loadStart 0 with inputs := [{ lines := 4, reset := false, atDebug := false, writes := [transfer] }] } : State).sample =
      ([], 4, 0x09028308) := by decide

/-- The transfer changes two bytes of a word that both caches may hold, and what they held is recorded. -/
theorem witness_OtherMasterWrites :
    Memory.wf (loadStart 0).mem = true ∧ codeCached (loadStart 0).cfg 0x2000#32 = true ∧ dataCached (loadStart 0).cfg 0x2003#32 = true ∧
    (fun t : State => (t.wordAt 0x2000, t.wordAt 0x2004, t.oldBytes 0x2000, t.oldBytes 0x2001, t.oldBytes 0x2003, t.oldWords 0x2000))
      ((loadStart 0).masterWrite transfer) = (0x09028308, 0xF5060788, [0x81], [], [4], [0x81028304]) := by decide

/-- Every way a register can change: the destination, ra, ea by each of three entries, ba by each of two. -/
theorem witness_GeneralRegisterFrame :
    (∃ t, exec (.add 0#5 1#5 2#5) (start [(1, 1)]) = .next t ∧ t.reg 0#5 ≠ (start [(1, 1)]).reg 0#5) ∧
    (∃ t, exec (.calli 0#26) (start []) = .next t ∧ t.reg 29#5 ≠ (start []).reg 29#5) ∧
    (∃ t, exec (.divu 3#5 1#5 2#5) (start []) = .next t ∧ t.reg 30#5 ≠ (start []).reg 30#5) ∧
    (∃ t, exec .scall (start []) = .next t ∧ t.reg 30#5 ≠ (start []).reg 30#5) ∧
    (∃ t, exec (.lw 3#5 0#5 0x5000#16) (onCfg (answeredAt5000 .busError) (start [])) = .next t ∧
      t.reg 30#5 ≠ (onCfg (answeredAt5000 .busError) (start [])).reg 30#5) ∧
    (∃ t, exec .brk (start []) = .next t ∧ t.reg 31#5 ≠ (start []).reg 31#5) ∧
    (∃ t, exec (.lw 3#5 0#5 0#16) watched = .next t ∧ t.reg 31#5 ≠ watched.reg 31#5) :=
  ⟨⟨_, rfl, by decide⟩, ⟨_, rfl, by decide⟩, ⟨_, rfl, by decide⟩, ⟨_, rfl, by decide⟩, ⟨_, rfl, by decide⟩, ⟨_, rfl, by decide⟩,
    ⟨_, rfl, by decide⟩⟩

theorem witness_SpecialRegisterFrame :
    (∃ t, exec (.wcsr 0x00#5 1#5) (start [(1, 7)]) = .next t ∧
      (t.ieIE, t.ieEIE, t.ieBIE) ≠ ((start [(1, 7)]).ieIE, (start [(1, 7)]).ieEIE, (start [(1, 7)]).ieBIE)) ∧
    (∃ t, exec .scall { start [] with ieIE := true } = .next t ∧ (t.ieIE, t.ieEIE, t.ieBIE) ≠ (true, false, false)) ∧
    ∀ k rX, (Instr.scall) ≠ .wcsr k rX :=
  ⟨⟨_, rfl, by decide⟩, ⟨_, rfl, by decide⟩, fun _ _ h => by cases h⟩

theorem witness_MemoryFrame :
    (isStore .nop = false ∧ ∃ t, exec .nop (start []) = .next t) ∧
    dataOperand (.sw 1#5 0xFFFC#16 2#5) = some (.write, .word, 1#5, 0xFFFC#16) ∧
    (∃ t, exec (.sw 1#5 0xFFFC#16 2#5) (start [(2, 1)]) = .next t) ∧ ∃ b, ¬ Stored .word 0xFFFFFFFC#32 b :=
  ⟨⟨by decide, _, rfl⟩, by decide, ⟨_, rfl⟩, 0#32, by unfold Stored; decide⟩

theorem witness_StepKeepsInvariant : Inv (start []) ∧ ∃ t, step ((start []).withFetchWord 32 0x34000000) = .next t :=
  ⟨inv_start, exists_next_of_completes (by decide)⟩

theorem witness_ResetSatisfiesInvariant : cfgLegal Cfg.reference = true ∧ cfgLegal (bare Cfg.reference) = true := by decide

theorem witness_ResetValues : State.reset = State.powerUp Cfg.reference ∧ cfgLegal Cfg.reference = true := ⟨rfl, by decide⟩

theorem witness_EndOfRunIsStable :
    cfgLegal (start []).cfg = true ∧ Ready ((start []).placeAtPc 0xE0000000#32).sample ∧
    Fetches ((start []).placeAtPc 0xE0000000#32).sample 0xE0000000#32 ∧ (start []).ieIE = false ∧
    (∀ w, respond (start []).cfg .fetch .word w ≠ .device) ∧ ¬ CodeMisses stale stale.pc ∧ CodeMisses (start []) (start []).pc :=
  ⟨by decide, ready_start _, ⟨by decide, by decide, by decide, by decide, by decide⟩, by decide,
    fun _ => nofun, by unfold CodeMisses; decide, by unfold CodeMisses; decide⟩

end Sys2Proof.Tests
end

section
/-! The start of a step, the outcomes of a fetch and of a fetched word, and the statements of the scope family: StepStops (O51),
StepSamplesInputs (O52) and StepRunsDecodedInstruction (O46). -/

namespace Sys2Proof.Machine

open Sys2Proof.Safety

/-! ### Words with no meaning (30_encoding.md R163, R164) -/

/-- A field that is zero leaves nothing of the word under the field's mask. -/
theorem and_mask_of_field_zero {w : Word} {st len : Nat} (h : w.extractLsb' st len = 0#len) :
    w &&& (BitVec.allOnes len).setWidth 32 <<< st = 0#32 := by
  apply BitVec.eq_of_getLsbD_eq
  intro j hj
  by_cases hin : st ≤ j ∧ j - st < len
  · have hbit := congrArg (fun v : BitVec len => v.getLsbD (j - st)) h
    simp only [BitVec.getLsbD_extractLsb', hin.2, decide_true, Bool.true_and, Nat.add_sub_of_le hin.1, BitVec.getLsbD_zero] at hbit
    simp [hbit]
  · have hmask : ((BitVec.allOnes len).setWidth 32 <<< st).getLsbD j = false := by
      simp only [BitVec.getLsbD_shiftLeft, BitVec.getLsbD_setWidth, BitVec.getLsbD_allOnes, Bool.and_eq_false_iff,
        Bool.not_eq_false', decide_eq_true_eq, decide_eq_false_iff_not]
      omega
    rw [BitVec.getLsbD_and, hmask, Bool.and_false, BitVec.getLsbD_zero]

/-- A word with a must-be-zero field that is not zero has no meaning (R164 c). -/
theorem requireZero_of_ne {n : Nat} {field : BitVec n} (i : Instr) (h : field ≠ 0#n) :
    requireZero field i = .undefined .nonzeroReservedField := if_neg h

/-- The opcodes with w[15:5] zero are the shifts by an immediate. -/
theorem decode_of_shiftImm_opcode {w : Word} (h : opcode w ∈ [0x00#6, 0x05#6, 0x0F#6]) :
    ∃ i, decode w = requireZero (w.extractLsb' 5 11) i := by
  simp only [List.mem_cons, List.not_mem_nil, or_false] at h
  rcases h with h | h | h
  · exact ⟨_, decode_0x00 h⟩
  · exact ⟨_, decode_0x05 h⟩
  · exact ⟨_, decode_0x0F h⟩

/-- The opcodes with w[20:16] and w[10:0] zero are `rcsr` and the sign extensions. -/
theorem decode_of_extend_opcode {w : Word} (h : opcode w ∈ [0x24#6, 0x2C#6, 0x37#6]) :
    ∃ i, decode w = requireZero (field1 w ++ w.extractLsb' 0 11) i := by
  simp only [List.mem_cons, List.not_mem_nil, or_false] at h
  rcases h with h | h | h
  · exact ⟨_, decode_0x24 h⟩
  · exact ⟨_, decode_0x2C h⟩
  · exact ⟨_, decode_0x37 h⟩

/-- The opcodes with w[20:0] zero are the transfers to a register. -/
theorem decode_of_branchReg_opcode {w : Word} (h : opcode w ∈ [0x30#6, 0x36#6]) :
    ∃ i, decode w = requireZero (w.extractLsb' 0 21) i := by
  simp only [List.mem_cons, List.not_mem_nil, or_false] at h
  rcases h with h | h
  · exact ⟨_, decode_0x30 h⟩
  · exact ⟨_, decode_0x36 h⟩

/-- The opcodes with w[10:0] zero are those of three registers. -/
theorem decode_of_RR_opcode {w : Word}
    (h : opcode w ∈ [0x20#6, 0x21#6, 0x22#6, 0x23#6, 0x25#6, 0x26#6, 0x28#6, 0x29#6, 0x2D#6, 0x2E#6, 0x2F#6, 0x31#6, 0x32#6,
      0x39#6, 0x3A#6, 0x3B#6, 0x3C#6, 0x3D#6, 0x3F#6]) :
    ∃ i, decode w = requireZero (w.extractLsb' 0 11) i := by
  simp only [List.mem_cons, List.not_mem_nil, or_false] at h
  rcases h with h | h | h | h | h | h | h | h | h | h | h | h | h | h | h | h | h | h | h
  · exact ⟨_, decode_0x20 h⟩
  · exact ⟨_, decode_0x21 h⟩
  · exact ⟨_, decode_0x22 h⟩
  · exact ⟨_, decode_0x23 h⟩
  · exact ⟨_, decode_0x25 h⟩
  · exact ⟨_, decode_0x26 h⟩
  · exact ⟨_, decode_0x28 h⟩
  · exact ⟨_, decode_0x29 h⟩
  · exact ⟨_, decode_0x2D h⟩
  · exact ⟨_, decode_0x2E h⟩
  · exact ⟨_, decode_0x2F h⟩
  · exact ⟨_, decode_0x31 h⟩
  · exact ⟨_, decode_0x32 h⟩
  · exact ⟨_, decode_0x39 h⟩
  · exact ⟨_, decode_0x3A h⟩
  · exact ⟨_, decode_0x3B h⟩
  · exact ⟨_, decode_0x3C h⟩
  · exact ⟨_, decode_0x3D h⟩
  · exact ⟨_, decode_0x3F h⟩

/-- The four reserved opcodes (R164 a). -/
theorem decode_of_reserved_opcode {w : Word} (h : opcode w ∈ [0x27#6, 0x2A#6, 0x33#6, 0x35#6]) :
    decode w = .undefined (.reservedOpcode (opcode w)) := by
  simp only [List.mem_cons, List.not_mem_nil, or_false] at h
  unfold decode
  rcases h with h | h | h | h <;> rw [h] <;> rfl

/-- A must-be-zero bit that is set makes the decoder refuse the word (R164 c): each mask of R163 is that of the field which the
decoder compares with zero. -/
theorem decode_of_reserved_bits {w : Word} (h : w &&& mustBeZero (opcode w) ≠ 0#32) :
    decode w = .undefined .nonzeroReservedField := by
  unfold mustBeZero at h
  split at h
  · next hop =>
    obtain ⟨i, hd⟩ := decode_of_shiftImm_opcode hop
    exact hd.trans (requireZero_of_ne i fun hz => h (and_mask_of_field_zero hz))
  split at h
  · next hop =>
    obtain ⟨i, hd⟩ := decode_of_extend_opcode hop
    refine hd.trans (requireZero_of_ne i fun hz => h ?_)
    obtain ⟨hhigh, hlow⟩ := fields_zero_of_append hz
    have hmask : (0x001F07FF#32 : Word) =
        (BitVec.allOnes 5).setWidth 32 <<< 16 ||| (BitVec.allOnes 11).setWidth 32 <<< 0 := by decide
    rw [hmask, BitVec.and_or_distrib_left, and_mask_of_field_zero hhigh, and_mask_of_field_zero hlow, BitVec.or_self]
  split at h
  · next hop =>
    obtain ⟨i, hd⟩ := decode_of_branchReg_opcode hop
    exact hd.trans (requireZero_of_ne i fun hz => h (and_mask_of_field_zero hz))
  split at h
  · next hop =>
    exact (decode_0x34 hop).trans (requireZero_of_ne _ fun hz => h (and_mask_of_field_zero hz))
  split at h
  · next hop =>
    obtain ⟨i, hd⟩ := decode_of_RR_opcode hop
    exact hd.trans (requireZero_of_ne i fun hz => h (and_mask_of_field_zero hz))
  · exact absurd BitVec.and_zero h

/-- The decoder gives no meaning to a word that R164 leaves undefined. -/
theorem decode_of_undefined {w : Word} (h : Undefined w) : ∃ e, decode w = .undefined e := by
  obtain hop | ⟨hop, hscall, hbrk⟩ | hbits := h
  · exact ⟨_, decode_of_reserved_opcode hop⟩
  · exact ⟨.undefinedSystemWord, by rw [decode_0x2B hop, decodeSystem, if_neg hscall, if_neg hbrk]⟩
  · exact ⟨_, decode_of_reserved_bits hbits⟩

/-! ### Exception entry (60_exceptions.md R410) -/

/-- The vector base of a non-debug exception, as the statements spell it (R412): DC.RE or the pin asks for DEBA. -/
theorem State.vectorBase_nonDebug {s : State} {e : Exc} (h : isDebugExc e = false) : s.vectorBase e = nonDebugBase s := by
  simp only [State.vectorBase, nonDebugBase, h, State.debaWord, State.ebaWord, Bool.and_eq_true, Bool.false_eq_true, if_false,
    and_assoc]
  by_cases hre : s.cfg.hasDebug = true ∧ s.dc.re = true
  · rw [if_pos hre, if_pos (.inl hre)]
  · rw [if_neg hre]
    simp only [hre, false_or]

/-- Entering a non-debug exception is the entry that R410 describes, with the exception's number. -/
theorem State.enter_enteredNonDebug (s : State) {e : Exc} (h : isDebugExc e = false) :
    EnteredNonDebug s (s.enter e) (excId e) := by
  have hreg : ∀ r, (s.enter e).reg r = if r = ea then s.pc else s.reg r := fun r => by rw [State.reg_enter, h]; rfl
  have hpc : (s.enter e).pc = nonDebugBase s + BitVec.ofNat 32 (excId e * 32) := by
    rw [State.enter_pc, State.vector, State.vectorBase_nonDebug h]
  refine ⟨(hreg ea).trans (if_pos rfl), ?eie, ?ie, hpc, fun r hr => (hreg r).trans (if_neg hr), ?mem, ?refetched, ?frame⟩
  case eie => rw [State.enter_nonDebug h]
  case ie => rw [State.enter_nonDebug h]
  case mem => exact State.byteAt_congr (s.enter_mem e)
  case refetched => rw [State.enter_nonDebug h]; rfl
  case frame => rw [State.enter_nonDebug h]; rfl

/-! ### The start of a step (10_state.md R47; 60_exceptions.md R430) -/

/-- The lines that the core has. -/
theorem getLsbD_lineMask (c : Cfg) {j : Nat} (hj : j < 32) : (lineMask c).getLsbD j = decide (j < c.interrupts) := by
  rw [lineMask, BitVec.getLsbD_ofNat, Nat.testBit_two_pow_sub_one, decide_eq_true hj, Bool.true_and]

/-- Taking an input latches nothing and changes no configuration. -/
theorem State.takeInput_ip_cfg (s : State) : s.takeInput.ip = s.ip ∧ s.takeInput.cfg = s.cfg := by
  obtain ⟨-, h⟩ | ⟨i, rest, m, c, d, -, h⟩ := s.takeInput_cases <;> rw [h] <;> exact ⟨rfl, rfl⟩

/-- The latch: a pending bit stays set, and the asserted line of an interrupt that the core has sets it. -/
theorem State.sample_pending (s : State) {j : Nat} (hj : j < 32) :
    s.sample.ip.getLsbD j = (s.ip.getLsbD j || (s.sample.intLines.getLsbD j && decide (j < s.cfg.interrupts))) := by
  obtain ⟨hip, hcfg⟩ := s.takeInput_ip_cfg
  have hlatch : s.sample.ip = s.ip ||| (s.sample.intLines &&& lineMask s.cfg) := by
    rw [← hip, ← hcfg]; rfl
  rw [hlatch, BitVec.getLsbD_or, BitVec.getLsbD_and, getLsbD_lineMask s.cfg hj]

/-- With no input left the levels, memory and the earlier copies stay as they are. -/
theorem State.sample_of_no_input {s : State} (h : s.inputs = []) :
    s.sample.inputs = [] ∧ s.sample.intLines = s.intLines ∧ s.sample.resetPin = s.resetPin ∧ s.sample.atDebug = s.atDebug ∧
      s.sample.mem = s.mem ∧ s.sample.staleCode = s.staleCode ∧ s.sample.staleData = s.staleData := by
  have ht : s.takeInput = s := by rw [State.takeInput, h]
  simp only [State.sample, ht, h, and_self]

/-- The byte that another master writes depends on no other state than memory. -/
theorem State.masterByte_mem_congr {s t : State} (h : s.mem = t.mem) (a : Word) (b : Option Byte) :
    (s.masterByte a b).mem = (t.masterByte a b).mem := by
  cases b with
  | none => exact h
  | some b => exact congrArg (fun m => Memory.writeByte m a.toNat b) h

/-- The same of a list of transfers. -/
theorem State.foldl_masterWrite_mem_congr (ws : List BusWrite) {s t : State} (h : s.mem = t.mem) :
    (ws.foldl State.masterWrite s).mem = (ws.foldl State.masterWrite t).mem := by
  induction ws generalizing s t with
  | nil => exact h
  | cons w ws ih =>
    exact ih (State.masterByte_mem_congr (State.masterByte_mem_congr (State.masterByte_mem_congr
      (State.masterByte_mem_congr h _ _) _ _) _ _) _ _)

/-- The next input gives the levels, and memory takes the writes that it brings. -/
theorem State.sample_of_input {s : State} {i : Input} {rest : List Input} (h : s.inputs = i :: rest) :
    s.sample.inputs = rest ∧ s.sample.intLines = i.lines ∧ s.sample.resetPin = i.reset ∧ s.sample.atDebug = i.atDebug ∧
      s.sample.mem = (i.writes.foldl State.masterWrite s).mem := by
  have ht : s.takeInput = i.writes.foldl State.masterWrite
      { s with inputs := rest, intLines := i.lines, resetPin := i.reset, atDebug := i.atDebug } := by
    rw [State.takeInput, h]
  obtain ⟨m, c, d, hf⟩ := State.foldl_masterWrite_frame i.writes
    { s with inputs := rest, intLines := i.lines, resetPin := i.reset, atDebug := i.atDebug }
  refine ⟨?_, ?_, ?_, ?_, (congrArg State.mem ht).trans (State.foldl_masterWrite_mem_congr i.writes rfl)⟩ <;>
    simp only [State.sample, ht, hf]

/-- Settles O52: the latch bit by bit, the frame of sampling, and the two cases of the list of inputs. -/
theorem stepSamplesInputs : Obligations.StepSamplesInputs := by
  rintro s t rfl
  obtain ⟨hcfg, hregs, hpc, hie, heie, hbie, him, heba, hdc, hdeba, hbp, hwp, hlast, hwait, hevents, hdata, hdataWay, hcode,
    hcodeWay, hicc⟩ := s.sample_frame
  exact ⟨fun _ hj => s.sample_pending hj, hcfg, hregs, hpc, hie, heie, hbie, him, heba, hdc, hdeba, hbp, hwp, hlast, hwait,
    hevents, hdata, hdataWay, hcode, hcodeWay, hicc, State.sample_of_no_input, fun _ _ => State.sample_of_input⟩

/-! ### The step up to the fetch (60_exceptions.md R403, items 1 to 3) -/

/-- A configuration that violates Table 17 gives no step (00_scope.md R8). -/
theorem step_of_illegal {s : State} (h : cfgLegal s.cfg = false) : step s = .refused .illegalConfiguration := by
  rw [step, h]; rfl

/-- With a legal configuration a step samples the inputs first. -/
theorem step_of_legal {s : State} (h : cfgLegal s.cfg = true) : step s = stepSampled s.sample := if_pos h

/-- A core that waits for an answer that never comes stays as it is. -/
theorem stepSampled_of_waiting {s : State} (hr : s.resetPin = false) (hw : s.waiting = true) : stepSampled s = .next s := by
  simp only [stepSampled, hr, hw, Bool.false_eq_true, if_false, if_true]

/-- A step in single-step mode has no meaning. -/
theorem stepSampled_of_singleStep {s : State} (hr : s.resetPin = false) (hw : s.waiting = false)
    (hs : (s.cfg.hasDebug && s.dc.ss) = true) : stepSampled s = .refused .singleStep := by
  simp only [stepSampled, hr, hw, hs, Bool.false_eq_true, if_false, if_true]

section Ready
variable {s : State} (h : Ready s)
include h

/-- A core that is ready and fetches a word runs that word. -/
theorem stepSampled_of_word {w : Word} {u : State} (hf : s.fetch = .word w u) : stepSampled s = runWord w u := by
  simp only [stepSampled, h.notReset, h.notWaiting, h.notStepping, h.noBreakpoint, hf, Bool.false_eq_true, if_false]

/-- A fetch that is not defined is a fault. -/
theorem stepSampled_of_outside (hf : s.fetch = .outside) : stepSampled s = .fault .fetchOutsideCacheable := by
  simp only [stepSampled, h.notReset, h.notWaiting, h.notStepping, h.noBreakpoint, hf, Bool.false_eq_true, if_false]

/-- After a fetch that nothing answers the core waits. -/
theorem stepSampled_of_stuck (hf : s.fetch = .stuck) : stepSampled s = .next s.stall := by
  simp only [stepSampled, h.notReset, h.notWaiting, h.notStepping, h.noBreakpoint, hf, Bool.false_eq_true, if_false]

end Ready

/-! ### The fetch (20_memory.md R114, R130) -/

/-- Outside the cacheable region the platform's answer is not looked at. -/
theorem State.fetch_outside {s : State} (ha : wordAligned s.pc = true) (hd : fetchDefined s.cfg s.pc = false) :
    s.fetch = .outside := by
  simp [State.fetch, ha, hd]

/-- A fetch that nothing answers does not end. -/
theorem State.fetch_noResponse {s : State} (ha : wordAligned s.pc = true) (hd : fetchDefined s.cfg s.pc = true)
    (hr : respond s.cfg .fetch .word s.pc = .noResponse) : s.fetch = .stuck := by
  simp [State.fetch, ha, hd, hr]

/-- Where one word only may be returned, the fetch gives it. -/
theorem State.fetch_of_fetches {s : State} {w : Word} (h : Fetches s w) : s.fetch = .word w (s.cacheFetch s.pc) := by
  obtain ⟨hword, hdraw⟩ := State.fetchMemory_of_current h.current
  rw [State.fetch_memory h.aligned h.memory h.defined, hword, hdraw, h.bytes]

/-- The word that a device's fetch gives where the pc is cached is that of the line which is then held. -/
theorem State.deviceWord_of_codeCached {s : State} {a : Word} (hc : codeCached s.cfg a = true) :
    ∃ l ∈ (s.deviceFetch a).codeLines, l.addr = lineAddress s.cfg.icache a ∧ s.deviceWord a = l.value .word a := by
  obtain ⟨-, hfetch, hword⟩ | ⟨hn, -⟩ := s.deviceFetch_cases a
  · obtain ⟨-, hmem, haddr⟩ := State.heldCode_some (State.heldCode_cacheFetch hc)
    rw [State.cacheFetch_cfg] at haddr
    exact ⟨_, hfetch ▸ hmem, haddr, hword⟩
  · rw [hc] at hn; cases hn

section AfterFetch
variable {s u : State} (h : AfterFetch s u)
include h

/-- A fetch changes no configuration. -/
theorem cfg_of_afterFetch : u.cfg = s.cfg := (congrArg State.cfg h.frame).trans rfl

/-- A fetch neither raises nor hides an interrupt. -/
theorem interruptPending_of_afterFetch : u.interruptPending = s.interruptPending :=
  (congrArg State.interruptPending h.frame).trans rfl

/-- Nor does it change which exceptions the instruction itself raises. -/
theorem raisesFirst_of_afterFetch (i : Instr) : u.raisesFirst i = s.raisesFirst i :=
  (congrArg (fun t => State.raisesFirst t i) h.frame).trans rfl

end AfterFetch

/-! ### The fetched word (60_exceptions.md R403, items 4 to 10) -/

/-- A pending interrupt is taken in place of a word that raises no exception itself, be it a word without a meaning or of an absent
unit. -/
theorem runWord_of_interrupt {w : Word} {s : State} (hp : s.interruptPending = true)
    (hn : ∀ i, decode w = .instr i → unitPresent s.cfg i = true → s.raisesFirst i = false) :
    runWord w s = .next (s.enter .interrupt) := by
  unfold runWord
  cases hd : decode w with
  | undefined e => exact if_pos hp
  | instr i =>
    refine if_pos ?_
    cases hu : unitPresent s.cfg i with
    | false => rw [hp]; rfl
    | true => rw [hp, hn i hd hu]; rfl

/-- A word without a meaning is refused where no interrupt goes first. -/
theorem runWord_of_undefined {w : Word} {s : State} (hw : Undefined w) (hp : s.interruptPending = false) :
    ∃ e, runWord w s = .refused (.undefinedEncoding e) := by
  obtain ⟨e, hd⟩ := decode_of_undefined hw
  exact ⟨e, by simp only [runWord, hd, hp, Bool.false_eq_true, if_false]⟩

/-- So is an instruction whose unit is absent. -/
theorem runWord_of_absentUnit {w : Word} {s : State} {i : Instr} (hd : decode w = .instr i) (hu : unitPresent s.cfg i = false)
    (hp : s.interruptPending = false) : runWord w s = .refused .absentUnit := by
  simp only [runWord, hd, issue, hu, hp, Bool.false_and, Bool.not_false, Bool.false_eq_true, if_false, if_true]

/-- An instruction of a unit that is present is executed where no interrupt goes first. -/
theorem runWord_of_present {w : Word} {s : State} {i : Instr} (hd : decode w = .instr i) (hu : unitPresent s.cfg i = true)
    (hp : s.interruptPending = false ∨ s.raisesFirst i = true) : runWord w s = execute i s := by
  have hfirst : (s.interruptPending && !(unitPresent s.cfg i && s.raisesFirst i)) = false := by
    obtain hp | hp := hp
    · rw [hp, Bool.false_and]
    · rw [hp, hu, Bool.and_self, Bool.not_true, Bool.and_false]
  simp only [runWord, hd, issue, hfirst, Bool.false_eq_true, if_false]
  simp only [hu, Bool.not_true, Bool.false_eq_true, if_false]

/-- A step that executes `i` in the fetched state `u` is `exec` in the prepared one. -/
theorem executes_of_step {s u : State} {i : Instr} (h : step s = execute i u) : Executes s (u.prepare (isDataAccess i)) i where
  next := fun t ht => by rw [h, execute, ht]; rfl
  fault := fun f hf => by rw [h, execute, hf]; rfl
  refused := fun r hr => by rw [h, execute, hr]; rfl

/-- What passes before an instruction is executed changes nothing but what the caches may hold and the counter of free values. -/
theorem State.prepare_frame (u : State) (b : Bool) :
    u.prepare b = { u with
      staleCode := (u.prepare b).staleCode, codeLines := (u.prepare b).codeLines, icc := (u.prepare b).icc
      staleData := (u.prepare b).staleData, dataLines := (u.prepare b).dataLines, free := (u.prepare b).free } := rfl

/-! ### The step once a word is fetched -/

section FetchedWord
variable {s u : State} {w : Word} (hl : cfgLegal s.cfg = true) (hr : Ready s.sample) (hf : s.sample.fetch = .word w u)
include hl hr hf

/-- The step runs the fetched word. -/
theorem step_of_word : step s = runWord w u := (step_of_legal hl).trans (stepSampled_of_word hr hf)

/-- The step takes a pending interrupt in place of a word that raises no exception itself. -/
theorem step_of_word_interrupt (hp : u.interruptPending = true)
    (hn : ∀ i, decode w = .instr i → unitPresent s.cfg i = true → u.raisesFirst i = false) :
    step s = .next (u.enter .interrupt) := by
  rw [← s.sample_cfg, ← cfg_of_afterFetch (State.fetch_afterFetch hf)] at hn
  exact (step_of_word hl hr hf).trans (runWord_of_interrupt hp hn)

/-- The step refuses a word without a meaning. -/
theorem step_of_word_undefined (hp : u.interruptPending = false) (hw : Undefined w) :
    ∃ e, step s = .refused (.undefinedEncoding e) := by
  rw [step_of_word hl hr hf]
  exact runWord_of_undefined hw hp

variable {i : Instr} (hd : decode w = .instr i)
include hd

/-- The step refuses an instruction of an absent unit. -/
theorem step_of_word_absentUnit (hp : u.interruptPending = false) (hu : unitPresent s.cfg i = false) :
    step s = .refused .absentUnit := by
  rw [← s.sample_cfg, ← cfg_of_afterFetch (State.fetch_afterFetch hf)] at hu
  exact (step_of_word hl hr hf).trans (runWord_of_absentUnit hd hu hp)

/-- The step executes the instruction in the state that the fetch leaves, once that is prepared. -/
theorem step_of_word_executes (hu : unitPresent s.cfg i = true) (hp : u.interruptPending = false ∨ u.raisesFirst i = true) :
    Executes s (u.prepare (isDataAccess i)) i := by
  rw [← s.sample_cfg, ← cfg_of_afterFetch (State.fetch_afterFetch hf)] at hu
  exact executes_of_step ((step_of_word hl hr hf).trans (runWord_of_present hd hu hp))

end FetchedWord

/-- Settles O46: the fetch gives the word that memory holds, and no interrupt goes first in the state that it leaves. -/
theorem stepRunsDecodedInstruction : Obligations.StepRunsDecodedInstruction := by
  intro s w i hl hr hw hd hu hp
  have hf := State.fetch_of_fetches hw
  have ha := State.fetch_afterFetch hf
  rw [← interruptPending_of_afterFetch ha, ← raisesFirst_of_afterFetch ha] at hp
  exact ⟨_, _, hf, ha, rfl, step_of_word_executes hl hr hf hd hu hp, State.prepare_frame _ _⟩

/-- Settles O51: the clauses in the order of R403, each by the rule of the step for its case; the last two and those of a device are
the rules of a fetched word, after the fetch from memory and from the device. -/
theorem stepStops : Obligations.StepStops := by
  intro s
  refine ⟨step_of_illegal, fun hl hreset => ⟨fun hw => ?waiting, fun hw hdebug hss => ?singleStep,
    fun hr ha => ⟨fun hd => ?outside, fun hd hresp => ?noResponse, fun hd hresp => ?device⟩,
    fun w hr hw hu hp => ?undefined, fun w i hr hw hd hu hp => ?absentUnit⟩⟩
  case waiting => exact (step_of_legal hl).trans (stepSampled_of_waiting hreset hw)
  case singleStep =>
    rw [← s.sample_cfg] at hdebug
    have hstepping : (s.sample.cfg.hasDebug && s.sample.dc.ss) = true := Bool.and_eq_true_iff.mpr ⟨hdebug, hss⟩
    exact (step_of_legal hl).trans (stepSampled_of_singleStep hreset hw hstepping)
  case outside =>
    rw [← s.sample_cfg] at hd
    exact (step_of_legal hl).trans (stepSampled_of_outside hr (State.fetch_outside ha hd))
  case noResponse =>
    rw [← s.sample_cfg] at hd hresp
    exact (step_of_legal hl).trans (stepSampled_of_stuck hr (State.fetch_noResponse ha hd hresp))
  case device =>
    rw [← s.sample_cfg] at hd hresp
    have hf := State.fetch_device ha hresp hd
    refine ⟨_, _, State.fetch_afterFetch hf, fun hc => ?_,
      fun hp hn => ⟨_, step_of_word_interrupt hl hr hf hp hn, State.enter_enteredNonDebug _ rfl⟩,
      step_of_word_undefined hl hr hf,
      fun i hdec => ⟨step_of_word_absentUnit hl hr hf hdec, step_of_word_executes hl hr hf hdec⟩⟩
    rw [← s.sample_cfg, ← s.sample_pc] at hc ⊢
    exact State.deviceWord_of_codeCached hc
  all_goals
    have hf := State.fetch_of_fetches hw
    rw [← interruptPending_of_afterFetch (State.fetch_afterFetch hf)] at hp
  case undefined => exact step_of_word_undefined hl hr hf hp hu
  case absentUnit => exact step_of_word_absentUnit hl hr hf hd hp hu

end Sys2Proof.Machine
end

section
/-! The invariant: every operation of a step keeps it, so every step does (StepKeepsInvariant, O57), and power-up establishes it
(ResetSatisfiesInvariant, O58; ResetValues, O59). -/

namespace Sys2Proof.Machine

open Sys2Proof.Safety

/-! ### Aligned addresses (10_state.md R37) -/

/-- The sum of two multiples of 4 is one, modulo 2^32. -/
theorem wordAligned_add {a b : Word} (ha : wordAligned a = true) (hb : wordAligned b = true) : wordAligned (a + b) = true := by
  rw [wordAligned_iff] at *
  rw [BitVec.toNat_add]
  omega

/-- The instruction after an aligned one is aligned. -/
theorem wordAligned_next {a : Word} (h : wordAligned a = true) : wordAligned (a + 4#32) = true := wordAligned_add h (by decide)

/-- An address with a zero low byte is aligned. -/
theorem wordAligned_append_zero_byte (x : BitVec 24) : wordAligned (x ++ 0#8) = true := by
  unfold wordAligned
  rw [extractLsb'_append_low x (0#8) 0 2 (by decide)]
  rfl

/-- An address whose low byte is zero is its upper bits with a zero byte. -/
theorem append_zero_byte_of_low_zero {a : Word} (h : a.extractLsb' 0 8 = 0#8) : a.extractLsb' 8 24 ++ 0#8 = a := by
  rw [← h]
  exact (extractLsb'_append_adjacent a 0 24 8).trans (by simp)

/-- The vectors of the exceptions are aligned (60_exceptions.md R412, R413). -/
theorem State.vector_aligned (s : State) (e : Exc) : wordAligned (s.vector e) = true := by
  refine wordAligned_add ?base ?offset
  case base =>
    unfold State.vectorBase
    split
    · exact wordAligned_append_zero_byte s.deba
    split
    · exact wordAligned_append_zero_byte s.deba
    split
    · exact wordAligned_append_zero_byte s.deba
    · exact wordAligned_append_zero_byte s.eba
  case offset => cases e <;> decide

/-- The two reset addresses of a legal configuration have a zero low byte (00_scope.md R7). -/
theorem resetAddresses_of_cfgLegal {c : Cfg} (h : cfgLegal c = true) :
    c.ebaReset.extractLsb' 8 24 ++ 0#8 = c.ebaReset ∧ c.debaReset.extractLsb' 8 24 ++ 0#8 = c.debaReset := by
  simp only [cfgLegal, Bool.and_eq_true, beq_iff_eq] at h
  obtain ⟨⟨⟨⟨-, heba⟩, hdeba⟩, -⟩, -⟩ := h
  exact ⟨append_zero_byte_of_low_zero heba, append_zero_byte_of_low_zero hdeba⟩

/-- Both are aligned. -/
theorem resetAddresses_aligned {c : Cfg} (h : cfgLegal c = true) :
    wordAligned c.ebaReset = true ∧ wordAligned c.debaReset = true := by
  obtain ⟨heba, hdeba⟩ := resetAddresses_of_cfgLegal h
  rw [← heba, ← hdeba]
  exact ⟨wordAligned_append_zero_byte _, wordAligned_append_zero_byte _⟩

/-- Reset sends the pc to an aligned address. -/
theorem State.resetPc_aligned {s : State} (h : cfgLegal s.cfg = true) : wordAligned s.resetPc = true := by
  unfold State.resetPc
  split
  · exact (resetAddresses_aligned h).2
  · exact (resetAddresses_aligned h).1

/-! ### Lines, slots and ways -/

/-- What is masked by the lines holds no bit without a line (10_state.md R46, D26). -/
theorem and_mask_and_not {v m : Word} : v &&& m &&& ~~~ m = 0#32 := by
  rw [BitVec.and_assoc, BitVec.and_not_self]
  exact BitVec.and_zero

/-- Setting bits that have a line, among bits that have one. -/
theorem or_mask_and_not {u v m : Word} (h : u &&& ~~~ m = 0#32) : (u ||| v &&& m) &&& ~~~ m = 0#32 := by
  rw [BitVec.and_or_distrib_right, h, and_mask_and_not, BitVec.or_zero]

/-- Clearing bits, among bits that have a line. -/
theorem and_and_not {u v m : Word} (h : u &&& ~~~ m = 0#32) : u &&& v &&& ~~~ m = 0#32 := by
  rw [BitVec.and_assoc, BitVec.and_comm v, ← BitVec.and_assoc, h, BitVec.zero_and]

/-- A cache that a legal configuration has is not without ways. -/
theorem ways_pos {b : Bool} {c : CacheCfg} (hl : cacheLegal b c = true) (he : c.enabled = true) : 0 < c.ways :=
  Nat.zero_lt_of_lt (nextWay_lt hl he 0)

/-- A cache that holds no line is organised. -/
theorem organised_empty (c : CacheCfg) : Organised c [] :=
  ⟨fun _ h => (nomatch h), fun _ h => (nomatch h), .nil⟩

/-- An earlier word that may be fetched one executed instruction later was there before, for ever or for one instruction more. -/
theorem StaleWord.of_age {e e' : StaleWord} (h : e.age = some e') :
    (e.life = none ∧ e' = e) ∨ ∃ n, e.life = some (n + 1) ∧ 1 ≤ n ∧ e' = { e with life := some n } := by
  unfold StaleWord.age at h
  split at h
  · next hl => exact .inl ⟨hl, (Option.some.inj h).symm⟩
  · next n hl =>
    split at h
    · cases h
    · exact .inr ⟨n - 1, by rw [hl, Nat.sub_add_cancel (by omega)], by omega, (Option.some.inj h).symm⟩

/-- The earlier words once memory was written: those that were there, and one with the life that the write gives it. -/
theorem State.mem_recordCode {s : State} {a : Word} {life : Option (Option Nat)} {m : Memory} {e : StaleWord}
    (h : e ∈ s.recordCode a life m) : e ∈ s.staleCode ∨ life = some e.life := by
  unfold State.recordCode at h
  split at h
  · exact .inl h
  · split at h
    · exact .inl h
    · obtain rfl | h := List.mem_cons.mp h
      · exact .inr rfl
      · exact .inl h

/-- The earlier words after a transfer are among those before it. -/
theorem mem_of_mem_refetch {c : Bool} {l : List StaleWord} {e : StaleWord} (h : e ∈ if c then l else []) : e ∈ l := by
  split at h
  · exact h
  · cases h

/-- The life that a write gives the word it overwrites (20_memory.md R125; 70_reset_and_hazards.md R513). -/
def LifeOfWrite (c : Cfg) (l : Option Nat) : Prop := (c.hasICache = true ∧ l = none) ∨ (c.hasICache = false ∧ l = some 5)

/-- A store of the core. -/
theorem lifeOfWrite_of_storeLife {c : Cfg} {a : Word} {l : Option Nat} (h : storeLife c a = some l) : LifeOfWrite c l := by
  unfold storeLife at h
  split at h
  · next hi =>
    split at h
    · exact .inl ⟨hi, (Option.some.inj h).symm⟩
    · cases h
  · next hi => exact .inr ⟨Bool.eq_false_iff.mpr hi, (Option.some.inj h).symm⟩

/-- A write of another master. -/
theorem lifeOfWrite_of_masterLife {c : Cfg} {a : Word} {l : Option Nat} (h : masterLife c a = some l) : LifeOfWrite c l := by
  unfold masterLife at h
  split at h
  · next hc => exact .inl ⟨enabled_of_codeCached hc, (Option.some.inj h).symm⟩
  · cases h

/-! ### What keeps the invariant: transfers, entries and reset -/

section Operations
variable {s t : State} (h : Inv s)
include h

/-- The next instruction. -/
theorem inv_advance : Inv s.advance := { h with pcAligned := wordAligned_next h.pcAligned }

/-- A value in a register. -/
theorem inv_setReg (r : Reg) (v : Word) : Inv (s.setReg r v) := { h with }

/-- An access that never ends. -/
theorem inv_stall : Inv s.stall := { h with }

/-- An instruction that is executed. -/
theorem inv_executed (i : Instr) : Inv (s.executed i) := { h with }

/-- A transfer to an aligned address. -/
theorem inv_jump {a : Word} (ha : wordAligned a = true) : Inv (s.jump a) :=
  { h with
    pcAligned := ha
    lives := fun e he => h.lives e (mem_of_mem_refetch he)
    codeWords := codeWords_of_refetched h.codeWords rfl rfl rfl rfl rfl }

/-- The entry of an exception. -/
theorem inv_enter (e : Exc) : Inv (s.enter e) := by
  have hjump := inv_jump h (s.vector_aligned e)
  unfold State.enter
  split
  · exact { hjump with }
  · exact { hjump with }

/-- Reset during a run. -/
theorem inv_takeReset : Inv s.takeReset := by
  obtain ⟨hi, hd⟩ := cacheLegal_of_cfgLegal h.legal
  exact {
    legal := by rw [State.takeReset_cfg]; exact h.legal
    pcAligned := by rw [State.takeReset_pc]; exact State.resetPc_aligned h.legal
    memWf := by rw [State.takeReset_mem]; exact h.memWf
    imLines := by rw [State.takeReset_im]; exact BitVec.zero_and
    ipLines := by rw [State.takeReset_ip, State.takeReset_cfg]; exact and_mask_and_not
    lives := by rw [State.takeReset_staleCode]; exact fun _ he => nomatch he
    slots := by rw [State.takeReset_icc]; exact fun _ he => nomatch he
    lines := by rw [State.takeReset_dataLines]; exact organised_empty _
    way := by rw [State.takeReset_cfg, State.takeReset_dataWay]; exact fun he => Nat.mod_lt _ (ways_pos hd he)
    codeLines := by rw [State.takeReset_codeLines]; exact organised_empty _
    codeWay := by rw [State.takeReset_cfg, State.takeReset_codeWay]; exact fun he => Nat.mod_lt _ (ways_pos hi he)
    codeWords := by rw [CodeWords, State.takeReset_codeLines]; exact fun _ he => nomatch he }

/-! ### Memory, the caches and the earlier words -/

/-- A write of memory that records the word it overwrites, whoever writes. -/
theorem inv_write {m : Memory} {c : List StaleWord} {d : List StaleByte} (hm : m.wf = true)
    (hlife : ∀ e ∈ c, e ∈ s.staleCode ∨ LifeOfWrite s.cfg e.life)
    (hc : CodeWords { s with mem := m, staleCode := c, staleData := d }) :
    Inv { s with mem := m, staleCode := c, staleData := d } :=
  { h with
    memWf := hm
    lives := fun e he => by
      obtain hold | ⟨hcache, hl⟩ | ⟨hcache, hl⟩ := hlife e he
      · exact h.lives e hold
      · rw [hl]
        exact hcache
      · rw [hl]
        exact Nat.le_of_eq (if_neg (Bool.eq_false_iff.mp hcache)).symm
    codeWords := hc }

/-- A write of another master. -/
theorem inv_masterWrite (w : BusWrite) : Inv (s.masterWrite w) := by
  have hwf := State.masterWrite_wf w h.memWf
  have hcode := s.masterWrite_codeWords h.codeWords w
  have hlife : ∀ e ∈ (s.masterWrite w).staleCode, e ∈ s.staleCode ∨ LifeOfWrite s.cfg e.life :=
    fun e he => (State.mem_recordCode he).imp_right lifeOfWrite_of_masterLife
  rw [State.masterWrite_frame] at hcode ⊢
  exact inv_write h hwf hlife hcode

/-- The start of a step. -/
theorem inv_sample : Inv s.sample := by
  have hwrites : ∀ (ws : List BusWrite) (u : State), Inv u → Inv (ws.foldl State.masterWrite u) := by
    intro ws
    induction ws with
    | nil => exact fun _ hu => hu
    | cons w ws ih => exact fun u hu => ih _ (inv_masterWrite hu w)
  have hinput : Inv s.takeInput := by
    unfold State.takeInput
    split
    · exact h
    · exact hwrites _ _ { h with }
  exact { hinput with ipLines := or_mask_and_not hinput.ipLines }

/-- A fetch that gives a word. -/
theorem inv_fetch {w : Word} (hf : s.fetch = .word w t) : Inv t := by
  have hlines := State.fetch_organised hf h.legal h.codeLines h.codeWay
  have hcode := State.fetch_codeWords hf h.legal h.codeWords
  rw [(State.fetch_afterFetch hf).frame] at hcode ⊢
  exact { h with codeLines := hlines.1, codeWay := hlines.2, codeWords := hcode }

/-- A load that fills a line or none, at whatever count of free values. -/
theorem inv_withData {ls : List CacheLine} {w : Nat} {ev : List Event} {f : Nat}
    (ho : Organised s.cfg.dcache ls ∧ (s.cfg.hasDCache = true → w < s.cfg.dcache.ways)) :
    Inv { s with dataLines := ls, dataWay := w, events := ev, free := f } :=
  { h with lines := ho.1, way := ho.2 }

/-- A load from memory. -/
theorem inv_loaded (n : AccessSize) (a : Word) : Inv ((s.loadDraw n a).cacheLoad n a) := by
  rw [State.cacheLoad_frame]
  exact inv_withData h (State.cacheLoad_organised (s := s.loadDraw n a) h.legal h.lines h.way n a)

/-- A load from a device. -/
theorem inv_deviceRead (n : AccessSize) (a : Word) : Inv (s.deviceRead n a) := by
  rw [State.deviceRead_frame]
  exact inv_withData h (State.deviceRead_organised h.legal h.lines h.way n a)

/-- A store to a device. -/
theorem inv_deviceWrite (n : AccessSize) (a v : Word) : Inv (s.deviceWrite n a v) :=
  { h with
    lines := organised_of_places (by rw [State.deviceWrite_dataLines, places_write]) h.lines
    way := State.storeWay_lt h.legal h.way a }

/-- An aligned store to memory. -/
theorem inv_storeMemory {n : AccessSize} {a : Word} (ha : aligned n a = true) (v : Word) :
    Inv (s.storeMemory a (storeBytes n v)) :=
  have hwrite := inv_write h (d := (s.storeMemory a (storeBytes n v)).staleData) (State.storeMemory_wf a (storeBytes n v) h.memWf)
    (fun _ he => (State.mem_recordCode he).imp_right lifeOfWrite_of_storeLife)
    (codeWords_congr (State.storeMemory_codeWords h.codeWords ha v) rfl (fun _ hl => hl) rfl rfl rfl)
  { hwrite with
    lines := organised_of_places (by rw [State.storeMemory_dataLines, places_write]) h.lines
    way := State.storeWay_lt h.legal h.way a }

/-- `wcsr ICC` gives every earlier word no more than the four slots of R511. -/
theorem inv_invalidateCode (he : s.cfg.hasICache = true) : Inv s.invalidateCode :=
  { h with
    lives := fun e' hmem => by
      obtain ⟨e, hold, rfl⟩ := List.mem_map.mp hmem
      have hlife := h.lives e hold
      cases hl : e.life with
      | none => exact Nat.le_of_eq (if_pos he).symm
      | some n =>
        rw [hl] at hlife
        exact hlife
    slots := fun d hd => by
      rw [State.invalidateCode_icc] at hd
      split at hd
      · cases hd
      · obtain hd | hd := List.mem_append.mp hd
        · exact h.slots d hd
        · rw [List.mem_singleton.mp hd]
    codeLines := by
      rw [State.invalidateCode_codeLines]
      split
      · exact organised_empty _
      · exact h.codeLines
    codeWords := State.invalidateCode_codeWords h.codeWords }

/-- A write of a control and status register. -/
theorem inv_csrWrite {k : CsrIndex} {v : Word} (hw : s.csrWrite k v = some t) : Inv t := by
  obtain ⟨hcfg, -, hpc, -, -, -, hmem, -, -, -, -, -, -, hdataWay, hcodeWay⟩ := State.csrWrite_frame hw
  obtain ⟨him, hip⟩ := State.csrWrite_bounds hw
  obtain ⟨hstale, hlines, hicc⟩ | ⟨he, rfl⟩ := State.csrWrite_code hw
  case inr => exact inv_invalidateCode h he
  exact {
    legal := by rw [hcfg]; exact h.legal
    pcAligned := by rw [hpc]; exact h.pcAligned
    memWf := by rw [hmem]; exact h.memWf
    imLines := by
      rw [hcfg]
      obtain e | e := him <;> rw [e]
      · exact h.imLines
      · exact and_mask_and_not
    ipLines := by
      rw [hcfg]
      obtain e | e := hip <;> rw [e]
      · exact h.ipLines
      · exact or_mask_and_not (and_and_not h.ipLines)
    lives := by rw [hstale, hcfg]; exact h.lives
    slots := by rw [hicc]; exact h.slots
    lines := by
      rw [hcfg]
      obtain e | e := State.csrWrite_dataLines hw <;> rw [e]
      · exact h.lines
      · exact organised_of_places s.places_invalidateData h.lines
    way := by rw [hcfg, hdataWay]; exact h.way
    codeLines := by rw [hcfg, hlines]; exact h.codeLines
    codeWay := by rw [hcfg, hcodeWay]; exact h.codeWay
    codeWords := codeWords_congr h.codeWords hcfg (fun _ hl => hlines ▸ hl) hmem hstale hicc }

/-- What passes before an instruction. -/
theorem inv_prepare (m : Bool) : Inv (s.prepare m) :=
  { h with
    lives := fun e' he => by
      obtain ⟨e, hmem, hage⟩ := List.mem_filterMap.mp he
      have hlife := h.lives e hmem
      obtain ⟨-, rfl⟩ | ⟨n, hn, -, rfl⟩ := StaleWord.of_age hage
      · exact hlife
      · rw [hn] at hlife
        exact Nat.le_of_succ_le hlife
    slots := fun d hd => Nat.le_of_succ_le (h.slots _ (mem_pendingCode.mp hd).1)
    lines := organised_of_places (s.places_prepare m) h.lines
    codeLines := organised_of_places (List.Sublist.map _ (settleCode_sublist ..)) h.codeLines
    codeWords := s.prepare_codeWords h.codeWords m }

end Operations

/-! ### Every step keeps the invariant -/

/-- Every instruction keeps the invariant, whichever of its effects it has. -/
theorem inv_of_effect {i : Instr} {s t : State} (he : Effect i s t) (h : Inv s) : Inv t := by
  cases he with
  | result r v => exact inv_advance (inv_setReg h r v)
  | freeResult r v => exact inv_advance (inv_setReg (s := { s with free := s.free + 1 }) { h with } r v)
  | loaded r v n a => exact inv_advance (inv_setReg (inv_loaded h n a) r v)
  | deviceLoaded r v n a => exact inv_advance (inv_setReg (inv_deviceRead h n a) r v)
  | stored n base data imm _ _ ha =>
    exact inv_advance (inv_storeMemory h (State.dataAccess_eq_memory.mp ha).2.1 (s.reg data))
  | deviceStored n a v => exact inv_advance (inv_deviceWrite h n a v)
  | stalled => exact inv_stall h
  | entered e => exact inv_enter h e
  | csr k rX u _ hw => exact inv_advance (inv_csrWrite h hw)
  | fallThrough => exact inv_advance h
  | jumped a ha => exact inv_jump h (ha h.pcAligned)
  | called a ha => exact inv_jump (inv_setReg h ra _) (ha h.pcAligned)
  | returned a e ha => exact { inv_jump h ha with }

/-- Executing an instruction, what passes before it included, keeps the invariant. -/
theorem inv_execute {i : Instr} {s t : State} (h : Inv s)
    (ht : ∃ u, exec i (s.prepare (isDataAccess i)) = .next u ∧ t = u.executed i) : Inv t := by
  obtain ⟨u, hu, rfl⟩ := ht
  exact inv_executed (inv_of_effect (exec_effect hu) (inv_prepare h _)) i

/-- Once the inputs are sampled, every step keeps the invariant. -/
theorem inv_stepSampled {s t : State} (h : Inv s) (ht : stepSampled s = .next t) : Inv t := by
  obtain ⟨-, rfl⟩ | ⟨-, rfl⟩ | ⟨-, rfl⟩ | ⟨-, rfl⟩ | ⟨-, rfl⟩ | ⟨w, u, hf, hw⟩ := stepSampled_next ht
  case inl => exact inv_takeReset h
  case inr.inl => exact h
  case inr.inr.inl => exact inv_enter h .breakpoint
  case inr.inr.inr.inl => exact inv_enter h .instructionBusError
  case inr.inr.inr.inr.inl => exact inv_stall h
  case inr.inr.inr.inr.inr =>
    obtain ⟨-, rfl⟩ | ⟨i, -, -, hu⟩ := runWord_next hw
    · exact inv_enter (inv_fetch h hf) .interrupt
    · exact inv_execute (inv_fetch h hf) hu

/-! ### No step faults for a misaligned pc -/

/-- The one fault of an instruction: a misaligned data access (20_memory.md R116). -/
def FaultsOnlyMisalignedData (o : Host.Outcome State Fault Refusal) : Prop := ∀ f, o = .fault f → f = .misalignedData

/-- A next state is no fault. -/
theorem faults_next (t : State) : FaultsOnlyMisalignedData (.next t) := fun _ h => nomatch h
/-- Nor is a refusal. -/
theorem faults_refused (r : Refusal) : FaultsOnlyMisalignedData (.refused r) := fun _ h => nomatch h

/-- The outcome of a condition has no other fault than its two branches. -/
theorem faults_ite {c : Prop} [Decidable c] {o o' : Host.Outcome State Fault Refusal} (h : FaultsOnlyMisalignedData o)
    (h' : FaultsOnlyMisalignedData o') : FaultsOnlyMisalignedData (if c then o else o') := by
  split
  · exact h
  · exact h'

/-- An instruction of a unit has no other fault than with the unit. -/
theorem faults_needs {p : Bool} {o : Host.Outcome State Fault Refusal} (h : FaultsOnlyMisalignedData o) :
    FaultsOnlyMisalignedData (needs p o) := faults_ite h (faults_refused _)

/-- A division. -/
theorem faults_divide {p : Bool} {c : Prop} [Decidable c] {t t' : State} :
    FaultsOnlyMisalignedData (needs p (if c then .next t else .next t')) := faults_needs (faults_ite (faults_next t) (faults_next t'))

/-- A transfer to a register. -/
theorem faults_jumpTo {s : State} {a : Word} : FaultsOnlyMisalignedData (s.jumpTo a) :=
  faults_ite (faults_next _) (faults_refused _)

/-- A return from an exception. -/
theorem faults_returnTo {s : State} {a : Word} {e : Bool} : FaultsOnlyMisalignedData (s.returnTo a e) :=
  faults_ite (faults_next _) (faults_refused _)

/-- A load. -/
theorem faults_load {s : State} {n : AccessSize} {ext : Word → Word} {dest base : Reg} {imm : BitVec 16} :
    FaultsOnlyMisalignedData (s.load n ext dest base imm) := by
  intro f hf
  unfold State.load at hf
  cases hd : s.dataAccess .read n (s.effAddr base imm) <;> simp_all

/-- A store. -/
theorem faults_store {s : State} {n : AccessSize} {base data : Reg} {imm : BitVec 16} :
    FaultsOnlyMisalignedData (s.store n base imm data) := by
  intro f hf
  unfold State.store at hf
  cases hd : s.dataAccess .write n (s.effAddr base imm) <;> simp_all

/-- No instruction has another fault. -/
theorem exec_faults (i : Instr) (s : State) : FaultsOnlyMisalignedData (exec i s) := by
  cases i with
  | mul | muli | sextb | sexth | sl | sli | sr | sri | sru | srui => exact faults_needs (faults_next _)
  | divu | modu => exact faults_divide
  | lb | lbu | lh | lhu | lw => exact faults_load
  | sb | sh | sw => exact faults_store
  | b | call | ret => exact faults_jumpTo
  | eret | bret => exact faults_returnTo
  | brk => exact faults_ite (faults_next _) (faults_refused _)
  | rcsr rX k =>
    simp only [exec, execRcsr]
    split <;> exact faults_next _
  | wcsr k rX =>
    simp only [exec, execWcsr]
    split
    · exact faults_next _
    · exact faults_refused _
  | add | addi | sub | and | andi | andhi | or | ori | orhi | xor | xori | nor | nori | xnor | xnori | cmpe | cmpei | cmpne | cmpnei
  | cmpg | cmpgi | cmpgu | cmpgui | cmpge | cmpgei | cmpgeu | cmpgeui | bi | be | bne | bg | bgu | bge | bgeu | calli | scall | mv
  | mvhi | not | mvi | nop => exact faults_next _

/-- Nor has a fetched word. -/
theorem runWord_faults (w : Word) (s : State) : FaultsOnlyMisalignedData (runWord w s) := by
  have hexec : ∀ i, FaultsOnlyMisalignedData (execute i s) := fun i f hf => by
    unfold execute mapNext at hf
    split at hf
    · cases hf
    · next f' hf' => exact (Host.Outcome.fault.inj hf) ▸ exec_faults i _ f' hf'
    · cases hf
  unfold runWord
  split
  · exact faults_ite (faults_next _) (faults_refused _)
  · next i _ => exact faults_ite (faults_next _) (faults_ite (faults_refused _) (hexec i))

/-- A fetch is misaligned only where the pc is. -/
theorem State.fetch_ne_misaligned {s : State} (h : wordAligned s.pc = true) : s.fetch ≠ .misaligned := by
  unfold State.fetch
  rw [h]
  simp only [Bool.not_true, Bool.false_eq_true, if_false]
  split
  · exact fun e => nomatch e
  split
  · exact fun e => nomatch e
  split
  · exact fun e => nomatch e
  split <;> exact fun e => nomatch e

/-- At an aligned pc no step faults for a misaligned one. -/
theorem stepSampled_ne_misalignedFetch {s : State} (h : wordAligned s.pc = true) : stepSampled s ≠ .fault .misalignedFetch := by
  intro hf
  unfold stepSampled at hf
  split at hf
  · cases hf
  split at hf
  · cases hf
  split at hf
  · cases hf
  split at hf
  · cases hf
  split at hf
  · cases hf
  · cases hf
  · next hm => exact State.fetch_ne_misaligned h hm
  · cases hf
  · next w u _ => cases runWord_faults w u _ hf

/-- Settles O57: sampling keeps the invariant, and so does everything that a step can do then; the pc being aligned, no fetch is
misaligned. -/
theorem stepKeepsInvariant : Obligations.StepKeepsInvariant := by
  intro s h
  have hs := inv_sample h
  refine ⟨?_, fun t ht => inv_stepSampled hs (step_next ht).2⟩
  rw [step_of_legal h.legal]
  exact stepSampled_ne_misalignedFetch hs.pcAligned

/-! ### Power-up -/

/-- The state right after power-up of a legal configuration meets the invariant. -/
theorem inv_powerUp {c : Cfg} (hl : cfgLegal c = true) : Inv (State.powerUp c) := by
  obtain ⟨hi, hd⟩ := cacheLegal_of_cfgLegal hl
  exact {
    legal := hl
    pcAligned := (resetAddresses_aligned hl).1
    memWf := rfl
    imLines := BitVec.zero_and
    ipLines := BitVec.zero_and
    lives := fun _ h => nomatch h
    slots := fun _ h => nomatch h
    lines := organised_empty _
    way := fun he => ways_pos hd he
    codeLines := organised_empty _
    codeWay := fun he => ways_pos hi he
    codeWords := fun _ h => nomatch h }

/-- Settles O58: the reference configuration is one of the legal ones. -/
theorem resetSatisfiesInvariant : Obligations.ResetSatisfiesInvariant :=
  ⟨inv_powerUp (by decide), fun _ => inv_powerUp⟩

/-- Settles O59: each value is written in `State.powerUp`; the bases are whole because a legal configuration has their low bytes zero. -/
theorem resetValues : Obligations.ResetValues := by
  rintro c s rfl
  have hbp : ∀ n : Fin 4, (State.powerUp c).bp[n] = { a := 0#30, e := false } ∧ (State.powerUp c).wp[n] = 0#32 := fun n =>
    ⟨Vector.getElem_replicate n.isLt, Vector.getElem_replicate n.isLt⟩
  exact ⟨rfl, rfl, rfl, rfl, rfl, rfl, rfl, resetAddresses_of_cfgLegal, rfl, hbp, rfl, rfl, rfl, rfl, rfl⟩

end Sys2Proof.Machine
end

section
/-! The control and status registers: the words of `rcsr` and `wcsr`, which registers can be read and written, and the statements
about them (O27 to O34). -/

namespace Sys2Proof.Machine

open Sys2Proof.Safety

/-! ### The words of `rcsr` and `wcsr` (44_data_transfer.md R295, R296) -/

/-- The printed word of `rcsr` decodes to it. -/
theorem decode_printed_rcsr (k : CsrIndex) (rX : Reg) :
    decode (0x90000000#32 ||| fieldAt k 21 ||| fieldAt rX 11) = .instr (.rcsr rX k) := by
  have hword : 0x90000000#32 ||| fieldAt k 21 ||| fieldAt rX 11 = wordRR 0x24#6 k 0#5 rX := by
    rw [← printedRR_two]
    exact printedRR_eq 0x24#6 rX k 0#5
  rw [hword, decode_0x24 (opcode_wordRR ..), decodeReadCsr, field0_wordRR, field1_wordRR, field2_wordRR, low_wordRR]
  rfl

/-- So does the printed word of `wcsr`. -/
theorem decode_printed_wcsr (k : CsrIndex) (rX : Reg) :
    decode (0xD0000000#32 ||| fieldAt k 21 ||| fieldAt rX 16) = .instr (.wcsr k rX) := by
  have hword : 0xD0000000#32 ||| fieldAt k 21 ||| fieldAt rX 16 = wordRI 0x34#6 k rX 0#16 := by
    rw [← printedRI_two]
    exact printedRI_eq 0x34#6 rX k 0#16
  rw [hword, decode_0x34 (opcode_wordRI ..), decodeWriteCsr, field0_wordRI, field1_wordRI, fieldImm16_wordRI]
  rfl

/-- A result writes its register and moves the pc, and nothing else. -/
theorem State.result_writes (s : State) (r : Reg) (v : Word) : Writes s (s.result r v) r v (s.pc + 4#32) :=
  ⟨s.reg_setReg_self r v, rfl, fun _ hq => s.reg_setReg_ne v hq, fun _ => rfl, rfl⟩

/-- `rcsr` of a register that has a value gives it. -/
theorem csrReads_of_csrRead {s : State} {k : CsrIndex} {v : Word} (h : s.csrRead k = some v) (rX : Reg) : CsrReads k s rX v :=
  ⟨decode_printed_rcsr k rX, s.result rX v, by rw [exec, execRcsr, h], s.result_writes rX v⟩

/-- `wcsr` of a register that can be written does what the write does, and moves the pc. -/
theorem csrWrites_of_csrWrite {s t : State} {k : CsrIndex} {rX : Reg} (h : s.csrWrite k (s.reg rX) = some t) :
    CsrWrites k rX s t.advance := ⟨decode_printed_wcsr k rX, by rw [exec, execWcsr, h]⟩

/-- `rcsr` of a register without a value gives a free one. -/
theorem exec_rcsr_of_none {s : State} {k : CsrIndex} (h : s.csrRead k = none) (rX : Reg) :
    exec (.rcsr rX k) s = .next (({ s with free := s.free + 1 } : State).result rX (Config.freeWord s.free)) := by
  rw [exec, execRcsr, h]

/-! ### Which registers can be read and written (10_state.md R68, R69) -/

/-- BPn has index 0x10 + n. -/
theorem State.csrWrite_bp (s : State) (n : Fin 4) (v : Word) : s.csrWrite (BitVec.ofNat 5 (0x10 + n.val)) v = s.writeBp n v := by
  match n with
  | 0 => rfl
  | 1 => rfl
  | 2 => rfl
  | 3 => rfl

/-- WPn has index 0x18 + n. -/
theorem State.csrWrite_wp (s : State) (n : Fin 4) (v : Word) : s.csrWrite (BitVec.ofNat 5 (0x18 + n.val)) v = s.writeWp n v := by
  match n with
  | 0 => rfl
  | 1 => rfl
  | 2 => rfl
  | 3 => rfl

/-- BPn is written exactly where it exists. -/
theorem State.writeBp_eq_some {s t : State} {n : Fin 4} {v : Word} :
    s.writeBp n v = some t ↔ (s.cfg.hasDebug = true ∧ n.val < s.cfg.breakpoints) ∧ t = { s with bp := s.bp.set n (bpOfWord v) } := by
  unfold State.writeBp
  rw [Option.ite_none_right_eq_some, Bool.and_eq_true, decide_eq_true_eq, Option.some.injEq, eq_comm (a := t)]

/-- WPn is written exactly where it exists. -/
theorem State.writeWp_eq_some {s t : State} {n : Fin 4} {v : Word} :
    s.writeWp n v = some t ↔ (s.cfg.hasDebug = true ∧ n.val < s.cfg.watchpoints) ∧ t = { s with wp := s.wp.set n v } := by
  unfold State.writeWp
  rw [Option.ite_none_right_eq_some, Bool.and_eq_true, decide_eq_true_eq, Option.some.injEq, eq_comm (a := t)]

section Optional
variable {s : State}

/-- CC is read with a cycle counter. -/
theorem State.csrRead_cc (h : s.cfg.hasCC = true) : s.csrRead 0x05#5 = some s.cc := if_pos h
/-- DEBA with debug support. -/
theorem State.csrRead_deba (h : s.cfg.hasDebug = true) : s.csrRead 0x09#5 = some s.debaWord := if_pos h
/-- JTX with a JTAG UART. -/
theorem State.csrRead_jtx (h : s.cfg.hasJuart = true) : s.csrRead 0x0E#5 = some (0#23 ++ s.jtx) := if_pos h
/-- JRX likewise. -/
theorem State.csrRead_jrx (h : s.cfg.hasJuart = true) : s.csrRead 0x0F#5 = some (0#23 ++ s.jrx) := if_pos h

variable (v : Word)

/-- ICC is written with an instruction cache. -/
theorem State.csrWrite_icc (h : s.cfg.hasICache = true) : s.csrWrite 0x03#5 v = some s.invalidateCode := if_pos h
/-- DCC with a data cache. -/
theorem State.csrWrite_dcc (h : s.cfg.hasDCache = true) : s.csrWrite 0x04#5 v = some s.invalidateData := if_pos h
/-- DC with debug support. -/
theorem State.csrWrite_dc (h : s.cfg.hasDebug = true) : s.csrWrite 0x08#5 v = some { s with dc := dcOfWord s.cfg.dcLayout v } :=
  if_pos h
/-- DEBA likewise. -/
theorem State.csrWrite_deba (h : s.cfg.hasDebug = true) : s.csrWrite 0x09#5 v = some { s with deba := v.extractLsb' 8 24 } :=
  if_pos h
/-- JTX with a JTAG UART. -/
theorem State.csrWrite_jtx (h : s.cfg.hasJuart = true) :
    s.csrWrite 0x0E#5 v = some { s with events := .jtagTransmit (v.extractLsb' 0 8) :: s.events } := if_pos h
/-- JRX likewise. -/
theorem State.csrWrite_jrx (h : s.cfg.hasJuart = true) :
    s.csrWrite 0x0F#5 v = some { s with events := .jtagReceiveWrite v :: s.events } := if_pos h

end Optional

/-- A register index is known by its number. -/
theorem index_eq {k n : CsrIndex} (h : k.toNat = n.toNat) : k = n := BitVec.eq_of_toNat_eq h

/-- A register has a value exactly when R68 names it as one that can be read. -/
theorem State.csrRead_isSome_iff (s : State) (k : CsrIndex) : (s.csrRead k).isSome = true ↔ CsrReadable s.cfg k := by
  constructor
  · intro h
    unfold State.csrRead at h
    split at h
    · next hk => simp [CsrReadable, index_eq (n := 0x00#5) hk]
    · next hk => simp [CsrReadable, index_eq (n := 0x01#5) hk]
    · next hk => simp [CsrReadable, index_eq (n := 0x02#5) hk]
    · next hk => simp_all [CsrReadable, index_eq (n := 0x05#5) hk]
    · next hk => simp [CsrReadable, index_eq (n := 0x06#5) hk]
    · next hk => simp [CsrReadable, index_eq (n := 0x07#5) hk]
    · next hk => simp_all [CsrReadable, index_eq (n := 0x09#5) hk]
    · next hk => simp [CsrReadable, index_eq (n := 0x0A#5) hk]
    · next hk => simp_all [CsrReadable, index_eq (n := 0x0E#5) hk]
    · next hk => simp_all [CsrReadable, index_eq (n := 0x0F#5) hk]
    · cases h
  · rintro (hk | ⟨rfl, hc⟩ | ⟨rfl, hc⟩ | ⟨hk, hc⟩)
    · simp only [List.mem_cons, List.not_mem_nil, or_false] at hk
      obtain rfl | rfl | rfl | rfl | rfl | rfl := hk <;> rfl
    · rw [State.csrRead_cc hc]; rfl
    · rw [State.csrRead_deba hc]; rfl
    · simp only [List.mem_cons, List.not_mem_nil, or_false] at hk
      obtain rfl | rfl := hk
      · rw [State.csrRead_jtx hc]; rfl
      · rw [State.csrRead_jrx hc]; rfl

/-- A register that R68 does not name as one that can be read has no value. -/
theorem State.csrRead_eq_none {s : State} {k : CsrIndex} : s.csrRead k = none ↔ ¬ CsrReadable s.cfg k := by
  rw [← State.csrRead_isSome_iff, Bool.not_eq_true, Option.isSome_eq_false_iff, Option.isNone_iff_eq_none]

/-- A write is defined exactly for the registers that R69 names as those that can be written. -/
theorem State.csrWrite_isSome_iff (s : State) (k : CsrIndex) (v : Word) :
    (s.csrWrite k v).isSome = true ↔ CsrWritable s.cfg k := by
  constructor
  · intro h
    have bp : ∀ n : Fin 4, (s.writeBp n v).isSome = true → k.toNat = 0x10 + n.val → CsrWritable s.cfg k := fun n hw hk => by
      obtain ⟨t, ht⟩ := Option.isSome_iff_exists.mp hw
      obtain ⟨⟨hd, hn⟩, -⟩ := State.writeBp_eq_some.mp ht
      exact .inr (.inr (.inr (.inr (.inr (.inl ⟨n, n.isLt, hn, hd, BitVec.eq_of_toNat_eq (by
        rw [hk, BitVec.toNat_ofNat]; omega)⟩)))))
    have wp : ∀ n : Fin 4, (s.writeWp n v).isSome = true → k.toNat = 0x18 + n.val → CsrWritable s.cfg k := fun n hw hk => by
      obtain ⟨t, ht⟩ := Option.isSome_iff_exists.mp hw
      obtain ⟨⟨hd, hn⟩, -⟩ := State.writeWp_eq_some.mp ht
      exact .inr (.inr (.inr (.inr (.inr (.inr ⟨n, n.isLt, hn, hd, BitVec.eq_of_toNat_eq (by
        rw [hk, BitVec.toNat_ofNat]; omega)⟩)))))
    unfold State.csrWrite at h
    split at h
    · next hk => simp [CsrWritable, index_eq (n := 0x00#5) hk]
    · next hk => simp [CsrWritable, index_eq (n := 0x01#5) hk]
    · next hk => simp [CsrWritable, index_eq (n := 0x02#5) hk]
    · next hk => simp_all [CsrWritable, index_eq (n := 0x03#5) hk]
    · next hk => simp_all [CsrWritable, index_eq (n := 0x04#5) hk]
    · next hk => simp [CsrWritable, index_eq (n := 0x07#5) hk]
    · next hk => simp_all [CsrWritable, index_eq (n := 0x08#5) hk]
    · next hk => simp_all [CsrWritable, index_eq (n := 0x09#5) hk]
    · next hk => simp_all [CsrWritable, index_eq (n := 0x0E#5) hk]
    · next hk => simp_all [CsrWritable, index_eq (n := 0x0F#5) hk]
    · next hk => exact bp 0 h hk
    · next hk => exact bp 1 h hk
    · next hk => exact bp 2 h hk
    · next hk => exact bp 3 h hk
    · next hk => exact wp 0 h hk
    · next hk => exact wp 1 h hk
    · next hk => exact wp 2 h hk
    · next hk => exact wp 3 h hk
    · cases h
  · rintro (hk | ⟨rfl, hc⟩ | ⟨rfl, hc⟩ | ⟨hk, hc⟩ | ⟨hk, hc⟩ | ⟨n, h4, hn, hd, rfl⟩ | ⟨n, h4, hn, hd, rfl⟩)
    · simp only [List.mem_cons, List.not_mem_nil, or_false] at hk
      obtain rfl | rfl | rfl | rfl := hk <;> rfl
    · rw [State.csrWrite_icc v hc]; rfl
    · rw [State.csrWrite_dcc v hc]; rfl
    · simp only [List.mem_cons, List.not_mem_nil, or_false] at hk
      obtain rfl | rfl := hk
      · rw [State.csrWrite_dc v hc]; rfl
      · rw [State.csrWrite_deba v hc]; rfl
    · simp only [List.mem_cons, List.not_mem_nil, or_false] at hk
      obtain rfl | rfl := hk
      · rw [State.csrWrite_jtx v hc]; rfl
      · rw [State.csrWrite_jrx v hc]; rfl
    · rw [s.csrWrite_bp ⟨n, h4⟩ v, State.writeBp_eq_some.mpr ⟨⟨hd, hn⟩, rfl⟩]; rfl
    · rw [s.csrWrite_wp ⟨n, h4⟩ v, State.writeWp_eq_some.mpr ⟨⟨hd, hn⟩, rfl⟩]; rfl

/-- A register that R69 does not name as one that can be written is not written. -/
theorem State.csrWrite_eq_none {s : State} {k : CsrIndex} {v : Word} : s.csrWrite k v = none ↔ ¬ CsrWritable s.cfg k := by
  rw [← State.csrWrite_isSome_iff s k v, Bool.not_eq_true, Option.isSome_eq_false_iff, Option.isNone_iff_eq_none]

/-! ### CFG and CFG2 (10_state.md R52, R54) -/

/-- The lowest of the flags that follow a field. -/
theorem getLsbD_append_cfgBit_zero {n : Nat} (x : BitVec n) (b : Bool) : (x ++ cfgBit b).getLsbD 0 = b := by
  rw [BitVec.getLsbD_append, if_pos (by decide), cfgBit, BitVec.getLsbD_ofBool]
  rfl

/-- The bits above the lowest flag. -/
theorem getLsbD_append_cfgBit_succ {n : Nat} (x : BitVec n) (b : Bool) (i : Nat) :
    (x ++ cfgBit b).getLsbD (i + 1) = x.getLsbD i := by
  rw [BitVec.getLsbD_append, if_neg (by omega), Nat.add_sub_cancel]

/-- The fields above the lowest flag. -/
theorem extractLsb'_append_cfgBit {n : Nat} (x : BitVec n) (b : Bool) (st len : Nat) :
    (x ++ cfgBit b).extractLsb' (st + 1) len = x.extractLsb' st len :=
  extractLsb'_append_high x (cfgBit b) (st + 1) len (Nat.le_add_left 1 st)

/-- The lowest field, where it is a number that fits. -/
theorem toNat_extractLsb'_append_ofNat {n len v : Nat} (x : BitVec n) (h : v < 2 ^ len) :
    ((x ++ BitVec.ofNat len v).extractLsb' 0 len).toNat = v := by
  rw [BitVec.extractLsb'_append_eq_right, BitVec.toNat_ofNat, Nat.mod_eq_of_lt h]

/-- How many interrupts, breakpoints and watchpoints a legal configuration has (00_scope.md R7). -/
theorem numbers_of_cfgLegal {c : Cfg} (h : cfgLegal c = true) : c.breakpoints ≤ 4 ∧ c.watchpoints ≤ 4 ∧ c.interrupts ≤ 32 := by
  simp only [cfgLegal, Bool.and_eq_true, decide_eq_true_eq] at h
  obtain ⟨⟨⟨⟨⟨⟨⟨-, hbp⟩, hwp⟩, hint⟩, -⟩, -⟩, -⟩, -⟩ := h
  exact ⟨hbp, hwp, hint⟩

/-- The numbers in the upper fields of CFG: REV, WP, BP and INT above the twelve flags. -/
theorem cfgNumbers {c : Cfg} (h : cfgLegal c = true) (x : Word)
    (hx : ∀ st len, x.extractLsb' (st + 12) len =
      (c.rev ++ BitVec.ofNat 4 c.watchpoints ++ BitVec.ofNat 4 c.breakpoints ++ BitVec.ofNat 6 c.interrupts).extractLsb' st len) :
    (x.extractLsb' 12 6).toNat = c.interrupts ∧ (x.extractLsb' 18 4).toNat = c.breakpoints ∧
      (x.extractLsb' 22 4).toNat = c.watchpoints ∧ x.extractLsb' 26 6 = c.rev := by
  obtain ⟨hbp, hwp, hint⟩ := numbers_of_cfgLegal h
  rw [hx 0 6, hx 6 4, hx 10 4, hx 14 6, extractLsb'_append_high (st := 6) (h := by decide),
    extractLsb'_append_high (st := 10) (h := by decide), extractLsb'_append_high (st := 14) (h := by decide),
    extractLsb'_append_high (st := 10 - 6) (h := by decide), extractLsb'_append_high (st := 14 - 6) (h := by decide),
    extractLsb'_append_high (st := 14 - 6 - 4) (h := by decide)]
  exact ⟨toNat_extractLsb'_append_ofNat _ (by omega), toNat_extractLsb'_append_ofNat _ (by omega),
    toNat_extractLsb'_append_ofNat _ (by omega), BitVec.extractLsb'_eq_self⟩

/-! ### The statements -/

/-- IE as a number: BIE, EIE and IE in bits 2 to 0 (R45). -/
theorem State.ieWord_eq (s : State) :
    s.ieWord = BitVec.ofNat 32 (4 * s.ieBIE.toNat + 2 * s.ieEIE.toNat + s.ieIE.toNat) := by
  unfold State.ieWord
  cases s.ieBIE <;> cases s.ieEIE <;> cases s.ieIE <;> rfl

/-- Settles O27: IE can always be read and written. -/
theorem interruptEnableRegister : Obligations.InterruptEnableRegister := by
  intro s rX
  rw [← s.ieWord_eq]
  exact ⟨csrReads_of_csrRead rfl rX, _, csrWrites_of_csrWrite rfl, rfl⟩

/-- Settles O28: IM and IP, bit by bit, under the mask of the lines. -/
theorem interruptMaskAndPending : Obligations.InterruptMaskAndPending := by
  intro s rX
  have masked : ∀ (v : Word) (j : Nat), j < 32 →
      (v &&& lineMask s.cfg).getLsbD j = (v.getLsbD j && decide (j < s.cfg.interrupts)) := fun v j hj => by
    rw [BitVec.getLsbD_and, getLsbD_lineMask s.cfg hj]
  refine ⟨⟨_, csrReads_of_csrRead rfl rX, masked s.im⟩, ⟨_, csrReads_of_csrRead rfl rX, masked s.ip⟩,
    ⟨_, csrWrites_of_csrWrite rfl, rfl, masked (s.reg rX)⟩, ⟨_, csrWrites_of_csrWrite rfl, rfl, fun j hj => ?_⟩⟩
  calc ((s.ip &&& ~~~ (s.reg rX)) ||| (s.intLines &&& lineMask s.cfg)).getLsbD j
    _ = ((s.ip.getLsbD j && (~~~ (s.reg rX)).getLsbD j) || (s.intLines &&& lineMask s.cfg).getLsbD j) := by
      rw [BitVec.getLsbD_or, BitVec.getLsbD_and]
    _ = _ := by rw [masked _ j hj, BitVec.getLsbD_not, decide_eq_true hj, Bool.true_and]

/-- Settles O29: EBA always, DEBA with debug support. -/
theorem baseAddressRegisters : Obligations.BaseAddressRegisters := fun _ rX =>
  ⟨csrReads_of_csrRead rfl rX, ⟨_, csrWrites_of_csrWrite rfl, rfl⟩, fun hd =>
    ⟨csrReads_of_csrRead (State.csrRead_deba hd) rX, _, csrWrites_of_csrWrite (State.csrWrite_deba _ hd), rfl⟩⟩

/-- Settles O30: the write of DC takes each field at the place that the layout gives, whatever the layout. -/
theorem debugControlRegister : Obligations.DebugControlRegister := by
  intro s rX hd
  refine ⟨rfl, State.csrRead_eq_none.mp rfl, _, csrWrites_of_csrWrite (State.csrWrite_dc _ hd), rfl, rfl, rfl, fun n j hj => ?_⟩
  have field : ∀ st, ((s.reg rX).extractLsb' st 2).getLsbD j = (s.reg rX).getLsbD (st + j) := fun st => by
    rw [BitVec.getLsbD_extractLsb', decide_eq_true hj, Bool.true_and]
  match n with
  | 0 => exact field _
  | 1 => exact field _
  | 2 => exact field _
  | 3 => exact field _

/-- Settles O31: the write of the register with number `n` sets that entry of the vector; none can be read; power-up holds zeros. -/
theorem breakpointAndWatchpointRegisters : Obligations.BreakpointAndWatchpointRegisters := by
  refine ⟨fun s rX n hd => ⟨fun hn => ?breakpoint, fun hn => ?watchpoint⟩,
    fun c n => ⟨Vector.getElem_replicate n.isLt, Vector.getElem_replicate n.isLt⟩⟩
  case breakpoint =>
    have hnone : s.csrRead (BitVec.ofNat 5 (0x10 + n.val)) = none := by fin_cases n <;> rfl
    have hwrite := (s.csrWrite_bp n (s.reg rX)).trans (State.writeBp_eq_some.mpr ⟨⟨hd, hn⟩, rfl⟩)
    have hself : (s.bp.set n (bpOfWord (s.reg rX)))[n] = bpOfWord (s.reg rX) := Vector.getElem_set_self n.isLt
    exact ⟨hnone, State.csrRead_eq_none.mp hnone, _, csrWrites_of_csrWrite hwrite, rfl, congrArg Breakpoint.a hself,
      congrArg Breakpoint.e hself, fun m hm => Vector.getElem_set_ne n.isLt m.isLt fun e => hm (Fin.ext e.symm)⟩
  case watchpoint =>
    have hnone : s.csrRead (BitVec.ofNat 5 (0x18 + n.val)) = none := by fin_cases n <;> rfl
    have hwrite := (s.csrWrite_wp n (s.reg rX)).trans (State.writeWp_eq_some.mpr ⟨⟨hd, hn⟩, rfl⟩)
    exact ⟨hnone, State.csrRead_eq_none.mp hnone, _, csrWrites_of_csrWrite hwrite, rfl, Vector.getElem_set_self n.isLt,
      fun m hm => Vector.getElem_set_ne n.isLt m.isLt fun e => hm (Fin.ext e.symm)⟩

/-- Settles O32: the flags from the lowest bit up, and the numbers above them. -/
theorem configurationRegisters : Obligations.ConfigurationRegisters := by
  intro s rX hl
  have hnum := cfgNumbers hl (cfgValue s.cfg) fun st len => by
    unfold cfgValue
    iterate 12 rw [extractLsb'_append_cfgBit]
  refine ⟨⟨_, csrReads_of_csrRead rfl rX, ?cfg⟩, ⟨_, csrReads_of_csrRead rfl rX, ?cfg2⟩⟩
  case cfg =>
    obtain ⟨hint, hbp, hwp, hrev⟩ := hnum
    refine ⟨?_, ?_, ?_, ?_, ?_, ?_, ?_, ?_, ?_, ?_, ?_, hint, hbp, hwp, hrev⟩ <;> unfold cfgValue <;>
      simp only [getLsbD_append_cfgBit_zero, getLsbD_append_cfgBit_succ] <;> rfl
  case cfg2 => exact ⟨getLsbD_append_cfgBit_zero _ _, (getLsbD_append_cfgBit_succ _ _ 0).trans (getLsbD_append_cfgBit_zero _ _)⟩

/-- A narrow value with zeros above it. -/
theorem zeros_append_eq_setWidth (v : BitVec 9) : 0#23 ++ v = v.setWidth 32 := by
  apply BitVec.eq_of_toNat_eq
  rw [BitVec.toNat_append, BitVec.toNat_setWidth, Nat.mod_eq_of_lt (Nat.lt_trans v.isLt (by decide))]
  simp

/-- Settles O33: the registers of the cycle counter and of the JTAG UART, where they are present. -/
theorem cycleCounterAndJtagRegisters : Obligations.CycleCounterAndJtagRegisters := by
  intro s rX
  rw [← zeros_append_eq_setWidth, ← zeros_append_eq_setWidth]
  exact ⟨fun hc => csrReads_of_csrRead (State.csrRead_cc hc) rX, fun hj =>
    ⟨csrReads_of_csrRead (State.csrRead_jtx hj) rX, csrReads_of_csrRead (State.csrRead_jrx hj) rX,
      ⟨_, csrWrites_of_csrWrite (State.csrWrite_jtx _ hj), rfl⟩, ⟨_, csrWrites_of_csrWrite (State.csrWrite_jrx _ hj), rfl⟩⟩⟩

/-- Settles O34: without a value to read the result is a free one; a write is defined exactly where R69 names the register. -/
theorem csrsThatCannotBeAccessed : Obligations.CsrsThatCannotBeAccessed := by
  intro s rX k
  refine ⟨fun hk => ?read, fun hk => ?refused, fun hk => ?written⟩
  case read =>
    exact ⟨_, exec_rcsr_of_none (State.csrRead_eq_none.mpr hk) rX, rfl,
      fun _ hq => State.reg_setReg_ne ({ s with free := s.free + 1 } : State) _ hq, fun _ => rfl, rfl⟩
  case refused => rw [exec, execWcsr, State.csrWrite_eq_none.mpr hk]
  case written =>
    obtain ⟨t, ht⟩ := Option.isSome_iff_exists.mp ((s.csrWrite_isSome_iff k (s.reg rX)).mpr hk)
    exact ⟨_, (csrWrites_of_csrWrite ht).2⟩

/-- A transfer to an address that is no multiple of 4 is refused (R40, U4). -/
theorem State.jumpTo_of_misaligned {a : Word} (h : a.toNat % 4 ≠ 0) (s : State) : s.jumpTo a = .refused .misalignedTarget :=
  if_neg (mt (wordAligned_iff a).mp h)

/-- So is a return to one. -/
theorem State.returnTo_of_misaligned {a : Word} (h : a.toNat % 4 ≠ 0) (s : State) (e : Bool) :
    s.returnTo a e = .refused .misalignedTarget := if_neg (mt (wordAligned_iff a).mp h)

/-- Settles O37: the five transfers to a register are `jumpTo` and `returnTo`. -/
theorem misalignedTargetsRefused : Obligations.MisalignedTargetsRefused := by
  intro s rX h
  refine ⟨State.jumpTo_of_misaligned h s, State.jumpTo_of_misaligned h _, ?ret, ?eret, ?bret⟩
  case ret => rintro rfl; exact State.jumpTo_of_misaligned h s
  case eret => rintro rfl; exact State.returnTo_of_misaligned h s s.ieEIE
  case bret => rintro rfl; exact State.returnTo_of_misaligned h s s.ieBIE

end Sys2Proof.Machine
end

section
/-! Frames: which instructions can change the general registers (GeneralRegisterFrame, O54) and the special ones
(SpecialRegisterFrame, O55). Each is read off the effects that an instruction can have. -/

namespace Sys2Proof.Machine

open Sys2Proof.Safety

/-! ### Exception entry (60_exceptions.md R410, R411) -/

/-- Entering a debug exception is the entry that R411 describes, with the exception's number. -/
theorem State.enter_enteredDebug (s : State) {e : Exc} (h : isDebugExc e = true) : EnteredDebug s (s.enter e) (excId e) := by
  have hreg : ∀ r, (s.enter e).reg r = if r = ba then s.pc else s.reg r := fun r => by rw [State.reg_enter, h]; rfl
  have hpc : (s.enter e).pc = (s.deba ++ 0#8) + BitVec.ofNat 32 (excId e * 32) := by
    rw [State.enter_pc, State.vector, State.vectorBase, h]; rfl
  refine ⟨(hreg ba).trans (if_pos rfl), ?bie, s.enter_ieIE e, hpc, fun r hr => (hreg r).trans (if_neg hr),
    State.byteAt_congr (s.enter_mem e), s.enter_staleCode e, ?frame⟩
  case bie => rw [State.enter_ieBIE, h]; rfl
  case frame => rw [State.enter_debug h]; rfl

/-- The exceptions that an instruction enters by itself. -/
theorem State.enter_cases (s : State) {e : Exc} (he : e ∈ [Exc.breakpoint, .watchpoint, .dataBusError, .divideByZero, .systemCall]) :
    (EnteredNonDebug s (s.enter e) 4 ∨ EnteredNonDebug s (s.enter e) 5 ∨ EnteredNonDebug s (s.enter e) 7) ∨
      EnteredDebug s (s.enter e) 1 ∨ EnteredDebug s (s.enter e) 3 := by
  simp only [List.mem_cons, List.not_mem_nil, or_false] at he
  obtain rfl | rfl | rfl | rfl | rfl := he
  · exact .inr (.inl (s.enter_enteredDebug rfl))
  · exact .inr (.inr (s.enter_enteredDebug rfl))
  · exact .inl (.inl (s.enter_enteredNonDebug rfl))
  · exact .inl (.inr (.inl (s.enter_enteredNonDebug rfl)))
  · exact .inl (.inr (.inr (s.enter_enteredNonDebug rfl)))

/-- A non-debug entry changes no register but ea. -/
theorem eq_ea_of_entered {s t : State} {id : Nat} {r : Reg} (h : EnteredNonDebug s t id) (hr : t.reg r ≠ s.reg r) : r = 30#5 := by
  obtain ⟨-, -, -, -, hother, -⟩ := h
  exact of_not_not fun hne => hr (hother r hne)

/-- A debug entry changes no register but ba. -/
theorem eq_ba_of_entered {s t : State} {id : Nat} {r : Reg} (h : EnteredDebug s t id) (hr : t.reg r ≠ s.reg r) : r = 31#5 := by
  obtain ⟨-, -, -, -, hother, -⟩ := h
  exact of_not_not fun hne => hr (hother r hne)

/-! ### The general registers (10_state.md R33, R34) -/

/-- A write of one register in a state with the registers of `s` changes no other. -/
theorem eq_of_setReg_changes {s u : State} {r q : Reg} {v : Word} (hu : ∀ x, u.reg x = s.reg x)
    (h : (u.setReg r v).reg q ≠ s.reg q) : q = r :=
  of_not_not fun hne => h ((u.reg_setReg_ne v hne).trans (hu q))

/-- Settles O54: the effects that change a register are a result, a load, a call and an entry. -/
theorem generalRegisterFrame : Obligations.GeneralRegisterFrame := by
  intro i s t q h hq
  have result : ∀ {r : Reg}, destination i = some r → q = r → destination i = some q := fun hd e => e ▸ hd
  have entered : ∀ e, e ∈ [Exc.breakpoint, .watchpoint, .dataBusError, .divideByZero, .systemCall] → t = s.enter e →
      (q = 30#5 ∧ (EnteredNonDebug s t 4 ∨ EnteredNonDebug s t 5 ∨ EnteredNonDebug s t 7)) ∨
        (q = 31#5 ∧ (EnteredDebug s t 1 ∨ EnteredDebug s t 3)) := by
    rintro e he rfl
    refine (s.enter_cases he).imp (fun hn => ⟨?_, hn⟩) fun hd => ⟨?_, hd⟩
    · obtain h | h | h := hn <;> exact eq_ea_of_entered h hq
    · obtain h | h := hd <;> exact eq_ba_of_entered h hq
  cases exec_effect h with
  | result r v hd => exact .inl (result hd (eq_of_setReg_changes (fun _ => rfl) hq))
  | freeResult r v hd =>
    exact .inl (result hd (eq_of_setReg_changes (u := { s with free := s.free + 1 }) (fun _ => rfl) hq))
  | loaded r v n a hd => exact .inl (result hd (eq_of_setReg_changes ((s.loadDraw n a).reg_cacheLoad n a) hq))
  | deviceLoaded r v n a hd => exact .inl (result hd (eq_of_setReg_changes (s.reg_deviceRead n a) hq))
  | stored | deviceStored | stalled | fallThrough | jumped | returned => exact absurd rfl hq
  | entered e he => exact .inr (.inr (entered e he rfl))
  | csr k rX u _ hw =>
    obtain ⟨-, hregs, -⟩ := State.csrWrite_frame hw
    exact absurd (State.reg_congr hregs q) hq
  | called a _ hi => exact .inr (.inl ⟨hi, eq_of_setReg_changes (s := s) (u := s) (fun _ => rfl) hq⟩)

/-! ### The special registers (10_state.md R42, R43) -/

/-- What no instruction changes. -/
theorem Effect.fixed {i : Instr} {s t : State} (he : Effect i s t) :
    t.cfg = s.cfg ∧ t.cc = s.cc ∧ t.jtx = s.jtx ∧ t.jrx = s.jrx ∧ t.intLines = s.intLines ∧ t.resetPin = s.resetPin ∧
      t.atDebug = s.atDebug ∧ t.inputs = s.inputs := by
  cases he with
  | result | freeResult | stored | deviceStored | stalled | fallThrough | jumped | called | returned =>
    exact ⟨rfl, rfl, rfl, rfl, rfl, rfl, rfl, rfl⟩
  | loaded | deviceLoaded | entered => simp
  | csr k rX u _ hw =>
    obtain ⟨hcfg, -, -, hcc, hjtx, hjrx, -, -, -, hlines, hreset, hdebug, hinputs, -, -⟩ := State.csrWrite_frame hw
    exact ⟨hcfg, hcc, hjtx, hjrx, hlines, hreset, hdebug, hinputs⟩

/-- What only `wcsr` changes. -/
theorem Effect.special {i : Instr} {s t : State} (he : Effect i s t) (hi : ∀ k rX, i ≠ .wcsr k rX) :
    t.im = s.im ∧ t.ip = s.ip ∧ t.eba = s.eba ∧ t.dc = s.dc ∧ t.deba = s.deba ∧ t.bp = s.bp ∧ t.wp = s.wp := by
  cases he with
  | result | freeResult | stored | deviceStored | stalled | fallThrough | jumped | called | returned =>
    exact ⟨rfl, rfl, rfl, rfl, rfl, rfl, rfl⟩
  | loaded | deviceLoaded | entered => simp
  | csr k rX u hw => exact absurd hw (hi k rX)

/-- What changes the fields of IE: `wcsr`, the returns, and the entry of an exception. -/
theorem Effect.interruptEnable {i : Instr} {s t : State} (he : Effect i s t) :
    (t.ieIE, t.ieEIE, t.ieBIE) = (s.ieIE, s.ieEIE, s.ieBIE) ∨ writesIe i = true ∨
      ∃ e ∈ [Exc.breakpoint, .watchpoint, .dataBusError, .divideByZero, .systemCall], t = s.enter e := by
  cases he with
  | result | freeResult | stored | deviceStored | stalled | fallThrough | jumped | called => exact .inl rfl
  | loaded | deviceLoaded => exact .inl (by simp)
  | entered e he => exact .inr (.inr ⟨e, he, rfl⟩)
  | csr k rX u hi => exact .inr (.inl (by rw [hi]; rfl))
  | returned a e _ hi => exact .inr (.inl hi)

/-- Settles O55: the three kinds of special register, by the effects of the instruction. -/
theorem specialRegisterFrame : Obligations.SpecialRegisterFrame := by
  intro i s t h
  have he := exec_effect h
  obtain ⟨hcfg, hcc, hjtx, hjrx, hlines, hreset, hdebug, hinputs⟩ := he.fixed
  refine ⟨hcfg, hcc, hjtx, hjrx, hlines, hreset, hdebug, hinputs, he.special, fun hie => ?_⟩
  obtain hsame | hwrites | ⟨e, hmem, rfl⟩ := he.interruptEnable
  · exact absurd hsame hie
  · exact .inl hwrites
  · obtain (h4 | h5 | h7) | hd := s.enter_cases hmem
    · exact .inr (.inl h4)
    · exact .inr (.inr (.inl h5))
    · exact .inr (.inr (.inr (.inl h7)))
    · exact .inr (.inr (.inr (.inr hd)))

end Sys2Proof.Machine
end

section
/-! Invalidating the caches: `wcsr ICC` and the four slots after it (CodeInvalidation, O25), `wcsr DCC` and its neighbours
(DataInvalidation, O26). -/

namespace Sys2Proof.Machine

open Sys2Proof.Safety

/-! ### The slots after `wcsr ICC` (20_memory.md R126; 70_reset_and_hazards.md R511) -/

/-- Every earlier word lasts for at least one and at most `k` instructions more. -/
def WordsLast (k : Nat) (s : State) : Prop := ∀ e ∈ s.staleCode, ∃ n, e.life = some n ∧ 1 ≤ n ∧ n ≤ k

/-- No line is held, or an invalidation is pending that has at least one and at most `k` slots left. -/
def LinesLast (k : Nat) (s : State) : Prop := s.codeLines = [] ∨ ∃ d ∈ s.icc, 1 ≤ d ∧ d ≤ k

/-- With no slot left there is no earlier word. -/
theorem staleCode_of_wordsLast {s : State} (h : WordsLast 0 s) : s.staleCode = [] :=
  List.eq_nil_iff_forall_not_mem.mpr fun e he => by
    obtain ⟨n, -, h1, h0⟩ := h e he
    omega

/-- With no slot left there is no line. -/
theorem codeLines_of_linesLast {s : State} (h : LinesLast 0 s) : s.codeLines = [] := by
  obtain h | ⟨d, -, h1, h0⟩ := h
  · exact h
  · omega

/-- What passes before an instruction takes one slot from the earlier words. -/
theorem wordsLast_prepare {k : Nat} {s : State} (h : WordsLast (k + 1) s) (m : Bool) : WordsLast k (s.prepare m) := by
  intro e' he
  obtain ⟨e, hmem, hage⟩ := List.mem_filterMap.mp he
  obtain ⟨j, hj, -, hk⟩ := h e hmem
  obtain ⟨hnone, -⟩ | ⟨n, hn, h1, rfl⟩ := StaleWord.of_age hage
  · rw [hnone] at hj
    cases hj
  · rw [hn] at hj
    exact ⟨n, rfl, h1, by have := Option.some.inj hj; omega⟩

/-- It takes one slot from a pending invalidation, and at the last one drops the lines. -/
theorem linesLast_prepare {k : Nat} {s : State} (h : LinesLast (k + 1) s) (m : Bool) : LinesLast k (s.prepare m) := by
  obtain ⟨-, hlines⟩ | ⟨hleft, hlines, hicc⟩ :=
    settleCode_cases (if m then s.free + s.dataLines.length else s.free) s.icc s.codeLines
  · exact .inl hlines
  · obtain h | ⟨d, hd, -, hk⟩ := h
    · exact .inl (hlines.trans h)
    · have h1 := hleft d hd
      have h2 : 1 ≤ slotsDue (if m then s.free + s.dataLines.length else s.free) := Nat.le_max_left ..
      refine .inr ⟨d - 1, ?_, by omega, by omega⟩
      rw [State.prepare_icc, hicc]
      exact List.mem_map_of_mem hd

/-- `t` records no earlier word that `s` does not and holds its lines with its pending invalidations, or it is after `wcsr ICC`. -/
def KeepsCode (s t : State) : Prop :=
  ((∀ e ∈ t.staleCode, e ∈ s.staleCode) ∧ t.codeLines = s.codeLines ∧ t.icc = s.icc) ∨
    (t.staleCode = s.invalidateCode.staleCode ∧ t.codeLines = s.invalidateCode.codeLines ∧ t.icc = s.invalidateCode.icc)

/-- An instruction that stores nothing records no earlier word, and only `wcsr ICC` touches the lines. -/
theorem Effect.keepsCode {i : Instr} {s t : State} (he : Effect i s t) (hs : isStore i = false) : KeepsCode s t := by
  cases he with
  | result | freeResult | deviceStored | stalled | fallThrough => exact .inl ⟨fun _ he => he, rfl, rfl⟩
  | loaded | deviceLoaded => exact .inl (by simp)
  | stored n base data imm hi hstore => rw [hs] at hstore; cases hstore
  | jumped | called | returned => exact .inl ⟨fun _ he => mem_of_mem_refetch he, rfl, rfl⟩
  | entered e =>
    refine .inl ⟨fun x hx => ?_, s.enter_codeLines e, s.enter_icc e⟩
    rw [State.enter_staleCode] at hx
    exact mem_of_mem_refetch hx
  | csr k rX u _ hw =>
    obtain ⟨hstale, hlines, hicc⟩ | ⟨-, rfl⟩ := State.csrWrite_code hw
    · exact .inl ⟨fun _ he => hstale ▸ he, hlines, hicc⟩
    · exact .inr ⟨rfl, rfl, rfl⟩

/-- Neither gives an earlier word more slots than it has. -/
theorem wordsLast_of_keepsCode {k : Nat} {s t : State} (ht : KeepsCode s t) (h : WordsLast k s) : WordsLast k t := by
  intro e' he
  obtain ⟨hmem, -⟩ | ⟨hstale, -⟩ := ht
  · exact h e' (hmem e' he)
  · rw [hstale, State.invalidateCode_staleCode] at he
    obtain ⟨e, hold, rfl⟩ := List.mem_map.mp he
    obtain ⟨n, hn, hb⟩ := h e hold
    exact ⟨n, by rw [hn]; rfl, hb⟩

/-- Nor an invalidation. -/
theorem linesLast_of_keepsCode {k : Nat} {s t : State} (ht : KeepsCode s t) (h : LinesLast k s) : LinesLast k t := by
  obtain ⟨-, hlines, hicc⟩ | ⟨-, hlines, hicc⟩ := ht
  · rw [LinesLast, hlines, hicc]
    exact h
  · rw [LinesLast, hlines, hicc, State.invalidateCode_codeLines, State.invalidateCode_icc]
    split
    · exact .inl rfl
    · exact h.imp_right fun ⟨d, hd, hb⟩ => ⟨d, List.mem_append_left _ hd, hb⟩

/-- The execution of an instruction, taken apart. -/
theorem execute_next {i : Instr} {s t : State} (h : execute i s = .next t) :
    ∃ u, exec i (s.prepare (isDataAccess i)) = .next u ∧ t = u.executed i := by
  unfold execute mapNext at h
  split at h
  · next u hu => exact ⟨u, hu, (Host.Outcome.next.inj h).symm⟩
  · cases h
  · cases h

/-- After a slot the earlier words and the pending invalidations have one slot less. -/
theorem slot_lasts {k : Nat} {i : Instr} {s t : State} (h : Slot i s t) :
    (WordsLast (k + 1) s → WordsLast k t) ∧ (LinesLast (k + 1) s → LinesLast k t) := by
  obtain ⟨hs, hx⟩ := h
  obtain ⟨u, hu, rfl⟩ := execute_next hx
  have hkeep := (exec_effect hu).keepsCode hs
  exact ⟨fun hw => wordsLast_of_keepsCode hkeep (wordsLast_prepare hw _), fun hl =>
    linesLast_of_keepsCode hkeep (linesLast_prepare hl _)⟩

/-- The invariant, the configuration `c`, and earlier words for at most `k` slots. -/
structure SlotsLeft (c : Cfg) (k : Nat) (s : State) : Prop where
  inv : Inv s
  cfg : s.cfg = c
  words : WordsLast k s

/-- An instruction changes no configuration, nor does what passes before it. -/
theorem cfg_of_execute {i : Instr} {s t : State} (h : execute i s = .next t) : t.cfg = s.cfg := by
  obtain ⟨u, hu, rfl⟩ := execute_next h
  exact (exec_effect hu).fixed.1

/-- A slot whose instruction is fetched takes one slot from the earlier words. -/
theorem slotsLeft_of_fetchedSlot {c : Cfg} {k : Nat} {i : Instr} {s t : State} (h : FetchedSlot i s t)
    (hs : SlotsLeft c (k + 1) s) : SlotsLeft c k t := by
  obtain ⟨w, u, hf, hslot⟩ := h
  have hfetch := State.fetch_afterFetch hf
  have hstale : u.staleCode = s.staleCode := (congrArg State.staleCode hfetch.frame).trans rfl
  exact {
    inv := inv_execute (inv_fetch hs.inv hf) (execute_next hslot.2)
    cfg := (cfg_of_execute hslot.2).trans ((cfg_of_afterFetch hfetch).trans hs.cfg)
    words := (slot_lasts hslot).1 (by rw [WordsLast, hstale]; exact hs.words) }

/-- In a state that meets the invariant, without an earlier word, a fetch from memory can return nothing but memory's word. -/
theorem oldWords_of_no_staleCode {s : State} (h : Inv s) (hs : s.staleCode = []) {a : Word} (ha : wordAligned a = true)
    (hr : respond s.cfg .fetch .word a = .memory) : s.oldWords a = [] := by
  refine State.oldWords_eq_nil.mpr ⟨by simp [State.staleWords, hs], ?_⟩
  unfold State.portWord
  split
  · next l hl =>
    obtain ⟨hc, hmem, haddr⟩ := State.heldCode_some hl
    obtain hcurrent | ⟨e, he, -⟩ := h.codeWords l hmem a ha hc haddr hr
    · exact hcurrent
    · rw [hs] at he
      cases he
  · rfl

/-- `wcsr ICC` leaves every earlier word and every line no more than four slots. -/
theorem invalidateCode_lasts {s : State} (h : Inv s) (hc : s.cfg.hasICache = true)
    (hlive : ∀ e ∈ s.staleCode, ∀ n, e.life = some n → 1 ≤ n) : WordsLast 4 s.invalidateCode ∧ LinesLast 4 s.invalidateCode := by
  constructor
  · intro e' he
    rw [State.invalidateCode_staleCode] at he
    obtain ⟨e, hold, rfl⟩ := List.mem_map.mp he
    have hlife := h.lives e hold
    cases hl : e.life with
    | none => exact ⟨4, rfl, by omega, by omega⟩
    | some n =>
      rw [hl] at hlife
      exact ⟨n, rfl, hlive e hold n hl, Nat.le_trans hlife (Nat.le_of_eq (if_pos hc))⟩
  · rw [LinesLast, State.invalidateCode_codeLines, State.invalidateCode_icc]
    split
    · exact .inl rfl
    · exact .inr ⟨4, by simp, by omega, by omega⟩

/-- An earlier word that is left before an instruction lasts for that instruction. -/
theorem prepare_life_pos {s : State} {m : Bool} {e : StaleWord} (he : e ∈ (s.prepare m).staleCode) {n : Nat}
    (hn : e.life = some n) : 1 ≤ n := by
  obtain ⟨e', -, hage⟩ := List.mem_filterMap.mp he
  obtain ⟨hnone, rfl⟩ | ⟨j, -, h1, rfl⟩ := StaleWord.of_age hage
  · rw [hnone] at hn
    cases hn
  · exact Option.some.inj hn ▸ h1

/-- Executing `wcsr ICC`: the four slots begin, in a state that meets the invariant. -/
theorem execute_icc_lasts {s t : State} {rX : Reg} (h : Inv s) (hc : s.cfg.hasICache = true)
    (hx : execute (.wcsr 0x03#5 rX) s = .next t) : Inv t ∧ WordsLast 4 t ∧ LinesLast 4 t := by
  obtain ⟨u, hu, rfl⟩ := execute_next hx
  have hp := inv_prepare h (isDataAccess (.wcsr 0x03#5 rX))
  have hwrite := (csrWrites_of_csrWrite (rX := rX) (State.csrWrite_icc
    (s := s.prepare (isDataAccess (.wcsr 0x03#5 rX))) _ hc)).2
  obtain rfl := Host.Outcome.next.inj (hwrite.symm.trans hu)
  exact ⟨inv_executed (inv_advance (inv_invalidateCode hp hc)) _,
    invalidateCode_lasts hp hc fun e he n hn => prepare_life_pos he hn⟩

/-- Settles O25: `wcsr ICC` gives the earlier words and the lines at most four slots, and each of the four instructions takes one. -/
theorem codeInvalidation : Obligations.CodeInvalidation := by
  intro s rX hc
  refine ⟨⟨_, csrWrites_of_csrWrite (State.csrWrite_icc _ hc), rfl, fun e he => ?life, ?lines⟩,
    fun hinv i₁ i₂ i₃ i₄ s₁ s₂ s₃ s₄ s₅ hx => ?slots⟩
  case life =>
    obtain ⟨e', -, rfl⟩ := List.mem_map.mp he
    exact Option.some_ne_none _
  case lines =>
    rw [State.advance_codeLines, State.advance_icc, State.invalidateCode_codeLines, State.invalidateCode_icc]
    split
    · exact .inl rfl
    · exact .inr ⟨rfl, by simp⟩
  case slots =>
    obtain ⟨h₁, hwords, hlines⟩ := execute_icc_lasts hinv hc hx
    constructor
    · intro f₁ f₂ f₃ f₄
      have h₅ := slotsLeft_of_fetchedSlot f₄ (slotsLeft_of_fetchedSlot f₃ (slotsLeft_of_fetchedSlot f₂
        (slotsLeft_of_fetchedSlot f₁ ⟨h₁, cfg_of_execute hx, hwords⟩)))
      have hnone := staleCode_of_wordsLast h₅.words
      exact ⟨hnone, fun a ha hr => oldWords_of_no_staleCode h₅.inv hnone ha (by rw [h₅.cfg]; exact hr)⟩
    · intro f₁ f₂ f₃ f₄
      exact ⟨staleCode_of_wordsLast ((slot_lasts f₄).1 ((slot_lasts f₃).1 ((slot_lasts f₂).1 ((slot_lasts f₁).1 hwords)))),
        codeLines_of_linesLast ((slot_lasts f₄).2 ((slot_lasts f₃).2 ((slot_lasts f₂).2 ((slot_lasts f₁).2 hlines))))⟩

/-! ### `wcsr DCC` and its neighbours (20_memory.md R127; 70_reset_and_hazards.md R512) -/

/-- Everything that the data cache may still return is to be dropped, unless the next instruction is a load or store. -/
def DataDropping (s : State) : Prop := (∀ e ∈ s.staleData, e.dropping = true) ∧ ∀ l ∈ s.dataLines, l.dropping = true

/-- Each line that `wcsr DCC` leaves was there before, with the same bytes in the same place. -/
theorem mem_invalidateData {s : State} {l : CacheLine} (h : l ∈ s.invalidateData.dataLines) :
    ∃ l' ∈ s.dataLines, l = { l' with dropping := l.dropping } := by
  have marked : ∀ {k : CacheLine}, k ∈ s.dataLines.map (fun l => { l with dropping := true }) →
      ∃ l' ∈ s.dataLines, k = { l' with dropping := true } := fun hk => by
    obtain ⟨l', hl', rfl⟩ := List.mem_map.mp hk
    exact ⟨l', hl', rfl⟩
  rw [State.invalidateData_dataLines] at h
  dsimp only at h
  split at h
  · obtain ⟨k, hk, rfl⟩ := mem_settleLines h
    obtain ⟨l', hl', rfl⟩ := marked hk
    exact ⟨l', hl', rfl⟩
  · obtain ⟨l', hl', rfl⟩ := marked h
    exact ⟨l', hl', rfl⟩

/-- With no load or store just before it, `wcsr DCC` marks everything to be dropped. -/
theorem dataDropping_invalidateData {s : State} (h : s.lastMem = false) : DataDropping s.invalidateData := by
  unfold DataDropping
  rw [State.invalidateData_staleData, State.invalidateData_dataLines, h]
  refine ⟨fun e he => ?_, fun l hl => ?_⟩
  · obtain ⟨e', -, rfl⟩ := List.mem_map.mp he
    rfl
  · obtain ⟨l', -, rfl⟩ := List.mem_map.mp hl
    rfl

/-- What is marked goes before an instruction that is no load or store. -/
theorem prepare_of_dataDropping {s : State} (h : DataDropping s) :
    (s.prepare false).staleData = [] ∧ (s.prepare false).dataLines = [] :=
  ⟨List.filter_eq_nil_iff.mpr fun e he => by simp [h.1 e he], List.filter_eq_nil_iff.mpr fun l hl => by simp [h.2 l hl]⟩

/-- An instruction that is no load or store fills no line and records no earlier byte. -/
theorem Effect.data_of_nil {i : Instr} {s t : State} (he : Effect i s t) (hm : isDataAccess i = false)
    (hs : s.staleData = [] ∧ s.dataLines = []) : t.staleData = [] ∧ t.dataLines = [] := by
  cases he with
  | result | freeResult | stalled | fallThrough | jumped | called | returned => exact hs
  | loaded _ _ _ _ _ _ hload | deviceLoaded _ _ _ _ _ _ hload => rw [hm] at hload; cases hload
  | stored n base data imm hi => rw [isDataAccess, hi] at hm; cases hm
  | deviceStored _ _ _ _ hstore => rw [hm] at hstore; cases hstore
  | entered e => rwa [State.enter_staleData, State.enter_dataLines]
  | csr k rX u _ hw =>
    rw [State.advance_staleData, State.advance_dataLines]
    refine ⟨?_, List.eq_nil_iff_forall_not_mem.mpr fun l hl => ?_⟩
    · obtain e | e := State.csrWrite_staleData hw <;> rw [e]
      · exact hs.1
      · rw [State.invalidateData_staleData, hs.1, List.map_nil, ite_self]
    · obtain e | e := State.csrWrite_dataLines hw <;> rw [e] at hl
      · rw [hs.2] at hl
        cases hl
      · obtain ⟨l', hl', -⟩ := mem_invalidateData hl
        rw [hs.2] at hl'
        cases hl'

/-- Settles O26: `wcsr DCC` marks what the data cache may return, and the next instruction drops it before it executes. -/
theorem dataInvalidation : Obligations.DataInvalidation := by
  intro s rX hc
  refine ⟨⟨_, csrWrites_of_csrWrite (State.csrWrite_dcc _ hc), rfl, fun l hl => mem_invalidateData hl⟩,
    fun i s₁ s₂ hlast hm hx₁ hx₂ => ?_⟩
  obtain ⟨u₁, hu₁, rfl⟩ := execute_next hx₁
  obtain ⟨u₂, hu₂, rfl⟩ := execute_next hx₂
  have hwrite := (csrWrites_of_csrWrite (rX := rX) (State.csrWrite_dcc
    (s := s.prepare (isDataAccess (.wcsr 0x04#5 rX))) _ hc)).2
  obtain rfl := Host.Outcome.next.inj (hwrite.symm.trans hu₁)
  have hdrop : DataDropping (s.prepare (isDataAccess (.wcsr 0x04#5 rX))).invalidateData := dataDropping_invalidateData hlast
  rw [hm] at hu₂
  exact (exec_effect hu₂).data_of_nil hm (prepare_of_dataDropping hdrop)

end Sys2Proof.Machine
end

section
/-! Which bytes of memory change: the frame of every instruction (MemoryFrame, O56), and a write of another master with the earlier
copies that it leaves (OtherMasterWrites, O53). -/

namespace Sys2Proof.Machine

open Sys2Proof.Safety

/-! ### The core's own writes (20_memory.md R113, R133) -/

/-- Memory changes by a store to memory and by nothing else. -/
theorem Effect.mem_cases {i : Instr} {s t : State} (he : Effect i s t) :
    t.mem = s.mem ∨ ∃ n base data imm, dataOperand i = some (.write, n, base, imm) ∧ isStore i = true ∧
      t = (s.storeMemory (s.effAddr base imm) (storeBytes n (s.reg data))).advance := by
  cases he with
  | result | freeResult | deviceStored | stalled | fallThrough | jumped | called | returned => exact .inl rfl
  | loaded | deviceLoaded | entered => exact .inl (by simp)
  | stored n base data imm hi hs => exact .inr ⟨n, base, data, imm, hi, hs, rfl⟩
  | csr k rX u _ hw =>
    obtain ⟨-, -, -, -, -, -, hmem, -⟩ := State.csrWrite_frame hw
    exact .inl hmem

/-- Settles O56: the one effect that changes memory is a store, which writes the bytes from its effective address on. -/
theorem memoryFrame : Obligations.MemoryFrame := by
  intro i s t h
  obtain hmem | ⟨n, base, data, imm, hi, hs, rfl⟩ := (exec_effect h).mem_cases
  · exact ⟨fun _ => State.byteAt_congr hmem, fun _ _ _ _ a _ => State.byteAt_congr hmem a⟩
  · refine ⟨fun hn => absurd (hs.symm.trans hn) (by decide), fun n' base' imm' hi' a ha => ?_⟩
    cases hi.symm.trans hi'
    exact State.byteAt_storeMemory_ne _ _ _ _ fun k hk e => ha ⟨k, by rwa [storeBytes_length] at hk, e⟩

/-! ### One byte of another master (20_memory.md R124) -/

section OneByte
variable (s : State) (a : Word) (b : Option Byte)

/-- Every other byte stays. -/
theorem State.byteAt_masterByte_ne {x : Word} (h : x ≠ a) : (s.masterByte a b).byteAt x = s.byteAt x := by
  cases b with
  | none => rfl
  | some b => exact Memory.readByte_writeByte_ne s.mem b fun e => h (BitVec.eq_of_toNat_eq e)

/-- The byte is written, if there is one. -/
theorem State.byteAt_masterByte_self (h : s.mem.wf = true) : (s.masterByte a b).byteAt a = b.getD (s.byteAt a) := by
  cases b with
  | none => rfl
  | some b => exact Memory.readByte_writeByte_self (low := 0) a.toNat b h

/-- Each byte that a load may still return is one from before, or the one that memory held. -/
theorem State.staleData_masterByte_earlier {e : StaleByte} (h : e ∈ (s.masterByte a b).staleData) :
    (∃ e' ∈ s.staleData, e'.addr = e.addr ∧ e'.byte = e.byte) ∨ (e.addr = a ∧ e.byte = s.byteAt a) := by
  cases b with
  | none => exact .inl ⟨e, h, rfl, rfl⟩
  | some b =>
    simp only [State.masterByte] at h
    split at h
    · obtain rfl | h := List.mem_cons.mp h
      · exact .inr ⟨rfl, rfl⟩
      · obtain ⟨e', he', rfl⟩ := List.mem_map.mp h
        exact .inl ⟨e', he', by split <;> rfl, by split <;> rfl⟩
    · exact .inl ⟨e, h, rfl, rfl⟩

/-- Those from before stay, and none is masked anew. -/
theorem State.staleData_masterByte_kept {e : StaleByte} (h : e ∈ s.staleData) :
    ∃ e' ∈ (s.masterByte a b).staleData, e'.addr = e.addr ∧ e'.byte = e.byte ∧ (e.masked = false → e'.masked = false) := by
  cases b with
  | none => exact ⟨e, h, rfl, rfl, id⟩
  | some b =>
    simp only [State.masterByte]
    split
    · refine ⟨_, List.mem_cons_of_mem _ (List.mem_map_of_mem h), ?_⟩
      split
      · exact ⟨rfl, rfl, fun _ => rfl⟩
      · exact ⟨rfl, rfl, id⟩
    · exact ⟨e, h, rfl, rfl, id⟩

/-- The byte that memory held is recorded where the address goes through the data cache. -/
theorem State.staleData_masterByte_recorded (x : Byte) (h : dataCached s.cfg a = true) :
    { addr := a, byte := s.byteAt a, masked := false, dropping := false } ∈ (s.masterByte a (some x)).staleData := by
  simp only [State.masterByte, h, if_true]
  exact List.mem_cons_self

end OneByte

/-! ### The bytes of a transfer (20_memory.md R131, R137) -/

/-- The bytes that a transfer carries, with their places in the word. -/
def BusWrite.bytes (w : BusWrite) : List (BitVec 2 × Option Byte) := [(0#2, w.b0), (1#2, w.b1), (2#2, w.b2), (3#2, w.b3)]

/-- The writes of the bytes `bs` at their places in the word at `w`, one after the other. -/
def State.masterBytes (s : State) (w : BitVec 30) : List (BitVec 2 × Option Byte) → State
  | [] => s
  | p :: bs => (s.masterByte (w ++ p.1) p.2).masterBytes w bs

/-- Place `k` of a word, as a distance from the word's address. -/
theorem append_place (w : BitVec 30) (k : BitVec 2) : w ++ k = w ++ 0#2 + BitVec.ofNat 32 k.toNat := by
  apply BitVec.eq_of_toNat_eq
  have hw := w.isLt
  have hk := k.isLt
  rw [BitVec.toNat_add, BitVec.toNat_append, BitVec.toNat_append, BitVec.toNat_ofNat, BitVec.toNat_ofNat,
    ← Nat.shiftLeft_add_eq_or_of_lt hk, ← Nat.shiftLeft_add_eq_or_of_lt (by decide), Nat.shiftLeft_eq]
  omega

/-- Two places of a word are two addresses. -/
theorem append_place_inj {w : BitVec 30} {j k : BitVec 2} (h : w ++ j = w ++ k) : j = k := by
  have hlow := congrArg (fun x : BitVec (30 + 2) => x.extractLsb' 0 2) h
  simpa only [BitVec.extractLsb'_append_eq_right] using hlow

/-- A place of a word lies in that word. -/
theorem extractLsb'_append_place (w : BitVec 30) (k : BitVec 2) : (w ++ k : Word).extractLsb' 2 30 = w :=
  BitVec.extractLsb'_append_eq_left

/-- A transfer writes its bytes, and records the word that memory held. -/
theorem State.masterWrite_eq (s : State) (w : BusWrite) :
    s.masterWrite w = { s.masterBytes w.word w.bytes with
      staleCode := s.recordCode (w.word ++ 0#2) (masterLife s.cfg (w.word ++ 0#2)) (s.masterBytes w.word w.bytes).mem } := by
  have h1 := append_place w.word 1#2
  have h2 := append_place w.word 2#2
  have h3 := append_place w.word 3#2
  simp only [State.masterWrite, State.masterBytes, BusWrite.bytes, h1, h2, h3]
  rfl

section Transfer
variable {w : BitVec 30} {bs : List (BitVec 2 × Option Byte)}

/-- A byte at none of the places stays. -/
theorem State.byteAt_masterBytes_ne {s : State} {x : Word} (h : ∀ p ∈ bs, x ≠ w ++ p.1) :
    (s.masterBytes w bs).byteAt x = s.byteAt x := by
  induction bs generalizing s with
  | nil => rfl
  | cons p bs ih =>
    obtain ⟨hp, hbs⟩ := List.forall_mem_cons.mp h
    exact (ih hbs).trans (s.byteAt_masterByte_ne _ _ hp)

/-- Each byte that a load may still return is one from before, or the one that memory held at one of the places. -/
theorem State.staleData_masterBytes_earlier {s : State} (hn : (bs.map Prod.fst).Nodup) {e : StaleByte}
    (h : e ∈ (s.masterBytes w bs).staleData) :
    (∃ e' ∈ s.staleData, e'.addr = e.addr ∧ e'.byte = e.byte) ∨ ∃ p ∈ bs, e.addr = w ++ p.1 ∧ e.byte = s.byteAt e.addr := by
  induction bs generalizing s with
  | nil => exact .inl ⟨e, h, rfl, rfl⟩
  | cons p bs ih =>
    obtain ⟨hp, hbs⟩ := List.nodup_cons.mp hn
    obtain ⟨e', he', haddr, hbyte⟩ | ⟨q, hq, haddr, hbyte⟩ := ih hbs h
    · rw [← haddr, ← hbyte]
      exact (s.staleData_masterByte_earlier _ _ he').imp_right fun ⟨ha, hb⟩ => ⟨p, List.mem_cons_self, ha, by rw [ha]; exact hb⟩
    · have hne : e.addr ≠ w ++ p.1 := fun e => hp (append_place_inj (haddr.symm.trans e) ▸ List.mem_map_of_mem hq)
      exact .inr ⟨q, List.mem_cons_of_mem _ hq, haddr, hbyte.trans (s.byteAt_masterByte_ne _ _ hne)⟩

/-- Those from before stay, and none is masked anew. -/
theorem State.staleData_masterBytes_kept {s : State} {e : StaleByte} (h : e ∈ s.staleData) :
    ∃ e' ∈ (s.masterBytes w bs).staleData, e'.addr = e.addr ∧ e'.byte = e.byte ∧ (e.masked = false → e'.masked = false) := by
  induction bs generalizing s e with
  | nil => exact ⟨e, h, rfl, rfl, id⟩
  | cons p bs ih =>
    obtain ⟨e₁, he₁, haddr₁, hbyte₁, hmask₁⟩ := s.staleData_masterByte_kept (w ++ p.1) p.2 h
    obtain ⟨e₂, he₂, haddr₂, hbyte₂, hmask₂⟩ := ih he₁
    exact ⟨e₂, he₂, haddr₂.trans haddr₁, hbyte₂.trans hbyte₁, hmask₂ ∘ hmask₁⟩

/-- A byte that the transfer carries is written at its place, and one that it does not carry stays. -/
theorem State.byteAt_masterBytes {s : State} (hwf : s.mem.wf = true) (hn : (bs.map Prod.fst).Nodup) {k : BitVec 2} {b : Option Byte}
    (h : (k, b) ∈ bs) : (s.masterBytes w bs).byteAt (w ++ k) = b.getD (s.byteAt (w ++ k)) := by
  induction bs generalizing s with
  | nil => cases h
  | cons p bs ih =>
    obtain ⟨hp, hbs⟩ := List.nodup_cons.mp hn
    obtain rfl | h := List.mem_cons.mp h
    · have hlater : ∀ q ∈ bs, (w ++ k : Word) ≠ w ++ q.1 := fun q hq e => by
        obtain rfl := append_place_inj e
        exact absurd (List.mem_map_of_mem (f := Prod.fst) hq) hp
      exact (State.byteAt_masterBytes_ne (s := s.masterByte (w ++ k) b) hlater).trans (s.byteAt_masterByte_self _ _ hwf)
    · have hne : w ++ k ≠ w ++ p.1 := fun e => hp (append_place_inj e ▸ List.mem_map_of_mem (f := Prod.fst) h)
      rw [← s.byteAt_masterByte_ne (w ++ p.1) p.2 hne]
      exact ih (State.masterByte_wf _ _ hwf) hbs h

/-- The byte that memory held is recorded where a byte is written at a data-cached address. -/
theorem State.staleData_masterBytes_recorded {s : State} (hn : (bs.map Prod.fst).Nodup) {k : BitVec 2} {x : Byte}
    (h : (k, some x) ∈ bs) (hc : dataCached s.cfg (w ++ k) = true) :
    ∃ e ∈ (s.masterBytes w bs).staleData, e.addr = w ++ k ∧ e.byte = s.byteAt (w ++ k) ∧ e.masked = false := by
  induction bs generalizing s with
  | nil => cases h
  | cons p bs ih =>
    obtain ⟨hp, hbs⟩ := List.nodup_cons.mp hn
    obtain rfl | h := List.mem_cons.mp h
    · obtain ⟨e, he, haddr, hbyte, hmask⟩ := State.staleData_masterBytes_kept (w := w) (bs := bs)
        (s.staleData_masterByte_recorded (w ++ k) x hc)
      exact ⟨e, he, haddr, hbyte, hmask rfl⟩
    · have hne : w ++ k ≠ w ++ p.1 := fun e => hp (append_place_inj e ▸ List.mem_map_of_mem (f := Prod.fst) h)
      rw [← s.byteAt_masterByte_ne (w ++ p.1) p.2 hne]
      exact ih hbs h (by rw [State.masterByte_frame]; exact hc)

end Transfer

/-- The places of the four bytes are the four places of a word. -/
theorem BusWrite.places_nodup (w : BusWrite) : (w.bytes.map Prod.fst).Nodup :=
  show [0#2, 1#2, 2#2, 3#2].Nodup by decide

/-! ### The earlier words -/

/-- What a write records of the word that it overwrites, in the words of the rule, when it keeps the word if `p` holds. -/
theorem State.recordCode_recordsWord {s t : State} {a : Word} {life : Option (Option Nat)} {p : Prop}
    (ht : t.staleCode = s.recordCode a life t.mem) (hlife : p → life ≠ none) : RecordsWord s t a p := by
  unfold State.recordCode at ht
  cases life with
  | none =>
    simp only at ht
    exact ⟨fun e he => .inl (ht ▸ he), fun e he => ht ▸ he, fun hp => absurd rfl (hlife hp)⟩
  | some l =>
    simp only at ht
    split at ht
    · next hsame => exact ⟨fun e he => .inl (ht ▸ he), fun e he => ht ▸ he, fun _ hne => absurd hsame hne⟩
    · refine ⟨fun e he => ?_, fun e he => ht ▸ List.mem_cons_of_mem _ he, fun _ _ => ⟨_, ht ▸ List.mem_cons_self, rfl, rfl⟩⟩
      obtain rfl | he := List.mem_cons.mp (ht ▸ he)
      · exact .inr ⟨rfl, rfl⟩
      · exact .inl he

/-- A byte that is recorded, and not masked, may be returned. -/
theorem State.mem_oldBytes_of_staleData {s : State} {e : StaleByte} (he : e ∈ s.staleData) (hm : e.masked = false)
    (hc : dataCached s.cfg e.addr = true) : e.byte ∈ s.oldBytes e.addr := by
  refine List.mem_append_left _ ?_
  rw [State.staleBytes, if_pos hc]
  exact List.mem_map_of_mem (List.mem_filter.mpr ⟨he, by simp [hm]⟩)

/-- Settles O53: the transfer is its bytes one after the other, at four places of which no two are one, and the record of the word. -/
theorem otherMasterWrites : Obligations.OtherMasterWrites := by
  rintro s t w rfl hwf
  have hn := w.places_nodup
  have hframe := s.masterWrite_frame w
  have hmem : (s.masterWrite w).mem = (s.masterBytes w.word w.bytes).mem := by rw [s.masterWrite_eq w]
  have hstale : (s.masterWrite w).staleData = (s.masterBytes w.word w.bytes).staleData := by rw [s.masterWrite_eq w]
  have hbyte : ∀ {k b}, (k, b) ∈ w.bytes → (s.masterWrite w).byteAt (w.word ++ k) = b.getD (s.byteAt (w.word ++ k)) := fun h =>
    (State.byteAt_congr hmem _).trans (State.byteAt_masterBytes hwf hn h)
  refine ⟨fun a ha => ?outside, hbyte (by simp [BusWrite.bytes]), hbyte (by simp [BusWrite.bytes]), hbyte (by simp [BusWrite.bytes]),
    hbyte (by simp [BusWrite.bytes]), State.recordCode_recordsWord rfl fun hc => by simp [masterLife, hc], ⟨fun e he => ?earlier,
    fun e he => ?kept⟩, fun k x hk hc => ?recorded, hframe⟩
  case outside =>
    refine (State.byteAt_congr hmem a).trans (State.byteAt_masterBytes_ne fun p _ e => ha ?_)
    rw [e]
    exact extractLsb'_append_place ..
  case earlier =>
    rw [hstale] at he
    refine (State.staleData_masterBytes_earlier hn he).imp_right fun ⟨p, _, ha, hb⟩ => ⟨?_, hb⟩
    rw [ha]
    exact extractLsb'_append_place ..
  case kept =>
    obtain ⟨e', he', haddr, hb, -⟩ := State.staleData_masterBytes_kept (w := w.word) (bs := w.bytes) he
    exact ⟨e', hstale ▸ he', haddr, hb⟩
  case recorded =>
    obtain ⟨e, he, haddr, hb, hm⟩ := State.staleData_masterBytes_recorded hn hk hc
    rw [← hb, ← haddr]
    exact State.mem_oldBytes_of_staleData (hstale ▸ he) hm (by rw [haddr, hframe]; exact hc)

end Sys2Proof.Machine
end

section
/-! Loads and stores: the value of an access as its bytes, what a load sees of the store before it (StoreThenLoad, O18), of a device
(DeviceAccess, O20) and of the earlier bytes (LoadSeesCurrentOrEarlier, O22). -/

namespace Sys2Proof.Machine

open Sys2Proof.Safety

/-! ### Values as bytes (20_memory.md R110) -/

/-- The number that the bytes `bs` make, the most significant first. -/
def bytesValue (bs : List Byte) : Word := BitVec.ofNat 32 (bs.foldl (fun v b => 256 * v + b.toNat) 0)

/-- Two bytes, one behind the other. -/
theorem toNat_append_byte {n : Nat} (x : BitVec n) (b : Byte) : (x ++ b).toNat = 256 * x.toNat + b.toNat := by
  rw [BitVec.toNat_append, ← Nat.shiftLeft_add_eq_or_of_lt b.isLt, Nat.shiftLeft_eq]
  omega

/-- The value of one byte. -/
theorem bytesValue_byte (b : Byte) : bytesValue [b] = b.setWidth 32 := by
  apply BitVec.eq_of_toNat_eq
  simp [bytesValue]

/-- The value of a half-word. -/
theorem bytesValue_half (b0 b1 : Byte) : bytesValue [b0, b1] = (b0 ++ b1).setWidth 32 := by
  apply BitVec.eq_of_toNat_eq
  rw [bytesValue, BitVec.toNat_ofNat, BitVec.toNat_setWidth, toNat_append_byte]
  simp

/-- The value of a word. -/
theorem bytesValue_word (b0 b1 b2 b3 : Byte) : bytesValue [b0, b1, b2, b3] = wordOfBytes b0 b1 b2 b3 := by
  apply BitVec.eq_of_toNat_eq
  have h : (wordOfBytes b0 b1 b2 b3).toNat = 256 * (256 * (256 * b0.toNat + b1.toNat) + b2.toNat) + b3.toNat := by
    rw [wordOfBytes, toNat_append_byte, toNat_append_byte, toNat_append_byte]
  rw [h, bytesValue, BitVec.toNat_ofNat]
  have h0 := b0.isLt
  have h1 := b1.isLt
  have h2 := b2.isLt
  have h3 := b3.isLt
  simp only [List.foldl]
  omega

/-- Each byte adds eight bits to what a number may be. -/
theorem foldl_bytes_lt (bs : List Byte) (v : Nat) :
    bs.foldl (fun v b => 256 * v + b.toNat) v < 256 ^ bs.length * (v + 1) := by
  induction bs generalizing v with
  | nil => simp
  | cons b bs ih =>
    have hb := b.isLt
    calc (b :: bs).foldl (fun v b => 256 * v + b.toNat) v
        < 256 ^ bs.length * (256 * v + b.toNat + 1) := ih _
      _ ≤ 256 ^ bs.length * (256 * (v + 1)) := Nat.mul_le_mul_left _ (by omega)
      _ = 256 ^ (b :: bs).length * (v + 1) := by rw [List.length_cons, Nat.pow_succ, Nat.mul_assoc]

/-- The value of an access is one of its width. -/
theorem bytesValue_lt (bs : List Byte) : (bytesValue bs).toNat < 2 ^ (8 * bs.length) := by
  have h := foldl_bytes_lt bs 0
  rw [Nat.zero_add, Nat.mul_one, show 256 ^ bs.length = 2 ^ (8 * bs.length) from (Nat.pow_mul 2 8 _).symm] at h
  rw [bytesValue, BitVec.toNat_ofNat]
  exact Nat.lt_of_le_of_lt (Nat.mod_le ..) h

/-- The part of a register that a store of width `n` moves. -/
theorem storeValue_eq (n : AccessSize) (v : Word) : storeValue n v = BitVec.ofNat 32 (v.toNat % 2 ^ (8 * n.bytes)) := by
  apply BitVec.eq_of_toNat_eq
  have h := v.isLt
  cases n with
  | byte | half => simp [storeValue, deviceValue, AccessSize.bytes, BitVec.extractLsb'_toNat]
  | word =>
    simp only [storeValue, deviceValue, AccessSize.bytes, BitVec.toNat_ofNat]
    omega

/-- A value that a device gives is one of the access's width. -/
theorem deviceValue_lt (n : AccessSize) (v : Word) : (deviceValue n v).toNat < 2 ^ (8 * n.bytes) := by
  have hle : (storeValue n v).toNat ≤ v.toNat % 2 ^ (8 * n.bytes) := by
    rw [storeValue_eq, BitVec.toNat_ofNat]
    exact Nat.mod_le ..
  exact Nat.lt_of_le_of_lt hle (Nat.mod_lt _ (Nat.two_pow_pos _))

/-- The bytes that a store of width `n` moves are those of that part. -/
theorem bytesValue_storeBytes (n : AccessSize) (v : Word) : bytesValue (storeBytes n v) = storeValue n v := by
  cases n with
  | byte => exact bytesValue_byte _
  | half =>
    exact (bytesValue_half _ _).trans (congrArg (BitVec.setWidth 32) (extractLsb'_append_adjacent v 0 8 8))
  | word =>
    refine (bytesValue_word _ _ _ _).trans ?_
    simp only [wordOfBytes, byteOfWord]
    rw [extractLsb'_append_adjacent v 16 8 8, extractLsb'_append_adjacent v 8 16 8, extractLsb'_append_adjacent v 0 24 8]
    exact BitVec.extractLsb'_eq_self

/-- The bytes that a load of width `n` at `a` reads, each with its own choice. -/
def State.loadBytes (s : State) (n : AccessSize) (a : Word) : List Byte :=
  (List.range n.bytes).map fun k => s.loadByte (s.free + k) (a + BitVec.ofNat 32 k)

@[simp] theorem State.loadBytes_length (s : State) (n : AccessSize) (a : Word) : (s.loadBytes n a).length = n.bytes := by
  simp [State.loadBytes]

/-- A load from memory gives the value of the bytes that it reads. -/
theorem State.loadMemory_eq (s : State) (n : AccessSize) (a : Word) : s.loadMemory n a = bytesValue (s.loadBytes n a) := by
  cases n <;>
    simp [State.loadMemory, State.loadBytes, AccessSize.bytes, List.range_succ, bytesValue_byte, bytesValue_half, bytesValue_word]

/-- A line gives the value of its bytes. -/
theorem CacheLine.value_eq (l : CacheLine) (n : AccessSize) (a : Word) :
    l.value n a = bytesValue ((List.range n.bytes).map fun k => (l.byte (a + BitVec.ofNat 32 k)).getD 0#8) := by
  cases n <;>
    simp [CacheLine.value, AccessSize.bytes, List.range_succ, bytesValue_byte, bytesValue_half, bytesValue_word]

/-- The value of a line is one of the access's width. -/
theorem CacheLine.value_lt (l : CacheLine) (n : AccessSize) (a : Word) : (l.value n a).toNat < 2 ^ (8 * n.bytes) := by
  have h := bytesValue_lt ((List.range n.bytes).map fun k => (l.byte (a + BitVec.ofNat 32 k)).getD 0#8)
  rw [List.length_map, List.length_range] at h
  rwa [CacheLine.value_eq]

/-- A value that a load of a device takes is one of the access's width. -/
theorem State.deviceData_lt (s : State) (n : AccessSize) (a : Word) : (s.deviceData n a).toNat < 2 ^ (8 * n.bytes) := by
  obtain ⟨-, -, h⟩ | ⟨-, -, h⟩ := s.deviceRead_cases n a <;> rw [h]
  · exact CacheLine.value_lt ..
  · exact deviceValue_lt ..

/-! ### The outcomes of a load and of a store (44_data_transfer.md R294) -/

/-- A data access reaches a device exactly when no watchpoint matches, it is aligned and a device answers. -/
theorem State.dataAccess_eq_device {s : State} {k : AccessKind} {n : AccessSize} {a : Word} :
    s.dataAccess k n a = .device ↔ s.watchpointHit k a = false ∧ aligned n a = true ∧ respond s.cfg k n a = .device := by
  unfold State.dataAccess
  cases hw : s.watchpointHit k a <;> cases ha : aligned n a <;> cases hr : respond s.cfg k n a <;> simp

section Outcomes
variable {s : State} {n : AccessSize} {base : Reg} {imm : BitVec 16} {a : Word} (ha : s.reg base + imm.signExtend 32 = a)
include ha

/-- A load that memory answers. -/
theorem State.load_of_memory (ext : Word → Word) (r : Reg) (h : Reaches s .read n a) :
    s.load n ext r base imm = .next ((((s.loadDraw n a).cacheLoad n a).setReg r (ext (s.loadMemory n a))).advance) := by
  have heff : s.effAddr base imm = a := ha
  simp only [State.load, heff, State.dataAccess_eq_memory.mpr h]

/-- A load that a device answers. -/
theorem State.load_of_device (ext : Word → Word) (r : Reg) (h : s.dataAccess .read n a = .device) :
    s.load n ext r base imm = .next (((s.deviceRead n a).setReg r (ext (s.deviceData n a))).advance) := by
  have heff : s.effAddr base imm = a := ha
  simp only [State.load, heff, h]

/-- A store that memory answers. -/
theorem State.store_of_memory (data : Reg) (h : Reaches s .write n a) :
    s.store n base imm data = .next (s.storeMemory a (storeBytes n (s.reg data))).advance := by
  have heff : s.effAddr base imm = a := ha
  simp only [State.store, heff, State.dataAccess_eq_memory.mpr h]

/-- A store that a device answers. -/
theorem State.store_of_device (data : Reg) (h : s.dataAccess .write n a = .device) :
    s.store n base imm data = .next (s.deviceWrite n a (s.reg data)).advance := by
  have heff : s.effAddr base imm = a := ha
  simp only [State.store, heff, h]

/-- What a load that memory answers puts in its register. -/
theorem State.load_reads (ext : Word → Word) (r : Reg) (h : Reaches s .read n a) :
    ∃ u, s.load n ext r base imm = .next u ∧ u.reg r = ext (bytesValue (s.loadBytes n a)) :=
  ⟨_, State.load_of_memory ha ext r h, by rw [State.reg_advance, State.reg_setReg_self, State.loadMemory_eq]⟩

end Outcomes

/-! ### The forms of a load (44_data_transfer.md R286 to R290) -/

/-- The loads of width `n`, each with what it makes of the value `v`. -/
def loadForms (n : AccessSize) (rX rY : Reg) (imm : BitVec 16) (v : Word) : List (Instr × Word) :=
  match n with
  | .byte => [(.lb rX rY imm, sextByte v), (.lbu rX rY imm, v)]
  | .half => [(.lh rX rY imm, sextHalf v), (.lhu rX rY imm, v)]
  | .word => [(.lw rX rY imm, v)]

/-- Each of them is a load that extends the value in its way. -/
theorem exec_of_mem_loadForms {n : AccessSize} {rX rY : Reg} {imm : BitVec 16} {v r : Word} {i : Instr}
    (h : (i, r) ∈ loadForms n rX rY imm v) (s : State) : ∃ ext : Word → Word, exec i s = s.load n ext rX rY imm ∧ r = ext v := by
  cases n with
  | byte =>
    obtain h | h := List.mem_pair.mp h <;> cases h
    · exact ⟨sextByte, rfl, rfl⟩
    · exact ⟨id, rfl, rfl⟩
  | half =>
    obtain h | h := List.mem_pair.mp h <;> cases h
    · exact ⟨sextHalf, rfl, rfl⟩
    · exact ⟨id, rfl, rfl⟩
  | word =>
    cases List.mem_singleton.mp h
    exact ⟨id, rfl, rfl⟩

/-- The load that extends with zeros. -/
theorem exec_plainLoad (n : AccessSize) (rX rY : Reg) (imm : BitVec 16) (s : State) :
    exec (plainLoad n rX rY imm) s = s.load n id rX rY imm := by
  cases n <;> rfl

/-- The store of width `n`. -/
def storeForm (n : AccessSize) (base : Reg) (imm : BitVec 16) (data : Reg) : Instr :=
  match n with
  | .byte => .sb base imm data
  | .half => .sh base imm data
  | .word => .sw base imm data

/-- It is a store of that width. -/
theorem exec_storeForm (n : AccessSize) (base : Reg) (imm : BitVec 16) (data : Reg) (s : State) :
    exec (storeForm n base imm data) s = s.store n base imm data := by
  cases n <;> rfl

/-- Settles O22: the bytes that the load reads are each one of the candidates, and every form of the load extends their value. -/
theorem loadSeesCurrentOrEarlier : Obligations.LoadSeesCurrentOrEarlier := by
  intro s rX rY imm n a ha hreach
  refine ⟨s.loadBytes n a, bytesValue (s.loadBytes n a), s.loadBytes_length n a, rfl, fun k b hk => ?bytes, fun i r hi => ?load⟩
  case bytes =>
    obtain ⟨hlt, rfl⟩ := List.getElem?_eq_some_iff.mp hk
    simp only [State.loadBytes, List.getElem_map, List.getElem_range]
    exact s.loadByte_mem _ _
  case load =>
    obtain ⟨ext, hexec, rfl⟩ := exec_of_mem_loadForms hi s
    rw [hexec, ← State.loadMemory_eq]
    exact ⟨_, State.load_of_memory ha.symm ext rX hreach, s.cacheLoad_loadsAt n a rX _⟩

/-! ### Devices (20_memory.md R104 b, R119) -/

/-- After a load of a device at a data-cached address the line that gave the value is held. -/
theorem State.heldLine_deviceRead {s : State} {n : AccessSize} {a : Word} (hc : dataCached s.cfg a = true) :
    ∃ l, (s.deviceRead n a).heldLine a = some l ∧ s.deviceData n a = l.value n a := by
  obtain ⟨-, hread, hdata⟩ | ⟨hn, -⟩ := s.deviceRead_cases n a
  case inr => rw [hc] at hn; cases hn
  rw [hread, hdata]
  obtain ⟨hm, e⟩ | ⟨hm, e⟩ := s.cacheLoad_cases n a <;> rw [e]
  · have hnone : s.heldLine a = none := by simpa [hc] using (s.misses_iff a).mpr hm
    refine ⟨s.fillLine n a, ?_, by rw [hnone]; rfl⟩
    simp [State.heldLine, hc, lineOf, putLine, State.fillLine, State.newLine]
  · obtain ⟨l, hl⟩ := State.heldLine_of_not_misses hc hm
    exact ⟨l, hl, by rw [hl]; rfl⟩

/-- A load of a device at an address whose line is held takes the line's value, and does nothing else. -/
theorem State.deviceRead_of_heldLine {s : State} {n : AccessSize} {a : Word} {l : CacheLine} (hl : s.heldLine a = some l) :
    s.deviceRead n a = s ∧ s.deviceData n a = l.value n a := by
  obtain ⟨hc, -, -⟩ := State.heldLine_some hl
  simp [State.deviceRead, State.deviceData, State.cacheLoad, hc, hl]

/-- What a load of a device does, in the words of the rules. -/
theorem State.deviceRead_effect (s : State) (n : AccessSize) (a : Word) :
    (dataCached s.cfg a = false → (s.deviceRead n a).events = .deviceRead n a :: s.events ∧
      (s.deviceRead n a).dataLines = s.dataLines ∧ (s.deviceRead n a).dataWay = s.dataWay) ∧
    (dataCached s.cfg a = true → CachesLoad s (s.deviceRead n a) n a ∧
      ∃ l ∈ (s.deviceRead n a).dataLines, l.addr = lineAddress s.cfg.dcache a ∧ s.deviceData n a = l.value n a) := by
  refine ⟨fun hc => ?_, fun hc => ⟨?_, ?_⟩⟩
  · rw [State.deviceRead, hc]
    exact ⟨rfl, rfl, rfl⟩
  · rw [State.deviceRead, if_pos hc]
    exact s.cacheLoad_cachesLoad n a
  · obtain ⟨l, hl, hv⟩ := State.heldLine_deviceRead (n := n) hc
    obtain ⟨-, hmem, haddr⟩ := State.heldLine_some hl
    rw [State.deviceRead_cfg] at haddr
    exact ⟨l, hmem, haddr, hv⟩

/-- Settles O20: the load takes the line that is then held or a free value; a second load finds that line; the store sends its part
of the register. -/
theorem deviceAccess : Obligations.DeviceAccess := by
  intro s rX rY imm n a ha haligned
  refine ⟨fun hw hr => ?load, fun hw hr => ?store⟩
  case load =>
    have hdev : s.dataAccess .read n a = .device := State.dataAccess_eq_device.mpr ⟨hw, haligned, hr⟩
    obtain ⟨huncached, hcached⟩ := s.deviceRead_effect n a
    refine ⟨⟨s.deviceData n a, s.deviceRead n a, s.deviceData_lt n a, s.deviceRead_frame n a, huncached, hcached,
      fun i r hi => ?forms⟩, fun hc t rD rB imm' ht ha' => ?again⟩
    case forms =>
      obtain ⟨ext, hexec, rfl⟩ := exec_of_mem_loadForms hi s
      refine ⟨_, hexec.trans (State.load_of_device ha.symm ext rX hdev), by simp, fun q hq => by simp [hq], ?_⟩
      have hpc : (s.deviceRead n a).pc = s.pc := s.deviceRead_pc n a
      rw [← hpc]
      rfl
    case again =>
      rw [exec_plainLoad, State.load_of_device ha.symm id rX hdev] at ht
      obtain rfl := Host.Outcome.next.inj ht
      obtain ⟨l, hl, hv⟩ := State.heldLine_deviceRead (n := n) hc
      generalize hu : (((s.deviceRead n a).setReg rX (id (s.deviceData n a))).advance) = t at ha' ⊢
      have hheld : t.heldLine a = some l := by rw [← hu]; exact hl
      have hagain : t.dataAccess .read n a = .device := by
        rw [← hu, ← hdev, State.deviceRead_frame]
        rfl
      obtain ⟨hsame, hvalue⟩ := State.deviceRead_of_heldLine (n := n) hheld
      refine ⟨_, (exec_plainLoad ..).trans (State.load_of_device ha' id rD hagain), ?_, ?_⟩
      · rw [State.reg_advance, State.reg_setReg_self, hvalue, ← hu, State.reg_advance, State.reg_setReg_self, hv]
      · rw [hsame]
        rfl
  case store =>
    have hdev : s.dataAccess .write n a = .device := State.dataAccess_eq_device.mpr ⟨hw, haligned, hr⟩
    refine ⟨_, (exec_storeForm n rY imm rX s).trans (State.store_of_device ha.symm rX hdev), State.store_cachesStore rfl rfl, ?_⟩
    rw [← storeValue_eq]
    rfl

/-! ### A load after a store (20_memory.md R123, R132) -/

/-- A stored byte that the cache covers is written where the line has it. -/
theorem CacheLine.byte_write_stored {c : Cfg} {l : CacheLine} {a : Word} {bs : List Byte} {k : Nat} (hk : k < bs.length)
    (hlen : bs.length ≤ 2 ^ 32) (hc : dataCached c (a + BitVec.ofNat 32 k) = true)
    (ha : l.addr = lineAddress c.dcache (a + BitVec.ofNat 32 k)) :
    (l.write c a bs).byte (a + BitVec.ofNat 32 k) = (l.byte (a + BitVec.ofNat 32 k)).map fun _ => bs[k] := by
  cases hx : l.byte (a + BitVec.ofNat 32 k) with
  | some x => exact CacheLine.byte_write_self hk hlen hc ha hx
  | none =>
    have hout : l.bytes.length ≤ (a + BitVec.ofNat 32 k - l.addr).toNat := List.getElem?_eq_none_iff.mp hx
    rw [CacheLine.byte, CacheLine.write_addr, List.getElem?_eq_none (by rwa [CacheLine.write_length])]
    rfl

section AfterStore
variable {s t : State} {a : Word} {bs : List Byte} (hcfg : t.cfg = s.cfg)
  (hl : t.dataLines = s.dataLines.map (fun l => l.write s.cfg a bs))
include hcfg hl

/-- After a store the same line is held, written. -/
theorem State.heldLine_of_store (x : Word) : t.heldLine x = (s.heldLine x).map fun l => l.write s.cfg a bs := by
  unfold State.heldLine lineOf
  rw [hcfg, hl, List.find?_map]
  simp only [Function.comp_def, CacheLine.write_addr]
  split <;> rfl

/-- After a store the data port sees a stored byte, if it sees it where the line does not reach. -/
theorem State.portByte_of_store (hlen : bs.length ≤ 2 ^ 32) {k : Nat} (hk : k < bs.length)
    (hport : (∃ l, s.heldLine (a + BitVec.ofNat 32 k) = some l ∧ (l.byte (a + BitVec.ofNat 32 k)).isSome = true) ∨
      t.byteAt (a + BitVec.ofNat 32 k) = bs[k]) :
    t.portByte (a + BitVec.ofNat 32 k) = bs[k] := by
  rw [State.portByte, State.heldLine_of_store hcfg hl]
  cases hheld : s.heldLine (a + BitVec.ofNat 32 k) with
  | none =>
    obtain ⟨l, hl', -⟩ | hmem := hport
    · rw [hheld] at hl'; cases hl'
    · exact hmem
  | some l =>
    obtain ⟨hc, -, haddr⟩ := State.heldLine_some hheld
    rw [Option.map_some, Option.bind_some, CacheLine.byte_write_stored hk hlen hc haddr]
    cases hbyte : l.byte (a + BitVec.ofNat 32 k) with
    | some x => rfl
    | none =>
      obtain ⟨l', hl', hsome⟩ | hmem := hport
      · rw [hheld] at hl'
        cases hl'
        rw [hbyte] at hsome
        cases hsome
      · exact hmem

end AfterStore

/-- The stored bytes, masked for the core's own loads, are not among the earlier ones. -/
theorem State.staleBytes_storeMemory (s : State) {a : Word} {bs : List Byte} {k : Nat} (hk : k < bs.length) :
    (s.storeMemory a bs).staleBytes (a + BitVec.ofNat 32 k) = [] := by
  have hcovers : covers a bs.length (a + BitVec.ofNat 32 k) = true :=
    List.any_eq_true.mpr ⟨k, List.mem_range.mpr hk, beq_self_eq_true _⟩
  unfold State.staleBytes
  split
  · rw [List.map_eq_nil_iff, List.filter_eq_nil_iff]
    intro e he
    rw [State.storeMemory_staleData] at he
    obtain ⟨e', -, rfl⟩ := List.mem_map.mp he
    split
    · simp
    · next hn =>
      simp only [Bool.and_eq_true, beq_iff_eq, not_and]
      rintro haddr
      rw [haddr, hcovers] at hn
      exact absurd rfl hn
  · rfl

/-- Right after a store to memory nothing but the stored bytes may be returned. -/
theorem State.oldBytes_storeMemory {s : State} (hwf : s.mem.wf = true) {a : Word} {bs : List Byte} (hlen : bs.length ≤ 2 ^ 32)
    {k : Nat} (hk : k < bs.length) : (s.storeMemory a bs).oldBytes (a + BitVec.ofNat 32 k) = [] := by
  have hmem := State.byteAt_storeMemory_self a bs hwf hlen k hk
  exact State.oldBytes_eq_nil.mpr ⟨s.staleBytes_storeMemory hk,
    (State.portByte_of_store (s := s) (t := s.storeMemory a bs) rfl (s.storeMemory_dataLines a bs) hlen hk (.inr hmem)).trans hmem.symm⟩

/-- Each byte that a load reads right after a store to memory is the stored one. -/
theorem State.loadByte_storeMemory {s : State} (hwf : s.mem.wf = true) {a : Word} {bs : List Byte} (hlen : bs.length ≤ 2 ^ 32)
    {k : Nat} (hk : k < bs.length) (j : Nat) : (s.storeMemory a bs).advance.loadByte j (a + BitVec.ofNat 32 k) = bs[k] :=
  (State.loadByte_of_fresh j (State.oldBytes_storeMemory hwf hlen hk)).trans (State.byteAt_storeMemory_self a bs hwf hlen k hk)

/-- The bytes that a load reads are `bs`, when each is the one of `bs` at its place. -/
theorem State.loadBytes_eq {s : State} {n : AccessSize} {a : Word} {bs : List Byte} (hlen : bs.length = n.bytes)
    (h : ∀ j k (hk : k < bs.length), s.loadByte j (a + BitVec.ofNat 32 k) = bs[k]) : s.loadBytes n a = bs := by
  refine List.ext_getElem (by rw [State.loadBytes_length, hlen]) fun k _ hk => ?_
  simp only [State.loadBytes, List.getElem_map, List.getElem_range]
  exact h _ k hk

/-- A store moves few bytes. -/
theorem storeBytes_length_le (n : AccessSize) (v : Word) : (storeBytes n v).length ≤ 2 ^ 32 := by
  rw [storeBytes_length]
  cases n <;> decide

/-- A load at the address of a store to memory, of the same width, reads the stored bytes. -/
theorem State.loadBytes_storeMemory {s : State} (hwf : s.mem.wf = true) (n : AccessSize) (a v : Word) :
    (s.storeMemory a (storeBytes n v)).advance.loadBytes n a = storeBytes n v :=
  State.loadBytes_eq (storeBytes_length n v) fun j _ hk =>
    State.loadByte_storeMemory hwf (storeBytes_length_le n v) hk j

/-- A byte load inside a stored word reads the stored byte. -/
theorem State.loadBytes_byte_storeMemory {s : State} (hwf : s.mem.wf = true) (a v : Word) {k : Nat} (hk : k < 4) :
    (s.storeMemory a (storeBytes .word v)).advance.loadBytes .byte (a + BitVec.ofNat 32 k) = [v.extractLsb' (24 - 8 * k) 8] := by
  have hlen : k < (storeBytes .word v).length := hk
  have hstored : (storeBytes .word v)[k] = v.extractLsb' (24 - 8 * k) 8 := by
    interval_cases k <;> rfl
  refine State.loadBytes_eq rfl fun j m hm => ?_
  obtain rfl : m = 0 := by simpa using hm
  rw [BitVec.add_zero, State.loadByte_storeMemory hwf (storeBytes_length_le ..) hlen, hstored]
  rfl

/-! ### A word whose line is held -/

/-- Two addresses of one line, both cached, are held alike. -/
theorem State.heldLine_congr {s : State} {a b : Word} (ha : dataCached s.cfg a = true) (hb : dataCached s.cfg b = true)
    (h : lineAddress s.cfg.dcache b = lineAddress s.cfg.dcache a) : s.heldLine b = s.heldLine a := by
  simp only [State.heldLine, lineOf, ha, hb, h]

/-- A whole line has every byte whose line it is. -/
theorem CacheLine.byte_isSome {c : CacheCfg} (hb : 0 < c.bytesPerLine) {l : CacheLine} (hlen : l.bytes.length = c.bytesPerLine)
    {x : Word} (h : l.addr = lineAddress c x) : (l.byte x).isSome = true := by
  rw [CacheLine.byte, h, toNat_sub_lineAddress]
  exact Option.isSome_iff_exists.mpr ⟨_, List.getElem?_eq_getElem (Nat.lt_of_lt_of_eq (Nat.mod_lt _ hb) hlen.symm)⟩

/-- What a store of a word and the load of it have to do with each other when its line is held: `t` is the state that the store at
`a` of the bytes `bs` leaves, whoever answers it, and no earlier byte is recorded. -/
structure StoredHeld (s t : State) (a : Word) (bs : List Byte) : Prop where
  cfg : t.cfg = s.cfg
  lines : t.dataLines = s.dataLines.map (fun l => l.write s.cfg a bs)
  noEarlier : t.staleData = []
  held : ∀ k, k < bs.length → ∃ l, s.heldLine a = some l ∧ s.heldLine (a + BitVec.ofNat 32 k) = some l ∧
    (l.byte (a + BitVec.ofNat 32 k)).isSome = true

/-- In a state that meets the invariant each byte of an aligned word whose line is held is in that line. -/
theorem heldLine_of_held {s : State} (h : Inv s) {a : Word} (hheld : Held s a) (ha : wordAligned a = true)
    (hc : ∀ k, k < 4 → dataCached s.cfg (a + BitVec.ofNat 32 k) = true) {k : Nat} (hk : k < 4) :
    ∃ l, s.heldLine a = some l ∧ s.heldLine (a + BitVec.ofNat 32 k) = some l ∧ (l.byte (a + BitVec.ofNat 32 k)).isSome = true := by
  obtain ⟨hca, l₀, hl₀, haddr₀⟩ := hheld
  obtain ⟨l, hl⟩ := State.heldLine_of_not_misses hca fun hm => hm.2 l₀ hl₀ haddr₀
  obtain ⟨-, hmem, haddr⟩ := State.heldLine_some hl
  obtain ⟨hgeo, -, -⟩ := geometry_of_dataCached h.legal hca
  obtain ⟨hline, -⟩ := lineAddress_offset hgeo ha hk
  exact ⟨l, hl, (State.heldLine_congr hca (hc k hk) hline).trans hl,
    CacheLine.byte_isSome (by omega) (h.lines.whole l hmem).2 (haddr.trans hline.symm)⟩

section HeldWord
variable {s t : State} {a v : Word} (h : StoredHeld s t a (storeBytes .word v))
include h

/-- A load of the word from memory gives what was stored. -/
theorem StoredHeld.loadBytes : t.loadBytes .word a = storeBytes .word v := by
  refine State.loadBytes_eq rfl fun j k hk => ?_
  obtain ⟨l, -, hl, hsome⟩ := h.held k hk
  have hstale : t.staleBytes (a + BitVec.ofNat 32 k) = [] := by simp [State.staleBytes, h.noEarlier]
  rw [State.loadByte, hstale]
  exact State.portByte_of_store h.cfg h.lines (storeBytes_length_le ..) hk (.inl ⟨l, hl, hsome⟩)

/-- A load of the word from a device gives what was stored. -/
theorem StoredHeld.deviceData : t.deviceData .word a = v := by
  obtain ⟨l, hla, -⟩ := h.held 0 (Nat.zero_lt_succ _)
  have ht : t.heldLine a = some (l.write s.cfg a (storeBytes .word v)) := by
    rw [State.heldLine_of_store h.cfg h.lines, hla]
    rfl
  have hbyte : ∀ k (hk : k < (storeBytes .word v).length), (l.write s.cfg a (storeBytes .word v)).byte (a + BitVec.ofNat 32 k) = some (storeBytes .word v)[k] := by
    intro k hk
    obtain ⟨l', hla', hl, hsome⟩ := h.held k hk
    obtain rfl : l = l' := Option.some.inj (hla.symm.trans hla')
    obtain ⟨hc, -, haddr⟩ := State.heldLine_some hl
    obtain ⟨x, hx⟩ := Option.isSome_iff_exists.mp hsome
    exact CacheLine.byte_write_self hk (storeBytes_length_le ..) hc haddr hx
  rw [(State.deviceRead_of_heldLine ht).2, CacheLine.value_eq]
  refine Eq.trans (congrArg bytesValue ?_) (bytesValue_storeBytes .word v)
  refine List.ext_getElem rfl fun k hk _ => ?_
  simp only [List.getElem_map, List.getElem_range]
  rw [hbyte k (by simpa using hk)]
  rfl

end HeldWord

/-- Settles O18: memory holds the stored bytes and no earlier one may be returned; a line that is held is written, so that the port
sees them whoever answers. -/
theorem storeThenLoad : Obligations.StoreThenLoad := by
  intro s t rX rY rD rB imm imm' a hwf ha
  refine ⟨fun hw hx => ?word, fun hw hx ha' hr => ?half, fun hinv hstale hheld hc halign hwatch hresp hx ha' hwatch' hresp' => ?held⟩
  case word =>
    obtain rfl := Host.Outcome.next.inj ((State.store_of_memory ha.symm rY hw).symm.trans hx)
    refine ⟨fun ha' hr => ?_, fun k hk ha' hr => ?_⟩
    · obtain ⟨u, hu, hreg⟩ := State.load_reads ha' id rD hr
      rw [State.loadBytes_storeMemory hwf, bytesValue_storeBytes] at hreg
      exact ⟨u, hu, hreg⟩
    · obtain ⟨u, hu, hreg⟩ := State.load_reads ha' id rD hr
      rw [State.loadBytes_byte_storeMemory hwf a _ hk, bytesValue_byte] at hreg
      exact ⟨u, hu, hreg⟩
  case half =>
    obtain rfl := Host.Outcome.next.inj ((State.store_of_memory ha.symm rY hw).symm.trans hx)
    obtain ⟨u, hu, hreg⟩ := State.load_reads ha' id rD hr
    rw [State.loadBytes_storeMemory hwf, bytesValue_storeBytes] at hreg
    exact ⟨u, hu, hreg⟩
  case held =>
    have haligned : aligned .word a = true := halign
    have hstored : StoredHeld s t a (storeBytes .word (s.reg rY)) := by
      have hin := fun k (hk : k < (storeBytes .word (s.reg rY)).length) => heldLine_of_held hinv hheld halign hc hk
      obtain hm | hd := List.mem_pair.mp hresp
      · obtain rfl := Host.Outcome.next.inj ((State.store_of_memory ha.symm rY ⟨hwatch, haligned, hm⟩).symm.trans hx)
        exact ⟨rfl, rfl, by simp [hstale], hin⟩
      · obtain rfl := Host.Outcome.next.inj ((State.store_of_device ha.symm rY
          (State.dataAccess_eq_device.mpr ⟨hwatch, haligned, hd⟩)).symm.trans hx)
        exact ⟨rfl, rfl, hstale, hin⟩
    rw [← hstored.cfg] at hresp'
    obtain hm | hd := List.mem_pair.mp hresp'
    · obtain ⟨u, hu, hreg⟩ := State.load_reads ha' id rD ⟨hwatch', haligned, hm⟩
      rw [hstored.loadBytes, bytesValue_storeBytes] at hreg
      exact ⟨u, hu, hreg⟩
    · refine ⟨_, State.load_of_device ha' id rD (State.dataAccess_eq_device.mpr ⟨hwatch', haligned, hd⟩), ?_⟩
      rw [State.reg_advance, State.reg_setReg_self, hstored.deviceData]
      rfl

end Sys2Proof.Machine
end

section
/-! Why the data cache holds nothing but what memory holds while no other master writes (NoOtherMasterNoStaleData, O23), and what a
fetch sees and does (FetchSeesCurrentOrEarlier, O24). -/

namespace Sys2Proof.Machine

open Sys2Proof.Safety

/-! ### A property of every step -/

/-- What sampling, reset, entries, waiting, fetches and executions keep, every step that gives a next state keeps. -/
theorem step_keeps {P : State → Prop} (hreset : ∀ {u}, P u → P u.takeReset) (henter : ∀ {u} e, P u → P (u.enter e))
    (hstall : ∀ {u}, P u → P u.stall) (hfetch : ∀ {u v w}, P u → u.fetch = .word w v → P v)
    (hexec : ∀ {i u v}, P u → exec i (u.prepare (isDataAccess i)) = .next v → P (v.executed i))
    {s t : State} (hsample : P s.sample) (h : step s = .next t) : P t := by
  obtain ⟨-, rfl⟩ | ⟨-, rfl⟩ | ⟨-, rfl⟩ | ⟨-, rfl⟩ | ⟨-, rfl⟩ | ⟨w, u, hf, hw⟩ := stepSampled_next (step_next h).2
  case inl => exact hreset hsample
  case inr.inl => exact hsample
  case inr.inr.inl => exact henter _ hsample
  case inr.inr.inr.inl => exact henter _ hsample
  case inr.inr.inr.inr.inl => exact hstall hsample
  case inr.inr.inr.inr.inr =>
    obtain ⟨-, rfl⟩ | ⟨i, -, -, v, hv, rfl⟩ := runWord_next hw
    · exact henter _ (hfetch hsample hf)
    · exact hexec (hfetch hsample hf) hv

/-! ### No earlier bytes (20_memory.md R124) -/

/-- No earlier byte is recorded, and no other master is to write one. -/
def NoMasterWrites (s : State) : Prop := s.staleData = [] ∧ ∀ i ∈ s.inputs, i.writes = []

/-- It depends on the earlier bytes and on the inputs that are left. -/
theorem NoMasterWrites.congr {s t : State} (h : NoMasterWrites s) (hd : t.staleData = s.staleData) (hi : t.inputs = s.inputs) :
    NoMasterWrites t := by
  unfold NoMasterWrites
  rwa [hd, hi]

/-- Without writes in it, taking an input changes the levels and no other state. -/
theorem State.takeInput_of_noMasterWrites {s : State} (h : NoMasterWrites s) :
    s.takeInput.mem = s.mem ∧ NoMasterWrites s.takeInput := by
  unfold State.takeInput
  cases hin : s.inputs with
  | nil => exact ⟨rfl, h⟩
  | cons i rest =>
    obtain ⟨hstale, hwrites⟩ := h
    rw [hin] at hwrites
    obtain ⟨hi, hrest⟩ := List.forall_mem_cons.mp hwrites
    simp only [hi, List.foldl_nil]
    exact ⟨trivial, hstale, hrest⟩

/-- So does the start of a step. -/
theorem State.sample_of_noMasterWrites {s : State} (h : NoMasterWrites s) : s.sample.mem = s.mem ∧ NoMasterWrites s.sample :=
  have ht := State.takeInput_of_noMasterWrites h
  ⟨ht.1, ht.2.congr rfl rfl⟩

/-- What passes before an instruction records no byte. -/
theorem noMasterWrites_prepare {s : State} (h : NoMasterWrites s) (m : Bool) : NoMasterWrites (s.prepare m) := by
  refine ⟨?_, h.2⟩
  rw [State.prepare_staleData, h.1]
  exact ite_self _

/-- No instruction records an earlier byte. -/
theorem Effect.noMasterWrites {i : Instr} {s t : State} (he : Effect i s t) (h : NoMasterWrites s) : NoMasterWrites t := by
  obtain ⟨-, -, -, -, -, -, -, hinputs⟩ := he.fixed
  refine ⟨?_, hinputs ▸ h.2⟩
  cases he with
  | result | freeResult | deviceStored | stalled | fallThrough | jumped | called | returned => exact h.1
  | loaded | deviceLoaded | entered => simpa using h.1
  | stored => rw [State.advance_staleData, State.storeMemory_staleData, h.1, List.map_nil]
  | csr k rX u _ hw =>
    rw [State.advance_staleData]
    obtain e | e := State.csrWrite_staleData hw <;> rw [e]
    · exact h.1
    · rw [State.invalidateData_staleData, h.1, List.map_nil, ite_self]

/-- A fetch changes none of what the data port sees. -/
theorem State.fetch_data {s t : State} {w : Word} (h : s.fetch = .word w t) :
    t.mem = s.mem ∧ t.staleData = s.staleData ∧ t.dataLines = s.dataLines ∧ t.inputs = s.inputs := by
  have hf := (State.fetch_afterFetch h).frame
  exact ⟨(congrArg State.mem hf).trans rfl, (congrArg State.staleData hf).trans rfl, (congrArg State.dataLines hf).trans rfl,
    (congrArg State.inputs hf).trans rfl⟩

/-- While no other master writes, no step records an earlier byte. -/
theorem noMasterWrites_step {s t : State} (h : NoMasterWrites s) (hs : step s = .next t) : NoMasterWrites t :=
  step_keeps (P := NoMasterWrites) (fun hu => ⟨State.takeReset_staleData _, by rw [State.takeReset_inputs]; exact hu.2⟩)
    (fun e hu => hu.congr (State.enter_staleData _ e) (State.enter_inputs _ e)) (fun hu => hu.congr rfl rfl)
    (fun hu hf => by
      obtain ⟨-, hd, -, hi⟩ := State.fetch_data hf
      exact hu.congr hd hi)
    (fun hu hv => ((exec_effect hv).noMasterWrites (noMasterWrites_prepare hu _)).congr rfl rfl)
    (State.sample_of_noMasterWrites h).2 hs

/-! ### Coherence (20_memory.md R124) -/

/-- Coherence depends on memory and on the bytes of the lines. -/
theorem coherent_congr {s t : State} (h : Coherent s) (hcfg : t.cfg = s.cfg) (hmem : t.mem = s.mem)
    (hl : ∀ l ∈ t.dataLines, ∃ l' ∈ s.dataLines, l = { l' with dropping := l.dropping }) : Coherent t := by
  intro l hlt b x hx hc hr
  obtain ⟨l', hl', e⟩ := hl l hlt
  rw [e] at hx
  rw [hcfg] at hc hr
  rw [State.byteAt_congr hmem]
  exact h l' hl' b x hx hc hr

/-- A byte of a whole line is one of the addresses whose line it is. -/
theorem lineAddress_of_byte {c : CacheCfg} (hb : c.bytesPerLine = 4 ∨ c.bytesPerLine = 8 ∨ c.bytesPerLine = 16) {l : CacheLine}
    (hwhole : l.addr = lineAddress c l.addr ∧ l.bytes.length = c.bytesPerLine) {b : Word} {x : Byte} (h : l.byte b = some x) :
    lineAddress c b = l.addr := by
  obtain ⟨haddr, hlen⟩ := hwhole
  have hlt : (b - l.addr).toNat < c.bytesPerLine := hlen ▸ (List.getElem?_eq_some_iff.mp h).1
  have hline := congrArg BitVec.toNat haddr
  have hbl := b.isLt
  have hll := l.addr.isLt
  rw [toNat_lineAddress] at hline
  rw [BitVec.toNat_sub] at hlt
  apply BitVec.eq_of_toNat_eq
  rw [toNat_lineAddress]
  obtain h | h | h := hb <;> rw [h] at hlt hline ⊢ <;> omega

section Coherence
variable {s : State} (hi : Inv s) (hp : PlainMap s.cfg) (h : Coherent s) {n : AccessSize} {a : Word} (ha : aligned n a = true)

include hi hp ha in
/-- A line that a load fills holds memory's bytes of every word that is memory. -/
theorem byte_of_fillLine (hc : dataCached s.cfg a = true) {b : Word} {x : Byte} (hx : (s.fillLine n a).byte b = some x)
    (hr : respond s.cfg .read .word (wordAddress b) = .memory) : x = s.byteAt b := by
  obtain ⟨hgeo, -, -⟩ := geometry_of_dataCached hi.legal hc
  have hf := s.newLine_filled hgeo (fillAnswer s.cfg n a) s.dataWay a
  have hline : lineAddress s.cfg.dcache b = lineAddress s.cfg.dcache a :=
    lineAddress_of_byte hgeo ⟨(lineAddress_lineAddress ..).symm, hf.length⟩ hx
  have hanswer : fillAnswer s.cfg n a (wordAddress b) = .memory := by
    unfold fillAnswer
    split
    · next e => exact (hp n a ha (e ▸ hr)).1
    · exact hr
  exact Option.some.inj (hx.symm.trans (hf.bytes b hline hanswer))

include hi hp h ha in
/-- A load keeps the data cache coherent. -/
theorem coherent_cacheLoad : Coherent (s.cacheLoad n a) := by
  obtain ⟨hm, e⟩ | ⟨-, e⟩ := s.cacheLoad_cases n a <;> rw [e]
  case inr => exact h
  intro l hl b x hx hc hr
  obtain rfl | hl := List.mem_cons.mp hl
  · exact byte_of_fillLine hi hp ha hm.1 hx hr
  · exact h l (List.mem_filter.mp hl).1 b x hx hc hr

include hi h in
/-- A store keeps the data cache coherent, if memory changes at no byte that is not stored and holds the stored bytes of every word
that is memory. -/
theorem coherent_of_store {t : State} {bs : List Byte} (hlen : bs.length ≤ 2 ^ 32) (hcfg : t.cfg = s.cfg)
    (hl : t.dataLines = s.dataLines.map (fun l => l.write s.cfg a bs))
    (hout : ∀ b, (∀ k, k < bs.length → b ≠ a + BitVec.ofNat 32 k) → t.byteAt b = s.byteAt b)
    (hin : ∀ k (hk : k < bs.length), respond s.cfg .read .word (wordAddress (a + BitVec.ofNat 32 k)) = .memory →
      t.byteAt (a + BitVec.ofNat 32 k) = bs[k]) : Coherent t := by
  intro l' hl' b x hx hc hr
  rw [hl] at hl'
  rw [hcfg] at hc hr
  obtain ⟨l, hmem, rfl⟩ := List.mem_map.mp hl'
  obtain ⟨hgeo, -, -⟩ := geometry_of_dataCached hi.legal hc
  have hwhole := hi.lines.whole l hmem
  have haddr : l.addr = lineAddress s.cfg.dcache b := by
    refine ((lineAddress_of_byte hgeo ?_ hx).trans (l.write_addr ..)).symm
    rwa [CacheLine.write_addr, CacheLine.write_length]
  by_cases hb : ∃ k, k < bs.length ∧ b = a + BitVec.ofNat 32 k
  · obtain ⟨k, hk, rfl⟩ := hb
    rw [CacheLine.byte_write_stored hk hlen hc haddr] at hx
    obtain ⟨-, -, rfl⟩ := Option.map_eq_some_iff.mp hx
    exact (hin k hk hr).symm
  · rw [CacheLine.byte_write_ne fun hn => hb hn.1] at hx
    rw [hout b fun k hk e => hb ⟨k, hk, e⟩]
    exact h l hmem b x hx hc hr

include hi h in
/-- A store to memory keeps the data cache coherent. -/
theorem coherent_storeMemory (v : Word) : Coherent (s.storeMemory a (storeBytes n v)) :=
  coherent_of_store hi h (storeBytes_length_le n v) rfl rfl (fun b hb => s.byteAt_storeMemory_ne a b _ hb)
    fun k hk _ => State.byteAt_storeMemory_self a _ hi.memWf (storeBytes_length_le n v) k hk

include hi hp h ha in
/-- A store to a device keeps the data cache coherent: no byte of it is in a word that is memory. -/
theorem coherent_deviceWrite (hr : respond s.cfg .write n a = .device) (v : Word) : Coherent (s.deviceWrite n a v) :=
  coherent_of_store hi h (storeBytes_length_le n v) rfl rfl (fun _ _ => rfl) fun k hk hm => by
    rw [wordAddress_stored ha (by rwa [storeBytes_length] at hk)] at hm
    exact absurd hr (hp n a ha hm).2

include hi hp h ha in
/-- A load of a device keeps the data cache coherent. -/
theorem coherent_deviceRead : Coherent (s.deviceRead n a) := by
  obtain ⟨-, e, -⟩ | ⟨-, e, -⟩ := s.deviceRead_cases n a <;> rw [e]
  · exact coherent_cacheLoad hi hp h ha
  · exact h

end Coherence

/-- Every instruction keeps the data cache coherent. -/
theorem Effect.coherent {i : Instr} {s t : State} (he : Effect i s t) (hi : Inv s) (hp : PlainMap s.cfg) (h : Coherent s) :
    Coherent t := by
  cases he with
  | result | freeResult | stalled | fallThrough | jumped | called | returned => exact h
  | loaded r v n a _ _ _ ha =>
    exact coherent_cacheLoad (s := s.loadDraw n a) { hi with } hp h (State.dataAccess_eq_memory.mp ha).2.1
  | deviceLoaded r v n a _ _ _ ha => exact coherent_deviceRead hi hp h (State.dataAccess_eq_device.mp ha).2.1
  | stored n base data imm => exact coherent_storeMemory hi h _
  | deviceStored n a v _ _ ha =>
    obtain ⟨-, haligned, hr⟩ := State.dataAccess_eq_device.mp ha
    exact coherent_deviceWrite hi hp h haligned hr v
  | entered e =>
    exact coherent_congr h (s.enter_cfg e) (s.enter_mem e) fun l hl => ⟨l, by rwa [State.enter_dataLines] at hl, rfl⟩
  | csr k rX u _ hw =>
    obtain ⟨hcfg, -, -, -, -, -, hmem, -⟩ := State.csrWrite_frame hw
    refine coherent_congr h hcfg hmem fun l hl => ?_
    rw [State.advance_dataLines] at hl
    obtain e | e := State.csrWrite_dataLines hw <;> rw [e] at hl
    · exact ⟨l, hl, rfl⟩
    · exact mem_invalidateData hl

/-- What passes before an instruction takes lines away. -/
theorem coherent_prepare {s : State} (h : Coherent s) (m : Bool) : Coherent (s.prepare m) := by
  refine coherent_congr h rfl rfl fun l hl => ?_
  rw [State.prepare_dataLines] at hl
  split at hl
  · obtain ⟨l', hl', rfl⟩ := mem_settleLines hl
    exact ⟨l', hl', rfl⟩
  · exact ⟨l, (List.mem_filter.mp hl).1, rfl⟩

/-- A state with the configuration `c` that meets the invariant and whose data cache is coherent. -/
structure CoherentOf (c : Cfg) (s : State) : Prop where
  cfg : s.cfg = c
  inv : Inv s
  coherent : Coherent s

/-- While no other master writes, every step keeps the data cache coherent. -/
theorem coherent_step {s t : State} (hn : NoMasterWrites s) (hi : Inv s) (hp : PlainMap s.cfg) (h : Coherent s)
    (hs : step s = .next t) : CoherentOf s.cfg t := by
  have hsample : CoherentOf s.cfg s.sample := by
    obtain ⟨-, -, -, -, -, -, -, -, -, -, -, -, -, -, -, hlines, -⟩ := s.sample_frame
    exact ⟨s.sample_cfg, inv_sample hi, coherent_congr h s.sample_cfg (State.sample_of_noMasterWrites hn).1
      fun l hl => ⟨l, hlines ▸ hl, rfl⟩⟩
  refine step_keeps (P := CoherentOf s.cfg) (fun {u} hu => ?reset) (fun {u} e hu => ?enter) (fun hu => ?stall)
    (fun hu hf => ?fetch) (fun {i u v} hu hv => ?exec) hsample hs
  case reset =>
    exact ⟨(u.takeReset_cfg).trans hu.cfg, inv_takeReset hu.inv, fun l hl => by rw [State.takeReset_dataLines] at hl; cases hl⟩
  case enter =>
    exact ⟨(u.enter_cfg e).trans hu.cfg, inv_enter hu.inv e, coherent_congr hu.coherent (u.enter_cfg e) (u.enter_mem e)
      fun l hl => ⟨l, by rwa [State.enter_dataLines] at hl, rfl⟩⟩
  case stall => exact ⟨hu.cfg, inv_stall hu.inv, hu.coherent⟩
  case fetch =>
    obtain ⟨hmem, -, hlines, -⟩ := State.fetch_data hf
    have hcfg := cfg_of_afterFetch (State.fetch_afterFetch hf)
    exact ⟨hcfg.trans hu.cfg, inv_fetch hu.inv hf, coherent_congr hu.coherent hcfg hmem fun l hl => ⟨l, hlines ▸ hl, rfl⟩⟩
  case exec =>
    have he := exec_effect hv
    have hplain : PlainMap (u.prepare (isDataAccess i)).cfg := by
      rw [State.prepare_cfg, hu.cfg]
      exact hp
    exact ⟨he.fixed.1.trans hu.cfg, inv_execute hu.inv ⟨v, hv, rfl⟩,
      he.coherent (inv_prepare hu.inv _) hplain (coherent_prepare hu.coherent _)⟩

/-- In a coherent data cache, without an earlier byte, a load from memory can return nothing but memory's byte. -/
theorem oldBytes_of_coherent {s : State} (h : Coherent s) (hs : s.staleData = []) {b : Word}
    (hr : respond s.cfg .read .word (wordAddress b) = .memory) : s.oldBytes b = [] := by
  refine State.oldBytes_eq_nil.mpr ⟨by simp [State.staleBytes, hs], ?_⟩
  unfold State.portByte
  cases hl : s.heldLine b with
  | none => rfl
  | some l =>
    obtain ⟨hc, hmem, -⟩ := State.heldLine_some hl
    rw [Option.bind_some]
    cases hx : l.byte b with
    | none => rfl
    | some x => exact h l hmem b x hx hc hr

/-- Settles O23: no step records an earlier byte, and every operation of a step keeps the data cache coherent. -/
theorem noOtherMasterNoStaleData : Obligations.NoOtherMasterNoStaleData := by
  intro s t hstale hinputs hs
  have hn : NoMasterWrites s := ⟨hstale, hinputs⟩
  obtain ⟨hstale', hinputs'⟩ := noMasterWrites_step hn hs
  refine ⟨hstale', hinputs', fun hi hp h => ?_⟩
  have ht := coherent_step hn hi hp h hs
  exact ⟨ht.coherent, fun b hr => oldBytes_of_coherent ht.coherent hstale' (by rwa [ht.cfg])⟩

/-! ### What a fetch sees (20_memory.md R114, R125) -/

/-- An earlier word is one that is recorded for the address, where the address is cached or there is no instruction cache. -/
theorem State.mem_staleWords {s : State} {a w : Word} (h : w ∈ s.staleWords a) :
    ∃ e ∈ s.staleCode, e.addr = a ∧ w = e.word ∧ (s.cfg.hasICache = true → codeCached s.cfg a = true) := by
  unfold State.staleWords at h
  split at h
  · next hc =>
    obtain ⟨e, he, rfl⟩ := List.mem_map.mp h
    obtain ⟨hmem, haddr⟩ := List.mem_filter.mp he
    exact ⟨e, hmem, by simpa using haddr, rfl, fun hi => by simpa [hi] using hc⟩
  · cases h

/-- Everything that a fetch from memory can return: memory's word, an earlier one, or that of the line which is held. -/
theorem State.fetchMemory_cases (s : State) (a : Word) :
    s.fetchMemory a = heldWord s a ∨ s.fetchMemory a ∈ s.staleWords a ∨
      ∃ l, s.heldCode a = some l ∧ s.fetchMemory a = l.value .word a := by
  obtain h | h := s.fetchMemory_mem a
  · exact .inl h
  obtain h | h := List.mem_append.mp h
  · exact .inr (.inl h)
  split at h
  · cases h
  · next hne =>
    have hport := List.mem_singleton.mp h
    cases hl : s.heldCode a with
    | none => exact absurd (by rw [State.portWord, hl]) hne
    | some l => exact .inr (.inr ⟨l, rfl, by rw [hport, State.portWord, hl]⟩)

/-- A fetch from memory, in the words of the rules. -/
theorem State.fetchMemory_sees (s : State) (a : Word) :
    s.fetchMemory a = heldWord s a ∨
      (∃ e ∈ s.staleCode, e.addr = a ∧ s.fetchMemory a = e.word ∧ (s.cfg.hasICache = true → codeCached s.cfg a = true)) ∨
      ∃ l ∈ s.codeLines, CodeHeld s a ∧ l.addr = lineAddress s.cfg.icache a ∧ s.fetchMemory a = l.value .word a := by
  refine (s.fetchMemory_cases a).imp_right (Or.imp State.mem_staleWords ?_)
  rintro ⟨l, hl, hw⟩
  obtain ⟨hc, hmem, haddr⟩ := State.heldCode_some hl
  exact ⟨l, hmem, ⟨hc, l, hmem, haddr⟩, haddr, hw⟩

/-- In a state that meets the invariant the line's word is memory's or an earlier one. -/
theorem State.fetchMemory_of_inv {s : State} (h : Inv s) {a : Word} (ha : wordAligned a = true)
    (hr : respond s.cfg .fetch .word a = .memory) :
    s.fetchMemory a = heldWord s a ∨ ∃ e ∈ s.staleCode, e.addr = a ∧ s.fetchMemory a = e.word := by
  obtain hw | ⟨e, he, haddr, hw, -⟩ | ⟨l, hmem, ⟨hc, -⟩, hl, hw⟩ := s.fetchMemory_sees a
  · exact .inl hw
  · exact .inr ⟨e, he, haddr, hw⟩
  · rw [hw]
    exact (h.codeWords l hmem a ha hc hl hr).imp_right fun ⟨e, he, haddr, hword, _⟩ => ⟨e, he, haddr, hword.symm⟩

/-- A fetch from a device whose line is held gives the line's word and does nothing else. -/
theorem State.deviceFetch_of_heldCode {s : State} {a : Word} {l : CacheLine} (hl : s.heldCode a = some l) :
    s.deviceFetch a = s ∧ s.deviceWord a = l.value .word a := by
  obtain ⟨hc, -, -⟩ := State.heldCode_some hl
  simp [State.deviceFetch, State.deviceWord, State.cacheFetch, hc, hl]

/-- After a fetch from a device at a cached address the line that gave the word is held. -/
theorem State.heldCode_deviceFetch {s : State} {a : Word} (hc : codeCached s.cfg a = true) :
    ∃ l, (s.deviceFetch a).heldCode a = some l ∧ s.deviceWord a = l.value .word a := by
  obtain ⟨-, hfetch, hword⟩ | ⟨hn, -⟩ := s.deviceFetch_cases a
  · exact ⟨_, hfetch ▸ State.heldCode_cacheFetch hc, hword⟩
  · rw [hc] at hn; cases hn

/-- Which line is held depends on the configuration and on the lines. -/
theorem State.heldCode_congr {s t : State} (hcfg : t.cfg = s.cfg) (hl : t.codeLines = s.codeLines) (a : Word) :
    t.heldCode a = s.heldCode a := by
  simp only [State.heldCode, hcfg, hl]

/-- Settles O24: from memory the fetch returns one of its candidates; from a device, at a cached address, the word of a line that is
held from then on. -/
theorem fetchSeesCurrentOrEarlier : Obligations.FetchSeesCurrentOrEarlier := by
  intro s ha hd
  refine ⟨fun hr => ?memory, fun hr => ?device⟩
  case memory =>
    have hf := State.fetch_memory ha hr hd
    exact ⟨_, _, hf, State.fetch_afterFetch hf, s.fetchMemory_sees s.pc, fun hi => State.fetchMemory_of_inv hi ha hr⟩
  case device =>
    have hf := State.fetch_device ha hr hd
    have hafter := State.fetch_afterFetch hf
    refine ⟨_, _, hf, hafter, fun hc => ⟨State.deviceWord_of_codeCached hc, fun u hcfg hpc hlines => ?_⟩⟩
    obtain ⟨l, hl, hw⟩ := State.heldCode_deviceFetch hc
    have hcfg' : u.cfg = (s.deviceFetch s.pc).cfg := hcfg.trans (cfg_of_afterFetch hafter).symm
    obtain ⟨hsame, hword⟩ := State.deviceFetch_of_heldCode ((State.heldCode_congr hcfg' hlines s.pc).trans hl)
    rw [← hpc] at ha hr hd
    rw [← hcfg] at hr hd
    have hu := State.fetch_device ha hr hd
    rw [hpc, hsame, hword, ← hw] at hu
    exact ⟨u, hu, rfl⟩

end Sys2Proof.Machine
end

section
/-! The statements of the encoding family: the decoder and the encoder are inverse to each other (DecodeInvertsEncode, O1;
EncodeInvertsDecode, O2), the words with no meaning (UndefinedWords, O4) and the optional units (OptionalUnitsRefused, O9). The one
table is `OpcodeRule`: what the decoder and the encoder do with each opcode of R160, one constructor per operand layout of R156. -/

namespace Sys2Proof.Machine

open Sys2Proof.Safety

/-! ### Optional units (30_encoding.md R165) -/

/-- Without its unit an instruction is refused, whatever it would compute. -/
theorem needs_of_absent {present : Bool} {o : Host.Outcome State Fault Refusal} (h : present = false) :
    needs present o = .refused .absentUnit := by
  rw [h]; rfl

/-- Settles O9: each of the twelve instructions is a `needs` of its unit. -/
theorem optionalUnitsRefused : Obligations.OptionalUnitsRefused := by
  intro s rX rY rZ imm n
  refine ⟨fun hmul => ⟨?mul, ?muli⟩, fun hdiv => ⟨?divu, ?modu⟩, fun hshift => ⟨?sl, ?sli, ?sr, ?sri, ?sru, ?srui⟩,
    fun hsext => ⟨?sextb, ?sexth⟩⟩
  case mul | muli => exact needs_of_absent hmul
  case divu | modu => exact needs_of_absent hdiv
  case sl | sli | sr | sri | sru | srui => exact needs_of_absent hshift
  case sextb | sexth => exact needs_of_absent hsext

/-! ### Must-be-zero bits (30_encoding.md R163) -/

/-- The converse of `and_mask_of_field_zero`. -/
theorem field_zero_of_and_mask {w : Word} {st len : Nat} (hin : st + len ≤ 32)
    (h : w &&& (BitVec.allOnes len).setWidth 32 <<< st = 0#32) : w.extractLsb' st len = 0#len := by
  apply BitVec.eq_of_getLsbD_eq
  intro j hj
  have hbit := congrArg (fun v : Word => v.getLsbD (st + j)) h
  have hmask : ((BitVec.allOnes len).setWidth 32 <<< st).getLsbD (st + j) = true := by
    simp [hj, show st + j < 32 by omega]
  simp only [BitVec.getLsbD_and, hmask, Bool.and_true, BitVec.getLsbD_zero] at hbit
  rw [BitVec.getLsbD_extractLsb', hbit, Bool.and_false, BitVec.getLsbD_zero]

/-- The two must-be-zero fields of `rcsr` and the sign extensions, from their one mask. -/
theorem extend_fields_zero_of_and_mask {w : Word} (h : w &&& 0x001F07FF#32 = 0#32) :
    field1 w ++ w.extractLsb' 0 11 = 0#(5 + 11) := by
  have hmask : (0x001F07FF#32 : Word) =
      (BitVec.allOnes 5).setWidth 32 <<< 16 ||| (BitVec.allOnes 11).setWidth 32 <<< 0 := by decide
  rw [hmask, BitVec.and_or_distrib_left, BitVec.or_eq_zero_iff] at h
  obtain ⟨hhigh, hlow⟩ := h
  have hf1 : field1 w = 0#5 := field_zero_of_and_mask (by decide) hhigh
  rw [hf1, field_zero_of_and_mask (by decide) hlow]
  rfl

/-- A word of two fields, with zeros at w[20:16] and w[10:0]. -/
theorem wordRR_of_extend {w : Word} (h : field1 w ++ w.extractLsb' 0 11 = 0#(5 + 11)) :
    wordRR (opcode w) (field0 w) 0#5 (field2 w) = w := by
  obtain ⟨hf1, hlow⟩ := fields_zero_of_append h
  have hw := wordRR_of_fields w hlow
  rwa [hf1] at hw

/-- A word of one field, with zeros at w[20:0]. -/
theorem wordRR_of_low21 {w : Word} (h : w.extractLsb' 0 21 = 0#21) : wordRR (opcode w) (field0 w) 0#5 0#5 = w := by
  rw [← extractLsb'_append_adjacent w 0 5 16, ← extractLsb'_append_adjacent w 0 5 11] at h
  obtain ⟨hf1, hlow16⟩ : field1 w = 0#5 ∧ _ := fields_zero_of_append h
  obtain ⟨hf2, hlow11⟩ : field2 w = 0#5 ∧ _ := fields_zero_of_append hlow16
  have hw := wordRR_of_fields w hlow11
  rwa [hf1, hf2] at hw

theorem requireZero_zero {n : Nat} {field : BitVec n} (i : Instr) (h : field = 0#n) : requireZero field i = .instr i := if_pos h

theorem requireZero_eq_instr {n : Nat} {field : BitVec n} {i j : Instr} (h : requireZero field i = .instr j) :
    field = 0#n ∧ i = j := by
  unfold requireZero at h
  split at h
  · next hz => exact ⟨hz, Decoded.instr.inj h⟩
  · cases h

theorem requireZero_eq_undefined {n : Nat} {field : BitVec n} {i : Instr} {e : DecodeError}
    (h : requireZero field i = .undefined e) : field ≠ 0#n := fun hz => by rw [requireZero_zero i hz] at h; cases h

/-! ### The words of a layout (R156) -/

/-- `w` is the word of `i`, a well-formed machine instruction. -/
structure IsWordOf (w : Word) (i : Instr) : Prop where
  encode_eq : encode i = w
  wellFormed : i.WellFormed
  expand_eq : i.expand = i

/-- The transfer to the register `r` that opcode 0x30 means (R162). -/
def transferTo (r : Reg) : Instr := if r = 30#5 then .eret else if r = 31#5 then .bret else .b r

theorem transferTo_of_ne {r : Reg} (hea : r ≠ 30#5) (hba : r ≠ 31#5) : transferTo r = .b r := by
  rw [transferTo, if_neg hea, if_neg hba]

theorem wellFormed_b {r : Reg} : (Instr.b r).WellFormed ↔ r ≠ 30#5 ∧ r ≠ 31#5 := by
  show (r != 30#5 && r != 31#5) = true ↔ _
  rw [Bool.and_eq_true, bne_iff_ne, bne_iff_ne]

theorem isWordOf_transferTo (r : Reg) : IsWordOf (wordRR 0x30#6 r 0#5 0#5) (transferTo r) := by
  by_cases hea : r = 30#5
  · subst hea; exact ⟨rfl, rfl, rfl⟩
  by_cases hba : r = 31#5
  · subst hba; exact ⟨rfl, rfl, rfl⟩
  rw [transferTo_of_ne hea hba]
  exact ⟨rfl, wellFormed_b.mpr ⟨hea, hba⟩, rfl⟩

/-- Opcode 0x2B has two words with a meaning (R162). -/
theorem decodeSystem_isWordOf {w : Word} {i : Instr} (h : decodeSystem w = .instr i) : IsWordOf w i := by
  unfold decodeSystem at h
  split at h
  · next hw => subst hw; cases h; exact ⟨rfl, rfl, rfl⟩
  split at h
  · next hw => subst hw; cases h; exact ⟨rfl, rfl, rfl⟩
  · cases h

theorem decodeSystem_eq_undefined {w : Word} {e : DecodeError} (h : decodeSystem w = .undefined e) :
    w ≠ 0xAC000007#32 ∧ w ≠ 0xAC000002#32 := by
  constructor <;> rintro rfl <;> cases h

/-- What the decoder and the encoder do with the words of an opcode: the instructions of one operand layout, with the mask of its
must-be-zero bits, each the instruction whose word it is; or the system words; or nothing. -/
inductive OpcodeRule (op : BitVec 6) : Prop
  | ri (mk : Reg → Reg → BitVec 16 → Instr) (hdec : ∀ {w}, opcode w = op → decode w = decodeRI mk w)
      (henc : ∀ rX rY imm, IsWordOf (wordRI op rY rX imm) (mk rX rY imm))
  | store (mk : Reg → BitVec 16 → Reg → Instr) (hdec : ∀ {w}, opcode w = op → decode w = decodeStore mk w)
      (henc : ∀ rX imm rY, IsWordOf (wordRI op rX rY imm) (mk rX imm rY))
  | immediate (mk : BitVec 26 → Instr) (hdec : ∀ {w}, opcode w = op → decode w = .instr (mk (fieldImm26 w)))
      (henc : ∀ imm, IsWordOf (wordI op imm) (mk imm))
  | rr (mk : Reg → Reg → Reg → Instr) (hdec : ∀ {w}, opcode w = op → decode w = decodeRR mk w)
      (hmask : mustBeZero op = 0x000007FF#32) (henc : ∀ rX rY rZ, IsWordOf (wordRR op rY rZ rX) (mk rX rY rZ))
  | shiftImm (mk : Reg → Reg → BitVec 5 → Instr) (hdec : ∀ {w}, opcode w = op → decode w = decodeShiftImm mk w)
      (hmask : mustBeZero op = 0x0000FFE0#32) (henc : ∀ rX rY n, IsWordOf (wordShiftImm op rY rX n) (mk rX rY n))
  | extend (mk : Reg → Reg → Instr) (hdec : ∀ {w}, opcode w = op → decode w = decodeExtend mk w)
      (hmask : mustBeZero op = 0x001F07FF#32) (henc : ∀ rX rY, IsWordOf (wordRR op rY 0#5 rX) (mk rX rY))
  | register (mk : Reg → Instr)
      (hdec : ∀ {w}, opcode w = op → decode w = requireZero (w.extractLsb' 0 21) (mk (field0 w)))
      (hmask : mustBeZero op = 0x001FFFFF#32) (henc : ∀ r, IsWordOf (wordRR op r 0#5 0#5) (mk r))
  | writeCsr (hop : op = 0x34#6)
  | system (hop : op = 0x2B#6)
  | reserved (hop : op ∈ [0x27#6, 0x2A#6, 0x33#6, 0x35#6])

/-- The opcode map (R160), read by the decoder and written by the encoder. -/
theorem opcodeRule : ∀ op : BitVec 6, OpcodeRule op := fun ⟨n, hn⟩ =>
  match n, hn with
  | 0x00, _ => .shiftImm .srui decode_0x00 rfl fun _ _ _ => ⟨rfl, rfl, rfl⟩
  | 0x01, _ => .ri .nori decode_0x01 fun _ _ _ => ⟨rfl, rfl, rfl⟩
  | 0x02, _ => .ri .muli decode_0x02 fun _ _ _ => ⟨rfl, rfl, rfl⟩
  | 0x03, _ => .store .sh decode_0x03 fun _ _ _ => ⟨rfl, rfl, rfl⟩
  | 0x04, _ => .ri .lb decode_0x04 fun _ _ _ => ⟨rfl, rfl, rfl⟩
  | 0x05, _ => .shiftImm .sri decode_0x05 rfl fun _ _ _ => ⟨rfl, rfl, rfl⟩
  | 0x06, _ => .ri .xori decode_0x06 fun _ _ _ => ⟨rfl, rfl, rfl⟩
  | 0x07, _ => .ri .lh decode_0x07 fun _ _ _ => ⟨rfl, rfl, rfl⟩
  | 0x08, _ => .ri .andi decode_0x08 fun _ _ _ => ⟨rfl, rfl, rfl⟩
  | 0x09, _ => .ri .xnori decode_0x09 fun _ _ _ => ⟨rfl, rfl, rfl⟩
  | 0x0A, _ => .ri .lw decode_0x0A fun _ _ _ => ⟨rfl, rfl, rfl⟩
  | 0x0B, _ => .ri .lhu decode_0x0B fun _ _ _ => ⟨rfl, rfl, rfl⟩
  | 0x0C, _ => .store .sb decode_0x0C fun _ _ _ => ⟨rfl, rfl, rfl⟩
  | 0x0D, _ => .ri .addi decode_0x0D fun _ _ _ => ⟨rfl, rfl, rfl⟩
  | 0x0E, _ => .ri .ori decode_0x0E fun _ _ _ => ⟨rfl, rfl, rfl⟩
  | 0x0F, _ => .shiftImm .sli decode_0x0F rfl fun _ _ _ => ⟨rfl, rfl, rfl⟩
  | 0x10, _ => .ri .lbu decode_0x10 fun _ _ _ => ⟨rfl, rfl, rfl⟩
  | 0x11, _ => .ri .be decode_0x11 fun _ _ _ => ⟨rfl, rfl, rfl⟩
  | 0x12, _ => .ri .bg decode_0x12 fun _ _ _ => ⟨rfl, rfl, rfl⟩
  | 0x13, _ => .ri .bge decode_0x13 fun _ _ _ => ⟨rfl, rfl, rfl⟩
  | 0x14, _ => .ri .bgeu decode_0x14 fun _ _ _ => ⟨rfl, rfl, rfl⟩
  | 0x15, _ => .ri .bgu decode_0x15 fun _ _ _ => ⟨rfl, rfl, rfl⟩
  | 0x16, _ => .store .sw decode_0x16 fun _ _ _ => ⟨rfl, rfl, rfl⟩
  | 0x17, _ => .ri .bne decode_0x17 fun _ _ _ => ⟨rfl, rfl, rfl⟩
  | 0x18, _ => .ri .andhi decode_0x18 fun _ _ _ => ⟨rfl, rfl, rfl⟩
  | 0x19, _ => .ri .cmpei decode_0x19 fun _ _ _ => ⟨rfl, rfl, rfl⟩
  | 0x1A, _ => .ri .cmpgi decode_0x1A fun _ _ _ => ⟨rfl, rfl, rfl⟩
  | 0x1B, _ => .ri .cmpgei decode_0x1B fun _ _ _ => ⟨rfl, rfl, rfl⟩
  | 0x1C, _ => .ri .cmpgeui decode_0x1C fun _ _ _ => ⟨rfl, rfl, rfl⟩
  | 0x1D, _ => .ri .cmpgui decode_0x1D fun _ _ _ => ⟨rfl, rfl, rfl⟩
  | 0x1E, _ => .ri .orhi decode_0x1E fun _ _ _ => ⟨rfl, rfl, rfl⟩
  | 0x1F, _ => .ri .cmpnei decode_0x1F fun _ _ _ => ⟨rfl, rfl, rfl⟩
  | 0x20, _ => .rr .sru decode_0x20 rfl fun _ _ _ => ⟨rfl, rfl, rfl⟩
  | 0x21, _ => .rr .nor decode_0x21 rfl fun _ _ _ => ⟨rfl, rfl, rfl⟩
  | 0x22, _ => .rr .mul decode_0x22 rfl fun _ _ _ => ⟨rfl, rfl, rfl⟩
  | 0x23, _ => .rr .divu decode_0x23 rfl fun _ _ _ => ⟨rfl, rfl, rfl⟩
  | 0x24, _ => .extend .rcsr decode_0x24 rfl fun _ _ => ⟨rfl, rfl, rfl⟩
  | 0x25, _ => .rr .sr decode_0x25 rfl fun _ _ _ => ⟨rfl, rfl, rfl⟩
  | 0x26, _ => .rr .xor decode_0x26 rfl fun _ _ _ => ⟨rfl, rfl, rfl⟩
  | 0x27, _ => .reserved (of_decide_eq_true rfl)
  | 0x28, _ => .rr .and decode_0x28 rfl fun _ _ _ => ⟨rfl, rfl, rfl⟩
  | 0x29, _ => .rr .xnor decode_0x29 rfl fun _ _ _ => ⟨rfl, rfl, rfl⟩
  | 0x2A, _ => .reserved (of_decide_eq_true rfl)
  | 0x2B, _ => .system rfl
  | 0x2C, _ => .extend .sextb decode_0x2C rfl fun _ _ => ⟨rfl, rfl, rfl⟩
  | 0x2D, _ => .rr .add decode_0x2D rfl fun _ _ _ => ⟨rfl, rfl, rfl⟩
  | 0x2E, _ => .rr .or decode_0x2E rfl fun _ _ _ => ⟨rfl, rfl, rfl⟩
  | 0x2F, _ => .rr .sl decode_0x2F rfl fun _ _ _ => ⟨rfl, rfl, rfl⟩
  | 0x30, _ => .register transferTo decode_0x30 rfl isWordOf_transferTo
  | 0x31, _ => .rr .modu decode_0x31 rfl fun _ _ _ => ⟨rfl, rfl, rfl⟩
  | 0x32, _ => .rr .sub decode_0x32 rfl fun _ _ _ => ⟨rfl, rfl, rfl⟩
  | 0x33, _ => .reserved (of_decide_eq_true rfl)
  | 0x34, _ => .writeCsr rfl
  | 0x35, _ => .reserved (of_decide_eq_true rfl)
  | 0x36, _ => .register .call decode_0x36 rfl fun _ => ⟨rfl, rfl, rfl⟩
  | 0x37, _ => .extend .sexth decode_0x37 rfl fun _ _ => ⟨rfl, rfl, rfl⟩
  | 0x38, _ => .immediate .bi decode_0x38 fun _ => ⟨rfl, rfl, rfl⟩
  | 0x39, _ => .rr .cmpe decode_0x39 rfl fun _ _ _ => ⟨rfl, rfl, rfl⟩
  | 0x3A, _ => .rr .cmpg decode_0x3A rfl fun _ _ _ => ⟨rfl, rfl, rfl⟩
  | 0x3B, _ => .rr .cmpge decode_0x3B rfl fun _ _ _ => ⟨rfl, rfl, rfl⟩
  | 0x3C, _ => .rr .cmpgeu decode_0x3C rfl fun _ _ _ => ⟨rfl, rfl, rfl⟩
  | 0x3D, _ => .rr .cmpgu decode_0x3D rfl fun _ _ _ => ⟨rfl, rfl, rfl⟩
  | 0x3E, _ => .immediate .calli decode_0x3E fun _ => ⟨rfl, rfl, rfl⟩
  | 0x3F, _ => .rr .cmpne decode_0x3F rfl fun _ _ _ => ⟨rfl, rfl, rfl⟩
  | _ + 64, hn => absurd hn (by omega)

/-! ### Whatever decodes is the word of what it decodes to -/

theorem decode_isWordOf {w : Word} {i : Instr} (h : decode w = .instr i) : IsWordOf w i := by
  obtain ⟨mk, hdec, henc⟩ | ⟨mk, hdec, henc⟩ | ⟨mk, hdec, henc⟩ | ⟨mk, hdec, -, henc⟩ | ⟨mk, hdec, -, henc⟩ |
    ⟨mk, hdec, -, henc⟩ | ⟨mk, hdec, -, henc⟩ | hop | hop | hop := opcodeRule (opcode w)
  case ri =>
    cases (hdec rfl).symm.trans h
    have hw := henc (field1 w) (field0 w) (fieldImm16 w)
    rwa [wordRI_of_fields] at hw
  case store =>
    cases (hdec rfl).symm.trans h
    have hw := henc (field0 w) (fieldImm16 w) (field1 w)
    rwa [wordRI_of_fields] at hw
  case immediate =>
    cases (hdec rfl).symm.trans h
    have hw := henc (fieldImm26 w)
    rwa [wordI_of_fields] at hw
  case rr =>
    obtain ⟨hz, rfl⟩ := requireZero_eq_instr ((hdec rfl).symm.trans h)
    have hw := henc (field2 w) (field0 w) (field1 w)
    rwa [wordRR_of_fields w hz] at hw
  case shiftImm =>
    obtain ⟨hz, rfl⟩ := requireZero_eq_instr ((hdec rfl).symm.trans h)
    have hw := henc (field1 w) (field0 w) (fieldImm5 w)
    rwa [wordShiftImm_of_fields w hz] at hw
  case extend =>
    obtain ⟨hz, rfl⟩ := requireZero_eq_instr ((hdec rfl).symm.trans h)
    have hw := henc (field2 w) (field0 w)
    rwa [wordRR_of_extend hz] at hw
  case register =>
    obtain ⟨hz, rfl⟩ := requireZero_eq_instr ((hdec rfl).symm.trans h)
    have hw := henc (field0 w)
    rwa [wordRR_of_low21 hz] at hw
  case writeCsr =>
    obtain ⟨hz, rfl⟩ := requireZero_eq_instr ((decode_0x34 hop).symm.trans h)
    refine ⟨?_, rfl, rfl⟩
    rw [encode_wcsr, ← hop, ← hz, wordRI_of_fields]
  case system =>
    rw [decode_0x2B hop] at h
    exact decodeSystem_isWordOf h
  case reserved =>
    cases (decode_of_reserved_opcode hop).symm.trans h

/-- Settles O2: the fields that a layout reads, with its must-be-zero bits zero, are the whole word. -/
theorem encodeInvertsDecode : Obligations.EncodeInvertsDecode := by
  intro w i h
  obtain ⟨hencode, hwf, hexpand⟩ := decode_isWordOf h
  exact ⟨hencode, hwf, hexpand⟩

/-! ### A word with no meaning is one of R164 -/

/-- A refused word of an opcode that has only must-be-zero bits to violate has one of them set (R164 c). -/
theorem undefined_of_requireZero {w : Word} {k : Nat} {field : BitVec k} {mask : Word} {i : Instr} {e : DecodeError}
    (h : requireZero field i = .undefined e) (hmask : mustBeZero (opcode w) = mask) (hzero : w &&& mask = 0#32 → field = 0#k) :
    Undefined w :=
  .inr (.inr fun hand => requireZero_eq_undefined h (hzero (hmask ▸ hand)))

/-- The converse of `decode_of_undefined`. -/
theorem undefined_of_decode {w : Word} {e : DecodeError} (h : decode w = .undefined e) : Undefined w := by
  obtain ⟨mk, hdec, -⟩ | ⟨mk, hdec, -⟩ | ⟨mk, hdec, -⟩ | ⟨mk, hdec, hmask, -⟩ | ⟨mk, hdec, hmask, -⟩ |
    ⟨mk, hdec, hmask, -⟩ | ⟨mk, hdec, hmask, -⟩ | hop | hop | hop := opcodeRule (opcode w)
  case ri | store | immediate => cases (hdec rfl).symm.trans h
  case rr | shiftImm | register =>
    rw [hdec rfl] at h
    exact undefined_of_requireZero h hmask fun hand => field_zero_of_and_mask (by decide) hand
  case extend => exact undefined_of_requireZero ((hdec rfl).symm.trans h) hmask extend_fields_zero_of_and_mask
  case writeCsr =>
    rw [decode_0x34 hop] at h
    exact undefined_of_requireZero h (congrArg mustBeZero hop) fun hand => field_zero_of_and_mask (by decide) hand
  case system =>
    rw [decode_0x2B hop] at h
    exact .inr (.inl ⟨hop, decodeSystem_eq_undefined h⟩)
  case reserved => exact .inl hop

/-- Settles O4: each mask of R163 is that of the field which the decoder compares with zero. -/
theorem undefinedWords : Obligations.UndefinedWords :=
  fun _ => ⟨fun ⟨_, h⟩ => undefined_of_decode h, decode_of_undefined⟩

/-! ### The encoder's words decode to their instruction -/

section Encoded
variable {op : BitVec 6} {f0 f1 f2 : Reg} {imm : BitVec 16} {n : BitVec 5} {imm26 : BitVec 26}

theorem decode_wordRI {mk : Reg → Reg → BitVec 16 → Instr} (hdec : ∀ {w}, opcode w = op → decode w = decodeRI mk w) :
    decode (wordRI op f0 f1 imm) = .instr (mk f1 f0 imm) := by
  rw [hdec (opcode_wordRI ..), decodeRI, field0_wordRI, field1_wordRI, fieldImm16_wordRI]

theorem decode_wordRI_store {mk : Reg → BitVec 16 → Reg → Instr} (hdec : ∀ {w}, opcode w = op → decode w = decodeStore mk w) :
    decode (wordRI op f0 f1 imm) = .instr (mk f0 imm f1) := by
  rw [hdec (opcode_wordRI ..), decodeStore, field0_wordRI, field1_wordRI, fieldImm16_wordRI]

theorem decode_wordRI_writeCsr : decode (wordRI 0x34#6 f0 f1 0#16) = .instr (.wcsr f0 f1) := by
  rw [decode_0x34 (opcode_wordRI ..), decodeWriteCsr, field0_wordRI, field1_wordRI, requireZero_zero _ (fieldImm16_wordRI ..)]

theorem decode_wordI {mk : BitVec 26 → Instr} (hdec : ∀ {w}, opcode w = op → decode w = .instr (mk (fieldImm26 w))) :
    decode (wordI op imm26) = .instr (mk imm26) := by
  rw [hdec (opcode_wordI ..), fieldImm26_wordI]

theorem decode_wordRR {mk : Reg → Reg → Reg → Instr} (hdec : ∀ {w}, opcode w = op → decode w = decodeRR mk w) :
    decode (wordRR op f0 f1 f2) = .instr (mk f2 f0 f1) := by
  rw [hdec (opcode_wordRR ..), decodeRR, field0_wordRR, field1_wordRR, field2_wordRR, requireZero_zero _ (low_wordRR ..)]

theorem decode_wordShiftImm {mk : Reg → Reg → BitVec 5 → Instr} (hdec : ∀ {w}, opcode w = op → decode w = decodeShiftImm mk w) :
    decode (wordShiftImm op f0 f1 n) = .instr (mk f1 f0 n) := by
  rw [hdec (opcode_wordShiftImm ..), decodeShiftImm, field0_wordShiftImm, field1_wordShiftImm, fieldImm5_wordShiftImm,
    requireZero_zero _ (low_wordShiftImm ..)]

theorem decode_wordRR_extend {mk : Reg → Reg → Instr} (hdec : ∀ {w}, opcode w = op → decode w = decodeExtend mk w) :
    decode (wordRR op f0 0#5 f2) = .instr (mk f2 f0) := by
  rw [hdec (opcode_wordRR ..), decodeExtend, field0_wordRR, field1_wordRR, field2_wordRR, low_wordRR]
  exact requireZero_zero _ rfl

theorem decode_wordRR_register {mk : Reg → Instr}
    (hdec : ∀ {w}, opcode w = op → decode w = requireZero (w.extractLsb' 0 21) (mk (field0 w))) :
    decode (wordRR op f0 0#5 0#5) = .instr (mk f0) := by
  rw [hdec (opcode_wordRR ..), field0_wordRR, requireZero_zero _ (low21_wordRR ..)]

end Encoded

/-- Settles O1: each constructor by the rule of its opcode; `ret` to `nop` have the words of their expansions. -/
theorem decodeInvertsEncode : Obligations.DecodeInvertsEncode := by
  intro i h
  cases i with
  | add => exact decode_wordRR decode_0x2D
  | addi => exact decode_wordRI decode_0x0D
  | sub => exact decode_wordRR decode_0x32
  | mul => exact decode_wordRR decode_0x22
  | muli => exact decode_wordRI decode_0x02
  | divu => exact decode_wordRR decode_0x23
  | modu => exact decode_wordRR decode_0x31
  | sextb => exact decode_wordRR_extend decode_0x2C
  | sexth => exact decode_wordRR_extend decode_0x37
  | and => exact decode_wordRR decode_0x28
  | andi => exact decode_wordRI decode_0x08
  | andhi => exact decode_wordRI decode_0x18
  | or => exact decode_wordRR decode_0x2E
  | ori => exact decode_wordRI decode_0x0E
  | orhi => exact decode_wordRI decode_0x1E
  | xor => exact decode_wordRR decode_0x26
  | xori => exact decode_wordRI decode_0x06
  | nor => exact decode_wordRR decode_0x21
  | nori => exact decode_wordRI decode_0x01
  | xnor => exact decode_wordRR decode_0x29
  | xnori => exact decode_wordRI decode_0x09
  | cmpe => exact decode_wordRR decode_0x39
  | cmpei => exact decode_wordRI decode_0x19
  | cmpne => exact decode_wordRR decode_0x3F
  | cmpnei => exact decode_wordRI decode_0x1F
  | cmpg => exact decode_wordRR decode_0x3A
  | cmpgi => exact decode_wordRI decode_0x1A
  | cmpgu => exact decode_wordRR decode_0x3D
  | cmpgui => exact decode_wordRI decode_0x1D
  | cmpge => exact decode_wordRR decode_0x3B
  | cmpgei => exact decode_wordRI decode_0x1B
  | cmpgeu => exact decode_wordRR decode_0x3C
  | cmpgeui => exact decode_wordRI decode_0x1C
  | sl => exact decode_wordRR decode_0x2F
  | sli => exact decode_wordShiftImm decode_0x0F
  | sr => exact decode_wordRR decode_0x25
  | sri => exact decode_wordShiftImm decode_0x05
  | sru => exact decode_wordRR decode_0x20
  | srui => exact decode_wordShiftImm decode_0x00
  | lb => exact decode_wordRI decode_0x04
  | lbu => exact decode_wordRI decode_0x10
  | lh => exact decode_wordRI decode_0x07
  | lhu => exact decode_wordRI decode_0x0B
  | lw => exact decode_wordRI decode_0x0A
  | sb => exact decode_wordRI_store decode_0x0C
  | sh => exact decode_wordRI_store decode_0x03
  | sw => exact decode_wordRI_store decode_0x16
  | rcsr => exact decode_wordRR_extend decode_0x24
  | wcsr => exact decode_wordRI_writeCsr
  | b rX =>
    obtain ⟨hea, hba⟩ := wellFormed_b.mp h
    exact (decode_wordRR_register decode_0x30).trans (congrArg Decoded.instr (transferTo_of_ne hea hba))
  | bi => exact decode_wordI decode_0x38
  | be => exact decode_wordRI decode_0x11
  | bne => exact decode_wordRI decode_0x17
  | bg => exact decode_wordRI decode_0x12
  | bgu => exact decode_wordRI decode_0x15
  | bge => exact decode_wordRI decode_0x13
  | bgeu => exact decode_wordRI decode_0x14
  | call => exact decode_wordRR_register decode_0x36
  | calli => exact decode_wordI decode_0x3E
  | scall => rfl
  | eret => rfl
  | brk => rfl
  | bret => rfl
  | ret => rfl
  | mv => exact decode_wordRR decode_0x2E
  | mvhi => exact decode_wordRI decode_0x1E
  | not => exact decode_wordRR decode_0x29
  | mvi => exact decode_wordRI decode_0x0D
  | nop => rfl

end Sys2Proof.Machine
end

section
/-! The statements of the arithmetic family: AddAndSubtract (O5), Multiply (O6), Divide (O7) and SignExtend (O8). A word that decodes
to an instruction which writes a result computes it (`computes_result`, with a rule for each printed layout); what is left of each
statement is the instruction's execution and the integer arithmetic that its `BitVec` operation stands for. -/

namespace Sys2Proof.Machine

open Sys2Proof.Safety

/-! ### Instructions that write a result -/

/-- With its unit an optional instruction does what it computes. -/
theorem needs_of_present {present : Bool} {o : Host.Outcome State Fault Refusal} (h : present = true) : needs present o = o := by
  rw [h]; rfl

section Results
variable {op : BitVec 6} {base : Word} {s : State} {rX rY rZ r : Reg} {imm : BitVec 16} {v : Word}

/-- A word that decodes to an instruction whose execution writes a result computes it. -/
theorem computes_result {w : Word} {i : Instr} (hdecode : decode w = .instr i) (hexec : exec i s = .next (s.result r v)) :
    Computes w i s r v := ⟨hdecode, _, hexec, s.result_writes r v⟩

/-- The printed RR words (30_encoding.md R156). -/
theorem computes_printedRR {mk : Reg → Reg → Reg → Instr} (hdec : ∀ {w}, opcode w = op → decode w = decodeRR mk w)
    (hbase : op.setWidth 32 <<< 26 = base) (hexec : exec (mk rX rY rZ) s = .next (s.result r v)) :
    Computes (printedRR base rX rY rZ) (mk rX rY rZ) s r v :=
  computes_result (by rw [← hbase, printedRR_eq, decode_wordRR hdec]) hexec

/-- The printed RI words. -/
theorem computes_printedRI {mk : Reg → Reg → BitVec 16 → Instr} (hdec : ∀ {w}, opcode w = op → decode w = decodeRI mk w)
    (hbase : op.setWidth 32 <<< 26 = base) (hexec : exec (mk rX rY imm) s = .next (s.result r v)) :
    Computes (printedRI base rX rY imm) (mk rX rY imm) s r v :=
  computes_result (by rw [← hbase, printedRI_eq, decode_wordRI hdec]) hexec

/-- The printed words of the sign extensions: RR words without rZ. -/
theorem computes_printedExtend {mk : Reg → Reg → Instr} (hdec : ∀ {w}, opcode w = op → decode w = decodeExtend mk w)
    (hbase : op.setWidth 32 <<< 26 = base) (hexec : exec (mk rX rY) s = .next (s.result r v)) :
    Computes (base ||| fieldAt rY 21 ||| fieldAt rX 11) (mk rX rY) s r v :=
  computes_result (by rw [← hbase, ← printedRR_two, printedRR_eq, decode_wordRR_extend hdec]) hexec

end Results

/-! ### Machine arithmetic is integer arithmetic modulo 2^32 (00_scope.md R12) -/

section Modulo
variable {w : Nat} (a b : BitVec w)

/-- A difference is that of the signed values. -/
theorem sub_eq_ofInt : a - b = BitVec.ofInt w (a.toInt - b.toInt) := by
  rw [Int.sub_eq_add_neg, BitVec.ofInt_add, BitVec.ofInt_neg, BitVec.ofInt_toInt, BitVec.ofInt_toInt, BitVec.sub_eq_add_neg]

/-- A product is that of the unsigned values. -/
theorem mul_eq_ofNat : a * b = BitVec.ofNat w (a.toNat * b.toNat) := by
  rw [BitVec.ofNat_mul, BitVec.ofNat_toNat, BitVec.ofNat_toNat, BitVec.setWidth_eq, BitVec.setWidth_eq]

end Modulo

/-- A sum with an immediate is that of the signed values, the immediate's read from its 16 bits. -/
theorem add_sextImm (a : Word) (imm : BitVec 16) : a + sextImm imm = BitVec.ofInt 32 (a.toInt + imm.toInt) := by
  rw [BitVec.ofInt_add, BitVec.ofInt_toInt]; rfl

/-- So is a product. -/
theorem mul_sextImm (a : Word) (imm : BitVec 16) : a * sextImm imm = BitVec.ofInt 32 (a.toInt * imm.toInt) := by
  rw [BitVec.ofInt_mul, BitVec.ofInt_toInt]; rfl

/-! ### The statements -/

/-- Settles O5: the integer sum and difference of the rules are the words' own, modulo 2^32. -/
theorem addAndSubtract : Obligations.AddAndSubtract := by
  intro s rX rY rZ imm
  refine ⟨?add, ?addi, ?sub⟩
  case add =>
    rw [← BitVec.add_def]
    exact computes_printedRR decode_0x2D rfl rfl
  case addi =>
    rw [← add_sextImm]
    exact computes_printedRI decode_0x0D rfl rfl
  case sub =>
    rw [← sub_eq_ofInt]
    exact computes_printedRR decode_0x32 rfl rfl

/-- Settles O6: either multiplier is the unit that `mul` and `muli` need. -/
theorem multiply : Obligations.Multiply := by
  intro s rX rY rZ imm h
  have hmul : s.cfg.hasMul = true := Bool.or_eq_true_iff.mpr h
  refine ⟨?mul, ?muli⟩
  case mul =>
    rw [← mul_eq_ofNat]
    exact computes_printedRR decode_0x22 rfl (needs_of_present hmul)
  case muli =>
    rw [← mul_sextImm]
    exact computes_printedRI decode_0x02 rfl (needs_of_present hmul)

section Divider
variable {s : State} (hdiv : s.cfg.hasDiv = true) (rX rY : Reg) {rZ : Reg}
include hdiv

/-- `divu` by a divisor that is not 0 writes the quotient. -/
theorem exec_divu_of_ne_zero (hz : s.reg rZ ≠ 0#32) : exec (.divu rX rY rZ) s = .next (s.result rX (s.reg rY / s.reg rZ)) :=
  (needs_of_present hdiv).trans (if_neg hz)

/-- `modu` writes the remainder. -/
theorem exec_modu_of_ne_zero (hz : s.reg rZ ≠ 0#32) : exec (.modu rX rY rZ) s = .next (s.result rX (s.reg rY % s.reg rZ)) :=
  (needs_of_present hdiv).trans (if_neg hz)

/-- With a zero divisor `divu` enters DivideByZero and writes no result (60_exceptions.md R423, D31). -/
theorem exec_divu_of_zero (hz : s.reg rZ = 0#32) : exec (.divu rX rY rZ) s = .next (s.enter .divideByZero) :=
  (needs_of_present hdiv).trans (if_pos hz)

/-- So does `modu`. -/
theorem exec_modu_of_zero (hz : s.reg rZ = 0#32) : exec (.modu rX rY rZ) s = .next (s.enter .divideByZero) :=
  (needs_of_present hdiv).trans (if_pos hz)

end Divider

/-- Settles O7, by the two cases of the divisor. -/
theorem divide : Obligations.Divide := by
  intro s rX rY rZ hdiv
  refine ⟨fun hz => ⟨?divu, ?modu⟩, fun hz => ?byZero⟩
  case divu =>
    rw [← BitVec.udiv_def]
    exact computes_printedRR decode_0x23 rfl (exec_divu_of_ne_zero hdiv rX rY hz)
  case modu =>
    rw [← BitVec.umod_def]
    exact computes_printedRR decode_0x31 rfl (exec_modu_of_ne_zero hdiv rX rY hz)
  case byZero =>
    have hentered : EnteredNonDebug s (s.enter .divideByZero) 5 := s.enter_enteredNonDebug rfl
    exact ⟨⟨_, exec_divu_of_zero hdiv rX rY hz, hentered⟩, ⟨_, exec_modu_of_zero hdiv rX rY hz, hentered⟩⟩

/-- Settles O8: sign extension is by definition the value in 32 bits of the field read as a signed number. -/
theorem signExtend : Obligations.SignExtend := by
  intro s rX rY hsext
  refine ⟨?sextb, ?sexth⟩
  case sextb => exact computes_printedExtend decode_0x2C rfl (needs_of_present hsext)
  case sexth => exact computes_printedExtend decode_0x37 rfl (needs_of_present hsext)

end Sys2Proof.Machine
end

section
/-! The statements of the logic family: LogicRegisterForms (O10), LogicImmediateForms (O11) and PseudoInstructions (O12). A
pseudo-instruction executes as its expansion does (`exec_expand`), so its statement is the one of the machine instruction it stands
for, with register 0 as an operand. -/

namespace Sys2Proof.Machine

open Sys2Proof.Safety

/-! ### Immediates as the rules write them (30_encoding.md R157) -/

theorem zextImm_eq_ofNat (imm : BitVec 16) : zextImm imm = BitVec.ofNat 32 imm.toNat := (BitVec.ofNat_toNat 32 imm).symm

theorem highImm_eq_ofNat (imm : BitVec 16) : highImm imm = BitVec.ofNat 32 (imm.toNat * 65536) := by
  apply BitVec.eq_of_toNat_eq
  have hlt : imm.toNat * 65536 < 2 ^ 32 := by omega
  have happend : (highImm imm).toNat = imm.toNat <<< 16 ||| 0 := BitVec.toNat_append imm 0#16
  rw [happend, Nat.or_zero, Nat.shiftLeft_eq, BitVec.toNat_ofNat, Nat.mod_eq_of_lt hlt]

theorem sextImm_zero : sextImm 0#16 = 0#32 := rfl

/-! ### Pseudo-instructions (30_encoding.md R176) -/

/-- A pseudo-instruction executes as the machine instruction it stands for. -/
theorem exec_expand (i : Instr) (s : State) : exec i.expand s = exec i s := by
  cases i with
  | ret | mv | mvhi | not | mvi | nop => rfl
  | _ => rfl

/-- What the expansion of an instruction computes, the instruction does. -/
theorem effect_of_computes_expand {w : Word} {i : Instr} {s : State} {r : Reg} {v : Word} (h : Computes w i.expand s r v) :
    ∃ t, exec i s = .next t ∧ Writes s t r v (s.pc + 4#32) := by
  obtain ⟨-, hexec⟩ := h
  rwa [exec_expand] at hexec

/-- Writing to a register the value it holds only moves the pc on. -/
theorem State.result_reg_self (s : State) (r : Reg) : s.result r (s.reg r) = s.advance := by
  have hregs : s.regs.set r.toNat (s.reg r) r.isLt = s.regs := Vector.set_getElem_self r.isLt
  rw [State.result, State.setReg, hregs]

/-! ### The statements -/

/-- Settles O10: each register form is the words' own operation. -/
theorem logicRegisterForms : Obligations.LogicRegisterForms := by
  intro s rX rY rZ
  refine ⟨?and, ?or, ?xor, ?nor, ?xnor⟩
  case and => exact computes_printedRR decode_0x28 rfl rfl
  case or => exact computes_printedRR decode_0x2E rfl rfl
  case xor => exact computes_printedRR decode_0x26 rfl rfl
  case nor => exact computes_printedRR decode_0x21 rfl rfl
  case xnor => exact computes_printedRR decode_0x29 rfl rfl

/-- Settles O11: the operations of the register forms, on the zero-extended immediate or on the immediate times 2^16. -/
theorem logicImmediateForms : Obligations.LogicImmediateForms := by
  intro s rX rY imm
  rw [← zextImm_eq_ofNat, ← highImm_eq_ofNat]
  refine ⟨?andi, ?andhi, ?ori, ?orhi, ?xori, ?nori, ?xnori⟩
  case andi => exact computes_printedRI decode_0x08 rfl rfl
  case andhi => exact computes_printedRI decode_0x18 rfl rfl
  case ori => exact computes_printedRI decode_0x0E rfl rfl
  case orhi => exact computes_printedRI decode_0x1E rfl rfl
  case xori => exact computes_printedRI decode_0x06 rfl rfl
  case nori => exact computes_printedRI decode_0x01 rfl rfl
  case xnori => exact computes_printedRI decode_0x09 rfl rfl

/-- `nop` writes back to register 0 the value it holds (41_logic.md R237). -/
theorem exec_nop (s : State) : exec .nop s = .next s.advance :=
  calc exec .nop s
    _ = .next (s.result 0#5 (s.reg 0#5 + sextImm 0#16)) := rfl
    _ = .next s.advance := by rw [sextImm_zero, BitVec.add_zero, State.result_reg_self]

/-- Settles O12: the statements of `xnor`, `or`, `orhi` and `addi` with register 0 in the place of an operand. -/
theorem pseudoInstructions : Obligations.PseudoInstructions := by
  intro s rX rY imm
  obtain ⟨-, hor, -, -, hxnor⟩ := logicRegisterForms s rX rY 0#5
  obtain ⟨-, -, -, horhi, -⟩ := logicImmediateForms s rX 0#5 imm
  obtain ⟨-, haddi, -⟩ := addAndSubtract s rX 0#5 0#5 imm
  rw [printedRR_two] at hor hxnor
  rw [printedRI_one] at horhi haddi
  rw [← highImm_eq_ofNat] at horhi
  exact ⟨hxnor.1, effect_of_computes_expand (i := .not rX rY) hxnor,
    hor.1, effect_of_computes_expand (i := .mv rX rY) hor,
    horhi.1, effect_of_computes_expand (i := .mvhi rX imm) horhi,
    haddi.1, effect_of_computes_expand (i := .mvi rX imm) haddi,
    decodeInvertsEncode .nop rfl, exec_nop s⟩

end Sys2Proof.Machine
end

section
/-! The statements of the comparison family: CompareRegisterForms (O13) and CompareImmediateForms (O14). A comparison writes the word
of a condition (`boolWord_decide`), and an extended immediate has the signed or unsigned value of its 16 bits, so that an immediate
form is the comparison of two words. -/

namespace Sys2Proof.Machine

open Sys2Proof.Safety

/-! ### The word of a condition (42_comparison.md R262) -/

section Condition
variable (p : Prop) [Decidable p]

theorem boolWord_decide : boolWord (decide p) = if p then 1#32 else 0#32 := by
  simp only [boolWord, decide_eq_true_eq]

theorem boolWord_decide_not : boolWord (decide ¬p) = if p then 0#32 else 1#32 := by
  rw [boolWord_decide, ite_not]

end Condition

/-! ### The value of an extended immediate (30_encoding.md R157) -/

theorem toInt_sextImm (imm : BitVec 16) : (sextImm imm).toInt = imm.toInt := BitVec.toInt_signExtend_of_le (by decide)

theorem toNat_zextImm (imm : BitVec 16) : (zextImm imm).toNat = imm.toNat := BitVec.toNat_setWidth_of_le (by decide)

/-! ### The statements -/

/-- Settles O13: each relation is the one of the rule, and its word is written. -/
theorem compareRegisterForms : Obligations.CompareRegisterForms := by
  intro s rX rY rZ
  simp only [← boolWord_decide, ← boolWord_decide_not]
  refine ⟨?cmpe, ?cmpne, ?cmpg, ?cmpgu, ?cmpge, ?cmpgeu⟩
  case cmpe => exact computes_printedRR decode_0x39 rfl rfl
  case cmpne => exact computes_printedRR decode_0x3F rfl rfl
  case cmpg => exact computes_printedRR decode_0x3A rfl rfl
  case cmpgu => exact computes_printedRR decode_0x3D rfl rfl
  case cmpge => exact computes_printedRR decode_0x3B rfl rfl
  case cmpgeu => exact computes_printedRR decode_0x3C rfl rfl

/-- Settles O14: the relations of the register forms, between rY and the extended immediate; words of one signed value are equal. -/
theorem compareImmediateForms : Obligations.CompareImmediateForms := by
  intro s rX rY imm
  rw [← toInt_sextImm, ← toNat_zextImm]
  simp only [BitVec.toInt_inj, ← boolWord_decide, ← boolWord_decide_not]
  refine ⟨?cmpei, ?cmpnei, ?cmpgi, ?cmpgui, ?cmpgei, ?cmpgeui⟩
  case cmpei => exact computes_printedRI decode_0x19 rfl rfl
  case cmpnei => exact computes_printedRI decode_0x1F rfl rfl
  case cmpgi => exact computes_printedRI decode_0x1A rfl rfl
  case cmpgui => exact computes_printedRI decode_0x1D rfl rfl
  case cmpgei => exact computes_printedRI decode_0x1B rfl rfl
  case cmpgeui => exact computes_printedRI decode_0x1C rfl rfl

end Sys2Proof.Machine
end

section
/-! The statement of the shift family: Shifts (O15). A shift by `n` is arithmetic with 2^n: a product of the value, or a quotient of
its unsigned or signed reading, rounded down. -/

namespace Sys2Proof.Machine

open Sys2Proof.Safety

/-- The printed words of the shifts by an immediate (30_encoding.md R156). -/
theorem computes_printedShift {op : BitVec 6} {base : Word} {s : State} {rX rY r : Reg} {n : BitVec 5} {v : Word}
    {mk : Reg → Reg → BitVec 5 → Instr} (hdec : ∀ {w}, opcode w = op → decode w = decodeShiftImm mk w)
    (hbase : op.setWidth 32 <<< 26 = base) (hexec : exec (mk rX rY n) s = .next (s.result r v)) :
    Computes (printedShift base rX rY n) (mk rX rY n) s r v :=
  computes_result (by rw [← hbase, printedShift_eq, decode_wordShiftImm hdec]) hexec

/-! ### Shifts are arithmetic with a power of two (43_shift.md R270 to R276) -/

/-- The count is read modulo 32. -/
theorem shiftCount_eq_mod (v : Word) : shiftCount v = v.toNat % 32 := BitVec.extractLsb'_toNat 0 5 v

section Powers
variable {w : Nat} (a : BitVec w) (n : Nat)

/-- Left is the product of the unsigned value, modulo 2^w. -/
theorem shiftLeft_eq_ofNat : a <<< n = BitVec.ofNat w (a.toNat * 2 ^ n) := by
  rw [← Nat.shiftLeft_eq]; rfl

/-- Logical right is the quotient of the unsigned value. -/
theorem ushiftRight_eq_ofNat : a >>> n = BitVec.ofNat w (a.toNat / 2 ^ n) := by
  apply BitVec.eq_of_toNat_eq
  have hlt : a.toNat / 2 ^ n < 2 ^ w := (Nat.div_le_self ..).trans_lt a.isLt
  rw [BitVec.toNat_ushiftRight, Nat.shiftRight_eq_div_pow, BitVec.toNat_ofNat, Nat.mod_eq_of_lt hlt]

/-- Arithmetic right is the floored quotient of the signed value. -/
theorem sshiftRight_eq_ofInt : a.sshiftRight n = BitVec.ofInt w (a.toInt / 2 ^ n) := by
  rw [BitVec.sshiftRight, Int.shiftRight_eq_div_pow, Int.natCast_pow, Int.cast_ofNat_Int]

end Powers

/-! ### The statement -/

/-- Settles O15: either shifter is the unit that the six need; with the arithmetic of the rules read as the words' own shifts, each
form is its instruction's execution. -/
theorem shifts : Obligations.Shifts := by
  intro s rX rY rZ n h
  have hshift : s.cfg.hasShift = true := Bool.or_eq_true_iff.mpr h
  simp only [← shiftCount_eq_mod, ← shiftLeft_eq_ofNat, ← sshiftRight_eq_ofInt, ← ushiftRight_eq_ofNat]
  refine ⟨?sl, ?sli, ?sr, ?sri, ?sru, ?srui⟩
  case sl => exact computes_printedRR decode_0x2F rfl (needs_of_present hshift)
  case sli => exact computes_printedShift decode_0x0F rfl (needs_of_present hshift)
  case sr => exact computes_printedRR decode_0x25 rfl (needs_of_present hshift)
  case sri => exact computes_printedShift decode_0x05 rfl (needs_of_present hshift)
  case sru => exact computes_printedRR decode_0x20 rfl (needs_of_present hshift)
  case srui => exact computes_printedShift decode_0x00 rfl (needs_of_present hshift)

end Sys2Proof.Machine
end

section
/-! The statements of the data-transfer family: LoadsFromMemory (O16), StoresToMemory (O17) and LoadStoreTraps (O19). A load that may
return memory's bytes alone gives their value, a store is `State.storeMemory` in the words of the rules, and the accesses that do not
complete end alike for loads and stores. -/

namespace Sys2Proof.Machine

open Sys2Proof.Safety

/-! ### Loads of memory's own bytes (44_data_transfer.md R286 to R290) -/

section FreshLoad
variable {s : State} {n : AccessSize} {a : Word}

/-- Where no other byte may be returned, a load gives the value of the bytes that memory holds. -/
theorem State.loadMemory_of_fresh (h : Fresh s n a) :
    s.loadMemory n a = bytesValue ((List.range n.bytes).map fun k => s.byteAt (a + BitVec.ofNat 32 k)) := by
  rw [State.loadMemory_eq]
  exact congrArg bytesValue (List.map_congr_left fun k hk => State.loadByte_of_fresh _ (h k (List.mem_range.mp hk)))

theorem State.loadMemory_byte_of_fresh (h : Fresh s .byte a) : s.loadMemory .byte a = (s.byteAt a).setWidth 32 := by
  rw [State.loadMemory_of_fresh h, ← bytesValue_byte]
  simp [AccessSize.bytes]

theorem State.loadMemory_half_of_fresh (h : Fresh s .half a) :
    s.loadMemory .half a = (s.byteAt a ++ s.byteAt (a + 1#32)).setWidth 32 := by
  rw [State.loadMemory_of_fresh h, ← bytesValue_half]
  simp [AccessSize.bytes, List.range_succ]

theorem State.loadMemory_word_of_fresh (h : Fresh s .word a) : s.loadMemory .word a = heldWord s a := by
  refine (State.loadMemory_of_fresh h).trans (Eq.trans ?_ (bytesValue_word _ _ _ _))
  simp [AccessSize.bytes, List.range_succ]

end FreshLoad

/-- Sign-extending the low part of a value zero-extended from that part is sign-extending the part. -/
theorem signExtend_low_setWidth {m : Nat} (hm : m ≤ 32) (x : BitVec m) :
    ((x.setWidth 32).extractLsb' 0 m).signExtend 32 = BitVec.ofInt 32 x.toInt := by
  have hlow : (x.setWidth 32).extractLsb' 0 m = x := by
    apply BitVec.eq_of_getLsbD_eq
    intro j hj
    simp [hj, show j < 32 by omega]
  rw [hlow]
  rfl

section Printed
variable {op : BitVec 6} {base : Word} {s : State} {n : AccessSize} {rX rY : Reg} {imm : BitVec 16} {a v : Word}

/-- The printed word of a load is that load, and it writes what `ext` makes of the value in memory. -/
theorem loads_printedRI {mk : Reg → Reg → BitVec 16 → Instr} {ext : Word → Word} (ha : s.reg rY + imm.signExtend 32 = a)
    (hreach : Reaches s .read n a) (hdec : ∀ {w}, opcode w = op → decode w = decodeRI mk w) (hbase : op.setWidth 32 <<< 26 = base)
    (hexec : exec (mk rX rY imm) s = s.load n ext rX rY imm) (hv : ext (s.loadMemory n a) = v) :
    Loads (printedRI base rX rY imm) (mk rX rY imm) s n a rX v := by
  refine ⟨by rw [← hbase, printedRI_eq, decode_wordRI hdec], _, hexec.trans (State.load_of_memory ha ext rX hreach), ?_⟩
  rw [← hv]
  exact s.cacheLoad_loadsAt n a rX _

end Printed

/-- Settles O16: with the value in memory written as its bytes, each form is a load that extends it. -/
theorem loadsFromMemory : Obligations.LoadsFromMemory := by
  intro s rX rY imm a ha
  refine ⟨fun hreach hfresh => ?byte, fun hreach hfresh => ?half, fun hreach hfresh => ?word⟩
  case byte =>
    have hvalue := State.loadMemory_byte_of_fresh hfresh
    exact ⟨loads_printedRI ha.symm hreach decode_0x04 rfl rfl ((congrArg sextByte hvalue).trans (signExtend_low_setWidth (by decide) _)),
      loads_printedRI (ext := id) ha.symm hreach decode_0x10 rfl rfl (hvalue.trans (BitVec.ofNat_toNat ..).symm)⟩
  case half =>
    have hvalue := State.loadMemory_half_of_fresh hfresh
    exact ⟨loads_printedRI ha.symm hreach decode_0x07 rfl rfl ((congrArg sextHalf hvalue).trans (signExtend_low_setWidth (by decide) _)),
      loads_printedRI (ext := id) ha.symm hreach decode_0x0B rfl rfl (hvalue.trans (BitVec.ofNat_toNat ..).symm)⟩
  case word =>
    exact loads_printedRI (ext := id) ha.symm hreach decode_0x0A rfl rfl (State.loadMemory_word_of_fresh hfresh)

/-! ### Stores to memory (44_data_transfer.md R291 to R293) -/

/-- The word that a store overwrites may still be fetched, unless an instruction cache does not cover it (20_memory.md R125;
70_reset_and_hazards.md R513). -/
theorem storeLife_ne_none {c : Cfg} {a : Word} (h : c.hasICache = true → codeCached c a = true) : storeLife c a ≠ none := by
  unfold storeLife
  split
  · next hc => rw [if_pos (h hc)]; exact Option.some_ne_none _
  · exact Option.some_ne_none _

/-- A store masks earlier bytes and adds none. -/
theorem State.staleData_storeMemory_earlier {s : State} {a : Word} {bs : List Byte} {e : StaleByte}
    (h : e ∈ (s.storeMemory a bs).staleData) : ∃ e' ∈ s.staleData, e = { e' with masked := e.masked } := by
  rw [State.storeMemory_staleData] at h
  obtain ⟨e', he', rfl⟩ := List.mem_map.mp h
  refine ⟨e', he', ?_⟩
  split <;> rfl

/-- What a store to memory leaves in the caches. -/
theorem State.storeMemory_recordsStore (s : State) (n : AccessSize) (a v : Word) :
    RecordsStore s (s.storeMemory a (storeBytes n v)).advance n a := by
  refine ⟨State.recordCode_recordsWord rfl storeLife_ne_none, fun e he => State.staleData_storeMemory_earlier he, ?_⟩
  rintro hwf b ⟨k, hk, rfl⟩
  exact State.oldBytes_storeMemory hwf (storeBytes_length_le n v) (by rwa [storeBytes_length])

/-- A store to memory, in the words of the rules. -/
theorem State.storeMemory_storesAt (s : State) (n : AccessSize) (a v : Word) :
    StoresAt s (s.storeMemory a (storeBytes n v)).advance n a v := by
  have houtside : ∀ b, ¬ Stored n a b → (s.storeMemory a (storeBytes n v)).byteAt b = s.byteAt b := fun b hb =>
    State.byteAt_storeMemory_ne s a b _ fun k hk e => hb ⟨k, by rwa [storeBytes_length] at hk, e⟩
  exact ⟨rfl, fun _ => rfl, houtside, s.storeMemory_recordsStore n a v, State.store_cachesStore rfl rfl, rfl⟩

/-- In canonical memory a store leaves the low part of its value, the most significant byte first (20_memory.md R110). -/
theorem State.byteAt_storeMemory_stored {s : State} (hwf : s.mem.wf = true) (n : AccessSize) (a v : Word) {k : Nat} (hk : k < n.bytes) :
    (s.storeMemory a (storeBytes n v)).byteAt (a + BitVec.ofNat 32 k) = v.extractLsb' (8 * (n.bytes - 1 - k)) 8 := by
  rw [State.byteAt_storeMemory_self a _ hwf (storeBytes_length_le n v) k (by rwa [storeBytes_length])]
  cases n <;> simp only [AccessSize.bytes] at hk <;> interval_cases k <;> rfl

/-- The byte at no offset. -/
theorem State.byteAt_of_offset_zero {s : State} {a : Word} {b : Byte} (h : s.byteAt (a + BitVec.ofNat 32 0) = b) : s.byteAt a = b := by
  rwa [BitVec.add_zero] at h

section Printed
variable {op : BitVec 6} {base : Word} {s : State} {n : AccessSize} {rX rY : Reg} {imm : BitVec 16} {a : Word}

/-- The printed word of a store is that store, and what it leaves has every property `P` that follows from the bytes of the low part
of its register. -/
theorem stores_printedRI {mk : Reg → BitVec 16 → Reg → Instr} {P : State → Prop} (ha : s.reg rX + imm.signExtend 32 = a)
    (hreach : Reaches s .write n a) (hdec : ∀ {w}, opcode w = op → decode w = decodeStore mk w) (hbase : op.setWidth 32 <<< 26 = base)
    (hexec : exec (mk rX imm rY) s = s.store n rX imm rY)
    (hbytes : ∀ t : State,
      (∀ k, k < n.bytes → t.byteAt (a + BitVec.ofNat 32 k) = (s.reg rY).extractLsb' (8 * (n.bytes - 1 - k)) 8) → P t) :
    ∃ t, decode (printedRI base rY rX imm) = .instr (mk rX imm rY) ∧ exec (mk rX imm rY) s = .next t ∧
      StoresAt s t n a (s.reg rY) ∧ (Memory.wf s.mem = true → P t) :=
  ⟨_, by rw [← hbase, printedRI_eq, decode_wordRI_store hdec], hexec.trans (State.store_of_memory ha rY hreach),
    s.storeMemory_storesAt n a _, fun hwf => hbytes _ fun _ hk => State.byteAt_storeMemory_stored hwf n a _ hk⟩

end Printed

/-- Settles O17: each form is a store of its width; the bytes that it leaves are read off at their places. -/
theorem storesToMemory : Obligations.StoresToMemory := by
  intro s rX rY imm a ha
  refine ⟨fun hreach => ?byte, fun hreach => ?half, fun hreach => ?word⟩
  case byte =>
    exact stores_printedRI ha.symm hreach decode_0x0C rfl rfl fun t ht => State.byteAt_of_offset_zero (ht 0 (by decide))
  case half =>
    exact stores_printedRI ha.symm hreach decode_0x03 rfl rfl fun t ht =>
      ⟨State.byteAt_of_offset_zero (ht 0 (by decide)), ht 1 (by decide)⟩
  case word =>
    exact stores_printedRI ha.symm hreach decode_0x16 rfl rfl fun t ht =>
      ⟨State.byteAt_of_offset_zero (ht 0 (by decide)), ht 1 (by decide), ht 2 (by decide), ht 3 (by decide)⟩

/-! ### Accesses that do not complete (44_data_transfer.md R294) -/

/-- How a data access ends that does not complete, for loads and stores alike. -/
def DataAccess.failure (s : State) : DataAccess → Option (Host.Outcome State Fault Refusal)
  | .trap e => some (.next (s.enter e))
  | .misaligned => some (.fault .misalignedData)
  | .stuck => some (.next s.stall)
  | .device => none
  | .memory => none

section Failure
variable {s : State} {n : AccessSize} {base : Reg} {imm : BitVec 16} {o : Host.Outcome State Fault Refusal}

theorem State.load_of_failure (ext : Word → Word) (dest : Reg)
    (h : (s.dataAccess .read n (s.effAddr base imm)).failure s = some o) : s.load n ext dest base imm = o := by
  simp only [State.load]
  generalize s.dataAccess .read n (s.effAddr base imm) = d at h
  cases d with
  | trap | misaligned | stuck => exact Option.some.inj h
  | device | memory => cases h

theorem State.store_of_failure (data : Reg)
    (h : (s.dataAccess .write n (s.effAddr base imm)).failure s = some o) : s.store n base imm data = o := by
  simp only [State.store]
  generalize s.dataAccess .write n (s.effAddr base imm) = d at h
  cases d with
  | trap | misaligned | stuck => exact Option.some.inj h
  | device | memory => cases h

/-- Whatever instruction has a data operand ends as its access does, if that does not complete. -/
theorem exec_of_failure {i : Instr} {k : AccessKind} (hi : dataOperand i = some (k, n, base, imm))
    (h : (s.dataAccess k n (s.effAddr base imm)).failure s = some o) : exec i s = o := by
  cases i with
  | lb => cases hi; exact State.load_of_failure _ _ h
  | lbu => cases hi; exact State.load_of_failure _ _ h
  | lh => cases hi; exact State.load_of_failure _ _ h
  | lhu => cases hi; exact State.load_of_failure _ _ h
  | lw => cases hi; exact State.load_of_failure _ _ h
  | sb => cases hi; exact State.store_of_failure _ h
  | sh => cases hi; exact State.store_of_failure _ h
  | sw => cases hi; exact State.store_of_failure _ h
  | _ => cases hi

end Failure

section Access
variable {s : State} {k : AccessKind} {n : AccessSize} {a : Word}

theorem State.dataAccess_of_watchpoint (hw : s.watchpointHit k a = true) : s.dataAccess k n a = .trap .watchpoint := if_pos hw

theorem State.dataAccess_of_misaligned (hw : s.watchpointHit k a = false) (ha : aligned n a = false) :
    s.dataAccess k n a = .misaligned := by
  simp [State.dataAccess, hw, ha]

theorem State.dataAccess_of_busError (hw : s.watchpointHit k a = false) (ha : aligned n a = true)
    (hr : respond s.cfg k n a = .busError) : s.dataAccess k n a = .trap .dataBusError := by
  simp [State.dataAccess, hw, ha, hr]

theorem State.dataAccess_of_noResponse (hw : s.watchpointHit k a = false) (ha : aligned n a = true)
    (hr : respond s.cfg k n a = .noResponse) : s.dataAccess k n a = .stuck := by
  simp [State.dataAccess, hw, ha, hr]

end Access

/-- Settles O19: the first of the steps of R294 that fails decides the access, and the access the instruction. -/
theorem loadStoreTraps : Obligations.LoadStoreTraps := by
  intro s i k n base imm a hi ha
  have hfail : ∀ {o}, (s.dataAccess k n a).failure s = some o → exec i s = o := fun h => exec_of_failure hi (by rwa [ha] at h)
  refine ⟨fun hw => ?watchpoint, fun hw hal => ?misaligned, fun hw hal hr => ?busError, fun hw hal hr => ?noResponse⟩
  case watchpoint =>
    exact ⟨s.enter .watchpoint, hfail (by rw [State.dataAccess_of_watchpoint hw]; rfl), s.enter_enteredDebug rfl⟩
  case misaligned => exact hfail (by rw [State.dataAccess_of_misaligned hw hal]; rfl)
  case busError =>
    exact ⟨s.enter .dataBusError, hfail (by rw [State.dataAccess_of_busError hw hal hr]; rfl), s.enter_enteredNonDebug rfl⟩
  case noResponse => exact hfail (by rw [State.dataAccess_of_noResponse hw hal hr]; rfl)

end Sys2Proof.Machine
end

section
/-! The statements of the program-flow family: ImmediateTransfers (O35), RegisterTransfers (O36), ConditionalBranches (O38), SystemCall
(O39), SoftwareBreakpoint (O40) and ExceptionReturns (O41), and DecodesPrintedWords (O3). Every taken transfer is a `State.jump`, with or
without a link register written before it, and every conditional branch a `State.branchIf` of its relation. -/

namespace Sys2Proof.Machine

open Sys2Proof.Safety

/-! ### The printed words of transfers (45_program_flow.md R320) -/

section Printed
variable {op : BitVec 6} {base : Word}

/-- The printed words with a 26-bit immediate. -/
theorem decode_printedI {mk : BitVec 26 → Instr} (hdec : ∀ {w}, opcode w = op → decode w = .instr (mk (fieldImm26 w)))
    (hbase : op.setWidth 32 <<< 26 = base) (imm : BitVec 26) : decode (base ||| imm.setWidth 32) = .instr (mk imm) := by
  rw [← hbase, printedI_eq, decode_wordI hdec]

/-- The printed words with one register, in bits 25:21. -/
theorem decode_printedRegister {mk : Reg → Instr}
    (hdec : ∀ {w}, opcode w = op → decode w = requireZero (w.extractLsb' 0 21) (mk (field0 w)))
    (hbase : op.setWidth 32 <<< 26 = base) (r : Reg) : decode (base ||| fieldAt r 21) = .instr (mk r) := by
  rw [← hbase, ← printedRR_one, printedRR_eq, decode_wordRR_register hdec]

end Printed

/-! ### Transfers of control (45_program_flow.md R321, R335) -/

section Transfers
variable (s : State) {a : Word}

/-- A jump transfers control and does nothing else. -/
theorem State.jump_goesTo (a : Word) : GoesTo s (s.jump a) a :=
  ⟨s.jump_pc a, s.reg_jump a, State.byteAt_congr (s.jump_mem a), s.jump_staleCode a, rfl⟩

/-- A jump after a register was written leaves the value in the register. -/
theorem State.setReg_jump_links (r : Reg) (v a : Word) : Links s ((s.setReg r v).jump a) r v a :=
  ⟨State.jump_pc _ a, s.reg_setReg_self r v, fun _ hq => s.reg_setReg_ne v hq, State.byteAt_congr (State.jump_mem _ a),
    State.jump_staleCode _ a, rfl⟩

/-- A transfer to a register that holds a multiple of 4 is a jump (R40). -/
theorem State.jumpTo_of_aligned (h : a.toNat % 4 = 0) : s.jumpTo a = .next (s.jump a) :=
  State.jumpTo_next.mpr ⟨(wordAligned_iff a).mpr h, rfl⟩

/-- So is a return, which also restores IE.IE (60_exceptions.md R446). -/
theorem State.returnTo_of_aligned (h : a.toNat % 4 = 0) (e : Bool) : s.returnTo a e = .next { s.jump a with ieIE := e } :=
  State.returnTo_next.mpr ⟨(wordAligned_iff a).mpr h, rfl⟩

/-- A transfer to the address in a register goes to it. -/
theorem State.jumpTo_goesTo (h : a.toNat % 4 = 0) : ∃ t, s.jumpTo a = .next t ∧ GoesTo s t a :=
  ⟨_, s.jumpTo_of_aligned h, s.jump_goesTo a⟩

/-- A return goes to its address with the saved enable bit, and does nothing else. -/
theorem State.returnTo_returns (h : a.toNat % 4 = 0) (e : Bool) :
    ∃ t, s.returnTo a e = .next t ∧ t.pc = a ∧ t.ieIE = e ∧ (∀ r, t.reg r = s.reg r) ∧ (∀ b, t.byteAt b = s.byteAt b) ∧
      Refetched s t ∧ t = { s with pc := t.pc, ieIE := t.ieIE, staleCode := t.staleCode } :=
  ⟨_, s.returnTo_of_aligned h e, rfl, rfl, fun _ => rfl, fun _ => rfl, rfl, rfl⟩

end Transfers

/-! ### Conditional branches (45_program_flow.md R323, R330) -/

section Branching
variable {s : State} {rX rY : Reg} {imm : BitVec 16}

/-- BRANCH_OPERAND_FIELDS places the operands as R330 says. -/
theorem State.branchOperands_eq (s : State) (rX rY : Reg) : s.branchOperands rX rY = (leftOperand s rX rY, rightOperand s rX rY) := by
  unfold State.branchOperands leftOperand rightOperand
  cases s.cfg.branchFields <;> rfl

/-- A conditional branch jumps where its relation holds, and else moves on. -/
theorem State.branchIf_branches (s : State) (taken : Prop) [Decidable taken] (imm : BitVec 16) :
    Branches s (s.branchIf (decide taken) imm) taken imm := by
  refine ⟨fun h => ?taken, fun h => ?notTaken⟩
  case taken =>
    rw [decide_eq_true h]
    exact s.jump_goesTo (s.target16 imm)
  case notTaken =>
    rw [decide_eq_false h]
    exact rfl

/-- An instruction whose execution branches on a relation between its operands, with its printed word. -/
theorem branches_printedRI {op : BitVec 6} {base : Word} {mk : Reg → Reg → BitVec 16 → Instr} {rel : Word → Word → Prop}
    [DecidableRel rel] (hdec : ∀ {w}, opcode w = op → decode w = decodeRI mk w) (hbase : op.setWidth 32 <<< 26 = base)
    (hexec : exec (mk rX rY imm) s =
      .next (s.branchIf (decide (rel (s.branchOperands rX rY).1 (s.branchOperands rX rY).2)) imm)) :
    decode (printedRI base rX rY imm) = .instr (mk rX rY imm) ∧
      ∃ t, exec (mk rX rY imm) s = .next t ∧ Branches s t (rel (leftOperand s rX rY) (rightOperand s rX rY)) imm := by
  rw [State.branchOperands_eq] at hexec
  exact ⟨by rw [← hbase, printedRI_eq, decode_wordRI hdec], _, hexec, s.branchIf_branches _ imm⟩

end Branching

/-! ### The statements -/

/-- Settles O35: both instructions jump to the target of their immediate, `calli` after it wrote ra. -/
theorem immediateTransfers : Obligations.ImmediateTransfers := by
  intro s imm
  refine ⟨decode_printedI decode_0x38 rfl imm, ?bi, decode_printedI decode_0x3E rfl imm, ?calli⟩
  case bi => exact ⟨_, rfl, s.jump_goesTo (s.target26 imm)⟩
  case calli => exact ⟨_, rfl, s.setReg_jump_links ra (s.pc + 4#32) (s.target26 imm)⟩

/-- Settles O36: the target is read from the state before ra is written, and `ret` is `b ra`. -/
theorem registerTransfers : Obligations.RegisterTransfers := by
  intro s rX h
  refine ⟨fun hea hba => ?decodeB, s.jumpTo_goesTo h, decode_printedRegister decode_0x36 rfl rX, ?call,
    decodeInvertsEncode .ret rfl, ?ret⟩
  case decodeB =>
    have hword := decode_printedRegister (mk := transferTo) decode_0x30 rfl rX
    rwa [transferTo_of_ne hea hba] at hword
  case call =>
    exact ⟨_, State.jumpTo_of_aligned (s.setReg ra (s.pc + 4#32)) h, s.setReg_jump_links ra (s.pc + 4#32) (s.reg rX)⟩
  case ret =>
    rintro rfl
    exact s.jumpTo_goesTo h

/-- Settles O38: each of the six is a branch on its relation. -/
theorem conditionalBranches : Obligations.ConditionalBranches := by
  rintro s rX rY imm _ _ rfl rfl
  refine ⟨?be, ?bne, ?bg, ?bgu, ?bge, ?bgeu⟩
  case be => exact branches_printedRI (rel := (· = ·)) decode_0x11 rfl rfl
  case bne => exact branches_printedRI (rel := (· ≠ ·)) decode_0x17 rfl rfl
  case bg => exact branches_printedRI (rel := fun a b => a.toInt > b.toInt) decode_0x12 rfl rfl
  case bgu => exact branches_printedRI (rel := fun a b => a.toNat > b.toNat) decode_0x15 rfl rfl
  case bge => exact branches_printedRI (rel := fun a b => a.toInt ≥ b.toInt) decode_0x13 rfl rfl
  case bgeu => exact branches_printedRI (rel := fun a b => a.toNat ≥ b.toNat) decode_0x14 rfl rfl

/-- Settles O39: `scall` is the entry of SystemCall. -/
theorem systemCall : Obligations.SystemCall :=
  ⟨decodeInvertsEncode .scall rfl, fun s => ⟨_, rfl, s.enter_enteredNonDebug (e := .systemCall) rfl⟩⟩

/-- Settles O40: debug support decides between the entry of Breakpoint and the refusal. -/
theorem softwareBreakpoint : Obligations.SoftwareBreakpoint := by
  refine ⟨decodeInvertsEncode .brk rfl, fun s => ⟨fun hdebug => ?entered, fun hdebug => ?refused⟩⟩
  case entered => exact ⟨s.enter .breakpoint, if_pos hdebug, s.enter_enteredDebug rfl⟩
  case refused => exact if_neg (Bool.eq_false_iff.mp hdebug)

/-- Settles O41: `eret` returns to ea with EIE, `bret` to ba with BIE. -/
theorem exceptionReturns : Obligations.ExceptionReturns := by
  refine ⟨decodeInvertsEncode .eret rfl, decodeInvertsEncode .bret rfl, fun s => ⟨fun h => ?eret, fun h => ?bret⟩⟩
  case eret => exact s.returnTo_returns h s.ieEIE
  case bret => exact s.returnTo_returns h s.ieBIE

/-- Settles O3: each printed word is the one that the encoder gives for its instruction. -/
theorem decodesPrintedWords : Obligations.DecodesPrintedWords :=
  ⟨decodeInvertsEncode (.add 14#5 15#5 17#5) rfl,
    decodeInvertsEncode (.addi 4#5 2#5 0xFFE0#16) rfl,
    decodeInvertsEncode (.sextb 14#5 15#5) rfl,
    decodeInvertsEncode (.andi 4#5 2#5 0x5555#16) rfl,
    decodeInvertsEncode (.cmpe 14#5 15#5 17#5) rfl,
    decodeInvertsEncode (.sli 4#5 2#5 17#5) rfl,
    decodeInvertsEncode (.lw 4#5 2#5 8#16) rfl,
    decodeInvertsEncode (.sw 2#5 8#16 4#5) rfl,
    decodeInvertsEncode (.rcsr 15#5 1#5) rfl,
    decodeInvertsEncode (.wcsr 1#5 15#5) rfl,
    decodeInvertsEncode (.b 3#5) rfl,
    decodeInvertsEncode (.calli 0x380#26) rfl,
    decodeInvertsEncode .scall rfl,
    decodeInvertsEncode .eret rfl⟩

end Sys2Proof.Machine
end

section
/-! The statements of the exceptions family: WatchpointMatch (O21), DebugEntry (O42), NonDebugEntry (O43), EntryThenReturn (O44),
ExceptionsBeforeInterrupt (O45), StepTakesInterrupt (O47), StepTakesBreakpoint (O48) and StepTakesFetchBusError (O49). What an entry
does is `State.enter_enteredNonDebug` and `State.enter_enteredDebug`; what is added here is when each entry comes about. -/

namespace Sys2Proof.Machine

open Sys2Proof.Safety

/-! ### Exception entry and return (60_exceptions.md R410, R411, R446, R447) -/

/-- Settles O42: both are entries of a debug exception, with their numbers. -/
theorem debugEntry : Obligations.DebugEntry :=
  fun s => ⟨s.enter_enteredDebug (e := .breakpoint) rfl, s.enter_enteredDebug (e := .watchpoint) rfl⟩

/-- Settles O43: the five are entries of a non-debug exception, with their numbers. -/
theorem nonDebugEntry : Obligations.NonDebugEntry :=
  fun s => ⟨s.enter_enteredNonDebug (e := .instructionBusError) rfl, s.enter_enteredNonDebug (e := .dataBusError) rfl,
    s.enter_enteredNonDebug (e := .divideByZero) rfl, s.enter_enteredNonDebug (e := .interrupt) rfl,
    s.enter_enteredNonDebug (e := .systemCall) rfl⟩

/-- The exceptions of R410 that are taken at an instruction are non-debug ones. -/
theorem isDebugExc_of_mem_nonDebug :
    ∀ e ∈ [Exc.instructionBusError, .dataBusError, .divideByZero, .interrupt, .systemCall], isDebugExc e = false := by decide

/-- Those of R411 are debug ones. -/
theorem isDebugExc_of_mem_debug : ∀ e ∈ [Exc.breakpoint, .watchpoint], isDebugExc e = true := by decide

/-- A return through the register `link`, in a state `u` that differs from `s` in no other register and in no byte of memory and
holds the pc of `s` there, gives back the pc of `s` and leaves those registers and bytes as they were in `s`. -/
theorem State.returnTo_restores {s u : State} {link : Reg} (hpc : s.pc.toNat % 4 = 0) (hlink : u.reg link = s.pc)
    (hregs : ∀ r, r ≠ link → u.reg r = s.reg r) (hmem : ∀ a, u.byteAt a = s.byteAt a) (enable : Bool) :
    ∃ t, u.returnTo (u.reg link) enable = .next t ∧ t.pc = s.pc ∧ t.ieIE = enable ∧ t.ieEIE = u.ieEIE ∧ t.ieBIE = u.ieBIE ∧
      (∀ r, r ≠ link → t.reg r = s.reg r) ∧ (∀ a, t.byteAt a = s.byteAt a) :=
  ⟨_, u.returnTo_of_aligned (by rwa [hlink]) enable, hlink, rfl, rfl, rfl, hregs, hmem⟩

/-- Settles O44: the entry leaves the pc in its link register and IE.IE in its saved bit, and the return takes both from there; the
saved bit of the other class is touched by neither. -/
theorem entryThenReturn : Obligations.EntryThenReturn := by
  intro s e hpc
  refine ⟨fun he => ?nonDebug, fun he => ?debug⟩
  case nonDebug =>
    have hclass := isDebugExc_of_mem_nonDebug e he
    obtain ⟨hea, heie, -, -, hregs, hmem, -⟩ := s.enter_enteredNonDebug hclass
    obtain ⟨t, ht, htpc, htie, -, htbie, hback⟩ := State.returnTo_restores hpc hea hregs hmem (s.enter e).ieEIE
    have hbie : (s.enter e).ieBIE = s.ieBIE := by rw [State.enter_ieBIE, hclass]; rfl
    exact ⟨t, ht, htpc, htie.trans heie, htbie.trans hbie, hback⟩
  case debug =>
    have hclass := isDebugExc_of_mem_debug e he
    obtain ⟨hba, hbie, -, -, hregs, hmem, -⟩ := s.enter_enteredDebug hclass
    obtain ⟨t, ht, htpc, htie, hteie, -, hback⟩ := State.returnTo_restores hpc hba hregs hmem (s.enter e).ieBIE
    have heie : (s.enter e).ieEIE = s.ieEIE := by rw [State.enter_ieEIE, hclass]; rfl
    exact ⟨t, ht, htpc, htie.trans hbie, hteie.trans heie, hback⟩

/-! ### Breakpoints and watchpoints (60_exceptions.md R440, R442) -/

/-- The search through the four debug registers of a kind finds one exactly when there is one. -/
theorem any_debugRegister {p : Fin 4 → Bool} : [0, 1, 2, 3].any p = true ↔ ∃ n, p n = true := by
  have hall : ∀ n : Fin 4, n ∈ [0, 1, 2, 3] := by decide
  rw [List.any_eq_true]
  exact exists_congr fun n => and_iff_right (hall n)

/-- Bit 0 of a field of DC enables the watchpoint for reads, bit 1 for writes (10_state.md R61). -/
theorem watchEnabled_iff {c : BitVec 2} {k : AccessKind} :
    watchEnabled c k = true ↔ (k = .read ∧ c.getLsbD 0 = true) ∨ (k = .write ∧ c.getLsbD 1 = true) := by
  cases k <;> simp [watchEnabled]

/-- Settles O21: the search through the watchpoints, with the bit of DC that each kind of access needs. -/
theorem watchpointMatch : Obligations.WatchpointMatch := by
  intro s k a
  simp only [State.watchpointHit, Cfg.hasDebug, Bool.and_eq_true, any_debugRegister, decide_eq_true_eq, beq_iff_eq,
    watchEnabled_iff, and_assoc]

/-- A breakpoint matches exactly when one that exists is enabled at the pc. -/
theorem State.breakpointHit_iff {s : State} :
    s.breakpointHit = true ↔
      s.cfg.debug = true ∧ ∃ n : Fin 4, n.val < s.cfg.breakpoints ∧ (s.bp[n]).e = true ∧ (s.bp[n]).a = s.pc.extractLsb' 2 30 := by
  simp only [State.breakpointHit, Cfg.hasDebug, Bool.and_eq_true, any_debugRegister, decide_eq_true_eq, beq_iff_eq, and_assoc]

/-- A breakpoint that matches is taken before the fetch. -/
theorem stepSampled_of_breakpoint {s : State} (hr : s.resetPin = false) (hw : s.waiting = false) (hss : s.dc.ss = false)
    (hb : s.breakpointHit = true) : stepSampled s = .next (s.enter .breakpoint) := by
  simp only [stepSampled, hr, hw, hss, hb, Bool.and_false, Bool.false_eq_true, if_false, if_true]

/-- Settles O48: the search through the breakpoints, and the order of the step. -/
theorem stepTakesBreakpoint : Obligations.StepTakesBreakpoint := by
  refine ⟨fun s => State.breakpointHit_iff, fun s hl hr hw hss hb => ?_⟩
  exact ⟨_, (step_of_legal hl).trans (stepSampled_of_breakpoint hr hw hss hb), s.sample.enter_enteredDebug (e := .breakpoint) rfl⟩

/-! ### A bus error of the fetch (60_exceptions.md R420) -/

/-- A fetch that may be made and that the platform answers with a bus error. -/
theorem State.fetch_busError {s : State} (ha : wordAligned s.pc = true) (hd : fetchDefined s.cfg s.pc = true)
    (hr : respond s.cfg .fetch .word s.pc = .busError) : s.fetch = .busError := by
  simp [State.fetch, ha, hd, hr]

/-- After such a fetch a core that is ready enters InstructionBusError. -/
theorem stepSampled_of_busError {s : State} (h : Ready s) (hf : s.fetch = .busError) :
    stepSampled s = .next (s.enter .instructionBusError) := by
  simp only [stepSampled, h.notReset, h.notWaiting, h.notStepping, h.noBreakpoint, hf, Bool.false_eq_true, if_false]

/-- Settles O49: the fetch of the sampled state ends in the bus error, and the step enters its exception. -/
theorem stepTakesFetchBusError : Obligations.StepTakesFetchBusError := by
  intro s hl hready ha hd hresp
  rw [← s.sample_cfg] at hd hresp
  have hf := State.fetch_busError ha hd hresp
  exact ⟨_, (step_of_legal hl).trans (stepSampled_of_busError hready hf),
    s.sample.enter_enteredNonDebug (e := .instructionBusError) rfl⟩

/-! ### The instruction's own exceptions (60_exceptions.md R403, items 4 to 7) -/

/-- A data access ends in an exception exactly when a watchpoint matches, or it is aligned and ends with a bus error. -/
theorem State.dataAccess_traps_iff {s : State} {k : AccessKind} {n : AccessSize} {a : Word} :
    (∃ e, s.dataAccess k n a = .trap e) ↔
      s.watchpointHit k a = true ∨ (aligned n a = true ∧ respond s.cfg k n a = .busError) := by
  constructor
  · rintro ⟨e, he⟩
    obtain ⟨-, hw⟩ | ⟨-, -, hal, hr⟩ := State.dataAccess_trap he
    · exact .inl hw
    · exact .inr ⟨hal, hr⟩
  · intro h
    cases hw : s.watchpointHit k a with
    | true => exact ⟨_, State.dataAccess_of_watchpoint hw⟩
    | false =>
      obtain ⟨hal, hr⟩ := h.resolve_left (Bool.eq_false_iff.mp hw)
      exact ⟨_, State.dataAccess_of_busError hw hal hr⟩

/-- The instructions with a divisor register. -/
theorem divisor_eq_some {i : Instr} {rZ : Reg} : divisor i = some rZ ↔ ∃ rX rY, i = .divu rX rY rZ ∨ i = .modu rX rY rZ := by
  constructor
  · intro h
    cases i with
    | divu rX rY r => cases h; exact ⟨rX, rY, .inl rfl⟩
    | modu rX rY r => cases h; exact ⟨rX, rY, .inr rfl⟩
    | _ => cases h
  · rintro ⟨rX, rY, rfl | rfl⟩ <;> rfl

/-- The exceptions of items 4 to 7 by the operands that they look at. -/
theorem State.raisesFirst_iff {s : State} {i : Instr} :
    s.raisesFirst i = true ↔
      i = .brk ∨
      (∃ k n base imm, dataOperand i = some (k, n, base, imm) ∧ ∃ e, s.dataAccess k n (s.effAddr base imm) = .trap e) ∨
      ∃ rZ, divisor i = some rZ ∧ s.reg rZ = 0#32 := by
  unfold State.raisesFirst
  rw [Bool.or_eq_true, Bool.or_eq_true, beq_iff_eq, or_assoc]
  refine or_congr Iff.rfl (or_congr ?access ?division)
  case access =>
    cases dataOperand i with
    | none => simp
    | some o =>
      obtain ⟨k, n, base, imm⟩ := o
      constructor
      · intro h
        dsimp only at h
        split at h
        · next e he => exact ⟨k, n, base, imm, rfl, e, he⟩
        · cases h
      · rintro ⟨_, _, _, _, ho, e, he⟩
        cases ho
        dsimp only
        rw [he]
  case division => cases divisor i <;> simp

/-- Settles O45: an access raises an exception where it traps, and the instructions with a divisor are `divu` and `modu`. -/
theorem exceptionsBeforeInterrupt : Obligations.ExceptionsBeforeInterrupt := by
  intro s i
  rw [State.raisesFirst_iff]
  refine or_congr Iff.rfl (or_congr ?access ?division)
  case access => simp only [State.dataAccess_traps_iff, State.effAddr, sextImm]
  case division =>
    simp only [divisor_eq_some]
    constructor
    · rintro ⟨rZ, ⟨rX, rY, hi⟩, hz⟩; exact ⟨rX, rY, rZ, hi, hz⟩
    · rintro ⟨rX, rY, rZ, hi, hz⟩; exact ⟨rZ, ⟨rX, rY, hi⟩, hz⟩

/-! ### Interrupts (60_exceptions.md R431) -/

/-- With IE.IE set, an interrupt line that the core has and that is both pending and enabled makes an interrupt pending. -/
theorem State.interruptPending_of_line {s : State} {j : Nat} (hie : s.ieIE = true) (hj : j < s.cfg.interrupts)
    (hip : s.ip.getLsbD j = true) (him : s.im.getLsbD j = true) : s.interruptPending = true := by
  have hbit : (s.ipWord &&& s.imWord).getLsbD j = true := by
    simp [State.ipWord, State.imWord, hip, him, hj, getLsbD_lineMask s.cfg (BitVec.lt_of_getLsbD hip)]
  have hne : s.ipWord &&& s.imWord ≠ 0#32 := fun h => by simp [h] at hbit
  rw [State.interruptPending, hie, Bool.true_and]
  exact bne_iff_ne.mpr hne

/-- Settles O47: the fetch neither hides the interrupt nor changes what the word raises itself, and the interrupt goes first. -/
theorem stepTakesInterrupt : Obligations.StepTakesInterrupt := by
  intro s w j hl hready hw hn hie hj hip him
  rw [← s.sample_cfg] at hj
  have hf := State.fetch_of_fetches hw
  have ha := State.fetch_afterFetch hf
  have hp := (interruptPending_of_afterFetch ha).trans (State.interruptPending_of_line hie hj hip him)
  have hfirst := fun i hd hu => (raisesFirst_of_afterFetch ha i).trans (hn i hd hu)
  exact ⟨_, _, ha, step_of_word_interrupt hl hready hf hp hfirst, State.enter_enteredNonDebug _ (e := .interrupt) rfl⟩

end Sys2Proof.Machine
end

section
/-! The statements of the reset and hazards family: StepTakesReset (O50) and EndOfRunIsStable (O60). A step with the reset pin
asserted is `State.takeReset`; a step at `bi 0` is a fetch and a jump to the instruction's own address. -/

namespace Sys2Proof.Machine

open Sys2Proof.Safety

/-! ### Reset (70_reset_and_hazards.md R500) -/

/-- While the reset pin is asserted a step is the reset, whatever else the core is doing. -/
theorem stepSampled_of_reset {s : State} (h : s.resetPin = true) : stepSampled s = .next s.takeReset := if_pos h

/-- Where Reset sends the pc, with the conditions of R41 as propositions. -/
theorem State.resetPc_eq (s : State) :
    s.resetPc = if s.cfg.alternateEba = true ∧ s.cfg.debug = true ∧ s.atDebug = true then s.cfg.debaReset else s.cfg.ebaReset := by
  simp only [State.resetPc, Cfg.hasDebug, Bool.and_eq_true, and_assoc]

/-- Reset leaves IP with the asserted lines that the core has, and with no latched bit. -/
theorem State.takeReset_pending (s : State) {j : Nat} (hj : j < 32) :
    s.takeReset.ip.getLsbD j = (s.intLines.getLsbD j && decide (j < s.cfg.interrupts)) := by
  rw [State.takeReset_ip, BitVec.getLsbD_and, getLsbD_lineMask s.cfg hj]

/-- Reset leaves DC.Cn, BPn and WPn zero, so that no breakpoint and no watchpoint is enabled. -/
theorem State.takeReset_debugCsrs (s : State) (n : Fin 4) :
    s.takeReset.dc.c[n] = 0#2 ∧ s.takeReset.bp[n] = { a := 0#30, e := false } ∧ s.takeReset.wp[n] = 0#32 := by
  rw [State.takeReset_dc, State.takeReset_bp, State.takeReset_wp]
  exact ⟨Vector.getElem_replicate n.isLt, Vector.getElem_replicate n.isLt, Vector.getElem_replicate n.isLt⟩

/-- Settles O50: each value is one that `State.takeReset` writes in the sampled state; the bases are whole because a legal
configuration has their low bytes zero. -/
theorem stepTakesReset : Obligations.StepTakesReset := by
  intro s hl hreset
  have hstep : step s = .next s.sample.takeReset := (step_of_legal hl).trans (stepSampled_of_reset hreset)
  have hpc := (State.takeReset_pc _).trans s.sample.resetPc_eq
  have hip := fun (j : Nat) (hj : j < 32) => s.sample.takeReset_pending hj
  obtain ⟨heba, hdeba⟩ := resetAddresses_of_cfgLegal hl
  rw [← s.sample_cfg] at heba hdeba
  rw [← s.sample_cfg]
  exact ⟨_, hstep, hpc, rfl, rfl, rfl, rfl, hip, heba, hdeba, rfl, rfl, s.sample.takeReset_debugCsrs, rfl, rfl, rfl, rfl, rfl, rfl,
    rfl, State.byteAt_congr (State.takeReset_mem _)⟩

/-! ### The end of a run (70_reset_and_hazards.md R531) -/

/-- The word that ends a run is `bi 0`. -/
theorem decode_endOfRun : decode 0xE0000000#32 = .instr (.bi 0#26) := decode_0x38 rfl

/-- The target of `bi 0` is its own address. -/
theorem State.target26_zero (s : State) : s.target26 0#26 = s.pc := BitVec.add_zero s.pc

/-- `bi 0` jumps to its own address. -/
theorem exec_bi_zero (s : State) : exec (.bi 0#26) s = .next (s.jump s.pc) :=
  congrArg (fun a => Host.Outcome.next (s.jump a)) s.target26_zero

/-- With IE.IE = 0 no interrupt is taken (60_exceptions.md R431). -/
theorem State.interruptPending_of_disabled {s : State} (h : s.ieIE = false) : s.interruptPending = false := by
  rw [State.interruptPending, h, Bool.false_and]

/-- Sampling the inputs neither fills nor drops a line of the instruction cache. -/
theorem State.codeMisses_sample (s : State) (a : Word) : CodeMisses s.sample a ↔ CodeMisses s a := by
  obtain ⟨hcfg, -, -, -, -, -, -, -, -, -, -, -, -, -, -, -, -, hcode, -, -⟩ := s.sample_frame
  rw [CodeMisses, CodeMisses, hcfg, hcode]

/-- A line that is filled sends no event where no device answers a word of it. -/
theorem events_of_no_device {s t : State} {c : CacheCfg} {answer : Word → Response} {event : Word → Event} {a : Word}
    (hr : ReadsDevices s t c answer event a) (hn : ∀ w, lineAddress c w = lineAddress c a → answer w ≠ .device) :
    t.events = s.events := by
  obtain ⟨ws, hevents, -, hmem⟩ := hr
  have hws : ws = [] := List.eq_nil_iff_forall_not_mem.mpr fun w hw => by
    obtain ⟨-, hline, hdevice⟩ := (hmem w).mp hw
    exact hn w hline hdevice
  rw [hevents, hws, List.map_nil, List.nil_append]

/-- A fetch that memory answers sends no event, unless it fills a line of which a device answers a word (20_memory.md R121). -/
theorem events_of_afterFetch {s u : State} (h : AfterFetch s u) (hl : cfgLegal s.cfg = true)
    (hm : respond s.cfg .fetch .word s.pc = .memory)
    (hn : ¬ CodeMisses s s.pc ∨ ∀ w, lineAddress s.cfg.icache w = lineAddress s.cfg.icache s.pc →
      respond s.cfg .fetch .word w ≠ .device) : u.events = s.events := by
  by_cases hmiss : CodeMisses s s.pc
  · exact events_of_no_device (h.events hmiss hl) (hn.resolve_left (not_not_intro hmiss))
  · exact h.noEvent hmiss (.inr hm)

/-- What a step at `bi 0` with IE.IE = 0 differs in: the fetch and the jump to the same address change nothing but what the caches
may hold, the fetch's events, `lastMem` and the counter of free values. -/
theorem step_endOfRun {s : State} (hl : cfgLegal s.cfg = true) (hr : Ready s.sample) (hw : Fetches s.sample 0xE0000000#32)
    (hie : s.sample.ieIE = false) :
    ∃ u t, AfterFetch s.sample u ∧ step s = .next t ∧ t = { s.sample with
      staleCode := t.staleCode, codeLines := t.codeLines, codeWay := t.codeWay, icc := t.icc, staleData := t.staleData
      dataLines := t.dataLines, lastMem := false, events := u.events, free := t.free } := by
  obtain ⟨u, _, -, ha, rfl, hexec, -⟩ := stepRunsDecodedInstruction s _ _ hl hr hw decode_endOfRun rfl
    (.inl (State.interruptPending_of_disabled hie))
  refine ⟨u, _, ha, hexec.next _ (exec_bi_zero _), ?frame⟩
  obtain ⟨lines, way, events, free, rfl⟩ : ∃ lines way events free, u = { s.sample with
      codeLines := lines, codeWay := way, events := events, free := free } := ⟨_, _, _, _, ha.frame⟩
  rfl

/-- Settles O60: the step changes no field that the statement names, and only a fetch that fills a line from a device sends an
event. -/
theorem endOfRunIsStable : Obligations.EndOfRunIsStable := by
  intro s hl hr hw hoff
  obtain ⟨hcfg, hregs, hpc, hie, heie, hbie, him, heba, hdc, hdeba, hbp, hwp, -, -, hevents, -⟩ := s.sample_frame
  obtain ⟨u, t, ha, hstep, hframe⟩ := step_endOfRun hl hr hw (hie.trans hoff)
  refine ⟨t, hstep, ?_⟩
  rw [hframe]
  refine ⟨hpc, hregs, hie.trans hoff, heie, hbie, him, heba, hdc, hdeba, hbp, hwp, rfl, fun hn => ?events⟩
  case events =>
    rw [← s.codeMisses_sample, ← hcfg, ← hpc] at hn
    rw [← hcfg] at hl
    exact (events_of_afterFetch ha hl hw.memory hn).trans hevents

end Sys2Proof.Machine
end
